-- ==== Sys2Proof/Word.lean ====
section
/-! DEFINITION. The word types of the engine (spec 00_scope.md section 5). -/

namespace Sys2Proof

/-- A byte: 8 bits, bit 7 the most significant (00_scope.md section 5). -/
abbrev Byte := BitVec 8

/-- A 64-bit unsigned number: an `ARG` register, a length, a table half (R13, R10). -/
abbrev W64 := BitVec 64

/-- A 16-byte block. Byte 0, the byte at the lowest address, is the most significant one, so
that the block read as a number is the big-endian integer of its bytes (R21, R53). -/
abbrev Block := BitVec 128

/-- The direction of a message: field `dir` of a command word, field `direction` of a context,
field `g_dir` of an image (R10, R30, R40). Code 0 is `ENC`, code 1 is `DEC`. -/
inductive Direction where
  | enc
  | dec
  deriving DecidableEq, Repr, Inhabited

end Sys2Proof
end

