-- ==== Sys2Proof/Config.lean ====
section
/-! DEFINITION. What an implementation fixes (R4), and the free values of the spec.

The parameters that select behaviour are plain data (`Params`) and stand in the state as a field
that no step changes, so that every statement about all states holds for every instance of the
hardware (log 1). What has no value a model may use (the cipher, the hardware key, the timeout,
the free values) is an uninterpreted constant: Lean can evaluate none of them. -/

namespace Sys2Proof

/-- The build-time strategy (R2): `a`, the accelerator does the whole GCM transform; `b`, it
encrypts single blocks and the engine does counter mode and GHASH. -/
inductive Strategy where
  | a
  | b
  deriving DecidableEq, Repr, Inhabited

/-- The treatment of a block that a call leaves open (R4, R70; 90_conflicts.md C1, C2). -/
inductive PartialPolicy where
  | carry
  | perCall
  deriving DecidableEq, Repr, Inhabited

/-- The adapter's cipher mode (R40, R41): `ecb` is code 0, `gcm` is code 1. -/
inductive CipherMode where
  | ecb
  | gcm
  deriving DecidableEq, Repr, Inhabited

/-- The implementation parameters of R4 that a rule's outcome depends on. -/
structure Params where
  strategy : Strategy
  policy : PartialPolicy
  /-- `N_SESSIONS`, 1 to 255. -/
  nSessions : Nat
  /-- `ADDR_BITS`, at least 1. -/
  addrBits : Nat
  /-- `HAS_HW_KEY`. -/
  hasHwKey : Bool
  deriving DecidableEq, Repr, Inhabited

/-- The ranges R4 gives for the open parameters. -/
abbrev Params.Valid (p : Params) : Prop :=
  1 ≤ p.nSessions ∧ p.nSessions ≤ 255 ∧ 1 ≤ p.addrBits

/-- The parameter values of 95_test_vectors.md, used by `State.reset` (log 1). -/
def Params.default : Params where
  strategy := .b
  policy := .carry
  nSessions := 2
  addrBits := 32
  hasHwKey := false

/-- The adapter's control-register image (R40). `key` is empty when `keyBits` is 0. -/
structure Image where
  configured : Bool
  keyBits : BitVec 9
  key : List Byte
  mode : CipherMode
  gActive : Bool
  gDir : Direction
  gY : Block
  gEctr0 : Block
  gAcc : Block
  deriving DecidableEq, Repr, Inhabited

/-- The blank image: every field 0 and `key` empty (R40). -/
def Image.blank : Image where
  configured := false
  keyBits := 0
  key := []
  mode := .ecb
  gActive := false
  gDir := .enc
  gY := 0
  gEctr0 := 0
  gAcc := 0

/-- The block cipher of R5, a permutation of the blocks for every key, of which nothing else is
known: `E(K, b)` is `cipher K b`, `D(K, b)` is `(cipher K).symm b`, and the one law of R5,
`D(K, E(K, b)) = b`, holds because it is a permutation (log 4). -/
opaque Config.cipher : List Byte → Equiv.Perm Block

/-- `HW_KEY` (R4): the key inside the accelerator, used only when `HAS_HW_KEY` (log 5). -/
opaque Config.hwKey : List Byte

/-- `ADAPTER_TIMEOUT` (R4, R106): a duration whose value no rule depends on (log 27). -/
opaque Config.adapterTimeout : Nat

/-- Free value: `A.live` after a failed port operation is any image (R45, U5; log 7). -/
opaque Config.anyImage : Nat → Image

/-- Free value: `OUT_LEN` after a completion that is not `OK` (R13, U7; log 8), `ARG` and
`OUT_LEN` after a `reset` event (R109, U8; log 20). -/
opaque Config.anyWord : Nat → W64

/-- Free value: `ARB.holder` while `ARB.held` is 0 (R14; log 21). -/
opaque Config.anyHolder : Nat → BitVec 8

end Sys2Proof
end

