-- ==== Sys2Proof/Syntax.lean ====
section
/-! DEFINITION. The instructions: one constructor for each row of spec/opcode_table.json. -/

namespace Sys2Proof

/-- The nine host commands (R33), the fourteen port operations (R35) and the six
micro-operations (R36). The only operand that stands in an encoding is the `dir` bit of `STARTS`
and `CRYPT_AND_TAG` (R30, R39): a command takes every other operand from the `ARG` registers of
its mailbox (R32), a port or micro operation from its operands (R35). -/
inductive Instr where
  /-- `INIT`, opcode 0x01 (R61). -/
  | init
  /-- `FREE`, opcode 0x02 (R62). -/
  | free
  /-- `SETKEY`, opcode 0x03 (R63, R74). -/
  | setkey
  /-- `STARTS`, opcode 0x04 (R64, R75). -/
  | starts (dir : Direction)
  /-- `UPDATE_AD`, opcode 0x05 (R65, R76). -/
  | updateAd
  /-- `UPDATE`, opcode 0x06 (R68, R78). -/
  | update
  /-- `FINISH`, opcode 0x07 (R69, R79). -/
  | finish
  /-- `CRYPT_AND_TAG`, opcode 0x08 (R91). -/
  | cryptAndTag (dir : Direction)
  /-- `AUTH_DECRYPT`, opcode 0x09 (R92). -/
  | authDecrypt
  /-- `CONFIGURE`, port code 0x10 (R41). -/
  | configure
  /-- `ENCRYPT`, port code 0x11 (R42). -/
  | encrypt
  /-- `DECRYPT`, port code 0x12 (R43). -/
  | decrypt
  /-- `DEINITIALIZE`, port code 0x13 (R44). -/
  | deinitialize
  /-- `SUSPEND`, port code 0x14 (R46). -/
  | suspend
  /-- `RESUME`, port code 0x15 (R47). -/
  | resume
  /-- `GCM_BEGIN`, port code 0x16 (R48). -/
  | gcmBegin
  /-- `GCM_HEADER`, port code 0x17 (R49). -/
  | gcmHeader
  /-- `GCM_PAYLOAD`, port code 0x18 (R50). -/
  | gcmPayload
  /-- `GCM_TAG`, port code 0x19 (R51). -/
  | gcmTag
  /-- `MUTEX_CREATE`, port code 0x20 (R82). -/
  | mutexCreate
  /-- `MUTEX_DESTROY`, port code 0x21 (R83). -/
  | mutexDestroy
  /-- `ACQUIRE`, port code 0x22 (R84). -/
  | acquire
  /-- `RELEASE`, port code 0x23 (R85). -/
  | release
  /-- `GHASH_BUILD`, micro code 0x30 (R55). -/
  | ghashBuild
  /-- `GHASH_MULT`, micro code 0x31 (R57). -/
  | ghashMult
  /-- `INC32`, micro code 0x32 (R66). -/
  | inc32
  /-- `CLOSE_AAD`, micro code 0x33 (R67). -/
  | closeAad
  /-- `TAG_VERIFY`, micro code 0x34 (R89). -/
  | tagVerify
  /-- `GUARD`, micro code 0x35 (R86). -/
  | guard
  deriving DecidableEq, Repr, Inhabited

end Sys2Proof
end

