-- ==== Sys2Proof/WellFormed.lean ====
section
/-! DEFINITION. The checks on instructions, on command words and on the operands of port
operations, each a Bool. -/

namespace Sys2Proof

/-- An instruction carries no operand but a direction, which has no ill-formed value: every
instruction is well formed. The words that encode none are refused by `CmdWord.wellFormed` and by
the decoder (R34), the operands of a port operation by the checks below. -/
def Instr.wellFormed : Instr → Bool
  | .init => true
  | .free => true
  | .setkey => true
  | .starts _ => true
  | .updateAd => true
  | .update => true
  | .finish => true
  | .cryptAndTag _ => true
  | .authDecrypt => true
  | .configure => true
  | .encrypt => true
  | .decrypt => true
  | .deinitialize => true
  | .suspend => true
  | .resume => true
  | .gcmBegin => true
  | .gcmHeader => true
  | .gcmPayload => true
  | .gcmTag => true
  | .mutexCreate => true
  | .mutexDestroy => true
  | .acquire => true
  | .release => true
  | .ghashBuild => true
  | .ghashMult => true
  | .inc32 => true
  | .closeAad => true
  | .tagVerify => true
  | .guard => true

/-- The rows of R33, as (mask, match). -/
def CmdWord.rows : List (BitVec 32 × BitVec 32) :=
  [(0xFFFFFFFF, 0x00000001), (0xFFFFFFFF, 0x00000002), (0xFFFFFFFF, 0x00000003),
   (0xFFFFFEFF, 0x00000004), (0xFFFFFFFF, 0x00000005), (0xFFFFFFFF, 0x00000006),
   (0xFFFFFFFF, 0x00000007), (0xFFFFFEFF, 0x00000008), (0xFFFFFFFF, 0x00000009)]

/-- A command word is legal when it matches a row of R33; every other word is illegal (R34). -/
def CmdWord.wellFormed (w : BitVec 32) : Bool :=
  CmdWord.rows.any fun r => w &&& r.1 == r.2

/-- One operation on the adapter that a guarded section's body may hold, with its operands
(R41 to R43, R48 to R51, R86). -/
inductive PortCall where
  | configure (key : List Byte) (keyBits : BitVec 9) (mode : CipherMode)
  | encrypt (blocks : List Byte)
  | decrypt (blocks : List Byte)
  | gcmBegin (dir : Direction) (y0 : Block)
  | gcmHeader (data : List Byte)
  | gcmPayload (data : List Byte) (valid : BitVec 4)
  | gcmTag (aadBits payloadBits : W64)
  deriving DecidableEq, Repr, Inhabited

/-- A length that is a positive multiple of 16 (R42, R50). -/
def wholeBlocks (b : List Byte) : Bool :=
  b.length != 0 && b.length % 16 == 0

/-- The operand domains of R41, R42, R43, R49 and R50. -/
def PortCall.wellFormed : PortCall → Bool
  | .configure key keyBits _ =>
      [0, 128, 192, 256].contains keyBits.toNat && key.length == keyBits.toNat / 8
  | .encrypt blocks => wholeBlocks blocks
  | .decrypt blocks => wholeBlocks blocks
  | .gcmBegin _ _ => true
  | .gcmHeader data => data.length != 0
  | .gcmPayload data _ => wholeBlocks data
  | .gcmTag _ _ => true

end Sys2Proof
end

