-- ==== Sys2Proof/Machine/State.lean ====
section
/-! DEFINITION. The state of the engine as plain data, the reasons a step can stop, and reset. -/

namespace Sys2Proof.Machine

/-- The control state of a session (R11). -/
inductive Phase where
  | uninit
  | unkeyed
  | keyed
  | started
  | absorbingAAD
  | absorbingPayload
  | finished
  | failed
  deriving DecidableEq, Repr, Inhabited

/-- The multiplication table: `HH[0..16)` and `HL[0..16)` (R10, R54). -/
structure Table where
  hh : Vector W64 16
  hl : Vector W64 16
  deriving DecidableEq, Repr, Inhabited

/-- The all-zero table. -/
def Table.zero : Table where
  hh := Vector.replicate 16 0
  hl := Vector.replicate 16 0

/-- The context of one session, `S[s]` (R10). -/
structure Ctx where
  phase : Phase
  direction : Direction
  image : Image
  imageValid : Bool
  table : Table
  y : Block
  baseEctr : Block
  buf : Block
  len : W64
  addLen : W64
  tagLen : BitVec 5
  /-- an `ADDR_BITS`-bit number: below `2^ADDR_BITS` at reset and after every write (R10) -/
  hdrAddr : Nat
  hdrLen : W64
  hdrPending : Bool
  deriving DecidableEq, Repr, Inhabited

/-- Every field 0 and `phase = Uninit`: the state after reset and the state `FREE` leaves
(R18, R19). -/
def Ctx.zero : Ctx where
  phase := .uninit
  direction := .enc
  image := Image.blank
  imageValid := false
  table := Table.zero
  y := 0
  baseEctr := 0
  buf := 0
  len := 0
  addLen := 0
  tagLen := 0
  hdrAddr := 0
  hdrLen := 0
  hdrPending := false

/-- The nine argument registers of a mailbox (R13). -/
abbrev Args := Vector W64 9

/-- The registers of one mailbox that hold something (R13); `CMD` is write-only and reads as 0. -/
structure Mailbox where
  args : Args
  status : BitVec 32
  outLen : W64
  deriving DecidableEq, Repr, Inhabited

/-- After reset `STATUS` is 0 (R19). `ARG` and `OUT_LEN` are unspecified: at power-on this model
takes 0 for them (DESIGN CHOICE, unsafe, log 2). -/
def Mailbox.reset : Mailbox where
  args := Vector.replicate 9 0
  status := 0
  outLen := 0

/-- The arbiter (R15). -/
structure Arbiter where
  refcount : Nat
  mutexExists : Bool
  holder : Option Nat
  deriving DecidableEq, Repr, Inhabited

/-- The arbiter after reset (R19). -/
def Arbiter.reset : Arbiter where
  refcount := 0
  mutexExists := false
  holder := none

/-- What the accelerator answers to one port operation (R45): the outcome `ok` of R41, R46 and R47
is the answer `done`. -/
inductive Answer where
  | done
  | timedOut
  | error
  deriving DecidableEq, Repr, Inhabited

/-- One entry of the event history that the codes of R35 and R36 exist for: session `session`
performed the operation `code`. -/
structure HistoryEntry where
  session : Nat
  code : BitVec 8
  deriving DecidableEq, Repr, Inhabited

/-- The causes of R94, R95 and R96. `overlap` is the cause `ALIAS`. -/
inductive Cause where
  | opcode
  | sequence
  | cipherId
  | keyBits
  | tagLen
  | aadBound
  | payloadBound
  | overlap
  | outputCap
  | reservedBits
  | addrRange
  | ivLen
  | tagLenA
  | partialChunkA
  | aadChunkingA
  | hwKey
  | timeout
  | adapterError
  | suspendFail
  | resumeFail
  | tagMismatch
  deriving DecidableEq, Repr, Inhabited

/-- What one micro-step gives back to the command it belongs to. -/
inductive Reply where
  /-- nothing but success -/
  | unit
  /-- bytes read or computed -/
  | bytes (b : List Byte)
  /-- a copy of the session's own context -/
  | ctx (c : Ctx)
  /-- an image (R46) -/
  | image (img : Image)
  /-- a table (R55) -/
  | table (t : Table)
  /-- `pass` or `fail` (R89) -/
  | verdict (pass : Bool)
  /-- a port operation failed with this cause (R45) -/
  | failed (c : Cause)
  deriving DecidableEq, Repr, Inhabited

/-- The command in execution on a session: the instruction, the arguments latched at its issue
(R26), the context as it was before the command (which R98 refers to), and the replies of the
micro-steps taken so far, oldest first: they say how far the command has come. -/
structure InFlight where
  instr : Instr
  args : Args
  before : Ctx
  log : List Reply
  deriving DecidableEq, Repr, Inhabited

/-- The buffer memory: (address, byte) pairs, addresses strictly rising, no entry equal to what an
unlisted address reads as (R20, log 3). -/
abbrev Memory := List Host.Cell

/-- Everything the micro-steps of a command can read and write: the contexts, the arbiter, the
adapter's live image, the buffer memory, with the parameters, the accelerator's future answers
(oldest first, log 6), the counter of free values (log 7) and the history (newest first, log 19). -/
structure Engine where
  params : Params
  ctxs : List Ctx
  arb : Arbiter
  live : Image
  mem : Memory
  answers : List Answer
  fresh : Nat
  history : List HistoryEntry
  deriving DecidableEq, Repr, Inhabited

/-- One move of an agent (R6), in the script `State.bus` that says which agent moves next. -/
inductive BusEvent where
  /-- a host writes a register (R13, R14); a write of `CMD` issues a command, and the write
  completes when the command has completed (R31) -/
  | hostWrite (reg : Nat) (value : W64)
  /-- a host reads a register -/
  | hostRead (reg : Nat)
  /-- `Host(s)` writes `CMD[s]`, and `Exec(s)` then moves only at `microStep` events -/
  | cmdStart (s : Nat) (w : BitVec 32)
  /-- `Exec(s)` takes one micro-step -/
  | microStep (s : Nat)
  /-- another bus master writes a byte of buffer memory (R28) -/
  | masterWrite (addr : Nat) (b : Byte)
  /-- the engine is reset (R109) -/
  | reset
  deriving DecidableEq, Repr, Inhabited

/-- The operands of a port or micro operation that is performed by itself (R35; log 14). -/
structure Operands where
  /-- `key` of `CONFIGURE` -/
  key : List Byte
  /-- `key_bits` of `CONFIGURE` -/
  keyBits : BitVec 9
  /-- `mode` of `CONFIGURE` -/
  mode : CipherMode
  /-- `in_blocks` of `ENCRYPT` and `DECRYPT`, `data` of `GCM_HEADER` and `GCM_PAYLOAD` -/
  data : List Byte
  /-- `valid` of `GCM_PAYLOAD` -/
  valid : BitVec 4
  /-- `img` of `RESUME` -/
  img : Image
  /-- `dir` of `GCM_BEGIN` -/
  dir : Direction
  /-- `y0` of `GCM_BEGIN`, `H` of `GHASH_BUILD`, `x` of `GHASH_MULT`, `y` of `INC32` -/
  block : Block
  /-- `aad_bits` of `GCM_TAG` -/
  aadBits : W64
  /-- `payload_bits` of `GCM_TAG` -/
  payloadBits : W64
  /-- the table of `GHASH_MULT` -/
  table : Table
  /-- `a` of `TAG_VERIFY` -/
  a : List Byte
  /-- `b` of `TAG_VERIFY` -/
  b : List Byte
  /-- `n` of `TAG_VERIFY` -/
  n : Nat
  /-- `body` of `GUARD` -/
  body : List PortCall
  deriving DecidableEq, Repr, Inhabited

/-- The operands a bare operation has before anything sets them: zeros, in the shapes the
operations take (DESIGN CHOICE, log 14). -/
def Operands.blank : Operands where
  key := []
  keyBits := 0
  mode := .ecb
  data := List.replicate 16 0
  valid := 0
  img := Image.blank
  dir := .enc
  block := 0
  aadBits := 0
  payloadBits := 0
  table := Table.zero
  a := List.replicate 16 0
  b := List.replicate 16 0
  n := 16
  body := [.encrypt (List.replicate 16 0)]

/-- The reasons the machine stops with a fault. -/
inductive Fault where
  /-- Raised by a host access to a register number that R13 and R14 do not give. Safe: the spec
  gives such a number no register (log 23). -/
  | noSuchRegister
  /-- Raised when the session that is to move does not exist (`s >= N_SESSIONS`, R10). Safe: there
  is no such agent (log 23). -/
  | noSuchSession
  /-- Raised by a byte access outside `2^ADDR_BITS` (R20), which a command's range check excludes
  for every buffer it takes from its arguments. Safe: the spec has no such byte (log 26). -/
  | badAddress
  deriving DecidableEq, Repr, Inhabited

/-- The situations the model does not admit. -/
inductive Refusal where
  /-- Raised by `exec` for an instruction that has no meaning yet. Safe. -/
  | notModelled (mnemonic : String)
  /-- Raised by a host's access to a mailbox whose command is in execution: its host takes no step
  then, so that it is a second owner (R7, R31, U1). Safe: the spec says that a model refuses it
  (log 18). -/
  | secondOwner
  /-- Raised by an adapter operation of a session that does not hold the mutex (R52, U2). Safe:
  the spec says that a model does not admit it (log 15). -/
  | notHolder
  /-- Raised by `MUTEX_CREATE`, `MUTEX_DESTROY` or `RELEASE` outside its precondition (R82, R83,
  R85). Safe: the spec gives no effect there (log 16). -/
  | mutexPrecondition
  /-- Raised by a port or micro operation whose operands are outside its rule's domain (R41, R42,
  R43, R49, R50, R89). Safe: the spec gives no effect there (log 17). -/
  | operandShape
  /-- Raised by an operation code outside R35 and R36: "nothing can issue them" (R34). Safe. -/
  | noSuchOperation
  deriving DecidableEq, Repr, Inhabited

/-- The whole state: the engine, the mailboxes, the commands in execution, and the script of the
agents' moves with the model's own registers for a bare operation. -/
structure State where
  eng : Engine
  /-- the mailboxes, one for each session (R13) -/
  mbox : List Mailbox
  /-- the command in execution on each session (R7, R31) -/
  run : List (Option InFlight)
  /-- the pending moves of the agents, next first (log 11) -/
  bus : List BusEvent
  /-- the session whose `Exec` moves -/
  cur : Nat
  /-- the code of a port or micro operation that is performed next, by itself, before any move of the
  script (logs 14 and 32) -/
  pendingOp : Option (BitVec 8)
  /-- its operands -/
  opnd : Operands
  /-- its result and success flag (R35) -/
  result : Option Reply
  /-- what the last host read returned -/
  readData : W64
  deriving DecidableEq, Repr, Inhabited

/-- The engine after reset (R19), for any parameters. Memory lists nothing. -/
def Engine.resetWith (p : Params) : Engine where
  params := p
  ctxs := List.replicate p.nSessions Ctx.zero
  arb := Arbiter.reset
  live := Image.blank
  mem := []
  answers := []
  fresh := 0
  history := []

/-- The machine after reset (R19), for any parameters: no command in execution, nothing pending. -/
def State.resetWith (p : Params) : State where
  eng := Engine.resetWith p
  mbox := List.replicate p.nSessions Mailbox.reset
  run := List.replicate p.nSessions none
  bus := []
  cur := 0
  pendingOp := none
  opnd := Operands.blank
  result := none
  readData := 0

/-- The machine right after reset (R19), at the parameter values of 95_test_vectors.md (log 1). -/
def State.reset : State := State.resetWith Params.default

end Sys2Proof.Machine
end

