-- ==== Sys2Proof/Machine/Bytes.lean ====
section
/-! DEFINITION. Byte strings, blocks and their big-endian conversions (R21, 00_scope.md section 5). -/

namespace Sys2Proof.Machine

/-- The block whose byte `i` is byte `i` of the string, zero bytes after its end (R21): what a
rule writes as `chunk ‖ 00^(16 - len(chunk))`. -/
def blockOfBytes (l : List Byte) : Block :=
  (List.range 16).foldl (fun acc i => (acc <<< 8) ||| (l.getD i 0).setWidth 128) 0

/-- The sixteen bytes of a block, byte 0 first (R21). -/
def bytesOfBlock (b : Block) : List Byte :=
  (List.range 16).map fun i => b.extractLsb' (120 - 8 * i) 8

/-- Byte-string XOR, position by position (R117 (a)). -/
def xorBytes (a b : List Byte) : List Byte :=
  List.zipWith (· ^^^ ·) a b

/-- What `GHASH` absorbs of a call or block: its input when it decrypts, its output when it encrypts
(R50, R68). -/
def ciphertext (dir : Direction) (input output : List Byte) : List Byte :=
  match dir with
  | .enc => output
  | .dec => input

/-- The block with the string at byte offset `off` and zero bytes elsewhere: XORing it into a
block changes the bytes `off ..` alone (R65, R68). -/
def placeBytes (off : Nat) (l : List Byte) : Block :=
  blockOfBytes (List.replicate off 0 ++ l)

/-- `be64(hi) ‖ be64(lo)` as a block (R21 (a), (b), (d)). -/
def blockOfHalves (hi lo : W64) : Block := hi ++ lo

/-- `BE64` of bytes 0 to 7 (R21). -/
def highHalf (b : Block) : W64 := b.extractLsb' 64 64

/-- `BE64` of bytes 8 to 15 (R21). -/
def lowHalf (b : Block) : W64 := b.extractLsb' 0 64

/-- The pre-counter block `Y0 = IV ‖ 00 00 00 01` (R64, R75). -/
def preCounter (iv : List Byte) : Block :=
  blockOfBytes (iv ++ [0, 0, 0, 1])

/-- The length block `be64(8 * add_len) ‖ be64(8 * len)` (R69). -/
def lengthBlock (addLen len : W64) : Block :=
  blockOfHalves (8 * addLen) (8 * len)

/-- `INC32` (R66): adds 1 modulo `2^32` to the big-endian number in bytes 12 to 15; the other
bytes do not change. -/
def inc32 (y : Block) : Block :=
  (y.extractLsb' 32 96 : BitVec 96) ++ (y.extractLsb' 0 32 + 1 : BitVec 32)

end Sys2Proof.Machine
end

