-- ==== Sys2Proof/Machine/Ghash.lean ====
section
/-! DEFINITION. Arithmetic in GF(2^128): the reference product and the table engine (41_ghash.md). -/

namespace Sys2Proof.Machine

/-- Multiplication by `t`: a right shift by one bit, a bit shifted out reduced by `0xE1 ‖ 00^15`
(R53). -/
def mulT (v : Block) : Block :=
  if v.getLsbD 0 then (v >>> 1) ^^^ (0xE1#128 <<< 120) else v >>> 1

/-- One round of `GF_MULT` on `(Z, V)`, for bit `i` of `X` counted from its most significant
one (R53). -/
def gfRound (x : Block) (zv : Block × Block) (i : Nat) : Block × Block :=
  (if x.getLsbD (127 - i) then zv.1 ^^^ zv.2 else zv.1, mulT zv.2)

/-- `GF_MULT(X, Y)`, the product `X ⊗ Y` in GF(2^128) under the GCM field convention (R53; the
convention is marked there as general knowledge, log 24). -/
def gfMult (x y : Block) : Block :=
  ((List.range 128).foldl (gfRound x) (0, y)).1

/-- Halving: the 128-bit right shift with reduction of `GHASH_BUILD`, on the two halves (R55). -/
def halve (v : W64 × W64) : W64 × W64 :=
  ((v.1 >>> 1) ^^^ (if v.2 &&& 1 = 1 then 0xE100000000000000 else 0), (v.1 <<< 63) ||| (v.2 >>> 1))

/-- The XOR of two table entries. -/
def xorEntry (a b : W64 × W64) : W64 × W64 := (a.1 ^^^ b.1, a.2 ^^^ b.2)

/-- The sixteen entries of `GHASH_BUILD` from entry 8 (R55): 4, 2 and 1 by halving, the others by
`T[i+j] = T[i] ^ T[j]`. -/
def tableEntries (t8 : W64 × W64) : Vector (W64 × W64) 16 :=
  let t4 := halve t8
  let t2 := halve t4
  let t1 := halve t2
  let t3 := xorEntry t2 t1
  let t5 := xorEntry t4 t1
  let t6 := xorEntry t4 t2
  let t7 := xorEntry t4 t3
  #v[(0, 0), t1, t2, t3, t4, t5, t6, t7,
     t8, xorEntry t8 t1, xorEntry t8 t2, xorEntry t8 t3,
     xorEntry t8 t4, xorEntry t8 t5, xorEntry t8 t6, xorEntry t8 t7]

/-- `GHASH_BUILD(H)` (R55; 90_conflicts.md C3, C9). -/
def ghashBuild (h : Block) : Table where
  hh := (tableEntries (highHalf h, lowHalf h)).map (·.1)
  hl := (tableEntries (highHalf h, lowHalf h)).map (·.2)

/-- `LAST4[0..16)`, the correction constants of R56. -/
def last4 : Vector (BitVec 16) 16 :=
  #v[0x0000, 0x1c20, 0x3840, 0x2460, 0x7080, 0x6ca0, 0x48c0, 0x54e0,
     0xe100, 0xfd20, 0xd940, 0xc560, 0x9180, 0x8da0, 0xa9c0, 0xb5e0]

/-- Nibble `m` of the operand in the order of R57: the low nibble of byte 15 is nibble 0, its high
nibble nibble 1, and so on to the high nibble of byte 0 (90_conflicts.md C4). -/
def nibble (x : Block) (m : Nat) : Fin 16 := (x.extractLsb' (4 * m) 4).toFin

/-- One step of `GHASH_MULT` on `(zh, zl)` (R57): shift right by four bits, correct by `LAST4`,
add the entry of the next nibble. -/
def multRound (t : Table) (x : Block) (z : W64 × W64) (m : Nat) : W64 × W64 :=
  let rem : Fin 16 := (z.2.extractLsb' 0 4).toFin
  let zl := (z.1 <<< 60) ||| (z.2 >>> 4)
  let zh := (z.1 >>> 4) ^^^ ((last4[rem]).setWidth 64 <<< 48)
  (zh ^^^ t.hh[nibble x m], zl ^^^ t.hl[nibble x m])

/-- `GHASH_MULT((HH, HL), x)` (R57): 32 table lookups and 31 corrections whatever `x` is. -/
def ghashMult (t : Table) (x : Block) : Block :=
  let z := (List.range' 1 31).foldl (multRound t x) (t.hh[nibble x 0], t.hl[nibble x 0])
  blockOfHalves z.1 z.2

end Sys2Proof.Machine
end

