-- ==== Sys2Proof/Machine/Memory.lean ====
section
/-! DEFINITION. The buffer memory (R20): one byte read and written, in one canonical form. -/

namespace Sys2Proof.Machine

/-- What a byte that nothing has written reads as: 00 (DESIGN CHOICE, unsafe, log 3; the spec
gives the buffer memory no initial contents). -/
def Memory.unwritten : Byte := 0

/-- The byte at an address. -/
def Memory.read : Memory → Nat → Byte
  | [], _ => Memory.unwritten
  | (a, b) :: rest, x => if a = x then b else Memory.read rest x

/-- The memory after a byte is written. Writing what an unlisted address reads as removes the
entry, so that equal memories are equal lists. -/
def Memory.write : Memory → Nat → Byte → Memory
  | [], x, v => if v = Memory.unwritten then [] else [(x, v)]
  | (a, b) :: rest, x, v =>
    if x < a then
      if v = Memory.unwritten then (a, b) :: rest else (x, v) :: (a, b) :: rest
    else if x = a then
      if v = Memory.unwritten then rest else (x, v) :: rest
    else (a, b) :: Memory.write rest x v

/-- The canonical form: addresses strictly rising, no entry equal to an unlisted byte. -/
def Memory.wf : Memory → Bool
  | [] => true
  | [(_, b)] => b != Memory.unwritten
  | (a, b) :: (c, d) :: rest =>
    b != Memory.unwritten && decide (a < c) && Memory.wf ((c, d) :: rest)

/-- The `n` bytes from an address on, lowest address first (00_scope.md section 5, `MemRead`). -/
def Memory.readBytes (m : Memory) : Nat → Nat → List Byte
  | _, 0 => []
  | a, n + 1 => m.read a :: m.readBytes (a + 1) n

/-- The memory after a byte string is written from an address on (`MemWrite`). -/
def Memory.writeBytes : Memory → Nat → List Byte → Memory
  | m, _, [] => m
  | m, a, b :: rest => Memory.writeBytes (m.write a b) (a + 1) rest

end Sys2Proof.Machine
end

