-- ==== Sys2Proof/Decode.lean ====
section
/-! DEFINITION. The decoder of command words and of operation codes, and after it the encoder.

A command is the word written to `CMD`, never read from memory (R26), and an operation code is
one byte that `Exec(s)` issues (R35, R36): a word is given to the decoder as a number, its byte
order on a bus is the platform's matter (R21). -/

namespace Sys2Proof

/-- Why a word is no instruction: the first two are the causes of R34 and R94; `operation` is a
port or micro code outside the tables of R35 and R36, which "do not exist". -/
inductive DecodeError where
  | opcode
  | reservedBits
  | operation
  deriving DecidableEq, Repr

/-- Bits [7:0] of a command word (R30). -/
def CmdWord.opcode (w : BitVec 32) : BitVec 8 := w.extractLsb' 0 8

/-- Bit [8] of a command word: 0 is `ENC`, 1 is `DEC` (R30). -/
def CmdWord.dir (w : BitVec 32) : Direction := if w.getLsbD 8 then .dec else .enc

/-- Bits [31:9] of a command word, which must be 0 (R30). -/
def CmdWord.reserved (w : BitVec 32) : BitVec 23 := w.extractLsb' 9 23

/-- The opcode map of R33; `none` for the opcodes 0x00 and 0x0A to 0xFF (R34). -/
def hostCommand (opcode : Nat) (dir : Direction) : Option Instr :=
  match opcode with
  | 0x01 => some .init
  | 0x02 => some .free
  | 0x03 => some .setkey
  | 0x04 => some (.starts dir)
  | 0x05 => some .updateAd
  | 0x06 => some .update
  | 0x07 => some .finish
  | 0x08 => some (.cryptAndTag dir)
  | 0x09 => some .authDecrypt
  | _ => none

/-- The commands that use `dir`: `STARTS` and `CRYPT_AND_TAG`; in every other it must be 0 (R30). -/
def opcodeUsesDir (opcode : Nat) : Bool := opcode == 0x04 || opcode == 0x08

/-- The command a word encodes (R33), or the cause it is refused with: `OPCODE` is tested before
`RESERVED_BITS` (R34). -/
def decodeCmd (w : BitVec 32) : Except DecodeError Instr :=
  let opcode := (CmdWord.opcode w).toNat
  match hostCommand opcode (CmdWord.dir w) with
  | none => .error .opcode
  | some i =>
    if CmdWord.reserved w != 0 then .error .reservedBits
    else if CmdWord.dir w == .dec && !opcodeUsesDir opcode then .error .reservedBits
    else .ok i

/-- The operation an 8-bit code names (R35, R36). -/
def decodeOp (code : BitVec 8) : Except DecodeError Instr :=
  match code.toNat with
  | 0x10 => .ok .configure
  | 0x11 => .ok .encrypt
  | 0x12 => .ok .decrypt
  | 0x13 => .ok .deinitialize
  | 0x14 => .ok .suspend
  | 0x15 => .ok .resume
  | 0x16 => .ok .gcmBegin
  | 0x17 => .ok .gcmHeader
  | 0x18 => .ok .gcmPayload
  | 0x19 => .ok .gcmTag
  | 0x20 => .ok .mutexCreate
  | 0x21 => .ok .mutexDestroy
  | 0x22 => .ok .acquire
  | 0x23 => .ok .release
  | 0x30 => .ok .ghashBuild
  | 0x31 => .ok .ghashMult
  | 0x32 => .ok .inc32
  | 0x33 => .ok .closeAad
  | 0x34 => .ok .tagVerify
  | 0x35 => .ok .guard
  | _ => .error .operation

/-- What an instruction is written as: a command word (R30) or an operation code (R35, R36). -/
inductive Encoding where
  | cmd (w : BitVec 32)
  | op (code : BitVec 8)
  deriving DecidableEq, Repr

/-- The decoder, total on every word of both formats. -/
def decode : Encoding → Except DecodeError Instr
  | .cmd w => decodeCmd w
  | .op code => decodeOp code

/-- The `dir` bit in its place in a command word (R30). -/
def dirField : Direction → BitVec 32
  | .enc => 0x000
  | .dec => 0x100

/-- The encoder: the rows of R33, R35 and R36 read the other way. -/
def encode : Instr → Encoding
  | .init => .cmd 0x01
  | .free => .cmd 0x02
  | .setkey => .cmd 0x03
  | .starts dir => .cmd (0x04 ||| dirField dir)
  | .updateAd => .cmd 0x05
  | .update => .cmd 0x06
  | .finish => .cmd 0x07
  | .cryptAndTag dir => .cmd (0x08 ||| dirField dir)
  | .authDecrypt => .cmd 0x09
  | .configure => .op 0x10
  | .encrypt => .op 0x11
  | .decrypt => .op 0x12
  | .deinitialize => .op 0x13
  | .suspend => .op 0x14
  | .resume => .op 0x15
  | .gcmBegin => .op 0x16
  | .gcmHeader => .op 0x17
  | .gcmPayload => .op 0x18
  | .gcmTag => .op 0x19
  | .mutexCreate => .op 0x20
  | .mutexDestroy => .op 0x21
  | .acquire => .op 0x22
  | .release => .op 0x23
  | .ghashBuild => .op 0x30
  | .ghashMult => .op 0x31
  | .inc32 => .op 0x32
  | .closeAad => .op 0x33
  | .tagVerify => .op 0x34
  | .guard => .op 0x35

/-- The instruction read from the table's numbering of its bits: a command is one word of 32 bits,
a port or micro operation one byte; no row has an operand word. -/
def decodeTableWord (nbits w : Nat) : Option Instr :=
  if nbits = 32 ∧ w < 2 ^ 32 then (decodeCmd (BitVec.ofNat 32 w)).toOption
  else if nbits = 8 ∧ w < 2 ^ 8 then (decodeOp (BitVec.ofNat 8 w)).toOption
  else none

end Sys2Proof
end

