-- ==== Sys2Proof/Machine/Flags.lean ====
section
/-! DEFINITION. The status register and its codes (R93 to R96), the phase codes (R11), and the
views `CAP` and `ARB` (R14). -/

namespace Sys2Proof.Machine

/-- The status classes of R93. -/
inductive StatusClass where
  | ok
  | badInput
  | unsupportedFeature
  | hardwareFailure
  | authenticationFailed
  deriving DecidableEq, Repr

/-- The class codes of R93. -/
def statusClassCode : StatusClass → BitVec 32
  | .ok => 0
  | .badInput => 1
  | .unsupportedFeature => 2
  | .hardwareFailure => 3
  | .authenticationFailed => 4

/-- The class a cause belongs to (R94, R95, R96). -/
def causeClass : Cause → StatusClass
  | .opcode => .badInput
  | .sequence => .badInput
  | .cipherId => .badInput
  | .keyBits => .badInput
  | .tagLen => .badInput
  | .aadBound => .badInput
  | .payloadBound => .badInput
  | .overlap => .badInput
  | .outputCap => .badInput
  | .reservedBits => .badInput
  | .addrRange => .badInput
  | .ivLen => .unsupportedFeature
  | .tagLenA => .unsupportedFeature
  | .partialChunkA => .unsupportedFeature
  | .aadChunkingA => .unsupportedFeature
  | .hwKey => .unsupportedFeature
  | .timeout => .hardwareFailure
  | .adapterError => .hardwareFailure
  | .suspendFail => .hardwareFailure
  | .resumeFail => .hardwareFailure
  | .tagMismatch => .authenticationFailed

/-- The cause codes of R94, R95 and R96. -/
def causeCode : Cause → BitVec 32
  | .opcode => 0x01
  | .sequence => 0x02
  | .cipherId => 0x03
  | .keyBits => 0x04
  | .tagLen => 0x05
  | .aadBound => 0x06
  | .payloadBound => 0x07
  | .overlap => 0x08
  | .outputCap => 0x09
  | .reservedBits => 0x0A
  | .addrRange => 0x0B
  | .ivLen => 0x20
  | .tagLenA => 0x21
  | .partialChunkA => 0x22
  | .aadChunkingA => 0x23
  | .hwKey => 0x24
  | .timeout => 0x40
  | .adapterError => 0x41
  | .suspendFail => 0x42
  | .resumeFail => 0x43
  | .tagMismatch => 0x60

/-- `STATUS` after `complete OK` (R93). -/
def statusOk : BitVec 32 := 0

/-- `STATUS` after a raise: `class | (cause << 4)` (R93). -/
def statusWord (c : Cause) : BitVec 32 :=
  statusClassCode (causeClass c) ||| (causeCode c <<< 4)

/-- The cause a refused command word is reported with (R34). An operation code is never written
to `CMD`, so `operation` does not arise there. -/
def causeOfDecodeError : DecodeError → Cause
  | .opcode => .opcode
  | .reservedBits => .reservedBits
  | .operation => .opcode

/-- The phase codes of R11. -/
def phaseCode : Phase → BitVec 3
  | .uninit => 0
  | .unkeyed => 1
  | .keyed => 2
  | .started => 3
  | .absorbingAAD => 4
  | .absorbingPayload => 5
  | .finished => 6
  | .failed => 7

/-- A bit as a register value. -/
def bitValue (b : Bool) : W64 := if b then 1 else 0

/-- `CAP` (R14): bit 0 `strategy` (0 = A, 1 = B), bit 1 `has_hw_key`, bits [15:8] `n_sessions`,
the other bits 0. -/
def capValue (p : Params) : W64 :=
  bitValue (p.strategy == .b) ||| (bitValue p.hasHwKey <<< 1) |||
    ((BitVec.ofNat 8 p.nSessions).setWidth 64 <<< 8)

/-- `ARB` (R14): bits [7:0] `refcount`, bit 8 `mutex_exists`, bit 9 `held`, bits [23:16] `holder`,
the other bits 0. `holder` is "valid when `held`": while the mutex is free it reads as `free`. -/
def arbValue (a : Arbiter) (free : BitVec 8) : W64 :=
  (BitVec.ofNat 8 a.refcount).setWidth 64 ||| (bitValue a.mutexExists <<< 8) |||
    (bitValue a.holder.isSome <<< 9) |||
    ((a.holder.elim free (BitVec.ofNat 8 ·)).setWidth 64 <<< 16)

end Sys2Proof.Machine
end

