-- ==== Sys2Proof/Machine/Operands.lean ====
section
/-! DEFINITION. The operands of each command, taken from its latched `ARG` registers (R32, R39),
and the checks that precede every mutation, in the order of R101. -/

namespace Sys2Proof.Machine

/-- `cipher_id, key, key_bits` (R32). -/
structure SetkeyOperands where
  cipherId : W64
  key : W64
  keyBits : W64
  deriving DecidableEq, Repr

def setkeyOperands (a : Args) : SetkeyOperands where
  cipherId := a[0]
  key := a[1]
  keyBits := a[2]

/-- `iv, iv_len` (R32). -/
structure StartsOperands where
  iv : W64
  ivLen : W64
  deriving DecidableEq, Repr

def startsOperands (a : Args) : StartsOperands where
  iv := a[0]
  ivLen := a[1]

/-- `aad, aad_len` (R32). -/
structure UpdateAdOperands where
  aad : W64
  aadLen : W64
  deriving DecidableEq, Repr

def updateAdOperands (a : Args) : UpdateAdOperands where
  aad := a[0]
  aadLen := a[1]

/-- `input, input_len, output, output_cap` (R32). -/
structure UpdateOperands where
  input : W64
  inputLen : W64
  output : W64
  outputCap : W64
  deriving DecidableEq, Repr

def updateOperands (a : Args) : UpdateOperands where
  input := a[0]
  inputLen := a[1]
  output := a[2]
  outputCap := a[3]

/-- `tag_out, tag_len` (R32); `output_tail` and its capacity, `ARG[0]` and `ARG[1]`, are ignored
(R69, U9). -/
structure FinishOperands where
  tagOut : W64
  tagLen : W64
  deriving DecidableEq, Repr

def finishOperands (a : Args) : FinishOperands where
  tagOut := a[2]
  tagLen := a[3]

/-- The operands of a composite; `tag` is `tag_out` of `CRYPT_AND_TAG` and `tag` of
`AUTH_DECRYPT` (R32). -/
structure CompositeOperands where
  length : W64
  iv : W64
  ivLen : W64
  aad : W64
  aadLen : W64
  input : W64
  output : W64
  tagLen : W64
  tag : W64
  deriving DecidableEq, Repr

def cryptAndTagOperands (a : Args) : CompositeOperands where
  length := a[0]
  iv := a[1]
  ivLen := a[2]
  aad := a[3]
  aadLen := a[4]
  input := a[5]
  output := a[6]
  tagLen := a[7]
  tag := a[8]

def authDecryptOperands (a : Args) : CompositeOperands where
  length := a[0]
  iv := a[1]
  ivLen := a[2]
  aad := a[3]
  aadLen := a[4]
  tag := a[5]
  tagLen := a[6]
  input := a[7]
  output := a[8]

/-- `MAX_AAD`: the running AAD length stays below it (R4). -/
def maxAad : Nat := 2 ^ 61

/-- `MAX_PAYLOAD`: the running payload length does not exceed it (R4; 90_conflicts.md C5). -/
def maxPayload : Nat := 2 ^ 36 - 32

/-- A buffer fits the address space (R20, R39): an empty one always does; a non-empty one must
have no address bit above `ADDR_BITS` and must not wrap, which is the one inequality. -/
def rangeOk (p : Params) (addr : W64) (n : Nat) : Bool :=
  n == 0 || decide (addr.toNat + n ≤ 2 ^ p.addrBits)

/-- The aliasing rule of R24: `output > input` and `output - input < n`, as unsigned integers. -/
def overlaps (input output n : W64) : Bool :=
  decide (input.toNat < output.toNat) && decide (output.toNat - input.toNat < n.toNat)

/-- The tag lengths a strategy admits (R4, R69, R79). -/
def tagLenOk (p : Params) (tagLen : W64) : Bool :=
  match p.strategy with
  | .a => tagLen.toNat == 16
  | .b => decide (4 ≤ tagLen.toNat) && decide (tagLen.toNat ≤ 16)

/-- How a strategy reports another tag length (R69, R79; 90_conflicts.md C11). -/
def tagLenCause (p : Params) : Cause :=
  match p.strategy with
  | .a => .tagLenA
  | .b => .tagLen

/-- "A command reports one status, that of the first check that fires" (R101): the cause of the
first failing check of a list of (condition that must not hold, cause). -/
def firstCause : List (Bool × Cause) → Option Cause
  | [] => none
  | (fails, cause) :: rest => if fails then some cause else firstCause rest

/-- The phases that accept a command (R60). -/
def acceptsPhase : Instr → Phase → Bool
  | .init, ph => ph == .uninit
  | .free, _ => true
  | .setkey, ph => ph != .uninit
  | .starts _, ph => ph != .uninit && ph != .unkeyed
  | .updateAd, ph => ph == .started || ph == .absorbingAAD
  | .update, ph => ph == .started || ph == .absorbingAAD || ph == .absorbingPayload
  | .finish, ph => ph == .started || ph == .absorbingAAD || ph == .absorbingPayload
  | .cryptAndTag _, ph => ph != .uninit && ph != .unkeyed
  | .authDecrypt, ph => ph != .uninit && ph != .unkeyed
  | .configure, _ => false
  | .encrypt, _ => false
  | .decrypt, _ => false
  | .deinitialize, _ => false
  | .suspend, _ => false
  | .resume, _ => false
  | .gcmBegin, _ => false
  | .gcmHeader, _ => false
  | .gcmPayload, _ => false
  | .gcmTag, _ => false
  | .mutexCreate, _ => false
  | .mutexDestroy, _ => false
  | .acquire, _ => false
  | .release, _ => false
  | .ghashBuild, _ => false
  | .ghashMult, _ => false
  | .inc32, _ => false
  | .closeAad, _ => false
  | .tagVerify, _ => false
  | .guard, _ => false

/-- The check of `INIT` (R61). -/
def checkInit (_ : Params) (x : Ctx) (_ : Args) : Option Cause :=
  firstCause [(!acceptsPhase .init x.phase, .sequence)]

/-- `FREE` has no check (R62). -/
def checkFree (_ : Params) (_ : Ctx) (_ : Args) : Option Cause := none

/-- `key_bits = 0`, the hardware key, is unsupported under strategy A and where the accelerator
has none (R63, R74, R95). -/
def hwKeyUnsupported (p : Params) (keyBits : W64) : Bool :=
  keyBits == 0 && (p.strategy == .a || !p.hasHwKey)

/-- The checks of `SETKEY` (R63, R74). -/
def checkSetkey (p : Params) (x : Ctx) (a : Args) : Option Cause :=
  let o := setkeyOperands a
  firstCause
    [(!acceptsPhase .setkey x.phase, .sequence),
     (o.cipherId != 1, .cipherId),
     (hwKeyUnsupported p o.keyBits, .hwKey),
     (o.keyBits != 0 && o.keyBits != 128 && o.keyBits != 192 && o.keyBits != 256, .keyBits),
     (!rangeOk p o.key (o.keyBits.toNat / 8), .addrRange)]

/-- The checks of `STARTS` (R64, R75). -/
def checkStarts (p : Params) (x : Ctx) (a : Args) : Option Cause :=
  let o := startsOperands a
  firstCause
    [(!acceptsPhase (.starts .enc) x.phase, .sequence),
     (o.ivLen != 12, .ivLen),
     (!rangeOk p o.iv 12, .addrRange)]

/-- The checks of `UPDATE_AD` (R65, R76): the bound is on the exact sum. -/
def checkUpdateAd (p : Params) (x : Ctx) (a : Args) : Option Cause :=
  let o := updateAdOperands a
  firstCause
    [(!acceptsPhase .updateAd x.phase, .sequence),
     (decide (maxAad ≤ x.addLen.toNat + o.aadLen.toNat), .aadBound),
     (p.strategy == .a && o.aadLen != 0 && x.hdrPending, .aadChunkingA),
     (!rangeOk p o.aad o.aadLen.toNat, .addrRange)]

/-- The checks of `UPDATE` (R68, R78, R101): the bound is on the exact sum. -/
def checkUpdate (p : Params) (x : Ctx) (a : Args) : Option Cause :=
  let o := updateOperands a
  firstCause
    [(!acceptsPhase .update x.phase, .sequence),
     (overlaps o.input o.output o.inputLen, .overlap),
     (decide (maxPayload < x.len.toNat + o.inputLen.toNat), .payloadBound),
     (decide (o.outputCap.toNat < o.inputLen.toNat), .outputCap),
     (p.strategy == .a && o.inputLen != 0 && x.len.toNat % 16 != 0, .partialChunkA),
     (!rangeOk p o.input o.inputLen.toNat, .addrRange),
     (!rangeOk p o.output o.inputLen.toNat, .addrRange)]

/-- The checks of `FINISH` (R69, R79). -/
def checkFinish (p : Params) (x : Ctx) (a : Args) : Option Cause :=
  let o := finishOperands a
  firstCause
    [(!acceptsPhase .finish x.phase, .sequence),
     (!tagLenOk p o.tagLen, tagLenCause p),
     (!rangeOk p o.tagOut o.tagLen.toNat, .addrRange)]

/-- `PREVALIDATE` (R90), shared by the two composites. -/
def prevalidate (p : Params) (x : Ctx) (o : CompositeOperands) : Option Cause :=
  firstCause
    [(!acceptsPhase (.starts .enc) x.phase, .sequence),
     (o.ivLen != 12, .ivLen),
     (decide (maxAad ≤ o.aadLen.toNat), .aadBound),
     (overlaps o.input o.output o.length, .overlap),
     (decide (maxPayload < o.length.toNat), .payloadBound),
     (!tagLenOk p o.tagLen, tagLenCause p),
     (!rangeOk p o.iv 12, .addrRange),
     (!rangeOk p o.aad o.aadLen.toNat, .addrRange),
     (!rangeOk p o.input o.length.toNat, .addrRange),
     (!rangeOk p o.output o.length.toNat, .addrRange),
     (!rangeOk p o.tag o.tagLen.toNat, .addrRange)]

/-- The checks of `CRYPT_AND_TAG` (R91). -/
def checkCryptAndTag (p : Params) (x : Ctx) (a : Args) : Option Cause :=
  prevalidate p x (cryptAndTagOperands a)

/-- The checks of `AUTH_DECRYPT` (R92). -/
def checkAuthDecrypt (p : Params) (x : Ctx) (a : Args) : Option Cause :=
  prevalidate p x (authDecryptOperands a)

end Sys2Proof.Machine
end

