-- ==== Sys2Proof/Machine/Ops.lean ====
section
/-! DEFINITION. Micro-steps and the programs made of them, the named operations over the engine
(contexts, memory, arbiter, adapter), the guarded section, and how a command ends.

A command's rule lists micro-steps (R6). One micro-step is a function of the engine (`Micro`); the
rule is a `Program`, a tree of micro-steps whose later ones depend on the replies of earlier ones.
`Program.eval` runs a program with no other agent moving in between; `Program.replay` gives what is
left of it after some replies, so that a state holds a command in execution as plain data. -/

namespace Sys2Proof.Machine

/-- A stop of the model: no next state. -/
inductive Stop where
  | fault (f : Fault)
  | refused (r : Refusal)
  deriving DecidableEq, Repr

/-- The outcome of a stop. -/
def Stop.outcome : Stop → Host.Outcome State Fault Refusal
  | .fault f => .fault f
  | .refused r => .refused r

/-- What one micro-step does. -/
inductive Micro where
  /-- it is taken, with a reply for the rest of the command -/
  | next (e : Engine) (r : Reply)
  /-- it is not enabled: the agent waits (R84) -/
  | wait
  /-- the model stops -/
  | stop (x : Stop)
  deriving DecidableEq, Repr

/-- A rule as a tree of micro-steps. `raise` ends the command (R93). -/
inductive Program (α : Type) where
  | ret (a : α)
  | raise (c : Cause)
  | step (m : Engine → Micro) (k : Reply → Program α)

/-- One program after another. -/
def Program.bind {α β : Type} : Program α → (α → Program β) → Program β
  | .ret a, f => f a
  | .raise c, _ => .raise c
  | .step m k, f => .step m fun r => (k r).bind f

/-- The program that runs `h` before a raise of `p` goes on (`on HardwareFailure ...`, R92). -/
def Program.onRaise {α : Type} (h : Program Unit) : Program α → Program α
  | .ret a => .ret a
  | .raise c => h.bind fun _ => .raise c
  | .step m k => .step m fun r => Program.onRaise h (k r)

/-- One program for each element of a list, in order. -/
def Program.forEach {β : Type} (f : β → Program Unit) : List β → Program Unit
  | [] => .ret ()
  | b :: rest => (f b).bind fun _ => Program.forEach f rest

/-- One micro-step as a program that gives its reply. -/
def Program.act (m : Engine → Micro) : Program Reply := .step m .ret

/-- One micro-step whose reply is not used. -/
def Program.do_ (m : Engine → Micro) : Program Unit := .step m fun _ => .ret ()

/-- How a program run by itself ends. -/
inductive Run (α : Type) where
  | done (a : α) (e : Engine)
  | raised (c : Cause) (e : Engine)
  /-- its next micro-step is not enabled; `log` is the replies so far -/
  | blocked (log : List Reply) (e : Engine)
  | stopped (x : Stop)

/-- Runs a program with no other agent moving in between; `log` is the replies already given. -/
def Program.eval {α : Type} : Program α → List Reply → Engine → Run α
  | .ret a, _, e => .done a e
  | .raise c, _, e => .raised c e
  | .step m k, log, e =>
    match m e with
    | .next e' r => (k r).eval (log ++ [r]) e'
    | .wait => .blocked log e
    | .stop x => .stopped x

/-- What is left of a program after the micro-steps that gave these replies. -/
def Program.replay {α : Type} : Program α → List Reply → Program α
  | .step _ k, r :: rest => (k r).replay rest
  | p, _ => p

/-! ### The engine's parts -/

/-- Context `s` (R10). -/
def Engine.ctx (e : Engine) (s : Nat) : Ctx := e.ctxs.getD s Ctx.zero

/-- `S[s] <- x`. -/
def Engine.setCtx (e : Engine) (s : Nat) (x : Ctx) : Engine := { e with ctxs := e.ctxs.set s x }

/-- The history after session `s` performs the operation `code` (R35, R36). -/
def Engine.record (e : Engine) (s : Nat) (code : BitVec 8) : Engine :=
  { e with history := ⟨s, code⟩ :: e.history }

/-- The accelerator's next answer (R45). One that does not answer times out (log 6). -/
def Engine.answer (e : Engine) : Answer := e.answers.headD .timedOut

/-- The engine after the answer is taken. -/
def Engine.dropAnswer (e : Engine) : Engine := { e with answers := e.answers.tail }

/-- A failed port operation: `A.live` is any image (R45), a free value (log 7). -/
def Engine.scrambleLive (e : Engine) : Engine :=
  { e with live := Config.anyImage e.fresh, fresh := e.fresh + 1 }

/-- `E(K, b)` (R5). -/
def cipherE (key : List Byte) (b : Block) : Block := Config.cipher key b

/-- `D(K, b)` (R5). -/
def cipherD (key : List Byte) (b : Block) : Block := (Config.cipher key).symm b

/-- `K(img)`: the image's key, or `HW_KEY` when `key_bits` is 0 (R40). -/
def imageKey (img : Image) : List Byte := if img.keyBits = 0 then Config.hwKey else img.key

/-- The context after `INIT`'s and `FREE`'s clearing (R18), with the phase given. -/
def clearedCtx (ph : Phase) : Ctx := { Ctx.zero with phase := ph }

/-! ### Micro-steps on contexts and memory -/

/-- Reads the session's own context. -/
def readCtxOp (s : Nat) (e : Engine) : Micro := .next e (.ctx (e.ctx s))

/-- Changes the session's own context. -/
def updateCtxOp (s : Nat) (f : Ctx → Ctx) (e : Engine) : Micro :=
  .next (e.setCtx s (f (e.ctx s))) .unit

/-- Reads one byte of buffer memory (R20, R23: one byte is the unit of atomicity). -/
def readByteOp (a : Nat) (e : Engine) : Micro :=
  if a < 2 ^ e.params.addrBits then .next e (.bytes [e.mem.read a]) else .stop (.fault .badAddress)

/-- Writes one byte of buffer memory. -/
def writeByteOp (a : Nat) (b : Byte) (e : Engine) : Micro :=
  if a < 2 ^ e.params.addrBits then .next { e with mem := e.mem.write a b } .unit
  else .stop (.fault .badAddress)

/-- The bytes of a reply. -/
def replyBytes : Reply → List Byte
  | .bytes b => b
  | .unit => []
  | .ctx _ => []
  | .image _ => []
  | .table _ => []
  | .verdict _ => []
  | .failed _ => []

/-- The context of a reply. -/
def replyCtx : Reply → Ctx
  | .ctx x => x
  | .unit => Ctx.zero
  | .bytes _ => Ctx.zero
  | .image _ => Ctx.zero
  | .table _ => Ctx.zero
  | .verdict _ => Ctx.zero
  | .failed _ => Ctx.zero

/-- The image of a reply. -/
def replyImage : Reply → Image
  | .image img => img
  | .unit => Image.blank
  | .bytes _ => Image.blank
  | .ctx _ => Image.blank
  | .table _ => Image.blank
  | .verdict _ => Image.blank
  | .failed _ => Image.blank

/-- The cause of a failure reply. -/
def replyFailure : Reply → Option Cause
  | .failed c => some c
  | .unit => none
  | .bytes _ => none
  | .ctx _ => none
  | .image _ => none
  | .table _ => none
  | .verdict _ => none

/-- Reads the session's own context. -/
def getCtx (s : Nat) : Program Ctx := .step (readCtxOp s) fun r => .ret (replyCtx r)

/-- Changes the session's own context. -/
def setCtx (s : Nat) (f : Ctx → Ctx) : Program Unit := .do_ (updateCtxOp s f)

/-- `MemRead(a, n)`: `n` byte reads at rising addresses (00_scope.md section 5; log 13). -/
def memRead : Nat → Nat → Program (List Byte)
  | _, 0 => .ret []
  | a, n + 1 => .step (readByteOp a) fun r =>
      (memRead (a + 1) n).bind fun rest => .ret (replyBytes r ++ rest)

/-- `MemWrite(a, n, v)`: byte writes at rising addresses. -/
def memWrite : Nat → List Byte → Program Unit
  | _, [] => .ret ()
  | a, b :: rest => .step (writeByteOp a b) fun _ => memWrite (a + 1) rest

/-! ### The mutex (R82 to R85) -/

/-- `MUTEX_CREATE` (R82). -/
def mutexCreateOp (s : Nat) (e : Engine) : Micro :=
  if e.arb.mutexExists then .stop (.refused .mutexPrecondition)
  else .next { e.record s 0x20 with arb := { e.arb with mutexExists := true, holder := none } } .unit

/-- `MUTEX_DESTROY` (R83). -/
def mutexDestroyOp (s : Nat) (e : Engine) : Micro :=
  if e.arb.mutexExists && e.arb.holder == none then
    .next { e.record s 0x21 with arb := { e.arb with mutexExists := false } } .unit
  else .stop (.refused .mutexPrecondition)

/-- `ACQUIRE(s)`: enabled only when the mutex exists and nobody holds it; otherwise it waits
(R84). -/
def acquireOp (s : Nat) (e : Engine) : Micro :=
  if e.arb.mutexExists && e.arb.holder == none then
    .next { e.record s 0x22 with arb := { e.arb with holder := some s } } .unit
  else .wait

/-- `RELEASE(s)` (R85). -/
def releaseOp (s : Nat) (e : Engine) : Micro :=
  if e.arb.holder == some s then
    .next { e.record s 0x23 with arb := { e.arb with holder := none } } .unit
  else .stop (.refused .mutexPrecondition)

/-- `INIT`'s one atomic step (R61, R88): the context is cleared and becomes `Unkeyed`, the mutex is
created when the count is 0, the count rises. Only the session itself can see its context, so that
clearing it in the same step as the count is changed shows nobody anything (log 13). -/
def initOp (s : Nat) (e : Engine) : Micro :=
  let e1 := e.setCtx s (clearedCtx .unkeyed)
  match if e1.arb.refcount = 0 then mutexCreateOp s e1 else .next e1 .unit with
  | .next e2 _ => .next { e2 with arb := { e2.arb with refcount := e2.arb.refcount + 1 } } .unit
  | .wait => .wait
  | .stop x => .stop x

/-- `FREE`'s last, atomic step (R62, R88): the context is cleared and becomes `Uninit`, the count
falls, the mutex is destroyed when it becomes 0. A context that is `Uninit` already is not counted,
and nothing happens. -/
def freeOp (s : Nat) (e : Engine) : Micro :=
  if (e.ctx s).phase = .uninit then .next e .unit
  else
    let e1 := e.setCtx s (clearedCtx .uninit)
    let e2 := { e1 with arb := { e1.arb with refcount := e1.arb.refcount - 1 } }
    if e2.arb.refcount = 0 then mutexDestroyOp s e2 else .next e2 .unit

/-! ### The adapter port (40_adapter.md) -/

/-- The frame every adapter operation shares (R45, R52): only the holder of the mutex performs it;
the accelerator's answer is drawn; unless it is `done` and the operation is `ready`, the operation
fails with `A.live` any image, by `failure` of the answer; otherwise `run` is its effect and
result. -/
def adapterOp (s : Nat) (code : BitVec 8) (ready : Bool) (failure : Answer → Cause)
    (run : Engine → Engine × Reply) (e : Engine) : Micro :=
  if e.arb.holder == some s then
    let e1 := (e.record s code).dropAnswer
    if e.answer == .done && ready then .next (run e1).1 (run e1).2
    else .next e1.scrambleLive (.failed (failure e.answer))
  else .stop (.refused .notHolder)

/-- The cause of a failed data operation: `TIMEOUT` if the accelerator did not answer in time,
`ADAPTER_ERROR` otherwise (R42, R45). -/
def dataFailure : Answer → Cause
  | .timedOut => .timeout
  | .done => .adapterError
  | .error => .adapterError

/-- Keeps `A.live`, gives bytes. -/
def giveBytes (b : List Byte) (e : Engine) : Engine × Reply := (e, .bytes b)

/-- A function of each 16-byte block of a string, in order (R42). -/
def mapBlocks (f : Block → Block) : Nat → List Byte → List Byte
  | 0, _ => []
  | n + 1, b => bytesOfBlock (f (blockOfBytes (b.take 16))) ++ mapBlocks f n (b.drop 16)

/-- The live image holds a configured key in mode ECB (R42). -/
def ecbReady (img : Image) : Bool := img.configured && img.mode == .ecb

/-- The live image holds a configured key in mode GCM (40_adapter.md section 5). -/
def gcmReady (img : Image) : Bool := img.configured && img.mode == .gcm

/-- `CONFIGURE` (R41): it fails as every operation of a section's body does (R45, R96, D15;
log 9). -/
def configureOp (s : Nat) (key : List Byte) (keyBits : BitVec 9) (mode : CipherMode) :
    Engine → Micro :=
  adapterOp s 0x10 true dataFailure fun e =>
    ({ e with live := { Image.blank with
        configured := true, key := key, keyBits := keyBits, mode := mode } }, .bytes [])

/-- `ENCRYPT` (R42). -/
def encryptOp (s : Nat) (blocks : List Byte) (e : Engine) : Micro :=
  adapterOp s 0x11 (ecbReady e.live) dataFailure
    (giveBytes (mapBlocks (cipherE (imageKey e.live)) (blocks.length / 16) blocks)) e

/-- `DECRYPT` (R43). -/
def decryptOp (s : Nat) (blocks : List Byte) (e : Engine) : Micro :=
  adapterOp s 0x12 (ecbReady e.live) dataFailure
    (giveBytes (mapBlocks (cipherD (imageKey e.live)) (blocks.length / 16) blocks)) e

/-- `DEINITIALIZE` (R44): it cannot fail and takes no draw. -/
def deinitializeOp (s : Nat) (e : Engine) : Micro :=
  if e.arb.holder == some s then .next { e.record s 0x13 with live := Image.blank } .unit
  else .stop (.refused .notHolder)

/-- `SUSPEND` (R46): a copy of `A.live`. -/
def suspendOp (s : Nat) (e : Engine) : Micro :=
  adapterOp s 0x14 true (fun _ => .suspendFail) (fun e' => (e', .image e.live)) e

/-- `RESUME` (R47). -/
def resumeOp (s : Nat) (img : Image) : Engine → Micro :=
  adapterOp s 0x15 true (fun _ => .resumeFail) fun e => ({ e with live := img }, .unit)

/-- The hash subkey of an image, `E(K, 00^16)` (R49 to R51). -/
def imageSubkey (img : Image) : Block := cipherE (imageKey img) 0

/-- `GCM_BEGIN` (R48). -/
def gcmBeginOp (s : Nat) (dir : Direction) (y0 : Block) (e : Engine) : Micro :=
  adapterOp s 0x16 (gcmReady e.live) dataFailure
    (fun e' => ({ e' with live := { e.live with
        gActive := true, gDir := dir, gY := y0, gEctr0 := cipherE (imageKey e.live) y0,
        gAcc := 0 } }, .bytes [])) e

/-- The accumulator after `n` chunks of 16 bytes, the last zero-padded (R49). -/
def headerAcc (h : Block) : Nat → List Byte → Block → Block
  | 0, _, acc => acc
  | n + 1, d, acc => headerAcc h n (d.drop 16) (gfMult (acc ^^^ blockOfBytes (d.take 16)) h)

/-- `GCM_HEADER` (R49). -/
def gcmHeaderOp (s : Nat) (data : List Byte) (e : Engine) : Micro :=
  adapterOp s 0x17 (gcmReady e.live && e.live.gActive) dataFailure
    (fun e' => ({ e' with live := { e.live with
        gAcc := headerAcc (imageSubkey e.live) ((data.length + 15) / 16) data e.live.gAcc } },
      .bytes [])) e

/-- The running values of `GCM_PAYLOAD`: counter block, accumulator, output (R50). -/
structure PayloadRun where
  y : Block
  acc : Block
  out : List Byte
  deriving DecidableEq, Repr

/-- One block of `GCM_PAYLOAD`, `use` of whose bytes count (R50). -/
def payloadBlock (key : List Byte) (dir : Direction) (use : Nat) (d : List Byte)
    (r : PayloadRun) : PayloadRun :=
  let y := inc32 r.y
  let o := xorBytes d (bytesOfBlock (cipherE key y))
  { y := y
    acc := gfMult (r.acc ^^^ blockOfBytes ((ciphertext dir d o).take use)) (cipherE key 0)
    out := r.out ++ o }

/-- The blocks of `GCM_PAYLOAD` in order, `n` of them; `valid` bytes of the last count, all 16 when
`valid` is 0 (R50). -/
def payloadBlocks (key : List Byte) (dir : Direction) (valid : BitVec 4) :
    Nat → List Byte → PayloadRun → PayloadRun
  | 0, _, r => r
  | n + 1, d, r =>
    let use := if n = 0 ∧ valid ≠ 0 then valid.toNat else 16
    payloadBlocks key dir valid n (d.drop 16) (payloadBlock key dir use (d.take 16) r)

/-- `GCM_PAYLOAD` (R50). -/
def gcmPayloadOp (s : Nat) (data : List Byte) (valid : BitVec 4) (e : Engine) : Micro :=
  let r := payloadBlocks (imageKey e.live) e.live.gDir valid (data.length / 16) data
    { y := e.live.gY, acc := e.live.gAcc, out := [] }
  adapterOp s 0x18 (gcmReady e.live && e.live.gActive) dataFailure
    (fun e' => ({ e' with live := { e.live with gY := r.y, gAcc := r.acc } }, .bytes r.out)) e

/-- `GCM_TAG` (R51). -/
def gcmTagOp (s : Nat) (aadBits payloadBits : W64) (e : Engine) : Micro :=
  let acc := gfMult (e.live.gAcc ^^^ blockOfHalves aadBits payloadBits) (imageSubkey e.live)
  adapterOp s 0x19 (gcmReady e.live && e.live.gActive) dataFailure
    (fun e' => ({ e' with live := { e.live with gAcc := acc, gActive := false } },
      .bytes (bytesOfBlock (acc ^^^ e.live.gEctr0)))) e

/-- One operation of a guarded section's body. Operands outside the operation's domain are not
admitted (log 17). -/
def portCallOp (s : Nat) (c : PortCall) : Engine → Micro :=
  if c.wellFormed then
    match c with
    | .configure key keyBits mode => configureOp s key keyBits mode
    | .encrypt blocks => encryptOp s blocks
    | .decrypt blocks => decryptOp s blocks
    | .gcmBegin dir y0 => gcmBeginOp s dir y0
    | .gcmHeader data => gcmHeaderOp s data
    | .gcmPayload data valid => gcmPayloadOp s data valid
    | .gcmTag aadBits payloadBits => gcmTagOp s aadBits payloadBits
  else fun _ => .stop (.refused .operandShape)

/-! ### The guarded section (R86) -/

/-- `ACQUIRE(s)` opening a guarded section; the bracket itself is recorded with it. -/
def guardOpenOp (s : Nat) (e : Engine) : Micro := acquireOp s (e.record s 0x35)

/-- `if S[s].image_valid = 1: RESUME(S[s].image)` (R86). -/
def resumeOwnOp (s : Nat) (e : Engine) : Micro :=
  if (e.ctx s).imageValid then resumeOp s (e.ctx s).image e else .next e .unit

/-- The failure path out of a guarded section: `RELEASE(s); raise HardwareFailure(c)` (R86). -/
def guardFail {α : Type} (s : Nat) (c : Cause) : Program α :=
  .step (releaseOp s) fun _ => .raise c

/-- The body, then `k` with the result of its last operation; a failing operation skips the later
ones (R86). -/
def guardBody (s : Nat) (k : List Byte → Program (List Byte)) :
    List PortCall → List Byte → Program (List Byte)
  | [], r => k r
  | c :: rest, _ => .step (portCallOp s c) fun r =>
      match replyFailure r with
      | some cause => guardFail s cause
      | none => guardBody s k rest (replyBytes r)

/-- The end of a guarded section: `SUSPEND`, the image saved, `RELEASE`, the result (R86). -/
def guardClose (s : Nat) (result : List Byte) : Program (List Byte) :=
  .step (suspendOp s) fun r =>
    match replyFailure r with
    | some cause => guardFail s cause
    | none =>
      .step (updateCtxOp s fun x => { x with image := replyImage r, imageValid := true }) fun _ =>
        .step (releaseOp s) fun _ => .ret result

/-- `GUARD(s){ body }` (R86): the result is that of the last operation of the body. -/
def guardSection (s : Nat) (body : List PortCall) : Program (List Byte) :=
  .step (guardOpenOp s) fun _ =>
    .step (resumeOwnOp s) fun r =>
      match replyFailure r with
      | some cause => guardFail s cause
      | none => guardBody s (guardClose s) body []

/-! ### Micro-operations on the session's own context -/

/-- `S[s].buf <- GHASH_MULT(table, S[s].buf)` (R57). -/
def multBufOp (s : Nat) (e : Engine) : Micro :=
  updateCtxOp s (fun x => { x with buf := ghashMult x.table x.buf }) (e.record s 0x31)

/-- `CLOSE_AAD` (R67): under `CARRY` an open AAD block is multiplied; under `PER_CALL` it does
nothing (R70). -/
def closeAadOp (s : Nat) (e : Engine) : Micro :=
  let e1 := e.record s 0x33
  if e.params.policy == .carry && (e.ctx s).addLen.toNat % 16 != 0 then multBufOp s e1
  else .next e1 .unit

/-- `S[s].y <- INC32(S[s].y)`, `n` times (R66). -/
def incYOp (s : Nat) (n : Nat) (e : Engine) : Micro :=
  updateCtxOp s (fun x => { x with y := inc32^[n] x.y })
    { e with history := List.replicate n ⟨s, 0x32⟩ ++ e.history }

/-- `(S[s].HH, S[s].HL) <- GHASH_BUILD(H)` (R55, R63). -/
def buildTableOp (s : Nat) (h : Block) (e : Engine) : Micro :=
  updateCtxOp s (fun x => { x with table := ghashBuild h }) (e.record s 0x30)

/-- `TAG_VERIFY`: the OR of the XOR differences over all `n` bytes, no early exit (R89). -/
def tagDiff (a b : List Byte) (n : Nat) : Byte :=
  (List.range n).foldl (fun diff i => diff ||| (a.getD i 0 ^^^ b.getD i 0)) 0

/-- `TAG_VERIFY(a, b, n)` passes when no difference bit is set (R89). -/
def tagVerify (a b : List Byte) (n : Nat) : Bool := tagDiff a b n == 0

/-- `TAG_VERIFY` as a micro-step (R89). -/
def tagVerifyOp (s : Nat) (a b : List Byte) (n : Nat) (e : Engine) : Micro :=
  .next (e.record s 0x34) (.verdict (tagVerify a b n))

/-- The verdict of a reply. -/
def replyVerdict : Reply → Bool
  | .verdict pass => pass
  | .unit => false
  | .bytes _ => false
  | .ctx _ => false
  | .image _ => false
  | .table _ => false
  | .failed _ => false

/-! ### Commands -/

/-- A command: its checks, all before any mutation (R97), and its micro-steps after them, which
give the `OUT_LEN` the rule writes, if it writes one (R100). -/
structure Command where
  check : Params → Ctx → Args → Option Cause
  body : Params → Nat → Args → Program (Option W64)

/-- The four commands that have an `OUT_LEN` (R13). -/
def hasOutLen : Instr → Bool
  | .update => true
  | .finish => true
  | .cryptAndTag _ => true
  | .authDecrypt => true
  | .init => false
  | .free => false
  | .setkey => false
  | .starts _ => false
  | .updateAd => false
  | .configure => false
  | .encrypt => false
  | .decrypt => false
  | .deinitialize => false
  | .suspend => false
  | .resume => false
  | .gcmBegin => false
  | .gcmHeader => false
  | .gcmPayload => false
  | .gcmTag => false
  | .mutexCreate => false
  | .mutexDestroy => false
  | .acquire => false
  | .release => false
  | .ghashBuild => false
  | .ghashMult => false
  | .inc32 => false
  | .closeAad => false
  | .tagVerify => false
  | .guard => false

/-- Mailbox `s` (R13). -/
def State.mailbox (st : State) (s : Nat) : Mailbox := st.mbox.getD s Mailbox.reset

/-- Changes mailbox `s`. -/
def State.setMailbox (st : State) (s : Nat) (m : Mailbox) : State :=
  { st with mbox := st.mbox.set s m }

/-- The command in execution on session `s`, if any (R31). -/
def State.inFlight (st : State) (s : Nat) : Option InFlight := st.run.getD s none

/-- Sets the command in execution on session `s`. -/
def State.setRun (st : State) (s : Nat) (f : Option InFlight) : State :=
  { st with run := st.run.set s f }

/-- `complete OK` of the current session's command (R93, R100): `STATUS` is 0, `OUT_LEN` is what the
rule writes, or unchanged, and no command is in execution. -/
def State.completeOk (st : State) (outLen : Option W64) : State :=
  let m := st.mailbox st.cur
  (st.setMailbox st.cur { m with status := statusOk, outLen := outLen.getD m.outLen }).setRun
    st.cur none

/-- What a hardware failure leaves of the context (R98): after `SETKEY` a cleared context in
`Unkeyed`; after any other command phase `Failed` with the image, `image_valid` and the table as
before the command, every other field as at the failing micro-step. -/
def hardwareFailureCtx (i : Instr) (before now : Ctx) : Ctx :=
  if i == .setkey then clearedCtx .unkeyed
  else { now with
    phase := .failed, image := before.image, imageValid := before.imageValid,
    table := before.table }

/-- TAKING AN EXCEPTION: `raise Class(CAUSE)` in the current session's command (R93). The effect of
the class (R97 to R99), `STATUS <- class | (cause << 4)`, `OUT_LEN` unspecified for the commands
that have one (a free value, log 8), and no command in execution. Control goes nowhere and nothing
is saved to return to (R93, R103). -/
def State.raise (st : State) (i : Instr) (before : Ctx) (c : Cause) : State :=
  let e := st.eng
  let e1 := if causeClass c = .hardwareFailure
    then e.setCtx st.cur (hardwareFailureCtx i before (e.ctx st.cur)) else e
  let m := st.mailbox st.cur
  let st1 := if hasOutLen i
    then ({ st with eng := { e1 with fresh := e1.fresh + 1 } }).setMailbox st.cur
      { m with status := statusWord c, outLen := Config.anyWord e1.fresh }
    else ({ st with eng := e1 }).setMailbox st.cur { m with status := statusWord c }
  st1.setRun st.cur none

/-- The state after a program of the current session's command has run as far as it can. -/
def State.afterRun (st : State) (f : InFlight) : Run (Option W64) →
    Host.Outcome State Fault Refusal
  | .done out e => .next ({ st with eng := e }.completeOk out)
  | .raised c e => .next ({ st with eng := e }.raise f.instr f.before c)
  | .blocked log e => .next ({ st with eng := e }.setRun st.cur (some { f with log := log }))
  | .stopped x => x.outcome

/-- A command about to be issued on the current session: the `ARG` registers are latched (R26). -/
def State.latch (st : State) (i : Instr) : InFlight where
  instr := i
  args := (st.mailbox st.cur).args
  before := st.eng.ctx st.cur
  log := []

/-- Why the current session cannot take a command: it does not exist, or one is in execution, which
only a second owner of the mailbox can bring about (R31, U1). -/
def State.notAdmitted (st : State) : Option Stop :=
  if st.cur < st.eng.params.nSessions then
    if (st.inFlight st.cur).isSome then some (.refused .secondOwner) else none
  else some (.fault .noSuchSession)

/-- Issues a command on the current session and runs it (R31): the first failing check is raised
(R101); otherwise its micro-steps are taken with no other agent moving in between, until it
completes or has to wait for the mutex, where it stays in execution (log 12). -/
def runCommand (i : Instr) (cmd : Command) (st : State) : Host.Outcome State Fault Refusal :=
  match st.notAdmitted with
  | some x => x.outcome
  | none =>
    let f := st.latch i
    match cmd.check st.eng.params f.before f.args with
    | some c => .next (st.raise i f.before c)
    | none => st.afterRun f ((cmd.body st.eng.params st.cur f.args).eval [] st.eng)

/-- Issues a command on the current session and takes none of its micro-steps yet. -/
def startCommand (i : Instr) (cmd : Command) (st : State) : Host.Outcome State Fault Refusal :=
  match st.notAdmitted with
  | some x => x.outcome
  | none =>
    let f := st.latch i
    match cmd.check st.eng.params f.before f.args with
    | some c => .next (st.raise i f.before c)
    | none => .next (st.setRun st.cur (some f))

/-- One micro-step of the command in execution on the current session: its next micro-step, or its
completion when none is left. A micro-step that is not enabled leaves the state as it is. -/
def advanceCommand (cmd : Command) (f : InFlight) (st : State) :
    Host.Outcome State Fault Refusal :=
  match (cmd.body st.eng.params st.cur f.args).replay f.log with
  | .ret out => .next (st.completeOk out)
  | .raise c => .next (st.raise f.instr f.before c)
  | .step m _ =>
    match m st.eng with
    | .next e r => .next ({ st with eng := e }.setRun st.cur (some { f with log := f.log ++ [r] }))
    | .wait => .next st
    | .stop x => x.outcome

/-! ### Bare port and micro operations (log 14) -/

/-- A bare operation of the current session: its result is latched; one that has to wait (R84) stays
pending, and nobody else moves (DESIGN CHOICE, log 32). -/
def bareOp (code : BitVec 8) (m : Engine → Micro) (st : State) : Host.Outcome State Fault Refusal :=
  if st.cur < st.eng.params.nSessions then
    match m st.eng with
    | .next e r => .next { st with eng := e, result := some r }
    | .wait => .next { st with pendingOp := some code }
    | .stop x => x.outcome
  else .fault .noSuchSession

/-- A bare guarded section of the current session (R86); one that has to wait (R84) stays pending, and
nobody else moves (DESIGN CHOICE, log 32). -/
def bareGuard (code : BitVec 8) (p : Program (List Byte)) (st : State) :
    Host.Outcome State Fault Refusal :=
  if st.cur < st.eng.params.nSessions then
    match p.eval [] st.eng with
    | .done b e => .next { st with eng := e, result := some (.bytes b) }
    | .raised c e => .next { st with eng := e, result := some (.failed c) }
    | .blocked _ _ => .next { st with pendingOp := some code }
    | .stopped x => x.outcome
  else .fault .noSuchSession

end Sys2Proof.Machine
end

