-- ==== Sys2Proof/Machine/Session.lean ====
section
/-! DEFINITION. The parts of the session commands, under strategy B (42_session_mode_b.md) and
under strategy A (43_session_mode_a.md), as programs on the context of session `s`. Each is the
mutation part of its rule, line by line; the checks are in Operands.lean. The composites are made
of the same parts (45_verify_and_composites.md). -/

namespace Sys2Proof.Machine

/-! ### Pieces (R23) -/

/-- A piece: the part of one 16-byte block that one command handles. It starts `p` bytes into the
command's input, lies at offset `off` of its block and has `use` bytes; `fresh` says that it opens
its block. -/
structure Piece where
  p : Nat
  off : Nat
  use : Nat
  fresh : Bool
  deriving DecidableEq, Repr

/-- The bytes of the first piece when the command starts inside a block, after `done` bytes of the
phase: 0 when it starts at a boundary (R65, R68). Under `PER_CALL` every command starts at a
boundary of its own (R70). -/
def openOffset (policy : PartialPolicy) (done : Nat) : Nat :=
  match policy with
  | .carry => done % 16
  | .perCall => 0

/-- The pieces of `n` bytes of input after `done` bytes of the phase, in ascending order (R23): one
that ends at the block's end or the input's end when the command starts inside a block, then pieces
of 16 bytes, all but possibly the last. -/
def pieces (policy : PartialPolicy) (done n : Nat) : List Piece :=
  let off := openOffset policy done
  let first := if off = 0 then 0 else min (16 - off) n
  (if first = 0 then [] else [⟨0, off, first, false⟩]) ++
    (List.range ((n - first + 15) / 16)).map fun k =>
      ⟨first + 16 * k, 0, min 16 (n - first - 16 * k), true⟩

/-- Whether the accumulator is multiplied after a piece: at the end of a block; under `PER_CALL`
after every piece (R65, R68, R70). -/
def closesBlock (policy : PartialPolicy) (q : Piece) : Bool :=
  policy == .perCall || q.off + q.use == 16

/-- `buf[off + i] <- buf[off + i] ^ d[i]` (R65, R68). -/
def absorb (off : Nat) (d : List Byte) (x : Ctx) : Ctx := { x with buf := x.buf ^^^ placeBytes off d }

/-- `buf <- GHASH_MULT(table, buf)` when the condition holds (R57). -/
def multBufIf (s : Nat) (c : Bool) : Program Unit :=
  if c then .do_ (multBufOp s) else .ret ()

/-! ### `INIT` and `FREE` -/

/-- The steps of `INIT` (R61). -/
def initBody (s : Nat) : Program Unit := .do_ (initOp s)

/-- The steps of `FREE` (R62): nothing on an `Uninit` context; the key is wiped from the accelerator
when the session has an image; then the context is cleared and the count falls. -/
def freeBody (s : Nat) : Program Unit :=
  (getCtx s).bind fun x =>
  if x.phase = .uninit then .ret ()
  else if x.imageValid then
    .step (acquireOp s) fun _ =>
    .step (deinitializeOp s) fun _ =>
    .step (releaseOp s) fun _ =>
    .do_ (freeOp s)
  else .do_ (freeOp s)

/-! ### Strategy B -/

/-- `SETKEY` under strategy B (R63). -/
def setkeyPartB (s : Nat) (o : SetkeyOperands) : Program Unit :=
  (memRead o.key.toNat (o.keyBits.toNat / 8)).bind fun k =>
  (setCtx s fun x => { x with
    table := Table.zero, image := Image.blank, imageValid := false, phase := .unkeyed }).bind fun _ =>
  (guardSection s [.configure k (o.keyBits.setWidth 9) .ecb, .encrypt (bytesOfBlock 0)]).bind fun h =>
  (Program.do_ (buildTableOp s (blockOfBytes h))).bind fun _ =>
  setCtx s fun x => { x with phase := .keyed }

/-- `STARTS` under strategy B (R64). -/
def startsPartB (s : Nat) (dir : Direction) (iv : W64) : Program Unit :=
  (memRead iv.toNat 12).bind fun ivBytes =>
  (setCtx s fun x => { x with
    direction := dir, buf := 0, len := 0, addLen := 0, tagLen := 0,
    hdrAddr := 0, hdrLen := 0, hdrPending := false,
    y := preCounter ivBytes, phase := .started }).bind fun _ =>
  (getCtx s).bind fun x =>
  (guardSection s [.encrypt (bytesOfBlock x.y)]).bind fun b =>
  setCtx s fun x => { x with baseEctr := blockOfBytes b }

/-- One piece of `UPDATE_AD` under strategy B (R65). -/
def aadPieceB (policy : PartialPolicy) (s aad : Nat) (q : Piece) : Program Unit :=
  (memRead (aad + q.p) q.use).bind fun d =>
  (setCtx s fun x => { absorb q.off d x with
    addLen := x.addLen + BitVec.ofNat 64 q.use }).bind fun _ =>
  multBufIf s (closesBlock policy q)

/-- `UPDATE_AD` under strategy B (R65, R70). -/
def updateAdPartB (policy : PartialPolicy) (s : Nat) (aad n : W64) : Program Unit :=
  (setCtx s fun x => { x with phase := .absorbingAAD }).bind fun _ =>
  (getCtx s).bind fun x =>
  Program.forEach (aadPieceB policy s aad.toNat) (pieces policy x.addLen.toNat n.toNat)

/-- `PIECE(off, use, fresh)` of `UPDATE` under strategy B (R68). -/
def payloadPieceB (policy : PartialPolicy) (s input output : Nat) (q : Piece) : Program Unit :=
  (if q.fresh then Program.do_ (incYOp s 1) else .ret ()).bind fun _ =>
  (getCtx s).bind fun x =>
  (guardSection s [.encrypt (bytesOfBlock x.y)]).bind fun ks =>
  (memRead (input + q.p) q.use).bind fun d =>
  let o := xorBytes d (ks.drop q.off)
  (setCtx s (absorb q.off (ciphertext x.direction d o))).bind fun _ =>
  (memWrite (output + q.p) o).bind fun _ =>
  (setCtx s fun x => { x with len := x.len + BitVec.ofNat 64 q.use }).bind fun _ =>
  multBufIf s (closesBlock policy q)

/-- `UPDATE` under strategy B (R68, R70). -/
def updatePartB (policy : PartialPolicy) (s : Nat) (input n output : W64) : Program Unit :=
  (getCtx s).bind fun x =>
  (if x.phase = .absorbingPayload then Program.ret () else
    (Program.do_ (closeAadOp s)).bind fun _ =>
    setCtx s fun x => { x with phase := .absorbingPayload }).bind fun _ =>
  Program.forEach (payloadPieceB policy s input.toNat output.toNat)
    (pieces policy x.len.toNat n.toNat)

/-- `FINISH` under strategy B up to the tag `T`, sixteen bytes (R69, R70). -/
def finishTagB (policy : PartialPolicy) (s : Nat) : Program (List Byte) :=
  (getCtx s).bind fun x =>
  (if x.phase = .absorbingPayload then
    multBufIf s (policy == .carry && x.len.toNat % 16 != 0)
   else Program.do_ (closeAadOp s)).bind fun _ =>
  (setCtx s fun x => { x with buf := x.buf ^^^ lengthBlock x.addLen x.len }).bind fun _ =>
  (Program.do_ (multBufOp s)).bind fun _ =>
  (getCtx s).bind fun x =>
  .ret (bytesOfBlock (x.baseEctr ^^^ x.buf))

/-! ### Strategy A -/

/-- `SETKEY` under strategy A (R74): no block is encrypted and no table is built. -/
def setkeyPartA (s : Nat) (o : SetkeyOperands) : Program Unit :=
  (memRead o.key.toNat (o.keyBits.toNat / 8)).bind fun k =>
  (setCtx s fun x => { x with
    image := Image.blank, imageValid := false, phase := .unkeyed }).bind fun _ =>
  (guardSection s [.configure k (o.keyBits.setWidth 9) .gcm]).bind fun _ =>
  setCtx s fun x => { x with phase := .keyed }

/-- `STARTS` under strategy A (R75). -/
def startsPartA (s : Nat) (dir : Direction) (iv : W64) : Program Unit :=
  (memRead iv.toNat 12).bind fun ivBytes =>
  (setCtx s fun x => { x with
    direction := dir, len := 0, addLen := 0, tagLen := 0,
    hdrAddr := 0, hdrLen := 0, hdrPending := false,
    y := preCounter ivBytes, phase := .started }).bind fun _ =>
  (getCtx s).bind fun x =>
  (guardSection s [.gcmBegin dir x.y]).bind fun _ => .ret ()

/-- `UPDATE_AD` under strategy A (R76): the header is staged by reference, not read. `hdr_addr` takes
the low `ADDR_BITS` bits of the argument, whose other bits are zero (R10, R20). -/
def updateAdPartA (p : Params) (s : Nat) (aad n : W64) : Program Unit :=
  setCtx s fun x =>
    let x1 := if n = 0 then x else { x with
      hdrAddr := aad.toNat % 2 ^ p.addrBits, hdrLen := n, hdrPending := true }
    { x1 with addLen := x1.addLen + n, phase := .absorbingAAD }

/-- `HWPASS(s, op)` (R77): a staged header rides on the first pass and is read at the pass. -/
def hwPass (s : Nat) (op : PortCall) : Program (List Byte) :=
  (getCtx s).bind fun x =>
  if x.hdrPending then
    (memRead x.hdrAddr x.hdrLen.toNat).bind fun h =>
    (guardSection s [.gcmHeader h, op]).bind fun r =>
    (setCtx s fun x => { x with hdrPending := false }).bind fun _ => .ret r
  else guardSection s [op]

/-- The aligned prefix of `UPDATE` under strategy A, `n` bytes, one multi-block call (R78). -/
def updateAlignedA (s input output n : Nat) : Program Unit :=
  (memRead input n).bind fun d =>
  (hwPass s (.gcmPayload d 0)).bind fun o =>
  (memWrite output o).bind fun _ =>
  (Program.do_ (incYOp s (n / 16))).bind fun _ =>
  setCtx s fun x => { x with len := x.len + BitVec.ofNat 64 n }

/-- The remainder of `UPDATE` under strategy A, `n` bytes of one zero-padded block (R78). -/
def updateRemainderA (s input output n : Nat) : Program Unit :=
  (memRead input n).bind fun d =>
  (hwPass s (.gcmPayload (d ++ List.replicate (16 - n) 0) (BitVec.ofNat 4 n))).bind fun o =>
  (memWrite output (o.take n)).bind fun _ =>
  (Program.do_ (incYOp s 1)).bind fun _ =>
  setCtx s fun x => { x with len := x.len + BitVec.ofNat 64 n }

/-- `UPDATE` under strategy A (R78). -/
def updatePartA (s : Nat) (input n output : W64) : Program Unit :=
  let al := n.toNat - n.toNat % 16
  let r := n.toNat % 16
  (setCtx s fun x => { x with phase := .absorbingPayload }).bind fun _ =>
  (if al = 0 then Program.ret () else updateAlignedA s input.toNat output.toNat al).bind fun _ =>
  if r = 0 then .ret () else updateRemainderA s (input.toNat + al) (output.toNat + al) r

/-- `FINISH` under strategy A up to the tag `T` (R79). -/
def finishTagA (s : Nat) : Program (List Byte) :=
  (getCtx s).bind fun x => hwPass s (.gcmTag (8 * x.addLen) (8 * x.len))

/-! ### The parts by strategy (R2, R73) -/

/-- The mutation part of `SETKEY`. -/
def setkeyPart (p : Params) (s : Nat) (o : SetkeyOperands) : Program Unit :=
  match p.strategy with
  | .a => setkeyPartA s o
  | .b => setkeyPartB s o

/-- The mutation part of `STARTS`. -/
def startsPart (p : Params) (s : Nat) (dir : Direction) (iv : W64) : Program Unit :=
  match p.strategy with
  | .a => startsPartA s dir iv
  | .b => startsPartB s dir iv

/-- The mutation part of `UPDATE_AD`. -/
def updateAdPart (p : Params) (s : Nat) (aad n : W64) : Program Unit :=
  match p.strategy with
  | .a => updateAdPartA p s aad n
  | .b => updateAdPartB p.policy s aad n

/-- The mutation part of `UPDATE`. -/
def updatePart (p : Params) (s : Nat) (input n output : W64) : Program Unit :=
  match p.strategy with
  | .a => updatePartA s input n output
  | .b => updatePartB p.policy s input n output

/-- The tag that `FINISH` computes. -/
def finishTag (p : Params) (s : Nat) : Program (List Byte) :=
  match p.strategy with
  | .a => finishTagA s
  | .b => finishTagB p.policy s

/-- `S[s].tag_len <- tag_len; S[s].phase <- Finished` (R69, R79, R92). -/
def finishClose (s : Nat) (tagLen : W64) : Program Unit :=
  setCtx s fun x => { x with tagLen := tagLen.setWidth 5, phase := .finished }

/-- The mutation part of `FINISH`: the first `tag_len` bytes of `T` are written (R69, R79). -/
def finishPart (p : Params) (s : Nat) (tagOut tagLen : W64) : Program Unit :=
  (finishTag p s).bind fun t =>
  (memWrite tagOut.toNat (t.take tagLen.toNat)).bind fun _ =>
  finishClose s tagLen

/-! ### The commands -/

/-- `INIT` (R61). -/
def initCommand : Command where
  check := checkInit
  body := fun _ s _ => (initBody s).bind fun _ => .ret none

/-- `FREE` (R62). -/
def freeCommand : Command where
  check := checkFree
  body := fun _ s _ => (freeBody s).bind fun _ => .ret none

/-- `SETKEY` (R63, R74). -/
def setkeyCommand : Command where
  check := checkSetkey
  body := fun p s a => (setkeyPart p s (setkeyOperands a)).bind fun _ => .ret none

/-- `STARTS dir` (R64, R75). -/
def startsCommand (dir : Direction) : Command where
  check := checkStarts
  body := fun p s a => (startsPart p s dir (startsOperands a).iv).bind fun _ => .ret none

/-- `UPDATE_AD` (R65, R76). -/
def updateAdCommand : Command where
  check := checkUpdateAd
  body := fun p s a =>
    let o := updateAdOperands a
    (updateAdPart p s o.aad o.aadLen).bind fun _ => .ret none

/-- `UPDATE` (R68, R78): `OUT_LEN <- input_len`. -/
def updateCommand : Command where
  check := checkUpdate
  body := fun p s a =>
    let o := updateOperands a
    (updatePart p s o.input o.inputLen o.output).bind fun _ => .ret (some o.inputLen)

/-- `FINISH` (R69, R79): `OUT_LEN <- 0`. -/
def finishCommand : Command where
  check := checkFinish
  body := fun p s a =>
    let o := finishOperands a
    (finishPart p s o.tagOut o.tagLen).bind fun _ => .ret (some 0)

/-- `CRYPT_AND_TAG dir` (R91): the four parts, then `OUT_LEN <- length`. -/
def cryptAndTagCommand (dir : Direction) : Command where
  check := checkCryptAndTag
  body := fun p s a =>
    let o := cryptAndTagOperands a
    (startsPart p s dir o.iv).bind fun _ =>
    (updateAdPart p s o.aad o.aadLen).bind fun _ =>
    (updatePart p s o.input o.length o.output).bind fun _ =>
    (finishPart p s o.tag o.tagLen).bind fun _ =>
    .ret (some o.length)

/-- `MemWrite(output, length, 00^length)` (R92). -/
def zeroOutput (o : CompositeOperands) : Program Unit :=
  memWrite o.output.toNat (List.replicate o.length.toNat 0)

/-- `AUTH_DECRYPT` (R92): the tag is kept inside the engine and compared; on a mismatch, and on a
hardware failure after `wrote <- true`, the output is zeroed before the failure goes on. -/
def authDecryptCommand : Command where
  check := checkAuthDecrypt
  body := fun p s a =>
    let o := authDecryptOperands a
    (startsPart p s .dec o.iv).bind fun _ =>
    (updateAdPart p s o.aad o.aadLen).bind fun _ =>
    (Program.onRaise (zeroOutput o)
      ((updatePart p s o.input o.length o.output).bind fun _ => finishTag p s)).bind fun checkTag =>
    (finishClose s o.tagLen).bind fun _ =>
    (memRead o.tag.toNat o.tagLen.toNat).bind fun expected =>
    .step (tagVerifyOp s checkTag expected o.tagLen.toNat) fun r =>
      if replyVerdict r then .ret (some o.length)
      else (zeroOutput o).bind fun _ => .raise .tagMismatch

/-- The command of a host instruction; a port or micro operation is none (R35, R36: never issued
by a host). -/
def commandOf : Instr → Option Command
  | .init => some initCommand
  | .free => some freeCommand
  | .setkey => some setkeyCommand
  | .starts dir => some (startsCommand dir)
  | .updateAd => some updateAdCommand
  | .update => some updateCommand
  | .finish => some finishCommand
  | .cryptAndTag dir => some (cryptAndTagCommand dir)
  | .authDecrypt => some authDecryptCommand
  | .configure => none
  | .encrypt => none
  | .decrypt => none
  | .deinitialize => none
  | .suspend => none
  | .resume => none
  | .gcmBegin => none
  | .gcmHeader => none
  | .gcmPayload => none
  | .gcmTag => none
  | .mutexCreate => none
  | .mutexDestroy => none
  | .acquire => none
  | .release => none
  | .ghashBuild => none
  | .ghashMult => none
  | .inc32 => none
  | .closeAad => none
  | .tagVerify => none
  | .guard => none

end Sys2Proof.Machine
end

