-- ==== Sys2Proof/Machine/Bus.lean ====
section
/-! DEFINITION. The register space (R13, R14) and the moves of the agents (R6): what the machine
fetches next, and what a move that is no instruction does. -/

namespace Sys2Proof.Machine

/-- The registers of R13 and R14. -/
inductive Register where
  | cmd (s : Nat)
  | arg (s : Nat) (i : Fin 9)
  | status (s : Nat)
  | outLen (s : Nat)
  | cap
  | arb
  deriving DecidableEq, Repr

/-- The register of a number: `0x100*s + n` for mailbox `s` (R13), from 0xFF00 for the global ones
(R14); `none` for every other number. -/
def registerOf (nSessions reg : Nat) : Option Register :=
  let s := reg / 0x100
  let n := reg % 0x100
  if reg = 0xFF00 then some .cap
  else if reg = 0xFF01 then some .arb
  else if s < nSessions then
    if n = 0x00 then some (.cmd s)
    else if h : n - 1 < 9 then some (.arg s ⟨n - 1, h⟩)
    else if n = 0x0A then some (.status s)
    else if n = 0x0B then some (.outLen s)
    else none
  else none

/-- The value a host reads (R13, R14): `CMD` reads as 0; a narrower register is zero-extended. -/
def registerValue (st : State) : Register → W64
  | .cmd _ => 0
  | .arg s i => (st.mailbox s).args[i]
  | .status s => (st.mailbox s).status.setWidth 64
  | .outLen s => (st.mailbox s).outLen
  | .cap => capValue st.eng.params
  | .arb => arbValue st.eng.arb (Config.anyHolder st.eng.fresh)

/-- Whether a register is of a mailbox whose command is in execution: its host takes no step then
(R7), and another owner is not admitted (R31, U1; log 18). `CAP` and `ARB` are nobody's. -/
def Register.busy (st : State) : Register → Bool
  | .cmd s => (st.inFlight s).isSome
  | .arg s _ => (st.inFlight s).isSome
  | .status s => (st.inFlight s).isSome
  | .outLen s => (st.inFlight s).isSome
  | .cap => false
  | .arb => false

/-- A host reads a register. The counter of free values moves on (log 21). -/
def hostRead (reg : Nat) (st : State) : Host.Outcome State Fault Refusal :=
  match registerOf st.eng.params.nSessions reg with
  | some r =>
    if r.busy st then .refused .secondOwner
    else .next { st with
      readData := registerValue st r, eng := { st.eng with fresh := st.eng.fresh + 1 } }
  | none => .fault .noSuchRegister

/-- A host writes `ARG[i]` of mailbox `s` (R13). -/
def writeArg (s : Nat) (i : Fin 9) (value : W64) (st : State) : State :=
  let m := st.mailbox s
  st.setMailbox s { m with args := m.args.set i value }

/-- An illegal command word changes `STATUS` and nothing else (R34). -/
def refuseWord (x : DecodeError) (st : State) : Host.Outcome State Fault Refusal :=
  match st.notAdmitted with
  | some stop => stop.outcome
  | none =>
    let m := st.mailbox st.cur
    .next (st.setMailbox st.cur { m with status := statusWord (causeOfDecodeError x) })

/-- `Host(s)` writes a command word whose command is to be advanced one micro-step at a time. -/
def postCommand (w : BitVec 32) (st : State) : Host.Outcome State Fault Refusal :=
  match decodeCmd w with
  | .error x => refuseWord x st
  | .ok i =>
    match commandOf i with
    | some cmd => startCommand i cmd st
    | none => .refused .noSuchOperation

/-- `Exec` of the current session takes one micro-step; it has steps only while a command of its
session is in execution (R7). -/
def advance (st : State) : Host.Outcome State Fault Refusal :=
  match st.inFlight st.cur with
  | none => .next st
  | some f =>
    match commandOf f.instr with
    | some cmd => advanceCommand cmd f st
    | none => .refused .noSuchOperation

/-- Another bus master writes a byte of buffer memory (R28). -/
def masterWrite (addr : Nat) (b : Byte) (st : State) : Host.Outcome State Fault Refusal :=
  if addr < 2 ^ st.eng.params.addrBits then
    .next { st with eng := { st.eng with mem := st.eng.mem.write addr b } }
  else .fault .badAddress

/-- Mailbox `s` after a reset event: `STATUS` 0, `ARG` and `OUT_LEN` unspecified (R109), free
values (log 20). -/
def resetMailbox (fresh s : Nat) : Mailbox where
  args := Vector.ofFn fun i => Config.anyWord (fresh + 10 * s + i.val)
  status := 0
  outLen := Config.anyWord (fresh + 10 * s + 9)

/-- A reset event (R109): every piece of state is at its reset value, a command in execution is
abandoned, memory is not changed. What is not the hardware's (the accelerator's future answers, the
history, the pending moves) goes on (log 20). -/
def resetMachine (st : State) : State :=
  let e := st.eng
  let n := e.params.nSessions
  { State.resetWith e.params with
    eng := { Engine.resetWith e.params with
      mem := e.mem, answers := e.answers, history := e.history, fresh := e.fresh + 10 * n }
    mbox := (List.range n).map (resetMailbox e.fresh)
    bus := st.bus }

/-- What the machine does next: an instruction is executed in a state, or a move that is no
instruction has its outcome. -/
inductive Fetched where
  | instr (i : Instr) (st : State)
  | other (o : Host.Outcome State Fault Refusal)

/-- A host writes a register (R13): a write of `CMD` issues the command of the word (bits [31:0] of
the value, log 22) on the session of the mailbox; a write to a read-only register is ignored. A
mailbox whose command is in execution is not accessed (R7; log 18). -/
def fetchHostWrite (reg : Nat) (value : W64) (st : State) : Fetched :=
  match registerOf st.eng.params.nSessions reg with
  | none => .other (.fault .noSuchRegister)
  | some r =>
    if r.busy st then .other (.refused .secondOwner)
    else match r with
      | .cmd s =>
        match decodeCmd (value.setWidth 32) with
        | .ok i => .instr i { st with cur := s }
        | .error x => .other (refuseWord x { st with cur := s })
      | .arg s i => .other (.next (writeArg s i value st))
      | .status _ => .other (.next st)
      | .outLen _ => .other (.next st)
      | .cap => .other (.next st)
      | .arb => .other (.next st)

/-- The next move of the script. -/
def fetchEvent (ev : BusEvent) (st : State) : Fetched :=
  match ev with
  | .hostWrite reg value => fetchHostWrite reg value st
  | .hostRead reg => .other (hostRead reg st)
  | .cmdStart s w => .other (postCommand w { st with cur := s })
  | .microStep s => .other (advance { st with cur := s })
  | .masterWrite addr b => .other (masterWrite addr b st)
  | .reset => .other (.next (resetMachine st))

/-- What the machine does next: a pending bare operation is decoded and performed; otherwise the
next move of the script is made; with nothing pending, "the engine does nothing" (R19). A pending
operation comes before the script: while it waits for the mutex no other agent moves, the holder
included (DESIGN CHOICE, log 32). -/
def fetch (st : State) : Fetched :=
  match st.pendingOp with
  | some code =>
    match decodeOp code with
    | .ok i => .instr i { st with pendingOp := none }
    | .error _ => .other (.refused .noSuchOperation)
  | none =>
    match st.bus with
    | [] => .other (.next st)
    | ev :: rest => fetchEvent ev { st with bus := rest }

/-- The state with a write of a command word to the current session's `CMD` as the next move: what a
host command is fetched from. -/
def placeCommand (w : BitVec 32) (st : State) : State :=
  { st.setRun st.cur none with
    pendingOp := none
    bus := .hostWrite (0x100 * st.cur) (w.setWidth 64) :: st.bus }

/-- The arbiter an operation of session `s` is fetched under (R52, R81 to R86): an adapter operation
and `RELEASE` only inside the session's own guarded section, `MUTEX_CREATE` only without a mutex,
`MUTEX_DESTROY`, `ACQUIRE` and `GUARD` only with a free one (log 11). -/
def arbiterFor (code : BitVec 8) (s : Nat) (a : Arbiter) : Arbiter :=
  if code.toNat ≤ 0x19 ∨ code = 0x23 then { a with mutexExists := true, holder := some s }
  else if code = 0x20 then { a with mutexExists := false, holder := none }
  else if code = 0x21 ∨ code = 0x22 ∨ code = 0x35 then
    { a with mutexExists := true, holder := none }
  else a

/-- The state with a bare operation of the current session as what is performed next. -/
def placeOperation (code : BitVec 8) (st : State) : State :=
  { st with
    pendingOp := some code
    eng := { st.eng with arb := arbiterFor code st.cur st.eng.arb } }

end Sys2Proof.Machine
end

