-- ==== Sys2Proof/Machine/HostCommands.lean ====
section
/-! DEFINITION. The meanings of the nine host commands (R33): each is issued on the current session
and runs until it completes or has to wait for the mutex (R31). -/

namespace Sys2Proof.Machine

/-- `INIT` (R61). -/
def execInit (st : State) : Host.Outcome State Fault Refusal :=
  runCommand .init initCommand st

/-- `FREE` (R62). -/
def execFree (st : State) : Host.Outcome State Fault Refusal :=
  runCommand .free freeCommand st

/-- `SETKEY` (R63, R74). -/
def execSetkey (st : State) : Host.Outcome State Fault Refusal :=
  runCommand .setkey setkeyCommand st

/-- `STARTS dir` (R64, R75). -/
def execStarts (dir : Direction) (st : State) : Host.Outcome State Fault Refusal :=
  runCommand (.starts dir) (startsCommand dir) st

/-- `UPDATE_AD` (R65, R76). -/
def execUpdateAd (st : State) : Host.Outcome State Fault Refusal :=
  runCommand .updateAd updateAdCommand st

/-- `UPDATE` (R68, R78). -/
def execUpdate (st : State) : Host.Outcome State Fault Refusal :=
  runCommand .update updateCommand st

/-- `FINISH` (R69, R79). -/
def execFinish (st : State) : Host.Outcome State Fault Refusal :=
  runCommand .finish finishCommand st

/-- `CRYPT_AND_TAG dir` (R91). -/
def execCryptAndTag (dir : Direction) (st : State) : Host.Outcome State Fault Refusal :=
  runCommand (.cryptAndTag dir) (cryptAndTagCommand dir) st

/-- `AUTH_DECRYPT` (R92). -/
def execAuthDecrypt (st : State) : Host.Outcome State Fault Refusal :=
  runCommand .authDecrypt authDecryptCommand st

end Sys2Proof.Machine
end

