-- ==== Sys2Proof/Machine/MicroOps.lean ====
section
/-! DEFINITION. The meanings of the six micro-operations (R36), performed by the `Exec` of the
current session with the operands latched in the state, their result latched (log 14). -/

namespace Sys2Proof.Machine

/-- `GHASH_BUILD(H)` (R55): the result is the table. -/
def execGhashBuild (st : State) : Host.Outcome State Fault Refusal :=
  bareOp 0x30 (fun e => .next (e.record st.cur 0x30) (.table (ghashBuild st.opnd.block))) st

/-- `GHASH_MULT((HH, HL), x)` (R57). -/
def execGhashMult (st : State) : Host.Outcome State Fault Refusal :=
  bareOp 0x31 (fun e => .next (e.record st.cur 0x31)
    (.bytes (bytesOfBlock (ghashMult st.opnd.table st.opnd.block)))) st

/-- `INC32(y)` (R66). -/
def execInc32 (st : State) : Host.Outcome State Fault Refusal :=
  bareOp 0x32 (fun e => .next (e.record st.cur 0x32)
    (.bytes (bytesOfBlock (Sys2Proof.Machine.inc32 st.opnd.block)))) st

/-- `CLOSE_AAD` (R67) on the context of the current session. -/
def execCloseAad (st : State) : Host.Outcome State Fault Refusal :=
  bareOp 0x33 (closeAadOp st.cur) st

/-- `TAG_VERIFY(a, b, n)` (R89). Strings shorter than `n` bytes are not admitted (log 17). -/
def execTagVerify (st : State) : Host.Outcome State Fault Refusal :=
  bareOp 0x34 (if st.opnd.n ≤ st.opnd.a.length ∧ st.opnd.n ≤ st.opnd.b.length
    then tagVerifyOp st.cur st.opnd.a st.opnd.b st.opnd.n
    else fun _ => .stop (.refused .operandShape)) st

/-- `GUARD(s){ body }` (R86), its body the latched one. R86 writes bodies of one or two operations,
those its calling rules give; that any other body (none, more operations, `DECRYPT`, one without
`CONFIGURE` for a session with no saved image) runs by the same steps is the model's choice
(DESIGN CHOICE, log 31). While the mutex is not free it stays pending (log 32). -/
def execGuard (st : State) : Host.Outcome State Fault Refusal :=
  bareGuard 0x35 (guardSection st.cur st.opnd.body) st

end Sys2Proof.Machine
end

