-- ==== Sys2Proof/Machine/Port.lean ====
section
/-! DEFINITION. The meanings of the fourteen port operations (R35), performed by the `Exec` of the
current session with the operands latched in the state, their result and success flag latched
(log 14). -/

namespace Sys2Proof.Machine

/-- `CONFIGURE(key, key_bits, mode)` (R41). -/
def execConfigure (st : State) : Host.Outcome State Fault Refusal :=
  bareOp 0x10 (portCallOp st.cur (.configure st.opnd.key st.opnd.keyBits st.opnd.mode)) st

/-- `ENCRYPT(in_blocks)` (R42). -/
def execEncrypt (st : State) : Host.Outcome State Fault Refusal :=
  bareOp 0x11 (portCallOp st.cur (.encrypt st.opnd.data)) st

/-- `DECRYPT(in_blocks)` (R43). -/
def execDecrypt (st : State) : Host.Outcome State Fault Refusal :=
  bareOp 0x12 (portCallOp st.cur (.decrypt st.opnd.data)) st

/-- `DEINITIALIZE()` (R44). -/
def execDeinitialize (st : State) : Host.Outcome State Fault Refusal :=
  bareOp 0x13 (deinitializeOp st.cur) st

/-- `SUSPEND()` (R46). -/
def execSuspend (st : State) : Host.Outcome State Fault Refusal :=
  bareOp 0x14 (suspendOp st.cur) st

/-- `RESUME(img)` (R47). -/
def execResume (st : State) : Host.Outcome State Fault Refusal :=
  bareOp 0x15 (resumeOp st.cur st.opnd.img) st

/-- `GCM_BEGIN(dir, y0)` (R48). -/
def execGcmBegin (st : State) : Host.Outcome State Fault Refusal :=
  bareOp 0x16 (portCallOp st.cur (.gcmBegin st.opnd.dir st.opnd.block)) st

/-- `GCM_HEADER(data)` (R49). -/
def execGcmHeader (st : State) : Host.Outcome State Fault Refusal :=
  bareOp 0x17 (portCallOp st.cur (.gcmHeader st.opnd.data)) st

/-- `GCM_PAYLOAD(data, valid)` (R50). -/
def execGcmPayload (st : State) : Host.Outcome State Fault Refusal :=
  bareOp 0x18 (portCallOp st.cur (.gcmPayload st.opnd.data st.opnd.valid)) st

/-- `GCM_TAG(aad_bits, payload_bits)` (R51). -/
def execGcmTag (st : State) : Host.Outcome State Fault Refusal :=
  bareOp 0x19 (portCallOp st.cur (.gcmTag st.opnd.aadBits st.opnd.payloadBits)) st

/-- `MUTEX_CREATE` (R82). -/
def execMutexCreate (st : State) : Host.Outcome State Fault Refusal :=
  bareOp 0x20 (mutexCreateOp st.cur) st

/-- `MUTEX_DESTROY` (R83). -/
def execMutexDestroy (st : State) : Host.Outcome State Fault Refusal :=
  bareOp 0x21 (mutexDestroyOp st.cur) st

/-- `ACQUIRE(s)` (R84): while it is not enabled it stays pending, and nobody else moves
(DESIGN CHOICE, log 32). -/
def execAcquire (st : State) : Host.Outcome State Fault Refusal :=
  bareOp 0x22 (acquireOp st.cur) st

/-- `RELEASE(s)` (R85). -/
def execRelease (st : State) : Host.Outcome State Fault Refusal :=
  bareOp 0x23 (releaseOp st.cur) st

end Sys2Proof.Machine
end

