-- ==== Sys2Proof/Machine/Dispatch.lean ====
section
/-! DEFINITION. The dispatch: one arm per constructor of `Instr`. -/

namespace Sys2Proof.Machine

def exec (i : Instr) (s : State) : Host.Outcome State Fault Refusal :=
  match i with
  -- host commands (R33)
  | .init => Sys2Proof.Machine.execInit s
  | .free => Sys2Proof.Machine.execFree s
  | .setkey => Sys2Proof.Machine.execSetkey s
  | .starts dir => Sys2Proof.Machine.execStarts dir s
  | .updateAd => Sys2Proof.Machine.execUpdateAd s
  | .update => Sys2Proof.Machine.execUpdate s
  | .finish => Sys2Proof.Machine.execFinish s
  | .cryptAndTag dir => Sys2Proof.Machine.execCryptAndTag dir s
  | .authDecrypt => Sys2Proof.Machine.execAuthDecrypt s
  -- port operations (R35)
  | .configure => Sys2Proof.Machine.execConfigure s
  | .encrypt => Sys2Proof.Machine.execEncrypt s
  | .decrypt => Sys2Proof.Machine.execDecrypt s
  | .deinitialize => Sys2Proof.Machine.execDeinitialize s
  | .suspend => Sys2Proof.Machine.execSuspend s
  | .resume => Sys2Proof.Machine.execResume s
  | .gcmBegin => Sys2Proof.Machine.execGcmBegin s
  | .gcmHeader => Sys2Proof.Machine.execGcmHeader s
  | .gcmPayload => Sys2Proof.Machine.execGcmPayload s
  | .gcmTag => Sys2Proof.Machine.execGcmTag s
  | .mutexCreate => Sys2Proof.Machine.execMutexCreate s
  | .mutexDestroy => Sys2Proof.Machine.execMutexDestroy s
  | .acquire => Sys2Proof.Machine.execAcquire s
  | .release => Sys2Proof.Machine.execRelease s
  -- micro-operations (R36)
  | .ghashBuild => Sys2Proof.Machine.execGhashBuild s
  | .ghashMult => Sys2Proof.Machine.execGhashMult s
  | .inc32 => Sys2Proof.Machine.execInc32 s
  | .closeAad => Sys2Proof.Machine.execCloseAad s
  | .tagVerify => Sys2Proof.Machine.execTagVerify s
  | .guard => Sys2Proof.Machine.execGuard s

end Sys2Proof.Machine
end

