-- ==== Sys2Proof/Machine/Step.lean ====
section
/-! DEFINITION. One step of the machine, and where it fetches. -/

namespace Sys2Proof.Machine

/-- One step: what is fetched is executed, or the agent's move is made (R6, R7). The agent that moves
is the one the script names: the step is one function of the state. -/
def step (s : State) : Host.Outcome State Fault Refusal :=
  match fetch s with
  | .instr i st => exec i st
  | .other o => o

/-- The state that fetches the instruction of the table's bits `w` next: a 32-bit word is written to
`CMD` of the current session, an 8-bit code is the operation performed next (log 11). -/
def State.withFetchWord (s : State) (nbits w : Nat) : State :=
  if nbits = 32 then placeCommand (BitVec.ofNat 32 w) s
  else if nbits = 8 then placeOperation (BitVec.ofNat 8 w) s
  else s

end Sys2Proof.Machine
end

