-- ==== Sys2Proof/Safety.lean ====
section
/-! DEFINITION. The terms the claims are stated in: what it means that a command can be issued, what
a successful operation gives in closed form (42_session_mode_b.md R71), and the invariant of the
machine. -/

namespace Sys2Proof.Machine

/-! ### Issue and completion -/

/-- There is one context, one mailbox and one command slot for each session (R10, R13). -/
structure State.Shaped (st : State) : Prop where
  ctxs : st.eng.ctxs.length = st.eng.params.nSessions
  mbox : st.mbox.length = st.eng.params.nSessions
  run : st.run.length = st.eng.params.nSessions

/-- The current session exists and has no command in execution (R31). -/
structure State.Idle (st : State) : Prop where
  shaped : st.Shaped
  exists_ : st.cur < st.eng.params.nSessions
  idle : st.inFlight st.cur = none

/-- The context of the current session. -/
def State.own (st : State) : Ctx := st.eng.ctx st.cur

/-- The argument registers of the current session. -/
def State.args (st : State) : Args := (st.mailbox st.cur).args

/-- The mutex exists and nobody holds it (R84). -/
def State.MutexFree (st : State) : Prop :=
  st.eng.arb.mutexExists = true ∧ st.eng.arb.holder = none

/-- The state with another engine in which the current session's command has completed with `OK`
(R93, R100): `STATUS` is 0, `OUT_LEN` is the value given, or unchanged; nothing else changes. -/
def State.okAfter (st : State) (e : Engine) (out : Option W64) : State :=
  { st with
    eng := e
    mbox := st.mbox.set st.cur { st.mailbox st.cur with
      status := 0, outLen := out.getD (st.mailbox st.cur).outLen } }

/-- The state in which the current session's command has completed with the status given and
changed nothing else; a command that has an `OUT_LEN` leaves it at the next free value (R13,
R97). -/
def State.rejected (st : State) (i : Instr) (status : BitVec 32) : State :=
  if hasOutLen i then
    { st with
      eng := { st.eng with fresh := st.eng.fresh + 1 }
      mbox := st.mbox.set st.cur { st.mailbox st.cur with
        status := status, outLen := Config.anyWord st.eng.fresh } }
  else { st with mbox := st.mbox.set st.cur { st.mailbox st.cur with status := status } }

/-- A non-empty buffer fits the address space (R20). -/
abbrev fits (p : Params) (addr n : Nat) : Prop := n = 0 ∨ addr + n ≤ 2 ^ p.addrBits

/-- Two buffers of `m` bytes at `a` and of `n` bytes at `b` have no byte in common. -/
abbrev apart (a m b n : Nat) : Prop := m = 0 ∨ n = 0 ∨ a + m ≤ b ∨ b + n ≤ a

/-- The bounds on the lengths of a context (R4, R12). -/
structure Ctx.lengthsOk (p : Params) (x : Ctx) : Prop where
  addLen : x.addLen.toNat < 2 ^ 61
  len : x.len.toNat ≤ 2 ^ 36 - 32
  tagLen : x.tagLen = 0 ∨ match p.strategy with
    | .a => x.tagLen = 16
    | .b => 4 ≤ x.tagLen.toNat ∧ x.tagLen.toNat ≤ 16

/-- What instruction `i`, or one micro-step of it, changes of the count of sessions and of memory
(R88, R20). -/
structure SharedWrites (i : Instr) (e e' : Engine) : Prop where
  init : i = .init → e'.arb.refcount = e.arb.refcount ∨ e'.arb.refcount = e.arb.refcount + 1
  free : i = .free → e'.arb.refcount = e.arb.refcount ∨ e'.arb.refcount = e.arb.refcount - 1
  count : i ≠ .init → i ≠ .free → e'.arb.refcount = e.arb.refcount
  memory : i ≠ .update → i ≠ .finish → (∀ dir, i ≠ .cryptAndTag dir) → i ≠ .authDecrypt →
    e'.mem = e.mem

/-- Context `x` of a session under parameters `p` has a key bound as `SETKEY` binds it (R63, R74):
a saved image with a configured key in the strategy's mode and, under strategy B, the table of the
hash subkey. -/
structure Ctx.Bound (p : Params) (x : Ctx) : Prop where
  valid : x.imageValid = true
  configured : x.image.configured = true
  mode : x.image.mode = match p.strategy with
    | .a => CipherMode.gcm
    | .b => CipherMode.ecb
  table : p.strategy = .b → x.table = ghashBuild (cipherE (imageKey x.image) 0)

/-! ### Counter mode and GHASH in closed form (R71) -/

/-- The keystream byte for byte `q` of a call that starts `off` bytes inside a block, `y` being the
counter block before the call: the open block is continued with `y` itself, every further block has
the next counter (R68). -/
def keystreamByte (key : List Byte) (off : Nat) (y : Block) (q : Nat) : Byte :=
  (bytesOfBlock (cipherE key (inc32^[(off + q) / 16 + if off = 0 then 1 else 0] y))).getD
    ((off + q) % 16) 0

/-- The output of a call on the input bytes `x` (R68). -/
def cryptBytes (key : List Byte) (off : Nat) (y : Block) (x : List Byte) : List Byte :=
  x.mapIdx fun q b => b ^^^ keystreamByte key off y q

/-- The counter block after a call of `n` bytes (R68). -/
def counterAfter (off : Nat) (y : Block) (n : Nat) : Block :=
  if n = 0 then y else inc32^[(off + (n - 1)) / 16 + if off = 0 then 1 else 0] y

/-- One byte XORed into the accumulator at position `pos` of its phase; a block that becomes full is
multiplied (R65). -/
def absorbByte (t : Table) (pos : Nat) (b : Byte) (buf : Block) : Block :=
  let x := buf ^^^ placeBytes (pos % 16) [b]
  if pos % 16 = 15 then ghashMult t x else x

/-- The bytes of a string, one after another (R65, R68). -/
def absorbBytes (t : Table) : Nat → List Byte → Block → Block
  | _, [], buf => buf
  | pos, b :: rest, buf => absorbBytes t (pos + 1) rest (absorbByte t pos b buf)

/-- The accumulator after the bytes of one call, `pos` bytes of the phase having been absorbed
before it: under `CARRY` the open block is continued and may stay open; under `PER_CALL` the call
starts a block of its own and closes its last one (R65, R68, R70). -/
def absorbCall (policy : PartialPolicy) (t : Table) (pos : Nat) (l : List Byte) (buf : Block) :
    Block :=
  match policy with
  | .carry => absorbBytes t pos l buf
  | .perCall =>
    let x := absorbBytes t 0 l buf
    if l.length % 16 = 0 then x else ghashMult t x

/-- The accumulator after the end of a phase of `n` bytes: an open block is multiplied under `CARRY`
(R67, R69), and none is open under `PER_CALL` (R70). -/
def closePhase (policy : PartialPolicy) (t : Table) (n : Nat) (buf : Block) : Block :=
  if policy = .carry ∧ n % 16 ≠ 0 then ghashMult t buf else buf

/-- `pad(Z)`: the blocks of a string, the last one zero-padded (R71). -/
def padBlocks (z : List Byte) : List Block :=
  (List.range ((z.length + 15) / 16)).map fun k => blockOfBytes ((z.drop (16 * k)).take 16)

/-- `GHASH(H, B1 ‖ ... ‖ Bk)` from the accumulator `g` (R71). -/
def ghashFrom (h g : Block) (blocks : List Block) : Block :=
  blocks.foldl (fun acc b => gfMult (acc ^^^ b) h) g

/-- The tag of a message, all sixteen bytes (R71): `E(K, Y0) ^ GHASH(H, pad(A) ‖ pad(C) ‖ lengths)`. -/
def gcmTag (key : List Byte) (y0 : Block) (a c : List Byte) : Block :=
  cipherE key y0 ^^^
    ghashFrom (cipherE key 0) 0
      (padBlocks a ++ padBlocks c ++
        [lengthBlock (BitVec.ofNat 64 a.length) (BitVec.ofNat 64 c.length)])

/-- The number `BE32` of the last four bytes of a block's byte string (R66). -/
def lastWord (b : List Byte) : Nat := (b.drop 12).foldl (fun acc x => 256 * acc + x.toNat) 0

/-! ### Port operations that succeed -/

/-- The adapter operation that a bare port instruction performs, with the latched operands; `none`
for the other instructions. -/
def State.portCall (st : State) : Instr → Option PortCall
  | .configure => some (.configure st.opnd.key st.opnd.keyBits st.opnd.mode)
  | .encrypt => some (.encrypt st.opnd.data)
  | .decrypt => some (.decrypt st.opnd.data)
  | .gcmBegin => some (.gcmBegin st.opnd.dir st.opnd.block)
  | .gcmHeader => some (.gcmHeader st.opnd.data)
  | .gcmPayload => some (.gcmPayload st.opnd.data st.opnd.valid)
  | .gcmTag => some (.gcmTag st.opnd.aadBits st.opnd.payloadBits)
  | .init => none
  | .free => none
  | .setkey => none
  | .starts _ => none
  | .updateAd => none
  | .update => none
  | .finish => none
  | .cryptAndTag _ => none
  | .authDecrypt => none
  | .deinitialize => none
  | .suspend => none
  | .resume => none
  | .mutexCreate => none
  | .mutexDestroy => none
  | .acquire => none
  | .release => none
  | .ghashBuild => none
  | .ghashMult => none
  | .inc32 => none
  | .closeAad => none
  | .tagVerify => none
  | .guard => none

/-- The code of a port call (R35). -/
def callCode : PortCall → BitVec 8
  | .configure _ _ _ => 0x10
  | .encrypt _ => 0x11
  | .decrypt _ => 0x12
  | .gcmBegin _ _ => 0x16
  | .gcmHeader _ => 0x17
  | .gcmPayload _ _ => 0x18
  | .gcmTag _ _ => 0x19

/-- The state after a bare operation of the current session that leaves this engine and gives this
result. -/
def State.operated (st : State) (e : Engine) (r : Reply) : State :=
  { st with eng := e, result := some r }

/-- The live image is one the operation can be performed on (40_adapter.md). -/
def callReady (img : Image) : PortCall → Bool
  | .configure _ _ _ => true
  | .encrypt _ => ecbReady img
  | .decrypt _ => ecbReady img
  | .gcmBegin _ _ => gcmReady img
  | .gcmHeader _ => gcmReady img && img.gActive
  | .gcmPayload _ _ => gcmReady img && img.gActive
  | .gcmTag _ _ => gcmReady img && img.gActive

/-- The live image and the result after the operation (R41 to R43, R48 to R51). -/
def callEffect (img : Image) : PortCall → Image × List Byte
  | .configure key keyBits mode =>
    ({ Image.blank with configured := true, key := key, keyBits := keyBits, mode := mode }, [])
  | .encrypt d => (img, mapBlocks (cipherE (imageKey img)) (d.length / 16) d)
  | .decrypt d => (img, mapBlocks (cipherD (imageKey img)) (d.length / 16) d)
  | .gcmBegin dir y0 =>
    ({ img with
      gActive := true, gDir := dir, gY := y0, gEctr0 := cipherE (imageKey img) y0, gAcc := 0 }, [])
  | .gcmHeader d => ({ img with gAcc := ghashFrom (imageSubkey img) img.gAcc (padBlocks d) }, [])
  | .gcmPayload d valid =>
    let o := cryptBytes (imageKey img) 0 img.gY d
    let n := if valid = 0 then d.length else d.length - 16 + valid.toNat
    ({ img with
      gY := counterAfter 0 img.gY d.length
      gAcc := ghashFrom (imageSubkey img) img.gAcc
        (padBlocks ((ciphertext img.gDir d o).take n)) }, o)
  | .gcmTag aadBits payloadBits =>
    let acc := ghashFrom (imageSubkey img) img.gAcc [blockOfHalves aadBits payloadBits]
    ({ img with gAcc := acc, gActive := false }, bytesOfBlock (acc ^^^ img.gEctr0))

/-- The live image and the result of the last of some operations, in order, if each can be
performed. -/
def runCalls : Image → List PortCall → List Byte → Option (Image × List Byte)
  | img, [], r => some (img, r)
  | img, c :: rest, _ =>
    if c.wellFormed && callReady img c then
      runCalls (callEffect img c).1 rest (callEffect img c).2
    else none

/-- The cause of the first of some operations, in order, that fails with the accelerator's answers
`a`; `none` when none fails (R45, R86). -/
def callsFailure : Image → List PortCall → List Answer → Option Cause
  | _, [], _ => none
  | img, c :: rest, a =>
    if a.headD .timedOut = .done ∧ callReady img c = true then
      callsFailure (callEffect img c).1 rest a.tail
    else some (dataFailure (a.headD .timedOut))

/-- The cause of the first failure of a guarded section of the current session whose body is the
latched one; `none` when it does not fail (R86). -/
def State.sectionFailure (st : State) : Option Cause :=
  if st.own.imageValid = true ∧ st.eng.answers.headD .timedOut ≠ .done then some .resumeFail
  else
    let a := if st.own.imageValid then st.eng.answers.tail else st.eng.answers
    let img := if st.own.imageValid then st.own.image else st.eng.live
    match callsFailure img st.opnd.body a with
    | some c => some c
    | none =>
      if (a.drop st.opnd.body.length).headD .timedOut ≠ .done then some .suspendFail else none

/-- The codes of the operations performed of some, in order, with the accelerator's answers `a`: up
to the first that fails, which is the last performed (R86). -/
def callsPerformed : Image → List PortCall → List Answer → List (BitVec 8)
  | _, [], _ => []
  | img, c :: rest, a =>
    callCode c ::
      if a.headD .timedOut = .done ∧ callReady img c = true then
        callsPerformed (callEffect img c).1 rest a.tail
      else []

/-- The codes of the adapter operations that a guarded section of the current session performs, in
order, its body being the latched one: `RESUME` when it has an image, the body, `SUSPEND` when
nothing has failed before it (R86). -/
def State.sectionPerformed (st : State) : List (BitVec 8) :=
  if st.own.imageValid = true ∧ st.eng.answers.headD .timedOut ≠ .done then [0x15]
  else
    let a := if st.own.imageValid then st.eng.answers.tail else st.eng.answers
    let img := if st.own.imageValid then st.own.image else st.eng.live
    (if st.own.imageValid then [0x15] else []) ++ callsPerformed img st.opnd.body a ++
      if (callsFailure img st.opnd.body a).isSome then [] else [0x14]

/-! ### Port operations a command performs (R118) -/

/-- The status of a command whose port operation with the code `c` has got the answer `a`, not `done`
(R93, R96): `RESUME_FAIL`, `SUSPEND_FAIL`, `TIMEOUT` or `ADAPTER_ERROR`, class `HardwareFailure`. -/
def failureStatus (c : BitVec 8) (a : Answer) : BitVec 32 :=
  if c = 0x15 then 0x433
  else if c = 0x14 then 0x423
  else if a = .timedOut then 0x403
  else 0x413

/-- The codes of a guarded section of a session with a saved image: `RESUME`, the body, `SUSPEND`
(R86). -/
def sectionCodes (body : List (BitVec 8)) : List (BitVec 8) := [0x15] ++ body ++ [0x14]

/-- The codes of the port operations that take an answer, in order, of a `STARTS` (R64, R75). -/
def startsCodes (p : Params) : List (BitVec 8) :=
  match p.strategy with
  | .a => sectionCodes [0x16]
  | .b => sectionCodes [0x11]

/-- Those of an `UPDATE` of `n` bytes that starts `off` bytes inside a block, with a staged header or
not (R68, R77, R78): under B a section for each block touched, under A one for the aligned part and
one for the remainder, the header's operation in the first. -/
def updateCodes (p : Params) (header : Bool) (off n : Nat) : List (BitVec 8) :=
  match p.strategy with
  | .a =>
    ((List.range ((if 16 ≤ n then 1 else 0) + if n % 16 ≠ 0 then 1 else 0)).map fun k =>
      sectionCodes ((if header = true ∧ k = 0 then [0x17] else []) ++ [0x18])).flatten
  | .b => (List.replicate (if n = 0 then 0 else (off + n + 15) / 16) (sectionCodes [0x11])).flatten

/-- Those of a `FINISH` (R69, R79). -/
def finishCodes (p : Params) (header : Bool) : List (BitVec 8) :=
  match p.strategy with
  | .a => sectionCodes ((if header then [0x17] else []) ++ [0x19])
  | .b => []

/-- Those of a composite with `a` bytes of AAD and `n` bytes of payload (R91, R92). -/
def compositeCodes (p : Params) (a n : Nat) : List (BitVec 8) :=
  startsCodes p ++ updateCodes p (decide (a ≠ 0)) 0 n ++ finishCodes p (decide (a ≠ 0 ∧ n = 0))

/-- The codes of the port operations that take an answer, in order, of a command of the current
session that does not fail; `SETKEY` opens its section without a saved image (R63, R74). -/
def State.portCodes (st : State) : Instr → List (BitVec 8)
  | .setkey => match st.eng.params.strategy with
    | .a => [0x10, 0x14]
    | .b => [0x10, 0x11, 0x14]
  | .starts _ => startsCodes st.eng.params
  | .update => updateCodes st.eng.params st.own.hdrPending
      (openOffset st.eng.params.policy st.own.len.toNat) st.args[1].toNat
  | .finish => finishCodes st.eng.params st.own.hdrPending
  | .cryptAndTag _ => compositeCodes st.eng.params st.args[4].toNat st.args[0].toNat
  | .authDecrypt => compositeCodes st.eng.params st.args[4].toNat st.args[0].toNat
  | .init => []
  | .free => []
  | .updateAd => []
  | .configure => []
  | .encrypt => []
  | .decrypt => []
  | .deinitialize => []
  | .suspend => []
  | .resume => []
  | .gcmBegin => []
  | .gcmHeader => []
  | .gcmPayload => []
  | .gcmTag => []
  | .mutexCreate => []
  | .mutexDestroy => []
  | .acquire => []
  | .release => []
  | .ghashBuild => []
  | .ghashMult => []
  | .inc32 => []
  | .closeAad => []
  | .tagVerify => []
  | .guard => []

/-- The port operations with a failure draw of an `UPDATE` of `n` bytes under strategy B that starts
`off` bytes inside a block: one guarded section of three operations for each piece (R118). -/
def updateDrawsB (off n : Nat) : Nat := if n = 0 then 0 else 3 * ((off + n + 15) / 16)

/-- Those of an `UPDATE` of `n` bytes under strategy A: a section of three for the aligned part and
one for the remainder, and the header's operation in the first of them (R77, R78). -/
def updateDrawsA (header : Bool) (n : Nat) : Nat :=
  (if 16 ≤ n then 3 else 0) + (if n % 16 ≠ 0 then 3 else 0) +
    if header = true ∧ n ≠ 0 then 1 else 0

/-- Those of a composite with `a` bytes of AAD and `n` bytes of payload (R90 to R92). -/
def compositeDraws (p : Params) (a n : Nat) : Nat :=
  match p.strategy with
  | .b => 3 + updateDrawsB 0 n
  | .a => 3 + updateDrawsA (decide (a ≠ 0)) n + if a ≠ 0 ∧ n = 0 then 4 else 3

/-! ### The invariant -/

/-- A staged header is a non-empty buffer that fits the address space (R76, R77). -/
def Ctx.headerOk (p : Params) (x : Ctx) : Prop :=
  x.hdrPending = true → x.hdrLen ≠ 0 ∧ x.hdrAddr + x.hdrLen.toNat ≤ 2 ^ p.addrBits

/-- `hdr_addr` is a number of `ADDR_BITS` bits (R10), and a staged header is in range. -/
def Ctx.addrOk (p : Params) (x : Ctx) : Prop := x.hdrAddr < 2 ^ p.addrBits ∧ x.headerOk p

/-- What holds of the engine between any two micro-steps (R15, R20, R88): the memory is in canonical
form and inside the address space; `refcount` counts the contexts in use; the mutex exists while
one is; only a session with a context in use can hold it; every `hdr_addr` is a number of
`ADDR_BITS` bits (R10), and staged headers are in range. -/
structure Engine.Inv (p : Params) (e : Engine) : Prop where
  params : e.params = p
  ctxs : e.ctxs.length = p.nSessions
  memWf : e.mem.wf = true
  memRange : ∀ c ∈ e.mem, c.1 < 2 ^ p.addrBits
  refcount : e.arb.refcount = e.ctxs.countP fun x => x.phase != .uninit
  mutex : e.arb.mutexExists = decide (0 < e.arb.refcount)
  holder : ∀ s, e.arb.holder = some s → s < p.nSessions ∧ (e.ctx s).phase ≠ .uninit
  header : ∀ x ∈ e.ctxs, x.addrOk p

/-- Where session `s` stands: whether it holds the mutex, and whether its context is in use. -/
def Engine.standing (e : Engine) (s : Nat) : Bool × Bool :=
  (e.arb.holder == some s, (e.ctx s).phase != .uninit)

/-- What is left of a command of session `s`, which stands at `at_`, keeps to its guarded sections
(R81, R86). Whatever the engine is like when its next micro-step comes, as long as the engine's
invariant holds and the session stands there: the micro-step does not stop the model; it waits only
when the session does not hold the mutex (R84); and when it is taken, the invariant holds again and
what is left then keeps to its sections. The command ends without the mutex, and raises only with
its context in use. -/
inductive Program.Guarded (p : Params) (s : Nat) : Bool × Bool → Program (Option W64) → Prop
  | ret (inUse : Bool) (a : Option W64) : Program.Guarded p s (false, inUse) (.ret a)
  | raise (c : Cause) : Program.Guarded p s (false, true) (.raise c)
  | step (at_ : Bool × Bool) (m : Engine → Micro) (k : Reply → Program (Option W64))
      (safe : ∀ e, e.Inv p → e.standing s = at_ → ∀ x, m e ≠ .stop x)
      (waits : ∀ e, e.Inv p → e.standing s = at_ → m e = .wait → at_.1 = false)
      (inv : ∀ e e' r, e.Inv p → e.standing s = at_ → m e = .next e' r → e'.Inv p)
      (rest : ∀ e e' r, e.Inv p → e.standing s = at_ → m e = .next e' r →
        Program.Guarded p s (e'.standing s) (k r)) :
      Program.Guarded p s at_ (.step m k)

/-- The invariant of the machine: between any two moves of its agents the engine's invariant holds
(R15, R20, R88); every command in execution keeps to its guarded sections and only such a command
holds the mutex (R15, R86); every `STATUS` holds a class and a cause that exist (R93, R96). No bare
operation is pending: those are the model's device (log 14), not a state of the hardware. -/
structure State.Inv (st : State) : Prop where
  valid : st.eng.params.Valid
  shaped : st.Shaped
  pendingOp : st.pendingOp = none
  eng : st.eng.Inv st.eng.params
  busy : ∀ s f, st.inFlight s = some f → ∃ cmd, commandOf f.instr = some cmd ∧
    Program.Guarded st.eng.params s (st.eng.standing s)
      ((cmd.body st.eng.params s f.args).replay f.log)
  idle : ∀ s, st.inFlight s = none → st.eng.arb.holder ≠ some s
  status : ∀ m ∈ st.mbox, m.status = 0 ∨ ∃ c, m.status = statusWord c

/-- The next move of the script is one that the spec admits: a host accesses a register that exists
and its mailbox only while no command of its session is in execution (R7, R13, R31); another bus
master writes an address that exists (R20). -/
def State.Admits (st : State) : Prop :=
  match st.bus with
  | [] => True
  | .hostWrite reg _ :: _ => ∃ r, registerOf st.eng.params.nSessions reg = some r ∧ r.busy st = false
  | .hostRead reg :: _ => ∃ r, registerOf st.eng.params.nSessions reg = some r ∧ r.busy st = false
  | .cmdStart s _ :: _ => s < st.eng.params.nSessions ∧ st.inFlight s = none
  | .microStep _ :: _ => True
  | .masterWrite addr _ :: _ => addr < 2 ^ st.eng.params.addrBits
  | .reset :: _ => True

end Sys2Proof.Machine
end

