-- ==== Sys2Proof/Certificates/Slice0/Obligations.lean ====
section
/-! DEFINITION. The statements for the provers. Each docstring names the rules of spec/ it rests on;
OBLIGATIONS.json lists them. -/

open Sys2Proof Sys2Proof.Machine

/-! ### Encoding and fetch -/

/-- Words written out from R33, R35 and R36 decode to the instructions they stand for. -/
def Obligations.DecodeSpecWords : Prop :=
  decodeCmd 0x00000001 = .ok .init ∧ decodeCmd 0x00000003 = .ok .setkey ∧
  decodeCmd 0x00000004 = .ok (.starts .enc) ∧ decodeCmd 0x00000104 = .ok (.starts .dec) ∧
  decodeCmd 0x00000108 = .ok (.cryptAndTag .dec) ∧ decodeCmd 0x00000009 = .ok .authDecrypt ∧
  decodeOp 0x10 = .ok .configure ∧ decodeOp 0x19 = .ok .gcmTag ∧ decodeOp 0x22 = .ok .acquire ∧
  decodeOp 0x31 = .ok .ghashMult ∧ decodeOp 0x35 = .ok .guard

/-- Decoder and encoder agree in both directions, on every 32-bit command word and every 8-bit
code: a word decodes to an instruction exactly when it is that instruction's encoding (R33, R35,
R36). -/
def Obligations.DecodeEncodeAgree : Prop :=
  ∀ (i : Instr) (w : Encoding), i.wellFormed = true → (decode w = .ok i ↔ encode i = w)

/-- An illegal command word (R34): one whose opcode field is 0 or above 9 is refused with `OPCODE`,
any other that matches no row of R33 with `RESERVED_BITS`; writing it to `CMD` of an idle session
changes that session's `STATUS` and nothing else. -/
def Obligations.IllegalWordChangesStatusOnly : Prop :=
  ∀ (st : State) (s : Nat) (w : BitVec 32) (rest : List BusEvent),
    CmdWord.wellFormed w = false → st.pendingOp = none →
    st.bus = .hostWrite (0x100 * s) (w.setWidth 64) :: rest →
    s < st.eng.params.nSessions → st.eng.params.Valid → st.inFlight s = none →
    step st = .next { st with
      bus := rest
      cur := s
      mbox := st.mbox.set s { st.mailbox s with
        status := if w.toNat % 256 = 0 ∨ 10 ≤ w.toNat % 256 then 0x011 else 0x0A1 } }

/-- A step runs the decoded instruction. A write to `CMD` of session `s` whose word decodes to `i`
is `i` executed on session `s`, the write being taken from the script (R13, R31; that the word is
the low 32 bits of the 64 the write carries is the model's choice, log 22); a pending operation code
that decodes to `i` is `i` executed, the code being taken (log 14), whatever the script holds
(log 32). -/
def Obligations.StepRunsDecoded : Prop :=
  (∀ (st : State) (s : Nat) (v : W64) (rest : List BusEvent) (i : Instr),
    st.pendingOp = none → st.bus = .hostWrite (0x100 * s) v :: rest →
    s < st.eng.params.nSessions → st.eng.params.Valid → decodeCmd (v.setWidth 32) = .ok i →
    step st = exec i { st with bus := rest, cur := s }) ∧
  (∀ (st : State) (code : BitVec 8) (i : Instr),
    st.pendingOp = some code → decodeOp code = .ok i →
    step st = exec i { st with pendingOp := none })

/-! ### Reset -/

/-- The state after reset, for every value of the parameters (R19): every context is `Uninit` and
zero, the arbiter is empty, the live image is blank, every `STATUS` is 0, no command is in
execution, `CAP` holds the parameters; and with nothing pending a step does nothing. (`ARG` and
`OUT_LEN` are unspecified there; the values the model names, log 2, are not stated.) -/
def Obligations.ResetState : Prop :=
  ∀ p : Params,
    (∀ s, (State.resetWith p).eng.ctx s = Ctx.zero) ∧
    (State.resetWith p).eng.ctxs.length = p.nSessions ∧
    (State.resetWith p).eng.arb = { refcount := 0, mutexExists := false, holder := none } ∧
    (State.resetWith p).eng.live = Image.blank ∧
    (∀ s, ((State.resetWith p).mailbox s).status = 0) ∧
    (∀ s, (State.resetWith p).inFlight s = none) ∧
    registerValue (State.resetWith p) .cap = capValue p ∧
    (State.resetWith p).eng.params = p ∧
    step (State.resetWith p) = .next (State.resetWith p)

/-- A reset event (R109), whatever is in execution: every context, the arbiter, the live image, every
`STATUS` and the commands in execution are at their reset values; the buffer memory is not changed.
The argument registers and `OUT_LEN` are free values. That what is not the hardware's goes on (the
accelerator's answers, the history and the script) is the model's choice (log 20). -/
def Obligations.ResetEvent : Prop :=
  ∀ (st : State) (rest : List BusEvent), st.pendingOp = none → st.bus = .reset :: rest →
    ∃ t, step st = .next t ∧
      t.eng = { Engine.resetWith st.eng.params with
        mem := st.eng.mem, answers := st.eng.answers, history := st.eng.history,
        fresh := t.eng.fresh } ∧
      (∀ s, (t.mailbox s).status = 0) ∧ (∀ s, t.inFlight s = none) ∧
      t.mbox.length = st.eng.params.nSessions ∧ t.bus = rest

/-! ### Registers -/

/-- What a host reads at each register number (R13, R14): `CMD` reads as 0, `ARG[i]`, `STATUS` and
`OUT_LEN` of mailbox `s`, `CAP` and `ARB`. Nothing else changes but the model's counter of free
values, which an `ARB` read of a holder that is not valid draws from (log 21). The mailbox of a
session whose command is in execution is not read: its host takes no step then (R7), and a model
refuses another owner (U1, log 18). A number that R13 and R14 do not give is no register (log 23). -/
def Obligations.HostReads : Prop :=
  ∀ (st : State) (rest : List BusEvent) (reg : Nat), st.pendingOp = none →
    st.eng.params.Valid → st.bus = .hostRead reg :: rest →
    (∀ s < st.eng.params.nSessions, st.inFlight s = none →
      (reg = 0x100 * s → step st = .next { st with
        bus := rest, readData := 0, eng := { st.eng with fresh := st.eng.fresh + 1 } }) ∧
      (∀ i : Fin 9, reg = 0x100 * s + 1 + i → step st = .next { st with
        bus := rest, readData := (st.mailbox s).args[i]
        eng := { st.eng with fresh := st.eng.fresh + 1 } }) ∧
      (reg = 0x100 * s + 0x0A → step st = .next { st with
        bus := rest, readData := (st.mailbox s).status.setWidth 64
        eng := { st.eng with fresh := st.eng.fresh + 1 } }) ∧
      (reg = 0x100 * s + 0x0B → step st = .next { st with
        bus := rest, readData := (st.mailbox s).outLen
        eng := { st.eng with fresh := st.eng.fresh + 1 } })) ∧
    (∀ s < st.eng.params.nSessions, st.inFlight s ≠ none →
      ∀ n ≤ 0x0B, reg = 0x100 * s + n → step st = .refused .secondOwner) ∧
    (reg = 0xFF00 → step st = .next { st with
      bus := rest, readData := capValue st.eng.params
      eng := { st.eng with fresh := st.eng.fresh + 1 } }) ∧
    (reg = 0xFF01 → step st = .next { st with
      bus := rest, readData := arbValue st.eng.arb (Config.anyHolder st.eng.fresh)
      eng := { st.eng with fresh := st.eng.fresh + 1 } }) ∧
    (reg ≠ 0xFF00 → reg ≠ 0xFF01 →
      st.eng.params.nSessions ≤ reg / 0x100 ∨ 0x0B < reg % 0x100 →
      step st = .fault .noSuchRegister)

/-- What a host's write does at each register number (R13, R14), `CMD` of an idle session apart
(`StepRunsDecoded`, `IllegalWordChangesStatusOnly`): `ARG[i]` of an idle session takes the value; a
write to `STATUS` or `OUT_LEN` of one, or to `CAP` or `ARB`, is ignored. No register of a session
whose command is in execution, `CMD` included, is written: its host takes no step then (R7), and a
model refuses another owner (U1, log 18). A number that R13 and R14 do not give is no register
(log 23). -/
def Obligations.HostWrites : Prop :=
  ∀ (st : State) (rest : List BusEvent) (reg : Nat) (v : W64), st.pendingOp = none →
    st.eng.params.Valid → st.bus = .hostWrite reg v :: rest →
    (∀ s < st.eng.params.nSessions, st.inFlight s = none →
      (∀ i : Fin 9, reg = 0x100 * s + 1 + i → step st = .next { st with
        bus := rest
        mbox := st.mbox.set s { st.mailbox s with args := (st.mailbox s).args.set i v } }) ∧
      (reg = 0x100 * s + 0x0A ∨ reg = 0x100 * s + 0x0B → step st = .next { st with bus := rest })) ∧
    (∀ s < st.eng.params.nSessions, st.inFlight s ≠ none →
      ∀ n ≤ 0x0B, reg = 0x100 * s + n → step st = .refused .secondOwner) ∧
    (reg = 0xFF00 ∨ reg = 0xFF01 → step st = .next { st with bus := rest }) ∧
    (reg ≠ 0xFF00 → reg ≠ 0xFF01 →
      st.eng.params.nSessions ≤ reg / 0x100 ∨ 0x0B < reg % 0x100 →
      step st = .fault .noSuchRegister)

/-- The fields of `CAP` and `ARB` (R14): each field holds what it shows and every other bit is 0,
for every number of sessions R4 allows and every arbiter whose numbers fit their fields. The holder
field while the mutex is free is a free value (log 21). -/
def Obligations.CapArbFields : Prop :=
  (∀ p : Params, p.Valid →
    (capValue p).getLsbD 0 = (p.strategy == .b) ∧ (capValue p).getLsbD 1 = p.hasHwKey ∧
    ((capValue p).extractLsb' 8 8).toNat = p.nSessions ∧
    (∀ k, 2 ≤ k → k < 8 ∨ 16 ≤ k → (capValue p).getLsbD k = false)) ∧
  (∀ (a : Arbiter) (free : BitVec 8), a.refcount < 256 →
    ((arbValue a free).extractLsb' 0 8).toNat = a.refcount ∧
    (arbValue a free).getLsbD 8 = a.mutexExists ∧
    (arbValue a free).getLsbD 9 = a.holder.isSome ∧
    (∀ s, a.holder = some s → s < 256 → ((arbValue a free).extractLsb' 16 8).toNat = s) ∧
    (a.holder = none → (arbValue a free).extractLsb' 16 8 = free) ∧
    (∀ k, 10 ≤ k → k < 16 ∨ 24 ≤ k → (arbValue a free).getLsbD k = false))

/-! ### Buffer memory -/

/-- A byte written is read back and every other byte reads as before, and the canonical form is kept
(R20; the form is the model's, log 3). -/
def Obligations.MemoryReadAfterWrite : Prop :=
  ∀ (m : Memory) (a : Nat) (v : Byte), m.wf = true →
    (m.write a v).wf = true ∧ ∀ x, (m.write a v).read x = if x = a then v else m.read x

/-- A byte string written over a range is what the range then holds, bytes outside it are unchanged,
and two memories in canonical form that read alike at every address are the same data (the form is
the model's, log 3). -/
def Obligations.MemoryStrings : Prop :=
  (∀ (m : Memory) (a : Nat) (l : List Byte), m.wf = true →
    (m.writeBytes a l).wf = true ∧ (m.writeBytes a l).readBytes a l.length = l ∧
    ∀ x, x < a ∨ a + l.length ≤ x → (m.writeBytes a l).read x = m.read x) ∧
  (∀ m m' : Memory, m.wf = true → m'.wf = true → (∀ x, m.read x = m'.read x) → m = m')

/-! ### Lifecycle commands -/

/-- `INIT` (R61): on an `Uninit` context it completes with `OK`, the context cleared and `Unkeyed`,
the count one higher, the mutex created if the count was 0; on any other context it ends with
`BadInput(SEQUENCE)`. Nothing else changes. -/
def Obligations.InitCompletes : Prop :=
  ∀ st : State, st.Idle →
    (st.own.phase = .uninit →
      st.eng.arb.mutexExists = decide (0 < st.eng.arb.refcount) →
      exec .init st = .next (st.okAfter
        { st.eng with
          ctxs := st.eng.ctxs.set st.cur { Ctx.zero with phase := .unkeyed }
          arb :=
            { refcount := st.eng.arb.refcount + 1
              mutexExists := true
              holder := if st.eng.arb.refcount = 0 then none else st.eng.arb.holder }
          history := (if st.eng.arb.refcount = 0 then [⟨st.cur, 0x20⟩] else []) ++
            st.eng.history } none)) ∧
    (st.own.phase ≠ .uninit → exec .init st = .next (st.rejected .init 0x021))

/-- `FREE` (R62): on an `Uninit` context it completes and changes nothing but `STATUS`; on any other
it clears the whole context, lowers the count and destroys the mutex when the count becomes 0; when
the session has a saved image the accelerator is blanked. The mutex has to be free only for blanking
the accelerator and for being destroyed: a session without a saved image is freed while another
session holds the mutex. -/
def Obligations.FreeCompletes : Prop :=
  ∀ st : State, st.Idle →
    (st.own.phase = .uninit → exec .free st = .next (st.okAfter st.eng none)) ∧
    (st.own.phase ≠ .uninit → (st.own.imageValid = true → st.MutexFree) →
      (st.eng.arb.refcount ≤ 1 → st.MutexFree) →
      ∃ h, exec .free st = .next (st.okAfter
        { st.eng with
          ctxs := st.eng.ctxs.set st.cur Ctx.zero
          arb :=
            { refcount := st.eng.arb.refcount - 1
              mutexExists := st.eng.arb.mutexExists && decide (1 < st.eng.arb.refcount)
              holder := st.eng.arb.holder }
          live := if st.own.imageValid then Image.blank else st.eng.live
          history := h ++ st.eng.history } none))

/-- `SETKEY` under strategy B (R63), when its checks pass, the mutex is free and the accelerator does
not fail: the key is bound (the image and the table of `H = E(K, 00^16)`) and the phase is `Keyed`;
every other field of the context, and everything else, is unchanged. -/
def Obligations.SetkeyCompletesB : Prop :=
  ∀ (st : State) (rest : List Answer), st.Idle → st.eng.params.strategy = .b →
    st.own.phase ≠ .uninit → st.args[0] = 1 →
    st.args[2] = 128 ∨ st.args[2] = 192 ∨ st.args[2] = 256 ∨
      st.args[2] = 0 ∧ st.eng.params.hasHwKey = true →
    fits st.eng.params st.args[1].toNat (st.args[2].toNat / 8) → st.MutexFree →
    st.eng.answers = List.replicate 3 .done ++ rest →
    ∃ (h : List HistoryEntry) (img : Image),
      img = { Image.blank with
        configured := true, mode := .ecb, keyBits := st.args[2].setWidth 9
        key := st.eng.mem.readBytes st.args[1].toNat (st.args[2].toNat / 8) } ∧
      exec .setkey st = .next (st.okAfter
        { st.eng with
          ctxs := st.eng.ctxs.set st.cur { st.own with
            phase := .keyed, image := img, imageValid := true
            table := ghashBuild (cipherE (imageKey img) 0) }
          live := img
          answers := rest
          history := h ++ st.eng.history } none)

/-- `SETKEY` under strategy A (R74): as under B, with the adapter in mode GCM and no table. -/
def Obligations.SetkeyCompletesA : Prop :=
  ∀ (st : State) (rest : List Answer), st.Idle → st.eng.params.strategy = .a →
    st.own.phase ≠ .uninit → st.args[0] = 1 →
    st.args[2] = 128 ∨ st.args[2] = 192 ∨ st.args[2] = 256 →
    fits st.eng.params st.args[1].toNat (st.args[2].toNat / 8) → st.MutexFree →
    st.eng.answers = List.replicate 2 .done ++ rest →
    ∃ (h : List HistoryEntry) (img : Image),
      img = { Image.blank with
        configured := true, mode := .gcm, keyBits := st.args[2].setWidth 9
        key := st.eng.mem.readBytes st.args[1].toNat (st.args[2].toNat / 8) } ∧
      exec .setkey st = .next (st.okAfter
        { st.eng with
          ctxs := st.eng.ctxs.set st.cur { st.own with
            phase := .keyed, image := img, imageValid := true }
          live := img
          answers := rest
          history := h ++ st.eng.history } none)

/-! ### Streaming commands -/

/-- `STARTS` under strategy B (R64), in each of the six phases that accept it: the direction, the
pre-counter block and `E(K, Y0)` are set, the accumulator, the lengths and the header registers are
zero, the phase is `Started`; table and image are not touched. -/
def Obligations.StartsCompletesB : Prop :=
  ∀ (dir : Direction) (st : State) (rest : List Answer), st.Idle →
    st.eng.params.strategy = .b → st.own.phase ≠ .uninit → st.own.phase ≠ .unkeyed →
    st.args[1] = 12 → fits st.eng.params st.args[0].toNat 12 → st.MutexFree →
    st.own.imageValid = true → st.own.image.configured = true → st.own.image.mode = .ecb →
    st.eng.answers = List.replicate 3 .done ++ rest →
    ∃ (h : List HistoryEntry) (y0 : Block),
      y0 = preCounter (st.eng.mem.readBytes st.args[0].toNat 12) ∧
      exec (.starts dir) st = .next (st.okAfter
        { st.eng with
          ctxs := st.eng.ctxs.set st.cur { st.own with
            phase := .started, direction := dir, y := y0
            baseEctr := cipherE (imageKey st.own.image) y0
            buf := 0, len := 0, addLen := 0, tagLen := 0
            hdrAddr := 0, hdrLen := 0, hdrPending := false }
          live := st.own.image
          answers := rest
          history := h ++ st.eng.history } none)

/-- `STARTS` under strategy A (R75): the accelerator's message state is begun in the saved image. -/
def Obligations.StartsCompletesA : Prop :=
  ∀ (dir : Direction) (st : State) (rest : List Answer), st.Idle →
    st.eng.params.strategy = .a → st.own.phase ≠ .uninit → st.own.phase ≠ .unkeyed →
    st.args[1] = 12 → fits st.eng.params st.args[0].toNat 12 → st.MutexFree →
    st.own.imageValid = true → st.own.image.configured = true → st.own.image.mode = .gcm →
    st.eng.answers = List.replicate 3 .done ++ rest →
    ∃ (h : List HistoryEntry) (y0 : Block) (img : Image),
      y0 = preCounter (st.eng.mem.readBytes st.args[0].toNat 12) ∧
      img = { st.own.image with
        gActive := true, gDir := dir, gY := y0, gAcc := 0
        gEctr0 := cipherE (imageKey st.own.image) y0 } ∧
      exec (.starts dir) st = .next (st.okAfter
        { st.eng with
          ctxs := st.eng.ctxs.set st.cur { st.own with
            phase := .started, direction := dir, y := y0, image := img
            len := 0, addLen := 0, tagLen := 0
            hdrAddr := 0, hdrLen := 0, hdrPending := false }
          live := img
          answers := rest
          history := h ++ st.eng.history } none)

/-- `UPDATE_AD` under strategy B, for both policies (R65, R70): the bytes are absorbed one after
another, the length grows by `aad_len`, the phase is `AbsorbingAAD`; neither the adapter nor the
mutex nor memory is touched. -/
def Obligations.UpdateAdCompletesB : Prop :=
  ∀ st : State, st.Idle → st.eng.params.strategy = .b →
    st.own.phase = .started ∨ st.own.phase = .absorbingAAD →
    st.own.addLen.toNat + st.args[1].toNat < 2 ^ 61 →
    fits st.eng.params st.args[0].toNat st.args[1].toNat →
    ∃ h : List HistoryEntry,
      exec .updateAd st = .next (st.okAfter
        { st.eng with
          ctxs := st.eng.ctxs.set st.cur { st.own with
            phase := .absorbingAAD
            addLen := st.own.addLen + st.args[1]
            buf := absorbCall st.eng.params.policy st.own.table st.own.addLen.toNat
              (st.eng.mem.readBytes st.args[0].toNat st.args[1].toNat) st.own.buf }
          history := h ++ st.eng.history } none)

/-- `UPDATE_AD` under strategy A (R76): address and length of a non-empty AAD are staged, nothing is
read; an empty one moves the phase alone. -/
def Obligations.UpdateAdCompletesA : Prop :=
  ∀ st : State, st.Idle → st.eng.params.strategy = .a →
    st.own.phase = .started ∨ st.own.phase = .absorbingAAD →
    st.own.addLen.toNat + st.args[1].toNat < 2 ^ 61 →
    st.args[1] = 0 ∨ st.own.hdrPending = false →
    fits st.eng.params st.args[0].toNat st.args[1].toNat →
    exec .updateAd st = .next (st.okAfter
      { st.eng with
        ctxs := st.eng.ctxs.set st.cur { st.own with
          phase := .absorbingAAD
          addLen := st.own.addLen + st.args[1]
          hdrAddr := if st.args[1] = 0 then st.own.hdrAddr else st.args[0].toNat
          hdrLen := if st.args[1] = 0 then st.own.hdrLen else st.args[1]
          hdrPending := if st.args[1] = 0 then st.own.hdrPending else true } } none)

/-- `UPDATE` under strategy B, for both policies (R68, R70), when its checks pass, the mutex is free,
the key is bound and the accelerator does not fail: the output is the input XORed with the keystream
of the counter blocks, computed from the input as it was before the command even where the output
overlaps it; the ciphertext is absorbed, the AAD phase being closed first if this is the message's
first `UPDATE`; counter, length and phase move; `OUT_LEN` is `input_len`. Memory outside the output,
and everything else, is unchanged. -/
def Obligations.UpdateCompletesB : Prop :=
  ∀ (st : State) (rest : List Answer) (x o : List Byte) (off n : Nat), st.Idle →
    st.eng.params.strategy = .b →
    st.own.phase = .started ∨ st.own.phase = .absorbingAAD ∨ st.own.phase = .absorbingPayload →
    ¬ (st.args[0].toNat < st.args[2].toNat ∧
      st.args[2].toNat - st.args[0].toNat < st.args[1].toNat) →
    st.own.len.toNat + st.args[1].toNat ≤ 2 ^ 36 - 32 → st.args[1].toNat ≤ st.args[3].toNat →
    fits st.eng.params st.args[0].toNat st.args[1].toNat →
    fits st.eng.params st.args[2].toNat st.args[1].toNat → st.args[1] = 0 ∨ st.MutexFree →
    st.own.imageValid = true → st.own.image.configured = true → st.own.image.mode = .ecb →
    st.eng.mem.wf = true → n = st.args[1].toNat →
    off = openOffset st.eng.params.policy st.own.len.toNat →
    st.eng.answers = List.replicate (updateDrawsB off n) .done ++ rest →
    x = st.eng.mem.readBytes st.args[0].toNat n →
    o = cryptBytes (imageKey st.own.image) off st.own.y x →
    ∃ h : List HistoryEntry,
      exec .update st = .next (st.okAfter
        { st.eng with
          ctxs := st.eng.ctxs.set st.cur { st.own with
            phase := .absorbingPayload
            y := counterAfter off st.own.y n
            len := st.own.len + st.args[1]
            buf := absorbCall st.eng.params.policy st.own.table st.own.len.toNat
              (ciphertext st.own.direction x o)
              (if st.own.phase = .absorbingPayload then st.own.buf
                else closePhase st.eng.params.policy st.own.table st.own.addLen.toNat
                  st.own.buf) }
          mem := st.eng.mem.writeBytes st.args[2].toNat o
          live := if n = 0 then st.eng.live else st.own.image
          answers := rest
          history := h ++ st.eng.history } (some st.args[1]))

/-- `UPDATE` under strategy A (R77, R78): the accelerator's counter, accumulator and output over the
whole input, in the aligned part and the padded remainder alike; a staged header is absorbed before
the first of them, from the memory as it is at this command, and is no longer staged. -/
def Obligations.UpdateCompletesA : Prop :=
  ∀ (st : State) (rest : List Answer) (x o a : List Byte) (n : Nat), st.Idle →
    st.eng.params.strategy = .a →
    st.own.phase = .started ∨ st.own.phase = .absorbingAAD ∨ st.own.phase = .absorbingPayload →
    ¬ (st.args[0].toNat < st.args[2].toNat ∧
      st.args[2].toNat - st.args[0].toNat < st.args[1].toNat) →
    st.own.len.toNat + st.args[1].toNat ≤ 2 ^ 36 - 32 → st.args[1].toNat ≤ st.args[3].toNat →
    st.args[1] = 0 ∨ st.own.len.toNat % 16 = 0 →
    fits st.eng.params st.args[0].toNat st.args[1].toNat →
    fits st.eng.params st.args[2].toNat st.args[1].toNat → st.args[1] = 0 ∨ st.MutexFree →
    st.own.imageValid = true → st.own.image.configured = true → st.own.image.mode = .gcm →
    st.own.image.gActive = true → st.own.headerOk st.eng.params →
    st.eng.mem.wf = true → n = st.args[1].toNat →
    st.eng.answers = List.replicate (updateDrawsA st.own.hdrPending n) .done ++ rest →
    x = st.eng.mem.readBytes st.args[0].toNat n →
    o = cryptBytes (imageKey st.own.image) 0 st.own.image.gY x →
    a = (if st.own.hdrPending then
      st.eng.mem.readBytes st.own.hdrAddr st.own.hdrLen.toNat else []) →
    ∃ (h : List HistoryEntry) (img : Image),
      img = (if n = 0 then st.own.image else { st.own.image with
        gY := counterAfter 0 st.own.image.gY n
        gAcc := ghashFrom (imageSubkey st.own.image) st.own.image.gAcc
          (padBlocks a ++ padBlocks (ciphertext st.own.image.gDir x o)) }) ∧
      exec .update st = .next (st.okAfter
        { st.eng with
          ctxs := st.eng.ctxs.set st.cur { st.own with
            phase := .absorbingPayload
            y := counterAfter 0 st.own.y n
            len := st.own.len + st.args[1]
            image := img
            hdrPending := if n = 0 then st.own.hdrPending else false }
          mem := st.eng.mem.writeBytes st.args[2].toNat o
          live := if n = 0 then st.eng.live else img
          answers := rest
          history := h ++ st.eng.history } (some st.args[1]))

/-- `FINISH` under strategy B, for both policies (R69, R70): the open block is closed, the length
block absorbed, and the first `tag_len` bytes of `T = E(K, Y0) ^ buf` written; the phase is
`Finished`, `OUT_LEN` is 0. The adapter is not touched. -/
def Obligations.FinishCompletesB : Prop :=
  ∀ (st : State) (g : Block), st.Idle → st.eng.params.strategy = .b →
    st.own.phase = .started ∨ st.own.phase = .absorbingAAD ∨ st.own.phase = .absorbingPayload →
    4 ≤ st.args[3].toNat → st.args[3].toNat ≤ 16 →
    fits st.eng.params st.args[2].toNat st.args[3].toNat →
    g = ghashMult st.own.table
      (closePhase st.eng.params.policy st.own.table
        (if st.own.phase = .absorbingPayload then st.own.len.toNat else st.own.addLen.toNat)
        st.own.buf ^^^ lengthBlock st.own.addLen st.own.len) →
    ∃ h : List HistoryEntry,
      exec .finish st = .next (st.okAfter
        { st.eng with
          ctxs := st.eng.ctxs.set st.cur { st.own with
            phase := .finished, buf := g, tagLen := st.args[3].setWidth 5 }
          mem := st.eng.mem.writeBytes st.args[2].toNat
            ((bytesOfBlock (st.own.baseEctr ^^^ g)).take st.args[3].toNat)
          history := h ++ st.eng.history } (some 0))

/-- `FINISH` under strategy A (R77, R79): the accelerator's tag over a header that is still staged
and the two bit counts. -/
def Obligations.FinishCompletesA : Prop :=
  ∀ (st : State) (rest : List Answer) (a : List Byte) (g : Block), st.Idle →
    st.eng.params.strategy = .a →
    st.own.phase = .started ∨ st.own.phase = .absorbingAAD ∨ st.own.phase = .absorbingPayload →
    st.args[3] = 16 → fits st.eng.params st.args[2].toNat 16 → st.MutexFree →
    st.own.imageValid = true → st.own.image.configured = true → st.own.image.mode = .gcm →
    st.own.image.gActive = true → st.own.headerOk st.eng.params →
    st.eng.answers =
      List.replicate (if st.own.hdrPending = true then 4 else 3) .done ++ rest →
    a = (if st.own.hdrPending then
      st.eng.mem.readBytes st.own.hdrAddr st.own.hdrLen.toNat else []) →
    g = ghashFrom (imageSubkey st.own.image) st.own.image.gAcc
      (padBlocks a ++ [lengthBlock st.own.addLen st.own.len]) →
    ∃ (h : List HistoryEntry) (img : Image),
      img = { st.own.image with gAcc := g, gActive := false } ∧
      exec .finish st = .next (st.okAfter
        { st.eng with
          ctxs := st.eng.ctxs.set st.cur { st.own with
            phase := .finished, image := img, hdrPending := false, tagLen := 16 }
          mem := st.eng.mem.writeBytes st.args[2].toNat
            (bytesOfBlock (g ^^^ st.own.image.gEctr0))
          live := img
          answers := rest
          history := h ++ st.eng.history } (some 0))

/-! ### The composites -/

/-- `CRYPT_AND_TAG` computes GCM (R71, R80, R91), under both strategies and both policies: with `K`
the bound key and `Y0 = IV ‖ 00 00 00 01`, the output is the input XORed with `E(K, Y1), E(K, Y2),
...`, and the tag written is the first `tag_len` bytes of `E(K, Y0) ^ GHASH(H, pad(A) ‖ pad(C) ‖
lengths)`. The context ends `Finished` with the direction, the lengths, the tag length and the counter
of the message and the key still bound; no other context and no other byte of memory changes. -/
def Obligations.CryptAndTagIsGcm : Prop :=
  ∀ (dir : Direction) (st : State) (rest : List Answer) (key a x o : List Byte) (y0 : Block)
    (n : Nat), st.Idle →
    st.own.phase ≠ .uninit → st.own.phase ≠ .unkeyed → st.own.Bound st.eng.params →
    st.args[2] = 12 → st.args[4].toNat < 2 ^ 61 →
    ¬ (st.args[5].toNat < st.args[6].toNat ∧
      st.args[6].toNat - st.args[5].toNat < st.args[0].toNat) →
    st.args[0].toNat ≤ 2 ^ 36 - 32 → tagLenOk st.eng.params st.args[7] = true →
    fits st.eng.params st.args[1].toNat 12 →
    fits st.eng.params st.args[3].toNat st.args[4].toNat →
    fits st.eng.params st.args[5].toNat st.args[0].toNat →
    fits st.eng.params st.args[6].toNat st.args[0].toNat →
    fits st.eng.params st.args[8].toNat st.args[7].toNat → st.MutexFree →
    st.eng.mem.wf = true → n = st.args[0].toNat →
    st.eng.answers =
      List.replicate (compositeDraws st.eng.params st.args[4].toNat n) .done ++ rest →
    key = imageKey st.own.image →
    y0 = preCounter (st.eng.mem.readBytes st.args[1].toNat 12) →
    a = st.eng.mem.readBytes st.args[3].toNat st.args[4].toNat →
    x = st.eng.mem.readBytes st.args[5].toNat n → o = cryptBytes key 0 y0 x →
    ∃ (h : List HistoryEntry) (c : Ctx) (live : Image),
      exec (.cryptAndTag dir) st = .next (st.okAfter
        { st.eng with
          ctxs := st.eng.ctxs.set st.cur c
          mem := (st.eng.mem.writeBytes st.args[6].toNat o).writeBytes st.args[8].toNat
            ((bytesOfBlock (gcmTag key y0 a (ciphertext dir x o))).take st.args[7].toNat)
          live := live
          answers := rest
          history := h ++ st.eng.history } (some st.args[0])) ∧
      c.phase = .finished ∧ c.direction = dir ∧ c.len = st.args[0] ∧ c.addLen = st.args[4] ∧
      c.tagLen = st.args[7].setWidth 5 ∧ c.y = counterAfter 0 y0 n ∧
      c.Bound st.eng.params ∧ imageKey c.image = key ∧ c.hdrPending = false

/-- `AUTH_DECRYPT` (R71, R89, R92, R99), under both strategies and both policies: the supplied tag is
compared with the first `tag_len` bytes of the tag that GCM gives for the ciphertext. On a match the
output is the plaintext and the status `OK`; on a mismatch all output bytes are zero, the status is
`AuthenticationFailed(TAG_MISMATCH)` and `OUT_LEN` is a free value (log 8). Either way the context ends
`Finished` with the key still bound, and no byte outside the output changes. -/
def Obligations.AuthDecryptVerifies : Prop :=
  ∀ (st : State) (rest : List Answer) (key a x o tag expected : List Byte) (y0 : Block) (n : Nat),
    st.Idle → st.own.phase ≠ .uninit → st.own.phase ≠ .unkeyed → st.own.Bound st.eng.params →
    st.args[2] = 12 → st.args[4].toNat < 2 ^ 61 →
    ¬ (st.args[7].toNat < st.args[8].toNat ∧
      st.args[8].toNat - st.args[7].toNat < st.args[0].toNat) →
    st.args[0].toNat ≤ 2 ^ 36 - 32 → tagLenOk st.eng.params st.args[6] = true →
    fits st.eng.params st.args[1].toNat 12 →
    fits st.eng.params st.args[3].toNat st.args[4].toNat →
    fits st.eng.params st.args[5].toNat st.args[6].toNat →
    fits st.eng.params st.args[7].toNat st.args[0].toNat →
    fits st.eng.params st.args[8].toNat st.args[0].toNat → st.MutexFree →
    st.eng.mem.wf = true → n = st.args[0].toNat →
    st.eng.answers =
      List.replicate (compositeDraws st.eng.params st.args[4].toNat n) .done ++ rest →
    key = imageKey st.own.image →
    y0 = preCounter (st.eng.mem.readBytes st.args[1].toNat 12) →
    a = st.eng.mem.readBytes st.args[3].toNat st.args[4].toNat →
    x = st.eng.mem.readBytes st.args[7].toNat n → o = cryptBytes key 0 y0 x →
    tag = (bytesOfBlock (gcmTag key y0 a x)).take st.args[6].toNat →
    expected = (st.eng.mem.writeBytes st.args[8].toNat o).readBytes st.args[5].toNat
      st.args[6].toNat →
    ∃ (h : List HistoryEntry) (c : Ctx) (live : Image) (e : Engine),
      e = { st.eng with
        ctxs := st.eng.ctxs.set st.cur c
        live := live
        answers := rest
        history := h ++ st.eng.history } ∧
      c.phase = .finished ∧ c.direction = .dec ∧ c.len = st.args[0] ∧ c.addLen = st.args[4] ∧
      c.tagLen = st.args[6].setWidth 5 ∧ c.Bound st.eng.params ∧ imageKey c.image = key ∧
      exec .authDecrypt st = .next
        (if tag = expected then
          st.okAfter { e with mem := st.eng.mem.writeBytes st.args[8].toNat o }
            (some st.args[0])
        else
          { st with
            eng := { e with
              mem := st.eng.mem.writeBytes st.args[8].toNat (List.replicate n 0)
              fresh := st.eng.fresh + 1 }
            mbox := st.mbox.set st.cur { st.mailbox st.cur with
              status := 0x604, outLen := Config.anyWord st.eng.fresh } })

/-- No unauthenticated plaintext (R92, R98, R99): whatever the adapter answers, an `AUTH_DECRYPT` that
has ended with a status other than `OK` leaves memory as it was, or with every byte of its output
zero and every other byte as it was. (It is about a command that `exec` runs to its end with no other
agent moving, log 12, not one that has waited for the mutex.) -/
def Obligations.AuthDecryptReleasesNothing : Prop :=
  ∀ st t : State, st.Idle → st.eng.mem.wf = true → exec .authDecrypt st = .next t →
    t.inFlight st.cur = none → (t.mailbox st.cur).status ≠ 0 →
    t.eng.mem = st.eng.mem ∨
      t.eng.mem = st.eng.mem.writeBytes st.args[8].toNat (List.replicate st.args[0].toNat 0)

/-- The round trip (R71): what `CRYPT_AND_TAG` encrypts, an `AUTH_DECRYPT` of the output it wrote,
with the tag it wrote, the same IV and the same AAD, accepts, and its output is the plaintext. The
output is any buffer that fits (R20), that R24 admits for the input and that does not overlap the
tag; the IV, the AAD and the ciphertext are not overwritten by `CRYPT_AND_TAG`. -/
def Obligations.DecryptOfEncrypt : Prop :=
  ∀ (st t : State) (x : List Byte) (n k : Nat) (out : W64),
    st.Idle → st.own.phase ≠ .uninit → st.own.phase ≠ .unkeyed → st.own.Bound st.eng.params →
    st.MutexFree → st.eng.mem.wf = true → n = st.args[0].toNat →
    checkCryptAndTag st.eng.params st.own st.args = none →
    st.eng.answers = List.replicate k .done →
    2 * compositeDraws st.eng.params st.args[4].toNat n ≤ k →
    x = st.eng.mem.readBytes st.args[5].toNat n →
    -- `CRYPT_AND_TAG` writes nothing over the IV and the AAD, and its tag not over its output
    (∀ b m, b = st.args[6].toNat ∧ m = n ∨ b = st.args[8].toNat ∧ m = st.args[7].toNat →
      apart b m st.args[1].toNat 12 ∧ apart b m st.args[3].toNat st.args[4].toNat) →
    apart st.args[6].toNat n st.args[8].toNat st.args[7].toNat →
    -- the output of `AUTH_DECRYPT`
    fits st.eng.params out.toNat n → apart out.toNat n st.args[8].toNat st.args[7].toNat →
    ¬ (st.args[6].toNat < out.toNat ∧ out.toNat - st.args[6].toNat < n) →
    exec (.cryptAndTag .enc) st = .next t →
    ∃ u : State,
      exec .authDecrypt (t.setMailbox t.cur { t.mailbox t.cur with
        args := #v[st.args[0], st.args[1], st.args[2], st.args[3], st.args[4], st.args[8],
          st.args[7], st.args[6], out] }) = .next u ∧
      (u.mailbox st.cur).status = 0 ∧ u.eng.mem.readBytes out.toNat n = x

/-- Streaming (R71, the source's streaming equivalence), strategy B under `CARRY`: one `UPDATE` of
`a + b` bytes and two of `a` and of `b` bytes over the same buffers, none of them failing, leave the
session's context and the memory the same. -/
def Obligations.StreamingUpdate : Prop :=
  ∀ (st t u w : State) (i o a b : W64) (k : Nat),
    st.Idle → st.eng.params.strategy = .b → st.eng.params.policy = .carry →
    st.own.phase = .started ∨ st.own.phase = .absorbingAAD ∨ st.own.phase = .absorbingPayload →
    st.own.imageValid = true → st.own.image.configured = true → st.own.image.mode = .ecb →
    st.MutexFree → st.eng.mem.wf = true → st.eng.answers = List.replicate k .done →
    st.own.len.toNat + a.toNat + b.toNat ≤ 2 ^ 36 - 32 →
    i.toNat + a.toNat + b.toNat ≤ 2 ^ st.eng.params.addrBits →
    o.toNat + a.toNat + b.toNat ≤ 2 ^ st.eng.params.addrBits →
    i.toNat + a.toNat < 2 ^ 64 → o.toNat + a.toNat < 2 ^ 64 →
    (o.toNat ≤ i.toNat ∨ i.toNat + a.toNat + b.toNat ≤ o.toNat) →
    updateDrawsB (st.own.len.toNat % 16) a.toNat +
      updateDrawsB ((st.own.len.toNat + a.toNat) % 16) b.toNat ≤ k →
    st.args = #v[i, a, o, a, 0, 0, 0, 0, 0] → exec .update st = .next t →
    exec .update (t.setMailbox t.cur { t.mailbox t.cur with
      args := #v[i + a, b, o + a, b, 0, 0, 0, 0, 0] }) = .next u →
    exec .update (st.setMailbox st.cur { st.mailbox st.cur with
      args := #v[i, a + b, o, a + b, 0, 0, 0, 0, 0] }) = .next w →
    (u.mailbox st.cur).status = 0 ∧ (w.mailbox st.cur).status = 0 ∧
      u.own = w.own ∧ u.eng.mem = w.eng.mem

/-! ### Rejections -/

/-- `BadInput` and `UnsupportedFeature` (R97). A command whose first failing check has cause `c`
completes with the status of `c`, whose class is one of those two, and changes nothing but `STATUS`
and, where the command has one, `OUT_LEN` (a free value, log 8): no context, nothing of the arbiter, of the
adapter or of memory; no answer of the accelerator is taken and no operation is performed. And a
command that has ended with one of those two classes, whatever the accelerator answered, has changed
nothing else. -/
def Obligations.RejectionChangesStatusOnly : Prop :=
  (∀ (i : Instr) (cmd : Command) (st : State) (c : Cause), commandOf i = some cmd → st.Idle →
    cmd.check st.eng.params st.own st.args = some c →
    exec i st = .next (st.rejected i (statusWord c)) ∧
      (statusWord c &&& 0xF = 1 ∨ statusWord c &&& 0xF = 2)) ∧
  (∀ (i : Instr) (cmd : Command) (st t : State), commandOf i = some cmd → st.Idle →
    exec i st = .next t → t.inFlight st.cur = none →
    (t.mailbox st.cur).status &&& 0xF = 1 ∨ (t.mailbox st.cur).status &&& 0xF = 2 →
    t = st.rejected i (t.mailbox st.cur).status)

/-- The checks of `SETKEY` (R63, R74) and of `STARTS` (R64, R75) in their order, with the status words
of R94 and R95. -/
def Obligations.SetkeyStartsRejections : Prop :=
  (∀ (st : State) (status : BitVec 32), st.Idle →
    status =
      (if st.own.phase = .uninit then 0x021
      else if st.args[0] ≠ 1 then 0x031
      else if st.args[2] = 0 ∧ (st.eng.params.strategy = .a ∨ st.eng.params.hasHwKey = false)
        then 0x242
      else if st.args[2] ≠ 0 ∧ st.args[2] ≠ 128 ∧ st.args[2] ≠ 192 ∧ st.args[2] ≠ 256 then 0x041
      else if ¬ fits st.eng.params st.args[1].toNat (st.args[2].toNat / 8) then 0x0B1
      else 0 : BitVec 32) →
    status ≠ 0 → exec .setkey st = .next (st.rejected .setkey status)) ∧
  (∀ (dir : Direction) (st : State) (status : BitVec 32), st.Idle →
    status =
      (if st.own.phase = .uninit ∨ st.own.phase = .unkeyed then 0x021
      else if st.args[1] ≠ 12 then 0x202
      else if ¬ fits st.eng.params st.args[0].toNat 12 then 0x0B1
      else 0 : BitVec 32) →
    status ≠ 0 → exec (.starts dir) st = .next (st.rejected (.starts dir) status))

/-- The checks of `UPDATE_AD` (R65, R76) and of `FINISH` (R69, R79) in their order; the AAD bound is
on the exact sum (R117). -/
def Obligations.UpdateAdFinishRejections : Prop :=
  (∀ (st : State) (status : BitVec 32), st.Idle →
    status =
      (if st.own.phase ≠ .started ∧ st.own.phase ≠ .absorbingAAD then 0x021
      else if 2 ^ 61 ≤ st.own.addLen.toNat + st.args[1].toNat then 0x061
      else if st.eng.params.strategy = .a ∧ st.args[1] ≠ 0 ∧ st.own.hdrPending = true then 0x232
      else if ¬ fits st.eng.params st.args[0].toNat st.args[1].toNat then 0x0B1
      else 0 : BitVec 32) →
    status ≠ 0 → exec .updateAd st = .next (st.rejected .updateAd status)) ∧
  (∀ (st : State) (status : BitVec 32), st.Idle →
    status =
      (if st.own.phase ≠ .started ∧ st.own.phase ≠ .absorbingAAD ∧
          st.own.phase ≠ .absorbingPayload then 0x021
      else if st.eng.params.strategy = .b ∧
          (st.args[3].toNat < 4 ∨ 16 < st.args[3].toNat) then 0x051
      else if st.eng.params.strategy = .a ∧ st.args[3] ≠ 16 then 0x212
      else if ¬ fits st.eng.params st.args[2].toNat st.args[3].toNat then 0x0B1
      else 0 : BitVec 32) →
    status ≠ 0 → exec .finish st = .next (st.rejected .finish status))

/-- The checks of `UPDATE` in the order of R101: `SEQUENCE`, `ALIAS`, `PAYLOAD_BOUND`, `OUTPUT_CAP`,
`PARTIAL_CHUNK_A` under strategy A, `ADDR_RANGE`; the bound is on the exact sum (R117). -/
def Obligations.UpdateRejections : Prop :=
  ∀ (st : State) (status : BitVec 32), st.Idle →
    status =
      (if st.own.phase ≠ .started ∧ st.own.phase ≠ .absorbingAAD ∧
          st.own.phase ≠ .absorbingPayload then 0x021
      else if st.args[0].toNat < st.args[2].toNat ∧
          st.args[2].toNat - st.args[0].toNat < st.args[1].toNat then 0x081
      else if 2 ^ 36 - 32 < st.own.len.toNat + st.args[1].toNat then 0x071
      else if st.args[3].toNat < st.args[1].toNat then 0x091
      else if st.eng.params.strategy = .a ∧ st.args[1] ≠ 0 ∧ st.own.len.toNat % 16 ≠ 0 then 0x222
      else if ¬ fits st.eng.params st.args[0].toNat st.args[1].toNat ∨
          ¬ fits st.eng.params st.args[2].toNat st.args[1].toNat then 0x0B1
      else 0 : BitVec 32) →
    status ≠ 0 → exec .update st = .next (st.rejected .update status)

/-- `PREVALIDATE` (R90), with the operands of each composite (R32): its checks in their order. -/
def Obligations.CompositeRejections : Prop :=
  ∀ (i : Instr) (st : State) (o : CompositeOperands) (status : BitVec 32), st.Idle →
    ((∃ dir, i = .cryptAndTag dir) ∧ o = cryptAndTagOperands st.args ∨
      i = .authDecrypt ∧ o = authDecryptOperands st.args) →
    status =
      (if st.own.phase = .uninit ∨ st.own.phase = .unkeyed then 0x021
      else if o.ivLen ≠ 12 then 0x202
      else if 2 ^ 61 ≤ o.aadLen.toNat then 0x061
      else if o.input.toNat < o.output.toNat ∧
          o.output.toNat - o.input.toNat < o.length.toNat then 0x081
      else if 2 ^ 36 - 32 < o.length.toNat then 0x071
      else if st.eng.params.strategy = .b ∧ (o.tagLen.toNat < 4 ∨ 16 < o.tagLen.toNat) then 0x051
      else if st.eng.params.strategy = .a ∧ o.tagLen ≠ 16 then 0x212
      else if ¬ fits st.eng.params o.iv.toNat 12 ∨
          ¬ fits st.eng.params o.aad.toNat o.aadLen.toNat ∨
          ¬ fits st.eng.params o.input.toNat o.length.toNat ∨
          ¬ fits st.eng.params o.output.toNat o.length.toNat ∨
          ¬ fits st.eng.params o.tag.toNat o.tagLen.toNat then 0x0B1
      else 0 : BitVec 32) →
    status ≠ 0 → exec i st = .next (st.rejected i status)

/-! ### Hardware failure -/

/-- What a hardware failure is and what it leaves (R45, R86, R96, R98), whichever port operation
fails. When a command's checks pass, the mutex is free and, where it uses a key, one is bound, and
the accelerator answers the command's first `k` port operations and not the next, whose code is `c`:
the command ends with class `HardwareFailure` and the cause of that operation and answer
(`RESUME_FAIL`, `SUSPEND_FAIL`, `TIMEOUT`, `ADAPTER_ERROR`; that a `CONFIGURE` can time out, log 9),
and no further operation takes an answer. And when a command has ended with that class, the arbiter
is as before the command (the mutex is released); of the contexts only the session's own has changed;
after `SETKEY` it is cleared and `Unkeyed`; after any other command its phase is `Failed` and the key
binding (image, `image_valid`, table) is as before the command, as R98 says also of a failure in a
later section of the command (log 10). -/
def Obligations.HardwareFailureEffect : Prop :=
  (∀ (i : Instr) (cmd : Command) (st : State) (k : Nat) (c : BitVec 8),
    commandOf i = some cmd → st.Idle → st.MutexFree →
    cmd.check st.eng.params st.own st.args = none →
    (i ≠ .setkey → st.own.Bound st.eng.params) →
    (i = .update ∨ i = .finish → st.eng.params.strategy = .a →
      st.own.image.gActive = true ∧ st.own.headerOk st.eng.params) →
    (st.portCodes i)[k]? = some c → (∀ j < k, st.eng.answers.getD j .timedOut = .done) →
    st.eng.answers.getD k .timedOut ≠ .done →
    ∃ t, exec i st = .next t ∧ t.inFlight st.cur = none ∧
      (t.mailbox st.cur).status = failureStatus c (st.eng.answers.getD k .timedOut) ∧
      t.eng.answers = st.eng.answers.drop (k + 1)) ∧
  (∀ (i : Instr) (cmd : Command) (st t : State), commandOf i = some cmd → st.Idle →
    exec i st = .next t → t.inFlight st.cur = none → (t.mailbox st.cur).status &&& 0xF = 3 →
    t.eng.arb = st.eng.arb ∧ (∀ s, s ≠ st.cur → t.eng.ctx s = st.eng.ctx s) ∧
    (i = .setkey → t.own = { Ctx.zero with phase := .unkeyed }) ∧
    (i ≠ .setkey → t.own.phase = .failed ∧ t.own.image = st.own.image ∧
      t.own.imageValid = st.own.imageValid ∧ t.own.table = st.own.table))

/-! ### Port operations -/

/-- `CONFIGURE`, `DEINITIALIZE`, `SUSPEND` and `RESUME` performed by the holder of the mutex, with the
accelerator answering (R41, R44, R46, R47): what the live image becomes and what is returned. -/
def Obligations.ImageOperations : Prop :=
  ∀ (st : State) (rest : List Answer), st.cur < st.eng.params.nSessions →
    st.eng.arb.holder = some st.cur →
    (exec .deinitialize st = .next (st.operated
      { st.eng with live := Image.blank, history := ⟨st.cur, 0x13⟩ :: st.eng.history } .unit)) ∧
    (st.eng.answers = .done :: rest →
      (st.opnd.keyBits = 0 ∨ st.opnd.keyBits = 128 ∨ st.opnd.keyBits = 192 ∨
          st.opnd.keyBits = 256 → st.opnd.key.length = st.opnd.keyBits.toNat / 8 →
        exec .configure st = .next (st.operated
          { st.eng with
            live :=
              { configured := true, keyBits := st.opnd.keyBits, key := st.opnd.key
                mode := st.opnd.mode, gActive := false, gDir := .enc, gY := 0, gEctr0 := 0
                gAcc := 0 }
            answers := rest
            history := ⟨st.cur, 0x10⟩ :: st.eng.history } (.bytes []))) ∧
      exec .suspend st = .next (st.operated
        { st.eng with answers := rest, history := ⟨st.cur, 0x14⟩ :: st.eng.history }
        (.image st.eng.live)) ∧
      exec .resume st = .next (st.operated
        { st.eng with
          live := st.opnd.img, answers := rest
          history := ⟨st.cur, 0x15⟩ :: st.eng.history } .unit))

/-- `ENCRYPT` and `DECRYPT` (R42, R43) performed by the holder of the mutex on a configured image in
mode ECB: block `k` of the result is `E`, respectively `D`, of block `k` of the operand under the
live image's key; the live image is unchanged; and `DECRYPT` of the result of `ENCRYPT` is the
operand (R5). -/
def Obligations.EncryptDecryptBlocks : Prop :=
  ∀ (st : State) (rest : List Answer), st.cur < st.eng.params.nSessions →
    st.eng.arb.holder = some st.cur → st.eng.answers = .done :: rest →
    st.eng.live.configured = true → st.eng.live.mode = .ecb →
    st.opnd.data.length ≠ 0 → st.opnd.data.length % 16 = 0 →
    ∃ r d : List Byte,
      exec .encrypt st = .next (st.operated
        { st.eng with answers := rest, history := ⟨st.cur, 0x11⟩ :: st.eng.history }
        (.bytes r)) ∧
      exec .decrypt st = .next (st.operated
        { st.eng with answers := rest, history := ⟨st.cur, 0x12⟩ :: st.eng.history }
        (.bytes d)) ∧
      r.length = st.opnd.data.length ∧ d.length = st.opnd.data.length ∧
      (∀ k < st.opnd.data.length / 16,
        blockOfBytes ((r.drop (16 * k)).take 16) = cipherE (imageKey st.eng.live)
          (blockOfBytes ((st.opnd.data.drop (16 * k)).take 16)) ∧
        blockOfBytes ((d.drop (16 * k)).take 16) = cipherD (imageKey st.eng.live)
          (blockOfBytes ((st.opnd.data.drop (16 * k)).take 16))) ∧
      exec .decrypt { st with opnd := { st.opnd with data := r } } =
        .next ({ st with opnd := { st.opnd with data := r } }.operated
          { st.eng with answers := rest, history := ⟨st.cur, 0x12⟩ :: st.eng.history }
          (.bytes st.opnd.data))

/-- `GCM_BEGIN` and `GCM_TAG` (R48, R51) performed by the holder of the mutex on a configured image in
mode GCM. -/
def Obligations.GcmBeginTag : Prop :=
  ∀ (st : State) (rest : List Answer), st.cur < st.eng.params.nSessions →
    st.eng.arb.holder = some st.cur → st.eng.answers = .done :: rest →
    st.eng.live.configured = true → st.eng.live.mode = .gcm →
    exec .gcmBegin st = .next (st.operated
      { st.eng with
        live := { st.eng.live with
          gActive := true, gDir := st.opnd.dir, gY := st.opnd.block
          gEctr0 := cipherE (imageKey st.eng.live) st.opnd.block, gAcc := 0 }
        answers := rest
        history := ⟨st.cur, 0x16⟩ :: st.eng.history } (.bytes [])) ∧
    (st.eng.live.gActive = true → ∃ g : Block,
      g = gfMult (st.eng.live.gAcc ^^^ blockOfHalves st.opnd.aadBits st.opnd.payloadBits)
        (cipherE (imageKey st.eng.live) 0) ∧
      exec .gcmTag st = .next (st.operated
        { st.eng with
          live := { st.eng.live with gAcc := g, gActive := false }
          answers := rest
          history := ⟨st.cur, 0x19⟩ :: st.eng.history }
        (.bytes (bytesOfBlock (g ^^^ st.eng.live.gEctr0)))))

/-- `GCM_HEADER` (R49): the accumulator absorbs the 16-byte chunks of the data, the last one
zero-padded. -/
def Obligations.GcmHeaderAbsorbs : Prop :=
  ∀ (st : State) (rest : List Answer), st.cur < st.eng.params.nSessions →
    st.eng.arb.holder = some st.cur → st.eng.answers = .done :: rest →
    st.eng.live.configured = true → st.eng.live.mode = .gcm → st.eng.live.gActive = true →
    st.opnd.data ≠ [] →
    exec .gcmHeader st = .next (st.operated
      { st.eng with
        live := { st.eng.live with
          gAcc := ghashFrom (cipherE (imageKey st.eng.live) 0) st.eng.live.gAcc
            (padBlocks st.opnd.data) }
        answers := rest
        history := ⟨st.cur, 0x17⟩ :: st.eng.history } (.bytes []))

/-- `GCM_PAYLOAD` (R50): the output is the data XORed with the keystream of the next counter blocks;
the accumulator absorbs the ciphertext of the meaningful bytes, `valid` of the last block, all when
`valid` is 0. -/
def Obligations.GcmPayloadProcesses : Prop :=
  ∀ (st : State) (rest : List Answer) (o : List Byte) (n m : Nat),
    st.cur < st.eng.params.nSessions →
    st.eng.arb.holder = some st.cur → st.eng.answers = .done :: rest →
    st.eng.live.configured = true → st.eng.live.mode = .gcm → st.eng.live.gActive = true →
    n = st.opnd.data.length → n ≠ 0 → n % 16 = 0 →
    m = (if st.opnd.valid = 0 then n else n - 16 + st.opnd.valid.toNat) →
    o = cryptBytes (imageKey st.eng.live) 0 st.eng.live.gY st.opnd.data →
    exec .gcmPayload st = .next (st.operated
      { st.eng with
        live := { st.eng.live with
          gY := inc32^[n / 16] st.eng.live.gY
          gAcc := ghashFrom (cipherE (imageKey st.eng.live) 0) st.eng.live.gAcc
            (padBlocks ((ciphertext st.eng.live.gDir st.opnd.data o).take m)) }
        answers := rest
        history := ⟨st.cur, 0x18⟩ :: st.eng.history } (.bytes o))

/-- A port operation that fails (R45): the accelerator does not answer `done`, or the live image is
not one the operation can be performed on. The result is a failure with the cause the rules give, the
live image is any image (a free value, log 7; for `CONFIGURE` log 9), and nothing else changes. -/
def Obligations.PortFailure : Prop :=
  ∀ (i : Instr) (st : State) (c : Cause) (code : BitVec 8) (a : Answer) (rest : List Answer),
    st.cur < st.eng.params.nSessions → st.eng.arb.holder = some st.cur →
    st.eng.answers = a :: rest →
    ((∃ call, st.portCall i = some call ∧ call.wellFormed = true ∧
        (a ≠ .done ∨ callReady st.eng.live call = false) ∧
        c = dataFailure a ∧ code = callCode call) ∨
      i = .suspend ∧ a ≠ .done ∧ c = .suspendFail ∧ code = 0x14 ∨
      i = .resume ∧ a ≠ .done ∧ c = .resumeFail ∧ code = 0x15) →
    exec i st = .next (st.operated
      { st.eng with
        live := Config.anyImage st.eng.fresh
        fresh := st.eng.fresh + 1
        answers := rest
        history := ⟨st.cur, code⟩ :: st.eng.history } (.failed c))

/-- The situations that stop the model, each by its name: an adapter operation of a session that does
not hold the mutex (R52, U2); operands outside a port operation's domain (log 17); a command on a
session whose command is in execution (R31, U1); a session that does not exist (log 23). -/
def Obligations.StopsByName : Prop :=
  ∀ (i : Instr) (st : State),
    (st.cur < st.eng.params.nSessions →
      (st.eng.arb.holder ≠ some st.cur →
        (i = .deinitialize ∨ i = .suspend ∨ i = .resume ∨
          ∃ call, st.portCall i = some call ∧ call.wellFormed = true) →
        exec i st = .refused .notHolder) ∧
      ((∃ call, st.portCall i = some call ∧ call.wellFormed = false) →
        exec i st = .refused .operandShape) ∧
      ((commandOf i).isSome = true → st.inFlight st.cur ≠ none →
        exec i st = .refused .secondOwner)) ∧
    (st.eng.params.nSessions ≤ st.cur → exec i st = .fault .noSuchSession)

/-! ### The mutex -/

/-- The four mutex operations within their preconditions (R82 to R85). -/
def Obligations.MutexOperations : Prop :=
  ∀ st : State, st.cur < st.eng.params.nSessions →
    (st.eng.arb.mutexExists = false →
      exec .mutexCreate st = .next (st.operated
        { st.eng with
          arb := { st.eng.arb with mutexExists := true, holder := none }
          history := ⟨st.cur, 0x20⟩ :: st.eng.history } .unit)) ∧
    (st.eng.arb.mutexExists = true → st.eng.arb.holder = none →
      exec .mutexDestroy st = .next (st.operated
        { st.eng with
          arb := { st.eng.arb with mutexExists := false }
          history := ⟨st.cur, 0x21⟩ :: st.eng.history } .unit) ∧
      exec .acquire st = .next (st.operated
        { st.eng with
          arb := { st.eng.arb with holder := some st.cur }
          history := ⟨st.cur, 0x22⟩ :: st.eng.history } .unit)) ∧
    (st.eng.arb.holder = some st.cur →
      exec .release st = .next (st.operated
        { st.eng with
          arb := { st.eng.arb with holder := none }
          history := ⟨st.cur, 0x23⟩ :: st.eng.history } .unit))

/-- Waiting for the mutex (R84): while it does not exist or is held, `ACQUIRE` and a guarded section
performed by themselves have no step but to stay pending; a `FREE` of a session with a saved image
stays in execution, having changed nothing, its arguments latched (how a wait is shown is the
model's, logs 12, 28 and 32); and outside its precondition a mutex operation stops the model
(log 16). -/
def Obligations.AcquireWaits : Prop :=
  ∀ st : State, st.cur < st.eng.params.nSessions →
    (¬ st.MutexFree →
      exec .acquire st = .next { st with pendingOp := some 0x22 } ∧
      exec .guard st = .next { st with pendingOp := some 0x35 } ∧
      (st.Idle → st.own.phase ≠ .uninit → st.own.imageValid = true →
        exec .free st = .next { st with
          run := st.run.set st.cur (some
            { instr := .free, args := st.args, before := st.own, log := [.ctx st.own] }) }) ∧
      exec .mutexDestroy st = .refused .mutexPrecondition) ∧
    (st.eng.arb.mutexExists = true → exec .mutexCreate st = .refused .mutexPrecondition) ∧
    (st.eng.arb.holder ≠ some st.cur → exec .release st = .refused .mutexPrecondition)

/-- A guarded section that does not fail (R86): the session's image is restored if it has one, the
operations run on it in order, the image they leave is saved, the result is that of the last one;
the mutex is free again, and nothing else changes. (That a body other than those R86 writes runs so,
and one of a session without an image on the live image, is the model's choice, log 31.) -/
def Obligations.GuardCompletes : Prop :=
  ∀ (st : State) (rest : List Answer) (img : Image) (r : List Byte),
    st.cur < st.eng.params.nSessions → st.Shaped → st.MutexFree →
    runCalls (if st.own.imageValid then st.own.image else st.eng.live) st.opnd.body [] =
      some (img, r) →
    st.eng.answers = List.replicate
      ((if st.own.imageValid then 1 else 0) + st.opnd.body.length + 1) .done ++ rest →
    ∃ h : List HistoryEntry,
      exec .guard st = .next (st.operated
        { st.eng with
          ctxs := st.eng.ctxs.set st.cur { st.own with image := img, imageValid := true }
          live := img
          answers := rest
          history := h ++ st.eng.history } (.bytes r))

/-- A guarded section that fails (R86): the first failure in order is reported (`RESUME_FAIL`, the
failing operation's own cause, or `SUSPEND_FAIL`); the failing operation is the last one performed
and the last one to take an answer; the mutex is released and free
again and every context, the saved image included, is as before; the live image is any image (a free
value, log 7). An operation outside its domain at the head of the body stops the model (log 17). (That
a body other than those R86 writes runs by the same steps is the model's choice, log 31.) -/
def Obligations.GuardReportsFirstFailure : Prop :=
  ∀ st : State, st.cur < st.eng.params.nSessions → st.MutexFree →
    (∀ cause : Cause, (∀ c ∈ st.opnd.body, c.wellFormed = true) →
      st.sectionFailure = some cause →
      exec .guard st = .next (st.operated
        { st.eng with
          live := Config.anyImage st.eng.fresh
          fresh := st.eng.fresh + 1
          answers := st.eng.answers.drop st.sectionPerformed.length
          history := ⟨st.cur, 0x23⟩ :: (st.sectionPerformed.reverse.map fun c => ⟨st.cur, c⟩) ++
            ⟨st.cur, 0x22⟩ :: ⟨st.cur, 0x35⟩ :: st.eng.history } (.failed cause))) ∧
    (∀ (c : PortCall) (l : List PortCall), st.opnd.body = c :: l → c.wellFormed = false →
      st.own.imageValid = false → exec .guard st = .refused .operandShape)

/-! ### Micro-operations -/

/-- `GHASH_BUILD` (R54, R55): its result is the table whose entry `i` is the field element `i` times
`H`, for every `i` and `H`. -/
def Obligations.GhashBuildTable : Prop :=
  ∀ st : State, st.cur < st.eng.params.nSessions →
    ∃ t : Table,
      exec .ghashBuild st = .next (st.operated
        { st.eng with history := ⟨st.cur, 0x30⟩ :: st.eng.history } (.table t)) ∧
      ∀ i : Fin 16, blockOfHalves t.hh[i] t.hl[i] =
        gfMult (BitVec.ofNat 128 i <<< 124) st.opnd.block

/-- `GHASH_MULT` (R57) and the correctness requirement of the table engine (R58): for every `H` and
every `x`, `GHASH_MULT(GHASH_BUILD(H), x)` is the product of `x` and `H` in the field. -/
def Obligations.GhashMultIsProduct : Prop :=
  ∀ st : State, st.cur < st.eng.params.nSessions →
    ∃ z : Block,
      exec .ghashMult st = .next (st.operated
        { st.eng with history := ⟨st.cur, 0x31⟩ :: st.eng.history } (.bytes (bytesOfBlock z))) ∧
      ∀ h : Block, st.opnd.table = ghashBuild h → z = gfMult st.opnd.block h

/-- The field product (R53): it is commutative and associative, distributes over XOR on both sides,
has the identity `80 00^15` and the zero `00^16`; multiplying by `t`, the string `40 00^15`, is a
right shift by one bit with a bit shifted out reduced by `E1 00^15`. These laws determine it. -/
def Obligations.FieldLaws : Prop :=
  (∀ x y : Block, gfMult x y = gfMult y x) ∧
  (∀ x y z : Block, gfMult (gfMult x y) z = gfMult x (gfMult y z)) ∧
  (∀ x y z : Block, gfMult (x ^^^ y) z = gfMult x z ^^^ gfMult y z) ∧
  (∀ x y z : Block, gfMult x (y ^^^ z) = gfMult x y ^^^ gfMult x z) ∧
  (∀ y : Block, gfMult (0x80#128 <<< 120) y = y) ∧ (∀ y : Block, gfMult 0 y = 0) ∧
  (∀ y : Block, gfMult (0x40#128 <<< 120) y =
    if y.getLsbD 0 then (y >>> 1) ^^^ (0xE1#128 <<< 120) else y >>> 1)

/-- `LAST4` (R56): entry `r` is the XOR, over the set bits `b` of `r`, of `0xE100 >> (3 - b)`; the
sixteen values are those listed there. -/
def Obligations.Last4Entries : Prop :=
  (∀ r : Fin 16, last4[r] =
    (List.range 4).foldl (fun acc b => if r.val.testBit b then acc ^^^ (0xE100#16 >>> (3 - b))
      else acc) 0) ∧
  last4.toList = [0x0000, 0x1c20, 0x3840, 0x2460, 0x7080, 0x6ca0, 0x48c0, 0x54e0, 0xe100, 0xfd20,
    0xd940, 0xc560, 0x9180, 0x8da0, 0xa9c0, 0xb5e0]

/-- `INC32` (R66): the first twelve bytes stay, the last four, read as a big-endian number, grow by 1
modulo `2^32`. -/
def Obligations.Inc32Counts : Prop :=
  ∀ st : State, st.cur < st.eng.params.nSessions →
    ∃ r : List Byte,
      exec .inc32 st = .next (st.operated
        { st.eng with history := ⟨st.cur, 0x32⟩ :: st.eng.history } (.bytes r)) ∧
      r.length = 16 ∧ r.take 12 = (bytesOfBlock st.opnd.block).take 12 ∧
      lastWord r = (lastWord (bytesOfBlock st.opnd.block) + 1) % 2 ^ 32

/-- `CLOSE_AAD` (R67, R70): under `CARRY` an open AAD block is multiplied, under `PER_CALL` nothing is;
no other field of the context changes. -/
def Obligations.CloseAadMultiplies : Prop :=
  ∀ st : State, st.cur < st.eng.params.nSessions → st.Shaped →
    ∃ h : List HistoryEntry,
      exec .closeAad st = .next (st.operated
        { st.eng with
          ctxs := st.eng.ctxs.set st.cur { st.own with
            buf := closePhase st.eng.params.policy st.own.table st.own.addLen.toNat st.own.buf }
          history := h ++ st.eng.history } .unit)

/-- `TAG_VERIFY` (R89) is equality of the first `n` bytes, for any strings of at least `n` bytes;
shorter strings are not admitted (log 17). -/
def Obligations.TagVerifyIsEquality : Prop :=
  ∀ st : State, st.cur < st.eng.params.nSessions →
    (st.opnd.n ≤ st.opnd.a.length → st.opnd.n ≤ st.opnd.b.length →
      exec .tagVerify st = .next (st.operated
        { st.eng with history := ⟨st.cur, 0x34⟩ :: st.eng.history }
        (.verdict (decide (st.opnd.a.take st.opnd.n = st.opnd.b.take st.opnd.n))))) ∧
    (st.opnd.a.length < st.opnd.n ∨ st.opnd.b.length < st.opnd.n →
      exec .tagVerify st = .refused .operandShape)

/-! ### The machine as a whole -/

/-- The invariant holds after reset, for every value of the parameters in the ranges of R4. -/
def Obligations.InvAtReset : Prop := ∀ p : Params, p.Valid → (State.resetWith p).Inv

/-- Every step keeps the invariant, whichever agent moves and whatever it does. -/
def Obligations.InvKept : Prop := ∀ s s' : State, s.Inv → step s = .next s' → s'.Inv

/-- From every state of the invariant, a move that the spec admits has a next state: no command, no
micro-step of any session in any interleaving and no register access ever faults or is refused
(R45, R81 to R86, R104: guarded sections hold the mutex, accesses stay in range, the mutex
operations' preconditions hold). A micro-step event of a session that waits for the mutex or has no
command in execution, which R7 and R84 give no step, leaves the state as it is: that it counts as
taken is the model's choice (log 28). -/
def Obligations.AdmittedMovesAreTaken : Prop :=
  ∀ s : State, s.Inv → s.Admits → ∃ t, step s = .next t

/-- Sessions are independent (R7, R10, R87, R107): whatever an instruction executed for the current
session does, and whatever the issue of a command of session `s` or one micro-step of it does (the
moves by which sessions interleave), every other session keeps its context, its mailbox and its
command in execution, and, while the mutex exists, neither gets nor loses it; the parameters and the
rest of the script stay. -/
def Obligations.OtherSessionsUntouched : Prop :=
  (∀ (i : Instr) (st t : State), exec i st = .next t →
    (∀ s, s ≠ st.cur → t.eng.ctx s = st.eng.ctx s ∧ t.mailbox s = st.mailbox s ∧
      t.inFlight s = st.inFlight s ∧ (st.eng.arb.mutexExists = true →
        (t.eng.arb.holder = some s ↔ st.eng.arb.holder = some s))) ∧
    t.eng.params = st.eng.params ∧ t.cur = st.cur ∧ t.bus = st.bus ∧ t.opnd = st.opnd) ∧
  (∀ (ev : BusEvent) (s : Nat) (st t : State) (rest : List BusEvent),
    ev = .microStep s ∨ (∃ w, ev = .cmdStart s w) → st.pendingOp = none → st.bus = ev :: rest →
    step st = .next t →
    (∀ s', s' ≠ s → t.eng.ctx s' = st.eng.ctx s' ∧ t.mailbox s' = st.mailbox s' ∧
      t.inFlight s' = st.inFlight s' ∧ (st.eng.arb.mutexExists = true →
        (t.eng.arb.holder = some s' ↔ st.eng.arb.holder = some s'))) ∧
    t.eng.params = st.eng.params ∧ t.cur = s ∧ t.bus = rest ∧ t.opnd = st.opnd)

/-- Who changes what is shared (R17, R88), in a command run at once and in one micro-step of a
command in execution alike: `refcount` changes only by `INIT`, by one up, and by `FREE`, by one down;
the multiplication table of a context is written only by `INIT`, `FREE` and `SETKEY` (another
command that ends with a hardware failure puts it back to what it was before the command, R98);
memory is written only by `UPDATE`, `FINISH` and the composites. -/
def Obligations.WhoWritesWhat : Prop :=
  (∀ (i : Instr) (st t : State), exec i st = .next t →
    SharedWrites i st.eng t.eng ∧
    (i ≠ .init → i ≠ .free → i ≠ .setkey → t.own.table = st.own.table)) ∧
  (∀ (s : Nat) (f : InFlight) (st t : State) (rest : List BusEvent), st.pendingOp = none →
    st.bus = .microStep s :: rest → st.inFlight s = some f → step st = .next t →
    SharedWrites f.instr st.eng t.eng ∧
    (f.instr ≠ .init → f.instr ≠ .free → f.instr ≠ .setkey →
      (t.eng.ctx s).table = (st.eng.ctx s).table ∨ (t.eng.ctx s).table = f.before.table)) ∧
  (∀ (s : Nat) (w : BitVec 32) (st t : State) (rest : List BusEvent), st.pendingOp = none →
    st.bus = .cmdStart s w :: rest → step st = .next t →
    t.eng = { st.eng with fresh := t.eng.fresh })

/-- The length bounds (R4, R12, R117): `add_len` below `2^61`, `len` at most `2^36 - 32`, `tag_len` 0
or a tag length of the strategy (16 under A, 4 to 16 under B). If they hold of the session's context,
they hold after every command of the session that has ended, so that the stored lengths never wrap
and the bounds chain from command to command. (R12 does not claim them in phase `Failed`; that they
hold there too rests on the values the model keeps, log 29.) And whatever the lengths were before,
phase `Failed` included, the bounds hold after an `INIT`, a `STARTS` or a composite that has ended
with `OK`, an `AUTH_DECRYPT` that has ended with a wrong tag, and a `FREE` of a context in use. -/
def Obligations.LengthBounds : Prop :=
  ∀ (i : Instr) (cmd : Command) (st t : State), commandOf i = some cmd → st.Idle →
    exec i st = .next t → t.inFlight st.cur = none →
    (st.own.lengthsOk st.eng.params → t.own.lengthsOk st.eng.params) ∧
    ((t.mailbox st.cur).status = 0 →
      i = .init ∨ (∃ dir, i = .starts dir ∨ i = .cryptAndTag dir) ∨ i = .authDecrypt ∨
        i = .free ∧ st.own.phase ≠ .uninit →
      t.own.lengthsOk st.eng.params) ∧
    (i = .authDecrypt → (t.mailbox st.cur).status = 0x604 → t.own.lengthsOk st.eng.params)

/-- The accelerator's live image is hidden (R16, R86, R87): a command's status, its `OUT_LEN`, the
contexts and the memory it leaves do not depend on what another session left in it. -/
def Obligations.LiveImageHidden : Prop :=
  ∀ (i : Instr) (cmd : Command) (st t : State) (live : Image), commandOf i = some cmd → st.Idle →
    (st.own.phase ≠ .uninit → st.own.phase ≠ .unkeyed → st.own.imageValid = true) →
    exec i st = .next t →
    ∃ live', exec i { st with eng := { st.eng with live := live } } =
      .next { t with eng := { t.eng with live := live' } }

/-- One micro-step at a time (R6, R7, R31): what `exec` reaches by running a command to its end, be
it a rejection or a completion, is reached as well by starting the command and letting its session
alone take micro-steps; the same state results. (That `exec` runs a command at once and what one
micro-step is are the model's choices, logs 12 and 13.) -/
def Obligations.MicroStepsReachExec : Prop :=
  ∀ (i : Instr) (w : BitVec 32) (st t : State), decodeCmd w = .ok i → st.Idle →
    st.pendingOp = none → exec i st = .next t → t.inFlight st.cur = none →
    ∃ k : Nat, Host.Core.run Sys2Proof.core (k + 1)
      { st with bus := .cmdStart st.cur w :: List.replicate k (.microStep st.cur) } =
      .next { t with bus := [] }
end

