-- ==== Sys2Proof/Laws/Bytes.lean ====
section
/-! SUPPORT. Byte strings and blocks: each bit of one in terms of the other, the two conversions are
inverse, and they carry XOR to XOR. -/

namespace Sys2Proof.Machine

/-! ### Bits -/

theorem foldl_bytes_getLsbD (l : List Byte) (n : Nat) (hn : n ≤ 16) (k : Nat) (hk : k < 8 * n) :
    ((List.range n).foldl (fun (acc : Block) i => (acc <<< 8) ||| (l.getD i 0).setWidth 128) 0).getLsbD
      k = (l.getD (n - 1 - k / 8) 0).getLsbD (k % 8) := by
  induction n generalizing k with
  | zero => omega
  | succ n ih =>
    rw [List.range_succ, List.foldl_append]
    simp only [List.foldl_cons, List.foldl_nil, BitVec.getLsbD_or, BitVec.getLsbD_shiftLeft,
      BitVec.getLsbD_setWidth]
    by_cases h : k < 8
    · simp [h, show k < 128 by omega, show k / 8 = 0 by omega, show k % 8 = k by omega]
    · have hb : (l.getD n 0).getLsbD k = false := BitVec.getLsbD_of_ge _ _ (by omega)
      rw [ih (by omega) (k - 8) (by omega)]
      rw [hb]
      simp only [h, show k < 128 by omega, decide_true, decide_false, Bool.not_false,
        Bool.true_and, Bool.and_false, Bool.or_false]
      rw [show n - 1 - (k - 8) / 8 = n + 1 - 1 - k / 8 by omega,
        show (k - 8) % 8 = k % 8 by omega]

/-- Each bit of the block of a byte string. -/
theorem getLsbD_blockOfBytes (l : List Byte) (k : Nat) (hk : k < 128) :
    (blockOfBytes l).getLsbD k = (l.getD (15 - k / 8) 0).getLsbD (k % 8) :=
  foldl_bytes_getLsbD l 16 (le_refl _) k (by omega)

@[simp] theorem length_bytesOfBlock (b : Block) : (bytesOfBlock b).length = 16 := by
  simp [bytesOfBlock]

theorem getElem_bytesOfBlock (b : Block) (i : Nat) (h : i < (bytesOfBlock b).length) :
    (bytesOfBlock b)[i] = b.extractLsb' (120 - 8 * i) 8 := by
  simp [bytesOfBlock]

theorem getD_bytesOfBlock (b : Block) (i : Nat) (h : i < 16) :
    (bytesOfBlock b).getD i 0 = b.extractLsb' (120 - 8 * i) 8 := by
  rw [List.getD_eq_getElem _ _ (by simpa using h), getElem_bytesOfBlock]

theorem getLsbD_getD_bytesOfBlock (b : Block) (i j : Nat) (h : i < 16) (hj : j < 8) :
    ((bytesOfBlock b).getD i 0).getLsbD j = b.getLsbD (120 - 8 * i + j) := by
  rw [getD_bytesOfBlock b i h]
  simp [hj]

/-- The block of a block's bytes is the block (R21). -/
@[simp] theorem blockOfBytes_bytesOfBlock (b : Block) : blockOfBytes (bytesOfBlock b) = b := by
  apply BitVec.eq_of_getLsbD_eq
  intro k hk
  rw [getLsbD_blockOfBytes _ _ hk, getLsbD_getD_bytesOfBlock _ _ _ (by omega) (by omega)]
  congr 1; omega

/-- Each byte of the block of a byte string: the string's byte, 00 after its end (R21). -/
theorem getD_bytesOfBlock_blockOfBytes (l : List Byte) (i : Nat) (h : i < 16) :
    (bytesOfBlock (blockOfBytes l)).getD i 0 = l.getD i 0 := by
  apply BitVec.eq_of_getLsbD_eq
  intro j hj
  rw [getLsbD_getD_bytesOfBlock _ _ _ h hj, getLsbD_blockOfBytes _ _ (by omega)]
  rw [show 15 - (120 - 8 * i + j) / 8 = i by omega, show (120 - 8 * i + j) % 8 = j by omega]

/-- A string of sixteen bytes comes back from its block (R21). -/
theorem bytesOfBlock_blockOfBytes (l : List Byte) (h : l.length = 16) :
    bytesOfBlock (blockOfBytes l) = l := by
  apply List.ext_getElem
  · simp [h]
  · intro i h1 h2
    have h3 := getD_bytesOfBlock_blockOfBytes l i (by simpa using h1)
    rwa [List.getD_eq_getElem _ _ h1, List.getD_eq_getElem _ _ h2] at h3

/-- Blocks with the same sixteen bytes are equal. -/
theorem block_ext (a b : Block)
    (h : ∀ i < 16, (bytesOfBlock a).getD i 0 = (bytesOfBlock b).getD i 0) : a = b := by
  have hl : bytesOfBlock a = bytesOfBlock b := by
    apply List.ext_getElem
    · simp
    · intro i h1 h2
      have := h i (by simpa using h1)
      rwa [List.getD_eq_getElem _ _ h1, List.getD_eq_getElem _ _ h2] at this
  simpa using congrArg blockOfBytes hl

/-! ### XOR -/

@[simp] theorem length_xorBytes (a b : List Byte) :
    (xorBytes a b).length = min a.length b.length := by simp [xorBytes]

theorem getD_xorBytes (a b : List Byte) (i : Nat) (ha : i < a.length) (hb : i < b.length) :
    (xorBytes a b).getD i 0 = a.getD i 0 ^^^ b.getD i 0 := by
  rw [List.getD_eq_getElem _ _ (by simp; omega), List.getD_eq_getElem _ _ ha,
    List.getD_eq_getElem _ _ hb]
  simp [xorBytes]

/-- The bytes of an XOR of blocks. -/
theorem getD_bytesOfBlock_xor (a b : Block) (i : Nat) (h : i < 16) :
    (bytesOfBlock (a ^^^ b)).getD i 0 = (bytesOfBlock a).getD i 0 ^^^ (bytesOfBlock b).getD i 0 := by
  apply BitVec.eq_of_getLsbD_eq
  intro j hj
  rw [BitVec.getLsbD_xor, getLsbD_getD_bytesOfBlock _ _ _ h hj, getLsbD_getD_bytesOfBlock _ _ _ h hj,
    getLsbD_getD_bytesOfBlock _ _ _ h hj, BitVec.getLsbD_xor]

theorem bytesOfBlock_xor (a b : Block) :
    bytesOfBlock (a ^^^ b) = xorBytes (bytesOfBlock a) (bytesOfBlock b) := by
  apply List.ext_getElem
  · simp
  · intro i h1 h2
    have hi : i < 16 := by simpa using h1
    have := getD_bytesOfBlock_xor a b i hi
    rw [← getD_xorBytes _ _ _ (by simpa using hi) (by simpa using hi)] at this
    rwa [List.getD_eq_getElem _ _ h1, List.getD_eq_getElem _ _ h2] at this

/-! ### A string placed inside a block -/

/-- Each byte of a placed string: 00 before its offset, then the string, then 00. -/
theorem getD_placeBytes (off : Nat) (l : List Byte) (i : Nat) (h : i < 16) :
    (bytesOfBlock (placeBytes off l)).getD i 0 = if i < off then 0 else l.getD (i - off) 0 := by
  unfold placeBytes
  rw [getD_bytesOfBlock_blockOfBytes _ _ h]
  by_cases hi : i < off
  · rw [if_pos hi, List.getD_eq_getElem _ _ (by simp; omega)]
    simp [hi]
  · rw [if_neg hi]
    simp only [List.getD_eq_getElem?_getD]
    rw [List.getElem?_append_right (by simp; omega)]
    simp

/-- Placing nothing. -/
@[simp] theorem placeBytes_nil (off : Nat) : placeBytes off [] = 0 := by
  apply block_ext
  intro i hi
  rw [getD_placeBytes _ _ _ hi]
  have : (bytesOfBlock 0).getD i 0 = 0 := by rw [getD_bytesOfBlock _ _ hi]; simp
  rw [this]; simp

/-- A string is placed by placing its two parts. -/
theorem placeBytes_append (off : Nat) (l k : List Byte) :
    placeBytes off (l ++ k) = placeBytes off l ^^^ placeBytes (off + l.length) k := by
  apply block_ext
  intro i hi
  rw [getD_bytesOfBlock_xor _ _ _ hi, getD_placeBytes _ _ _ hi, getD_placeBytes _ _ _ hi,
    getD_placeBytes _ _ _ hi]
  by_cases h1 : i < off
  · simp [h1, show i < off + l.length by omega]
  · by_cases h2 : i < off + l.length
    · simp only [h1, h2, if_true, if_false, List.getD_eq_getElem?_getD]
      rw [List.getElem?_append_left (by omega)]
      simp
    · simp only [h1, h2, if_false]
      simp only [List.getD_eq_getElem?_getD]
      rw [List.getElem?_append_right (by omega), List.getElem?_eq_none (l := l) (by omega)]
      simp [show i - off - l.length = i - (off + l.length) by omega]

/-- Sixteen bytes placed at the start are the block. -/
theorem placeBytes_zero (l : List Byte) : placeBytes 0 l = blockOfBytes l := by
  simp [placeBytes]

/-! ### The counter -/

/-- The IV part of a counter block does not change (R66). -/
theorem extract_inc32_high (y : Block) : (inc32 y).extractLsb' 32 96 = y.extractLsb' 32 96 := by
  apply BitVec.eq_of_getLsbD_eq
  intro i hi
  simp only [inc32, BitVec.getLsbD_extractLsb', hi, decide_true, Bool.true_and,
    BitVec.getLsbD_append]
  simp [show ¬ (32 + i < 32) by omega, hi]

/-- The low word of a counter block grows by 1 modulo `2^32` (R66). -/
theorem extract_inc32_low (y : Block) : (inc32 y).extractLsb' 0 32 = y.extractLsb' 0 32 + 1 := by
  apply BitVec.eq_of_getLsbD_eq
  intro i hi
  simp only [inc32, BitVec.getLsbD_extractLsb', hi, decide_true, Bool.true_and,
    BitVec.getLsbD_append]
  simp [hi]

end Sys2Proof.Machine
end

