-- ==== Sys2Proof/Laws/Gcm.lean ====
section
/-! SUPPORT. The closed forms of counter mode and GHASH (R71): how they split over the parts of a
string, and that the accelerator's loops compute them. -/

namespace Sys2Proof.Machine

/-! ### Padded blocks -/

@[simp] theorem padBlocks_nil : padBlocks [] = [] := by simp [padBlocks]

/-- The first block of a non-empty string, then the blocks of the rest. -/
theorem padBlocks_cons (z : List Byte) (h : z ≠ []) :
    padBlocks z = blockOfBytes (z.take 16) :: padBlocks (z.drop 16) := by
  have hl : 0 < z.length := List.length_pos_iff.2 h
  unfold padBlocks
  rw [List.length_drop, show (z.length + 15) / 16 = (z.length - 16 + 15) / 16 + 1 by omega,
    List.range_succ_eq_map]
  simp only [List.map_cons, List.map_map, Nat.mul_zero, List.drop_zero, List.cons.injEq, true_and]
  apply List.map_congr_left
  intro k _
  simp only [Function.comp, List.drop_drop]
  rw [show 16 * k.succ = 16 + 16 * k by omega]

theorem length_padBlocks (z : List Byte) : (padBlocks z).length = (z.length + 15) / 16 := by
  simp [padBlocks]

/-- A string of whole blocks before another. -/
theorem padBlocks_append (z w : List Byte) (h : z.length % 16 = 0) :
    padBlocks (z ++ w) = padBlocks z ++ padBlocks w := by
  induction hn : z.length / 16 generalizing z with
  | zero =>
    have : z = [] := List.length_eq_zero_iff.1 (by omega)
    subst this; simp
  | succ n ih =>
    have hz : z ≠ [] := by rintro rfl; simp at hn
    have hl : 16 ≤ z.length := by omega
    have hzw : z ++ w ≠ [] := by simp [hz]
    rw [padBlocks_cons z hz, padBlocks_cons (z ++ w) hzw, List.take_append_of_le_length hl,
      List.drop_append_of_le_length hl, ih (z.drop 16) (by simp; omega) (by simp; omega)]
    simp

/-! ### GHASH -/

@[simp] theorem ghashFrom_nil (h g : Block) : ghashFrom h g [] = g := rfl
@[simp] theorem ghashFrom_cons (h g b : Block) (l : List Block) :
    ghashFrom h g (b :: l) = ghashFrom h (gfMult (g ^^^ b) h) l := rfl
theorem ghashFrom_append (h g : Block) (l k : List Block) :
    ghashFrom h g (l ++ k) = ghashFrom h (ghashFrom h g l) k := by simp [ghashFrom]

/-- The loop of `GCM_HEADER` computes GHASH of the padded blocks (R49). -/
theorem headerAcc_eq (h : Block) (n : Nat) (d : List Byte) (acc : Block)
    (hn : n = (d.length + 15) / 16) : headerAcc h n d acc = ghashFrom h acc (padBlocks d) := by
  induction n generalizing d acc with
  | zero =>
    have : d = [] := List.length_eq_zero_iff.1 (by omega)
    subst this; rfl
  | succ n ih =>
    have hd : d ≠ [] := by rintro rfl; simp at hn
    rw [padBlocks_cons d hd, ghashFrom_cons, headerAcc, ih _ _ (by simp; omega)]

/-! ### Counter mode -/

@[simp] theorem length_cryptBytes (key : List Byte) (off : Nat) (y : Block) (x : List Byte) :
    (cryptBytes key off y x).length = x.length := by simp [cryptBytes]

@[simp] theorem cryptBytes_nil (key : List Byte) (off : Nat) (y : Block) :
    cryptBytes key off y [] = [] := rfl

@[simp] theorem counterAfter_zero (off : Nat) (y : Block) : counterAfter off y 0 = y := by
  simp [counterAfter]

/-- The counter after one part of a call is the counter the next part goes on with. -/
theorem counterAfter_add (off : Nat) (ho : off < 16) (y : Block) (n m : Nat) :
    counterAfter off y (n + m) = counterAfter ((off + n) % 16) (counterAfter off y n) m := by
  unfold counterAfter
  by_cases hm : m = 0
  · simp [hm]
  by_cases hn : n = 0
  · subst hn; simp [hm, Nat.mod_eq_of_lt ho]
  rw [if_neg (by omega), if_neg hm, if_neg hn, ← Function.iterate_add_apply]
  congr 1
  have h16 : (16 : Nat) ≠ 0 := by decide
  split <;> split <;> omega

/-- The keystream of the next part of a call. -/
theorem keystreamByte_add (key : List Byte) (off : Nat) (ho : off < 16) (y : Block) (n q : Nat) :
    keystreamByte key off y (n + q) =
      keystreamByte key ((off + n) % 16) (counterAfter off y n) q := by
  unfold keystreamByte counterAfter
  rw [show ((off + n) % 16 + q) % 16 = (off + (n + q)) % 16 by omega]
  congr 3
  by_cases hn : n = 0
  · subst hn; simp [Nat.mod_eq_of_lt ho]
  rw [if_neg hn, ← Function.iterate_add_apply]
  congr 1
  split <;> split <;> omega

/-- The output of a call on a string in two parts. -/
theorem cryptBytes_append (key : List Byte) (off : Nat) (ho : off < 16) (y : Block)
    (x z : List Byte) :
    cryptBytes key off y (x ++ z) = cryptBytes key off y x ++
      cryptBytes key ((off + x.length) % 16) (counterAfter off y x.length) z := by
  unfold cryptBytes
  rw [List.mapIdx_append, List.append_cancel_left_eq]
  apply List.ext_getElem
  · simp
  · intro i h1 h2
    simp only [List.getElem_mapIdx]
    rw [show i + x.length = x.length + i by omega, keystreamByte_add key off ho]

/-- One piece: the input XORed with the keystream block from its offset on (R68). -/
theorem cryptBytes_piece (key : List Byte) (off : Nat) (y : Block) (x : List Byte)
    (h : off + x.length ≤ 16) :
    cryptBytes key off y x =
      xorBytes x ((bytesOfBlock (cipherE key (if off = 0 then inc32 y else y))).drop off) := by
  apply List.ext_getElem
  · simp; omega
  · intro i h1 h2
    have hi : i < x.length := by simpa using h1
    simp only [cryptBytes, List.getElem_mapIdx, xorBytes, List.getElem_zipWith,
      List.getElem_drop]
    congr 1
    unfold keystreamByte
    rw [show (off + i) / 16 = 0 by omega, show (off + i) % 16 = off + i by omega,
      List.getD_eq_getElem _ _ (by simp; omega)]
    congr 3
    split <;> simp

/-- Encrypting twice with the same keystream. -/
theorem cryptBytes_cryptBytes (key : List Byte) (off : Nat) (y : Block) (x : List Byte) :
    cryptBytes key off y (cryptBytes key off y x) = x := by
  apply List.ext_getElem
  · simp
  · intro i h1 h2
    simp [cryptBytes]

@[simp] theorem length_ciphertext (dir : Direction) (x o : List Byte) (h : o.length = x.length) :
    (ciphertext dir x o).length = x.length := by cases dir <;> simp [ciphertext, h]

theorem ciphertext_append (dir : Direction) (x x' o o' : List Byte) :
    ciphertext dir (x ++ x') (o ++ o') = ciphertext dir x o ++ ciphertext dir x' o' := by
  cases dir <;> rfl

theorem counterAfter_blocks (y : Block) (n : Nat) (h : n % 16 = 0) :
    counterAfter 0 y n = inc32^[n / 16] y := by
  unfold counterAfter
  split
  · next h0 => subst h0; rfl
  · rw [if_pos rfl, show (0 + (n - 1)) / 16 + 1 = n / 16 by omega]

/-- One block of `GCM_PAYLOAD` (R50). -/
theorem payloadBlock_eq (key : List Byte) (dir : Direction) (use : Nat) (d : List Byte)
    (r : PayloadRun) :
    payloadBlock key dir use d r =
      { y := inc32 r.y
        acc := gfMult (r.acc ^^^ blockOfBytes ((ciphertext dir d
          (xorBytes d (bytesOfBlock (cipherE key (inc32 r.y))))).take use)) (cipherE key 0)
        out := r.out ++ xorBytes d (bytesOfBlock (cipherE key (inc32 r.y))) } := by
  cases dir <;> rfl

/-- The loop of `GCM_PAYLOAD` computes counter mode and GHASH of the ciphertext (R50). -/
theorem payloadBlocks_eq (key : List Byte) (dir : Direction) (valid : BitVec 4) (n : Nat)
    (d : List Byte) (r : PayloadRun) (hn : d.length = 16 * n) :
    payloadBlocks key dir valid n d r =
      { y := inc32^[n] r.y
        out := r.out ++ cryptBytes key 0 r.y d
        acc := ghashFrom (cipherE key 0) r.acc
          (padBlocks ((ciphertext dir d (cryptBytes key 0 r.y d)).take
            (if valid = 0 then d.length else d.length - 16 + valid.toNat))) } := by
  induction n generalizing d r with
  | zero =>
    have : d = [] := List.length_eq_zero_iff.1 (by omega)
    subst this
    have hc : ciphertext dir ([] : List Byte) [] = [] := by cases dir <;> rfl
    simp [payloadBlocks, hc]
  | succ n ih =>
    have hd : d = d.take 16 ++ d.drop 16 := (List.take_append_drop 16 d).symm
    have ht : (d.take 16).length = 16 := by simp; omega
    have hv : valid.toNat < 16 := valid.isLt
    rw [payloadBlocks, ih _ _ (by simp; omega)]
    have hout : xorBytes (d.take 16) (bytesOfBlock (cipherE key (inc32 r.y))) =
        cryptBytes key 0 r.y (d.take 16) := by
      rw [cryptBytes_piece _ _ _ _ (by omega)]; simp
    have hsplit : cryptBytes key 0 r.y d = cryptBytes key 0 r.y (d.take 16) ++
        cryptBytes key 0 (inc32 r.y) (d.drop 16) := by
      conv_lhs => rw [hd]
      rw [cryptBytes_append _ _ (by omega), ht]
      rfl
    simp only [payloadBlock_eq, hout, PayloadRun.mk.injEq]
    refine ⟨by rw [Function.iterate_succ_apply], ?_, by rw [hsplit, List.append_assoc]⟩
    have hcs : ciphertext dir d (cryptBytes key 0 r.y d) =
        ciphertext dir (d.take 16) (cryptBytes key 0 r.y (d.take 16)) ++
          ciphertext dir (d.drop 16) (cryptBytes key 0 (inc32 r.y) (d.drop 16)) := by
      rw [hsplit, ← ciphertext_append, ← hd]
    have hc16 : (ciphertext dir (d.take 16) (cryptBytes key 0 r.y (d.take 16))).length = 16 := by
      rw [length_ciphertext _ _ _ (by simp), ht]
    rw [hcs]
    generalize hC : ciphertext dir (d.take 16) (cryptBytes key 0 r.y (d.take 16)) = C at hc16
    generalize hR : ciphertext dir (d.drop 16) (cryptBytes key 0 (inc32 r.y) (d.drop 16)) = R
    have hRl : R.length = 16 * n := by
      rw [← hR, length_ciphertext _ _ _ (by simp)]; simp; omega
    by_cases hlast : n = 0 ∧ valid ≠ 0
    · obtain ⟨rfl, hv0⟩ := hlast
      have hR0 : R = [] := List.length_eq_zero_iff.1 (by omega)
      have hlen : d.length - 16 + valid.toNat = valid.toNat := by omega
      have hne : C.take valid.toNat ≠ [] := by
        intro h
        have := congrArg List.length h
        simp only [List.length_take, hc16, List.length_nil] at this
        have : valid.toNat = 0 := by omega
        exact hv0 (BitVec.eq_of_toNat_eq (by simpa using this))
      simp only [hR0, List.append_nil, hv0, if_false, hlen, true_and, ne_eq, not_false_eq_true,
        if_true, List.take_nil, padBlocks_nil, ghashFrom_nil]
      rw [padBlocks_cons _ hne]
      have h1 : (C.take valid.toNat).take 16 = C.take valid.toNat := by
        rw [List.take_take]; congr 1; omega
      have h2 : (C.take valid.toNat).drop 16 = [] := by
        apply List.drop_eq_nil_of_le; simp; omega
      simp [h1, h2]
    · have huse : (if n = 0 ∧ valid ≠ 0 then valid.toNat else 16) = 16 := if_neg hlast
      rw [huse]
      generalize hm' : (if valid = 0 then (d.drop 16).length
        else (d.drop 16).length - 16 + valid.toNat) = m'
      have hm : (if valid = 0 then d.length else d.length - 16 + valid.toNat) = 16 + m' := by
        rw [← hm']
        have hdl : (d.drop 16).length = d.length - 16 := List.length_drop
        by_cases h0 : valid = 0
        · rw [if_pos h0, if_pos h0]; omega
        · have hn0 : n ≠ 0 := fun h => hlast ⟨h, h0⟩
          rw [if_neg h0, if_neg h0]; omega
      have hT : C.take (16 + m') = C := List.take_of_length_le (by omega)
      rw [hm, List.take_append, show 16 + m' - C.length = m' by omega, hT,
        padBlocks_append _ _ (by omega), ghashFrom_append]
      have hCne : C ≠ [] := by rintro rfl; simp at hc16
      rw [padBlocks_cons C hCne, List.drop_eq_nil_of_le (by omega)]
      simp

/-! ### Absorbing byte by byte -/

theorem absorbBytes_append (t : Table) (pos : Nat) (l k : List Byte) (buf : Block) :
    absorbBytes t pos (l ++ k) buf = absorbBytes t (pos + l.length) k (absorbBytes t pos l buf) := by
  induction l generalizing pos buf with
  | nil => rfl
  | cons b rest ih =>
    simp only [List.cons_append, absorbBytes, ih, List.length_cons]
    rw [show pos + 1 + rest.length = pos + (rest.length + 1) by omega]

/-- Absorbing depends on the position inside its block alone. -/
theorem absorbBytes_mod (t : Table) (pos pos' : Nat) (h : pos % 16 = pos' % 16) (l : List Byte)
    (buf : Block) : absorbBytes t pos l buf = absorbBytes t pos' l buf := by
  induction l generalizing pos pos' buf with
  | nil => rfl
  | cons b rest ih =>
    simp only [absorbBytes, absorbByte, h]
    exact ih _ _ (by omega) _

/-- Bytes that stay inside a block are XORed in together; the block that they fill is multiplied. -/
theorem absorbBytes_piece (t : Table) (off : Nat) (l : List Byte) (buf : Block) (hl : l ≠ [])
    (h : off + l.length ≤ 16) :
    absorbBytes t off l buf =
      if off + l.length = 16 then ghashMult t (buf ^^^ placeBytes off l)
      else buf ^^^ placeBytes off l := by
  induction l generalizing off buf with
  | nil => exact absurd rfl hl
  | cons b rest ih =>
    simp only [List.length_cons] at h
    have hoff : off % 16 = off := Nat.mod_eq_of_lt (by omega)
    simp only [absorbBytes, absorbByte, hoff]
    have happ : placeBytes off (b :: rest) = placeBytes off [b] ^^^ placeBytes (off + 1) rest :=
      placeBytes_append off [b] rest
    by_cases hr : rest = []
    · subst hr
      simp only [absorbBytes, List.length_cons, List.length_nil, Nat.zero_add]
      by_cases h15 : off = 15
      · simp [h15]
      · rw [if_neg h15, if_neg (by omega)]
    · have hlen : 0 < rest.length := List.length_pos_iff.2 hr
      rw [if_neg (by omega), ih (off + 1) _ hr (by omega), happ, List.length_cons,
        show off + 1 + rest.length = off + (rest.length + 1) by omega, BitVec.xor_assoc]

end Sys2Proof.Machine
end

