-- ==== Sys2Proof/Laws/Memory.lean ====
section
/-! SUPPORT. The laws of the buffer memory: the canonical form and its preservation, reading after
writing, and that memories in canonical form that read alike are equal. -/

namespace Sys2Proof.Machine

theorem Memory.wf_cons_iff (a : Nat) (b : Byte) (rest : Memory) :
    Memory.wf ((a, b) :: rest) = true ↔
      b ≠ Memory.unwritten ∧ (∀ c ∈ rest, a < c.1) ∧ Memory.wf rest = true := by
  induction rest generalizing a b with
  | nil => simp [Memory.wf]
  | cons p rest ih =>
    obtain ⟨c, d⟩ := p
    have h := ih c d
    simp only [Memory.wf, Bool.and_eq_true, bne_iff_ne, ne_eq, decide_eq_true_eq]
    constructor
    · rintro ⟨⟨hb, hac⟩, hw⟩
      refine ⟨hb, ?_, hw⟩
      intro x hx
      rcases List.mem_cons.1 hx with rfl | hx
      · exact hac
      · exact lt_trans hac ((h.1 hw).2.1 x hx)
    · rintro ⟨hb, hlt, hw⟩
      exact ⟨⟨hb, hlt (c, d) (by simp)⟩, hw⟩

/-- An address below every listed one reads as an unwritten byte. -/
theorem Memory.read_of_lt (m : Memory) (x : Nat) (h : ∀ c ∈ m, x < c.1) :
    m.read x = Memory.unwritten := by
  induction m with
  | nil => rfl
  | cons p rest ih =>
    obtain ⟨a, b⟩ := p
    have ha : x < a := h (a, b) (by simp)
    simp only [Memory.read]
    rw [if_neg (by omega)]
    exact ih fun c hc => h c (by simp [hc])

/-- What a byte reads as after a byte is written. -/
theorem Memory.read_write (m : Memory) (hw : m.wf = true) (a : Nat) (v : Byte) (x : Nat) :
    (m.write a v).read x = if x = a then v else m.read x := by
  induction m with
  | nil =>
    simp only [Memory.write]
    split
    · next h => simp only [Memory.read]; split <;> simp_all
    · simp only [Memory.read]; split <;> split <;> simp_all
  | cons p rest ih =>
    obtain ⟨c, d⟩ := p
    obtain ⟨hd, hlt, hr⟩ := (Memory.wf_cons_iff c d rest).1 hw
    simp only [Memory.write]
    split
    · next h =>
      have hb : Memory.read ((c, d) :: rest) a = Memory.unwritten := by
        apply Memory.read_of_lt
        intro y hy
        rcases List.mem_cons.1 hy with rfl | hy
        · exact h
        · exact lt_trans h (hlt y hy)
      split
      · next hv =>
        by_cases hx : x = a
        · subst hx; simp [hb, hv]
        · simp [hx]
      · rw [Memory.read]
        by_cases hx : x = a
        · simp [hx]
        · rw [if_neg (Ne.symm hx), if_neg hx]
    · next h1 =>
      split
      · next h2 =>
        subst h2
        have hb : Memory.read rest a = Memory.unwritten := Memory.read_of_lt _ _ hlt
        split
        · next hv =>
          by_cases hx : x = a
          · subst hx; simp [hb, hv]
          · simp [Memory.read, hx, Ne.symm hx]
        · by_cases hx : x = a
          · simp [Memory.read, hx]
          · simp [Memory.read, hx, Ne.symm hx]
      · next h2 =>
        simp only [Memory.read]
        rw [ih hr]
        by_cases hx : x = a
        · subst hx
          simp [Ne.symm h2]
        · simp [hx]

theorem Memory.mem_write (m : Memory) (a : Nat) (v : Byte) (c : Nat × Byte)
    (h : c ∈ m.write a v) : c = (a, v) ∨ c ∈ m := by
  induction m with
  | nil => simp only [Memory.write] at h; split at h <;> simp_all
  | cons p rest ih =>
    obtain ⟨x, y⟩ := p
    simp only [Memory.write] at h
    split at h
    · split at h <;> simp_all
    · split at h
      · split at h <;> simp_all
        tauto
      · rcases List.mem_cons.1 h with rfl | h
        · simp
        · rcases ih h with rfl | h
          · simp
          · simp [h]

/-- A write keeps the canonical form. -/
theorem Memory.wf_write (m : Memory) (hw : m.wf = true) (a : Nat) (v : Byte) :
    (m.write a v).wf = true := by
  induction m with
  | nil => simp only [Memory.write]; split <;> simp_all [Memory.wf]
  | cons p rest ih =>
    obtain ⟨c, d⟩ := p
    obtain ⟨hd, hlt, hr⟩ := (Memory.wf_cons_iff c d rest).1 hw
    simp only [Memory.write]
    split
    · next h =>
      split
      · exact hw
      · next hv =>
        refine (Memory.wf_cons_iff _ _ _).2 ⟨hv, ?_, hw⟩
        intro y hy
        rcases List.mem_cons.1 hy with rfl | hy
        · exact h
        · exact lt_trans h (hlt y hy)
    · split
      · next h1 h2 =>
        subst h2
        split
        · exact hr
        · next hv => exact (Memory.wf_cons_iff _ _ _).2 ⟨hv, hlt, hr⟩
      · next h1 h2 =>
        refine (Memory.wf_cons_iff _ _ _).2 ⟨hd, ?_, ih hr⟩
        intro y hy
        rcases Memory.mem_write _ _ _ _ hy with rfl | hy
        · simp only; omega
        · exact hlt y hy

/-- Memories in canonical form that read alike are the same list. -/
theorem Memory.ext_of_wf (m m' : Memory) (h : m.wf = true) (h' : m'.wf = true)
    (hr : ∀ x, m.read x = m'.read x) : m = m' := by
  induction m generalizing m' with
  | nil =>
    cases m' with
    | nil => rfl
    | cons p rest =>
      obtain ⟨a, b⟩ := p
      have := hr a
      simp only [Memory.read, if_true] at this
      exact absurd this.symm ((Memory.wf_cons_iff a b rest).1 h').1
  | cons p rest ih =>
    obtain ⟨a, b⟩ := p
    obtain ⟨hb, hlt, hw⟩ := (Memory.wf_cons_iff a b rest).1 h
    cases m' with
    | nil =>
      have := hr a
      simp only [Memory.read, if_true] at this
      exact absurd this hb
    | cons p' rest' =>
      obtain ⟨a', b'⟩ := p'
      obtain ⟨hb', hlt', hw'⟩ := (Memory.wf_cons_iff a' b' rest').1 h'
      have haa : a = a' := by
        rcases lt_trichotomy a a' with hl | he | hl
        · have h1 := hr a
          rw [Memory.read_of_lt ((a', b') :: rest') a (by
            intro y hy
            rcases List.mem_cons.1 hy with rfl | hy
            · exact hl
            · exact lt_trans hl (hlt' y hy))] at h1
          simp only [Memory.read, if_true] at h1
          exact absurd h1 hb
        · exact he
        · have h1 := hr a'
          rw [Memory.read_of_lt ((a, b) :: rest) a' (by
            intro y hy
            rcases List.mem_cons.1 hy with rfl | hy
            · exact hl
            · exact lt_trans hl (hlt y hy))] at h1
          simp only [Memory.read, if_true] at h1
          exact absurd h1.symm hb'
      subst haa
      have hbb : b = b' := by simpa [Memory.read] using hr a
      subst hbb
      congr 1
      apply ih rest' hw hw'
      intro x
      by_cases hx : x = a
      · subst hx
        rw [Memory.read_of_lt rest _ hlt, Memory.read_of_lt rest' _ hlt']
      · have := hr x
        simpa [Memory.read, Ne.symm hx] using this

/-! ### Byte strings -/

@[simp] theorem Memory.length_readBytes (m : Memory) (a n : Nat) :
    (m.readBytes a n).length = n := by
  induction n generalizing a with
  | zero => rfl
  | succ n ih => simp [Memory.readBytes, ih]

@[simp] theorem Memory.getElem_readBytes (m : Memory) (a n i : Nat)
    (h : i < (m.readBytes a n).length) : (m.readBytes a n)[i] = m.read (a + i) := by
  induction n generalizing a i with
  | zero => simp [Memory.readBytes] at h
  | succ n ih =>
    cases i with
    | zero => simp [Memory.readBytes]
    | succ i =>
      simp only [Memory.readBytes, List.getElem_cons_succ]
      rw [ih]
      congr 1; omega

theorem Memory.readBytes_add (m : Memory) (a n k : Nat) :
    m.readBytes a (n + k) = m.readBytes a n ++ m.readBytes (a + n) k := by
  induction n generalizing a with
  | zero => simp [Memory.readBytes]
  | succ n ih =>
    rw [show n + 1 + k = (n + k) + 1 by omega]
    simp only [Memory.readBytes, List.cons_append, ih]
    rw [show a + 1 + n = a + (n + 1) by omega]

/-- Two memories that read alike over a range give the same bytes there. -/
theorem Memory.readBytes_congr (m m' : Memory) (a n : Nat)
    (h : ∀ x, a ≤ x → x < a + n → m.read x = m'.read x) :
    m.readBytes a n = m'.readBytes a n := by
  induction n generalizing a with
  | zero => rfl
  | succ n ih =>
    simp only [Memory.readBytes]
    rw [h a (le_refl _) (by omega), ih (a + 1) fun x h1 h2 => h x (by omega) (by omega)]

theorem Memory.wf_writeBytes (m : Memory) (hw : m.wf = true) (a : Nat) (l : List Byte) :
    (m.writeBytes a l).wf = true := by
  induction l generalizing m a with
  | nil => exact hw
  | cons b rest ih => exact ih _ (Memory.wf_write m hw a b) _

/-- What a byte reads as after a byte string is written. -/
theorem Memory.read_writeBytes (m : Memory) (hw : m.wf = true) (a : Nat) (l : List Byte) (x : Nat) :
    (m.writeBytes a l).read x =
      if a ≤ x ∧ x < a + l.length then l.getD (x - a) 0 else m.read x := by
  induction l generalizing m a with
  | nil => simp only [Memory.writeBytes, List.length_nil]; rw [if_neg (by omega)]
  | cons b rest ih =>
    simp only [Memory.writeBytes, List.length_cons]
    rw [ih _ (Memory.wf_write m hw a b), Memory.read_write m hw]
    by_cases h1 : x = a
    · subst h1
      rw [if_neg (by omega), if_pos rfl, if_pos (by omega)]
      simp
    · by_cases h2 : a + 1 ≤ x ∧ x < a + 1 + rest.length
      · rw [if_pos h2, if_pos (by omega)]
        rw [show x - a = (x - (a + 1)) + 1 by omega]
        simp
      · rw [if_neg h2, if_neg h1, if_neg (by omega)]

/-- A byte outside the bytes written reads as before. -/
theorem Memory.read_writeBytes_outside (m : Memory) (hw : m.wf = true) (a : Nat) (l : List Byte)
    (x : Nat) (h : x < a ∨ a + l.length ≤ x) : (m.writeBytes a l).read x = m.read x := by
  rw [Memory.read_writeBytes m hw, if_neg (by omega)]

theorem Memory.writeBytes_append (m : Memory) (a : Nat) (l k : List Byte) :
    m.writeBytes a (l ++ k) = (m.writeBytes a l).writeBytes (a + l.length) k := by
  induction l generalizing m a with
  | nil => simp [Memory.writeBytes]
  | cons b rest ih =>
    simp only [List.cons_append, Memory.writeBytes, ih, List.length_cons]
    rw [show a + 1 + rest.length = a + (rest.length + 1) by omega]

/-- The bytes written are read back. -/
theorem Memory.readBytes_writeBytes_self (m : Memory) (hw : m.wf = true) (a : Nat)
    (l : List Byte) : (m.writeBytes a l).readBytes a l.length = l := by
  apply List.ext_getElem
  · simp
  · intro i h1 h2
    rw [Memory.getElem_readBytes, Memory.read_writeBytes m hw, if_pos (by omega)]
    simp [h2]

/-- A range that the bytes written do not meet is read as before. -/
theorem Memory.readBytes_writeBytes_disjoint (m : Memory) (hw : m.wf = true) (a b n : Nat)
    (l : List Byte) (h : b + n ≤ a ∨ a + l.length ≤ b) :
    (m.writeBytes a l).readBytes b n = m.readBytes b n :=
  Memory.readBytes_congr _ _ _ _ fun x h1 h2 =>
    Memory.read_writeBytes_outside m hw a l x (by omega)

/-- What is written over the same range later wins. -/
theorem Memory.writeBytes_writeBytes_self (m : Memory) (hw : m.wf = true) (a : Nat)
    (l k : List Byte) (h : l.length = k.length) :
    (m.writeBytes a l).writeBytes a k = m.writeBytes a k := by
  apply Memory.ext_of_wf
  · exact Memory.wf_writeBytes _ (Memory.wf_writeBytes _ hw _ _) _ _
  · exact Memory.wf_writeBytes _ hw _ _
  · intro x
    rw [Memory.read_writeBytes _ (Memory.wf_writeBytes _ hw _ _), Memory.read_writeBytes _ hw,
      Memory.read_writeBytes _ hw]
    by_cases h1 : a ≤ x ∧ x < a + k.length
    · simp [h1]
    · rw [if_neg h1, if_neg (by omega), if_neg h1]

end Sys2Proof.Machine
end

