-- ==== Sys2Proof/Laws/State.lean ====
section
/-! SUPPORT. One lemma per field per update of the state's records, true by `rfl`; and reading back
a context, a mailbox or a command in execution after it is set. -/

namespace Sys2Proof.Machine

/-! ### `Engine.setCtx` -/

@[simp] theorem Engine.setCtx_params (e : Engine) (s : Nat) (x : Ctx) :
    (e.setCtx s x).params = e.params := rfl
@[simp] theorem Engine.setCtx_ctxs (e : Engine) (s : Nat) (x : Ctx) :
    (e.setCtx s x).ctxs = e.ctxs.set s x := rfl
@[simp] theorem Engine.setCtx_arb (e : Engine) (s : Nat) (x : Ctx) :
    (e.setCtx s x).arb = e.arb := rfl
@[simp] theorem Engine.setCtx_live (e : Engine) (s : Nat) (x : Ctx) :
    (e.setCtx s x).live = e.live := rfl
@[simp] theorem Engine.setCtx_mem (e : Engine) (s : Nat) (x : Ctx) :
    (e.setCtx s x).mem = e.mem := rfl
@[simp] theorem Engine.setCtx_answers (e : Engine) (s : Nat) (x : Ctx) :
    (e.setCtx s x).answers = e.answers := rfl
@[simp] theorem Engine.setCtx_fresh (e : Engine) (s : Nat) (x : Ctx) :
    (e.setCtx s x).fresh = e.fresh := rfl
@[simp] theorem Engine.setCtx_history (e : Engine) (s : Nat) (x : Ctx) :
    (e.setCtx s x).history = e.history := rfl

/-! ### `Engine.record` -/

@[simp] theorem Engine.record_params (e : Engine) (s : Nat) (c : BitVec 8) :
    (e.record s c).params = e.params := rfl
@[simp] theorem Engine.record_ctxs (e : Engine) (s : Nat) (c : BitVec 8) :
    (e.record s c).ctxs = e.ctxs := rfl
@[simp] theorem Engine.record_arb (e : Engine) (s : Nat) (c : BitVec 8) :
    (e.record s c).arb = e.arb := rfl
@[simp] theorem Engine.record_live (e : Engine) (s : Nat) (c : BitVec 8) :
    (e.record s c).live = e.live := rfl
@[simp] theorem Engine.record_mem (e : Engine) (s : Nat) (c : BitVec 8) :
    (e.record s c).mem = e.mem := rfl
@[simp] theorem Engine.record_answers (e : Engine) (s : Nat) (c : BitVec 8) :
    (e.record s c).answers = e.answers := rfl
@[simp] theorem Engine.record_fresh (e : Engine) (s : Nat) (c : BitVec 8) :
    (e.record s c).fresh = e.fresh := rfl
@[simp] theorem Engine.record_history (e : Engine) (s : Nat) (c : BitVec 8) :
    (e.record s c).history = ⟨s, c⟩ :: e.history := rfl
@[simp] theorem Engine.record_ctx (e : Engine) (s s' : Nat) (c : BitVec 8) :
    (e.record s c).ctx s' = e.ctx s' := rfl
@[simp] theorem Engine.record_answer (e : Engine) (s : Nat) (c : BitVec 8) :
    (e.record s c).answer = e.answer := rfl

/-! ### `Engine.dropAnswer` -/

@[simp] theorem Engine.dropAnswer_params (e : Engine) : e.dropAnswer.params = e.params := rfl
@[simp] theorem Engine.dropAnswer_ctxs (e : Engine) : e.dropAnswer.ctxs = e.ctxs := rfl
@[simp] theorem Engine.dropAnswer_arb (e : Engine) : e.dropAnswer.arb = e.arb := rfl
@[simp] theorem Engine.dropAnswer_live (e : Engine) : e.dropAnswer.live = e.live := rfl
@[simp] theorem Engine.dropAnswer_mem (e : Engine) : e.dropAnswer.mem = e.mem := rfl
@[simp] theorem Engine.dropAnswer_answers (e : Engine) :
    e.dropAnswer.answers = e.answers.tail := rfl
@[simp] theorem Engine.dropAnswer_fresh (e : Engine) : e.dropAnswer.fresh = e.fresh := rfl
@[simp] theorem Engine.dropAnswer_history (e : Engine) : e.dropAnswer.history = e.history := rfl
@[simp] theorem Engine.dropAnswer_ctx (e : Engine) (s : Nat) : e.dropAnswer.ctx s = e.ctx s := rfl

/-! ### `Engine.scrambleLive` -/

@[simp] theorem Engine.scrambleLive_params (e : Engine) : e.scrambleLive.params = e.params := rfl
@[simp] theorem Engine.scrambleLive_ctxs (e : Engine) : e.scrambleLive.ctxs = e.ctxs := rfl
@[simp] theorem Engine.scrambleLive_arb (e : Engine) : e.scrambleLive.arb = e.arb := rfl
@[simp] theorem Engine.scrambleLive_live (e : Engine) :
    e.scrambleLive.live = Config.anyImage e.fresh := rfl
@[simp] theorem Engine.scrambleLive_mem (e : Engine) : e.scrambleLive.mem = e.mem := rfl
@[simp] theorem Engine.scrambleLive_answers (e : Engine) :
    e.scrambleLive.answers = e.answers := rfl
@[simp] theorem Engine.scrambleLive_fresh (e : Engine) :
    e.scrambleLive.fresh = e.fresh + 1 := rfl
@[simp] theorem Engine.scrambleLive_history (e : Engine) :
    e.scrambleLive.history = e.history := rfl
@[simp] theorem Engine.scrambleLive_ctx (e : Engine) (s : Nat) :
    e.scrambleLive.ctx s = e.ctx s := rfl

/-! ### Reading a context after a context is set -/

@[simp] theorem Engine.ctx_setCtx_self (e : Engine) (s : Nat) (x : Ctx) (h : s < e.ctxs.length) :
    (e.setCtx s x).ctx s = x := by simp [Engine.ctx, h]

theorem Engine.ctx_setCtx_ne (e : Engine) {s s' : Nat} (x : Ctx) (h : s' ≠ s) :
    (e.setCtx s x).ctx s' = e.ctx s' := by
  simp [Engine.ctx, Ne.symm h]

@[simp] theorem Engine.setCtx_setCtx (e : Engine) (s : Nat) (x x' : Ctx) :
    (e.setCtx s x).setCtx s x' = e.setCtx s x' := by simp [Engine.setCtx]

/-- A context set to what it is. -/
@[simp] theorem Engine.setCtx_ctx (e : Engine) (s : Nat) : e.setCtx s (e.ctx s) = e := by
  have h : e.ctxs.set s (e.ctx s) = e.ctxs := by
    apply List.ext_getElem?
    intro i
    by_cases hi : s = i
    · subst hi
      by_cases hl : s < e.ctxs.length
      · simp [Engine.ctx, hl]
      · simp [hl]
    · simp [hi]
  simp [Engine.setCtx, h]

theorem Engine.setCtx_record (e : Engine) (s s' : Nat) (x : Ctx) (c : BitVec 8) :
    (e.record s' c).setCtx s x = (e.setCtx s x).record s' c := rfl

/-! ### `State.setMailbox`, `State.setRun` -/

@[simp] theorem State.setMailbox_eng (st : State) (s : Nat) (m : Mailbox) :
    (st.setMailbox s m).eng = st.eng := rfl
@[simp] theorem State.setMailbox_mbox (st : State) (s : Nat) (m : Mailbox) :
    (st.setMailbox s m).mbox = st.mbox.set s m := rfl
@[simp] theorem State.setMailbox_run (st : State) (s : Nat) (m : Mailbox) :
    (st.setMailbox s m).run = st.run := rfl
@[simp] theorem State.setMailbox_bus (st : State) (s : Nat) (m : Mailbox) :
    (st.setMailbox s m).bus = st.bus := rfl
@[simp] theorem State.setMailbox_cur (st : State) (s : Nat) (m : Mailbox) :
    (st.setMailbox s m).cur = st.cur := rfl
@[simp] theorem State.setMailbox_pendingOp (st : State) (s : Nat) (m : Mailbox) :
    (st.setMailbox s m).pendingOp = st.pendingOp := rfl
@[simp] theorem State.setMailbox_opnd (st : State) (s : Nat) (m : Mailbox) :
    (st.setMailbox s m).opnd = st.opnd := rfl
@[simp] theorem State.setMailbox_result (st : State) (s : Nat) (m : Mailbox) :
    (st.setMailbox s m).result = st.result := rfl
@[simp] theorem State.setMailbox_readData (st : State) (s : Nat) (m : Mailbox) :
    (st.setMailbox s m).readData = st.readData := rfl

@[simp] theorem State.setRun_eng (st : State) (s : Nat) (f : Option InFlight) :
    (st.setRun s f).eng = st.eng := rfl
@[simp] theorem State.setRun_mbox (st : State) (s : Nat) (f : Option InFlight) :
    (st.setRun s f).mbox = st.mbox := rfl
@[simp] theorem State.setRun_run (st : State) (s : Nat) (f : Option InFlight) :
    (st.setRun s f).run = st.run.set s f := rfl
@[simp] theorem State.setRun_bus (st : State) (s : Nat) (f : Option InFlight) :
    (st.setRun s f).bus = st.bus := rfl
@[simp] theorem State.setRun_cur (st : State) (s : Nat) (f : Option InFlight) :
    (st.setRun s f).cur = st.cur := rfl
@[simp] theorem State.setRun_pendingOp (st : State) (s : Nat) (f : Option InFlight) :
    (st.setRun s f).pendingOp = st.pendingOp := rfl
@[simp] theorem State.setRun_opnd (st : State) (s : Nat) (f : Option InFlight) :
    (st.setRun s f).opnd = st.opnd := rfl
@[simp] theorem State.setRun_result (st : State) (s : Nat) (f : Option InFlight) :
    (st.setRun s f).result = st.result := rfl
@[simp] theorem State.setRun_readData (st : State) (s : Nat) (f : Option InFlight) :
    (st.setRun s f).readData = st.readData := rfl

@[simp] theorem State.mailbox_setMailbox_self (st : State) (s : Nat) (m : Mailbox)
    (h : s < st.mbox.length) : (st.setMailbox s m).mailbox s = m := by simp [State.mailbox, h]

theorem State.mailbox_setMailbox_ne (st : State) {s s' : Nat} (m : Mailbox) (h : s' ≠ s) :
    (st.setMailbox s m).mailbox s' = st.mailbox s' := by
  simp [State.mailbox, Ne.symm h]

@[simp] theorem State.mailbox_setRun (st : State) (s s' : Nat) (f : Option InFlight) :
    (st.setRun s f).mailbox s' = st.mailbox s' := rfl

@[simp] theorem State.inFlight_setMailbox (st : State) (s s' : Nat) (m : Mailbox) :
    (st.setMailbox s m).inFlight s' = st.inFlight s' := rfl

@[simp] theorem State.inFlight_setRun_self (st : State) (s : Nat) (f : Option InFlight)
    (h : s < st.run.length) : (st.setRun s f).inFlight s = f := by simp [State.inFlight, h]

theorem State.inFlight_setRun_ne (st : State) {s s' : Nat} (f : Option InFlight) (h : s' ≠ s) :
    (st.setRun s f).inFlight s' = st.inFlight s' := by
  simp [State.inFlight, Ne.symm h]

/-- Setting what is set already changes nothing. -/
theorem State.set_inFlight_none (st : State) (s : Nat) (h : st.inFlight s = none) :
    st.run.set s none = st.run := by
  apply List.ext_getElem?
  intro i
  by_cases hi : s = i
  · subst hi
    by_cases hl : s < st.run.length
    · simp only [State.inFlight, List.getD_eq_getElem?_getD, List.getElem?_eq_getElem hl,
        Option.getD_some] at h
      simp [hl, h]
    · simp [hl]
  · simp [hi]

/-! ### Completion and raise -/

@[simp] theorem State.completeOk_eng (st : State) (o : Option W64) :
    (st.completeOk o).eng = st.eng := rfl
@[simp] theorem State.completeOk_mbox (st : State) (o : Option W64) :
    (st.completeOk o).mbox = st.mbox.set st.cur
      { st.mailbox st.cur with
        status := statusOk, outLen := o.getD (st.mailbox st.cur).outLen } := rfl
@[simp] theorem State.completeOk_run (st : State) (o : Option W64) :
    (st.completeOk o).run = st.run.set st.cur none := rfl
@[simp] theorem State.completeOk_bus (st : State) (o : Option W64) :
    (st.completeOk o).bus = st.bus := rfl
@[simp] theorem State.completeOk_cur (st : State) (o : Option W64) :
    (st.completeOk o).cur = st.cur := rfl
@[simp] theorem State.completeOk_pendingOp (st : State) (o : Option W64) :
    (st.completeOk o).pendingOp = st.pendingOp := rfl
@[simp] theorem State.completeOk_opnd (st : State) (o : Option W64) :
    (st.completeOk o).opnd = st.opnd := rfl
@[simp] theorem State.completeOk_result (st : State) (o : Option W64) :
    (st.completeOk o).result = st.result := rfl
@[simp] theorem State.completeOk_readData (st : State) (o : Option W64) :
    (st.completeOk o).readData = st.readData := rfl

@[simp] theorem State.raise_run (st : State) (i : Instr) (x : Ctx) (c : Cause) :
    (st.raise i x c).run = st.run.set st.cur none := by
  unfold State.raise; dsimp only; split <;> rfl
@[simp] theorem State.raise_bus (st : State) (i : Instr) (x : Ctx) (c : Cause) :
    (st.raise i x c).bus = st.bus := by unfold State.raise; dsimp only; split <;> rfl
@[simp] theorem State.raise_cur (st : State) (i : Instr) (x : Ctx) (c : Cause) :
    (st.raise i x c).cur = st.cur := by unfold State.raise; dsimp only; split <;> rfl
@[simp] theorem State.raise_pendingOp (st : State) (i : Instr) (x : Ctx) (c : Cause) :
    (st.raise i x c).pendingOp = st.pendingOp := by unfold State.raise; dsimp only; split <;> rfl
@[simp] theorem State.raise_opnd (st : State) (i : Instr) (x : Ctx) (c : Cause) :
    (st.raise i x c).opnd = st.opnd := by unfold State.raise; dsimp only; split <;> rfl
@[simp] theorem State.raise_result (st : State) (i : Instr) (x : Ctx) (c : Cause) :
    (st.raise i x c).result = st.result := by unfold State.raise; dsimp only; split <;> rfl
@[simp] theorem State.raise_readData (st : State) (i : Instr) (x : Ctx) (c : Cause) :
    (st.raise i x c).readData = st.readData := by unfold State.raise; dsimp only; split <;> rfl

/-- The engine after a raise: of the contexts only the session's own may change, and nothing else
but the counter of free values. -/
theorem State.raise_eng (st : State) (i : Instr) (x : Ctx) (c : Cause) :
    (st.raise i x c).eng =
      { (if causeClass c = .hardwareFailure
          then st.eng.setCtx st.cur (hardwareFailureCtx i x (st.eng.ctx st.cur)) else st.eng) with
        fresh := if hasOutLen i then st.eng.fresh + 1 else st.eng.fresh } := by
  unfold State.raise; dsimp only
  by_cases h1 : causeClass c = .hardwareFailure <;> by_cases h2 : hasOutLen i = true <;>
    (simp only [h1, h2, if_true, if_false]; rfl)

/-- The mailboxes after a raise. -/
theorem State.raise_mbox (st : State) (i : Instr) (x : Ctx) (c : Cause) :
    (st.raise i x c).mbox = st.mbox.set st.cur
      { st.mailbox st.cur with
        status := statusWord c
        outLen := if hasOutLen i then Config.anyWord st.eng.fresh
          else (st.mailbox st.cur).outLen } := by
  unfold State.raise; dsimp only
  by_cases h1 : causeClass c = .hardwareFailure <;> by_cases h2 : hasOutLen i = true <;>
    simp [h1, h2, State.mailbox]

end Sys2Proof.Machine
end

