-- ==== Sys2Proof/Laws/Program.lean ====
section
/-! SUPPORT. The laws of programs of micro-steps: running a sequence, the log of replies, taking the
micro-steps one at a time, and what every micro-step of a program keeps, the whole run keeps. -/

namespace Sys2Proof.Machine

/-! ### `bind` -/

@[simp] theorem Program.ret_bind {α β : Type} (a : α) (f : α → Program β) :
    (Program.ret a).bind f = f a := rfl
@[simp] theorem Program.raise_bind {α β : Type} (c : Cause) (f : α → Program β) :
    (Program.raise c : Program α).bind f = .raise c := rfl
@[simp] theorem Program.step_bind {α β : Type} (m : Engine → Micro) (k : Reply → Program α)
    (f : α → Program β) : (Program.step m k).bind f = .step m fun r => (k r).bind f := rfl

theorem Program.bind_assoc {α β γ : Type} (p : Program α) (f : α → Program β)
    (g : β → Program γ) : (p.bind f).bind g = p.bind fun a => (f a).bind g := by
  induction p with
  | ret a => rfl
  | raise c => rfl
  | step m k ih => simp only [Program.step_bind, ih]

/-! ### The log -/

/-- A run with replies put before those of its log. -/
def Run.addLog {α : Type} (log : List Reply) : Run α → Run α
  | .done a e => .done a e
  | .raised c e => .raised c e
  | .blocked l e => .blocked (log ++ l) e
  | .stopped x => .stopped x

@[simp] theorem Run.addLog_done {α : Type} (log : List Reply) (a : α) (e : Engine) :
    Run.addLog log (.done a e) = .done a e := rfl
@[simp] theorem Run.addLog_raised {α : Type} (log : List Reply) (c : Cause) (e : Engine) :
    Run.addLog log (.raised c e : Run α) = .raised c e := rfl
@[simp] theorem Run.addLog_blocked {α : Type} (log l : List Reply) (e : Engine) :
    Run.addLog log (.blocked l e : Run α) = .blocked (log ++ l) e := rfl
@[simp] theorem Run.addLog_stopped {α : Type} (log : List Reply) (x : Stop) :
    Run.addLog log (.stopped x : Run α) = .stopped x := rfl

theorem Run.addLog_addLog {α : Type} (l k : List Reply) (r : Run α) :
    Run.addLog l (Run.addLog k r) = Run.addLog (l ++ k) r := by
  cases r <;> simp

/-- Replies given before a run only stand before those of its log. -/
theorem Program.eval_log {α : Type} (p : Program α) (log : List Reply) (e : Engine) :
    p.eval log e = Run.addLog log (p.eval [] e) := by
  induction p generalizing log e with
  | ret a => rfl
  | raise c => rfl
  | step m k ih =>
    simp only [Program.eval]
    cases h : m e with
    | next e' r =>
      simp only []
      rw [ih r (log ++ [r]), ih r ([] ++ [r]), Run.addLog_addLog]
      simp
    | wait => simp
    | stop x => rfl

/-! ### Runs of sequences -/

@[simp] theorem Program.eval_ret {α : Type} (a : α) (log : List Reply) (e : Engine) :
    (Program.ret a).eval log e = .done a e := rfl
@[simp] theorem Program.eval_raise {α : Type} (c : Cause) (log : List Reply) (e : Engine) :
    (Program.raise c : Program α).eval log e = .raised c e := rfl

/-- A micro-step that is taken. -/
theorem Program.eval_step_next {α : Type} {m : Engine → Micro} {k : Reply → Program α}
    {log : List Reply} {e e' : Engine} {r : Reply} (h : m e = .next e' r) :
    (Program.step m k).eval log e = (k r).eval (log ++ [r]) e' := by
  simp only [Program.eval, h]

/-- A micro-step that is not enabled. -/
theorem Program.eval_step_wait {α : Type} {m : Engine → Micro} {k : Reply → Program α}
    {log : List Reply} {e : Engine} (h : m e = .wait) :
    (Program.step m k).eval log e = .blocked log e := by
  simp only [Program.eval, h]

/-- A micro-step that stops the model. -/
theorem Program.eval_step_stop {α : Type} {m : Engine → Micro} {k : Reply → Program α}
    {log : List Reply} {e : Engine} {x : Stop} (h : m e = .stop x) :
    (Program.step m k).eval log e = .stopped x := by
  simp only [Program.eval, h]

/-- A taken micro-step in a run to its end. -/
theorem Program.eval_step_done {α : Type} {m : Engine → Micro} {k : Reply → Program α}
    {e e' e'' : Engine} {r : Reply} {a : α} (h : m e = .next e' r)
    (hk : (k r).eval [] e' = .done a e'') : (Program.step m k).eval [] e = .done a e'' := by
  rw [Program.eval_step_next h, Program.eval_log, hk]; rfl

theorem Program.eval_step_raised {α : Type} {m : Engine → Micro} {k : Reply → Program α}
    {e e' e'' : Engine} {r : Reply} {c : Cause} (h : m e = .next e' r)
    (hk : (k r).eval [] e' = .raised c e'') : (Program.step m k).eval [] e = .raised c e'' := by
  rw [Program.eval_step_next h, Program.eval_log, hk]; rfl

/-- The second program runs where the first one is done. -/
theorem Program.eval_bind_of_done {α β : Type} {p : Program α} {f : α → Program β}
    {log : List Reply} {e e' : Engine} {a : α} (h : p.eval [] e = .done a e') :
    ∃ l, (p.bind f).eval log e = (f a).eval (log ++ l) e' := by
  induction p generalizing log e with
  | ret b =>
    simp only [Program.eval_ret, Run.done.injEq] at h
    obtain ⟨rfl, rfl⟩ := h
    exact ⟨[], by simp⟩
  | raise c => simp at h
  | step m k ih =>
    simp only [Program.eval] at h
    cases hm : m e with
    | next e1 r =>
      simp only [hm] at h
      rw [Program.eval_log] at h
      have h' : (k r).eval [] e1 = .done a e' := by
        cases hk : (k r).eval [] e1 <;> simp_all
      obtain ⟨l, hl⟩ := ih r h' (log := log ++ [r])
      exact ⟨r :: l, by simp [Program.eval_step_next hm, hl]⟩
    | wait => simp [hm] at h
    | stop x => simp [hm] at h

/-- Two programs that are done one after the other. -/
theorem Program.eval_bind_done {α β : Type} {p : Program α} {f : α → Program β}
    {e e' e'' : Engine} {a : α} {b : β} (h : p.eval [] e = .done a e')
    (hf : (f a).eval [] e' = .done b e'') : (p.bind f).eval [] e = .done b e'' := by
  obtain ⟨l, hl⟩ := Program.eval_bind_of_done (f := f) (log := []) h
  rw [hl, Program.eval_log, hf]; rfl

/-- The first is done, the second raises. -/
theorem Program.eval_bind_done_raised {α β : Type} {p : Program α} {f : α → Program β}
    {e e' e'' : Engine} {a : α} {c : Cause} (h : p.eval [] e = .done a e')
    (hf : (f a).eval [] e' = .raised c e'') : (p.bind f).eval [] e = .raised c e'' := by
  obtain ⟨l, hl⟩ := Program.eval_bind_of_done (f := f) (log := []) h
  rw [hl, Program.eval_log, hf]; rfl

/-- The first raises. -/
theorem Program.eval_bind_raised {α β : Type} {p : Program α} {f : α → Program β}
    {log : List Reply} {e e' : Engine} {c : Cause} (h : p.eval [] e = .raised c e') :
    (p.bind f).eval log e = .raised c e' := by
  induction p generalizing log e with
  | ret b => simp at h
  | raise d =>
    simp only [Program.eval_raise, Run.raised.injEq] at h
    obtain ⟨rfl, rfl⟩ := h; rfl
  | step m k ih =>
    simp only [Program.eval] at h
    cases hm : m e with
    | next e1 r =>
      simp only [hm] at h
      rw [Program.eval_log] at h
      have h' : (k r).eval [] e1 = .raised c e' := by
        cases hk : (k r).eval [] e1 <;> simp_all
      simp only [Program.step_bind, Program.eval_step_next hm]
      exact ih r h'
    | wait => simp [hm] at h
    | stop x => simp [hm] at h

/-- The first waits. -/
theorem Program.eval_bind_blocked {α β : Type} {p : Program α} {f : α → Program β}
    {e e' : Engine} {l : List Reply} (h : p.eval [] e = .blocked l e') (log : List Reply) :
    (p.bind f).eval log e = .blocked (log ++ l) e' := by
  induction p generalizing log e l with
  | ret b => simp at h
  | raise d => simp at h
  | step m k ih =>
    simp only [Program.eval] at h
    cases hm : m e with
    | next e1 r =>
      simp only [hm, List.nil_append] at h
      rw [Program.eval_log] at h
      cases hk : (k r).eval [] e1 with
      | blocked l' e2 =>
        rw [hk] at h
        simp only [Run.addLog_blocked, Run.blocked.injEq] at h
        obtain ⟨rfl, rfl⟩ := h
        simp only [Program.step_bind, Program.eval_step_next hm, ih r hk]
        simp
      | done a e2 => rw [hk] at h; simp at h
      | raised c e2 => rw [hk] at h; simp at h
      | stopped x => rw [hk] at h; simp at h
    | wait =>
      simp only [hm, Run.blocked.injEq] at h
      obtain ⟨rfl, rfl⟩ := h
      simp [Program.eval_step_wait hm]
    | stop x => simp [hm] at h

/-- The first stops. -/
theorem Program.eval_bind_stopped {α β : Type} {p : Program α} {f : α → Program β}
    {log : List Reply} {e : Engine} {x : Stop} (h : p.eval [] e = .stopped x) :
    (p.bind f).eval log e = .stopped x := by
  induction p generalizing log e with
  | ret b => simp at h
  | raise d => simp at h
  | step m k ih =>
    simp only [Program.eval] at h
    cases hm : m e with
    | next e1 r =>
      simp only [hm] at h
      rw [Program.eval_log] at h
      have h' : (k r).eval [] e1 = .stopped x := by
        cases hk : (k r).eval [] e1 <;> simp_all
      simp only [Program.step_bind, Program.eval_step_next hm]
      exact ih r h'
    | wait => simp [hm] at h
    | stop y =>
      simp only [hm, Run.stopped.injEq] at h
      subst h
      simp [Program.eval_step_stop hm]

/-! ### Raises that are caught (`onRaise`, R92) -/

theorem Program.eval_onRaise_done {α : Type} {h : Program Unit} {p : Program α} {e e' : Engine}
    {a : α} (hp : p.eval [] e = .done a e') : (Program.onRaise h p).eval [] e = .done a e' := by
  induction p generalizing e with
  | ret b => exact hp
  | raise d => simp at hp
  | step m k ih =>
    simp only [Program.eval] at hp
    cases hm : m e with
    | next e1 r =>
      simp only [hm] at hp
      rw [Program.eval_log] at hp
      have h' : (k r).eval [] e1 = .done a e' := by
        cases hk : (k r).eval [] e1 <;> simp_all
      exact Program.eval_step_done hm (ih r h')
    | wait => simp [hm] at hp
    | stop y => simp [hm] at hp

theorem Program.eval_onRaise_raised {α : Type} {h : Program Unit} {p : Program α}
    {e e' e'' : Engine} {c : Cause} (hp : p.eval [] e = .raised c e')
    (hh : h.eval [] e' = .done () e'') : (Program.onRaise h p).eval [] e = .raised c e'' := by
  induction p generalizing e with
  | ret b => simp at hp
  | raise d =>
    simp only [Program.eval_raise, Run.raised.injEq] at hp
    obtain ⟨rfl, rfl⟩ := hp
    exact Program.eval_bind_done_raised hh (Program.eval_raise _ _ _)
  | step m k ih =>
    simp only [Program.eval] at hp
    cases hm : m e with
    | next e1 r =>
      simp only [hm] at hp
      rw [Program.eval_log] at hp
      have h' : (k r).eval [] e1 = .raised c e' := by
        cases hk : (k r).eval [] e1 <;> simp_all
      exact Program.eval_step_raised hm (ih r h')
    | wait => simp [hm] at hp
    | stop y => simp [hm] at hp

/-! ### One micro-step at a time -/

@[simp] theorem Program.replay_nil {α : Type} (p : Program α) : p.replay [] = p := by
  cases p <;> rfl

theorem Program.replay_append {α : Type} (p : Program α) (l k : List Reply) :
    p.replay (l ++ k) = (p.replay l).replay k := by
  induction l generalizing p with
  | nil => simp
  | cons r rest ih =>
    cases p with
    | ret a => cases k <;> simp [Program.replay]
    | raise c => cases k <;> simp [Program.replay]
    | step m f => simp only [List.cons_append, Program.replay, ih]

/-! ### What every micro-step keeps -/

/-- Every micro-step of a program satisfies `Q`. -/
inductive Program.All {α : Type} (Q : (Engine → Micro) → Prop) : Program α → Prop
  | ret (a : α) : Program.All Q (.ret a)
  | raise (c : Cause) : Program.All Q (.raise c)
  | step (m : Engine → Micro) (k : Reply → Program α) (hm : Q m)
      (hk : ∀ r, Program.All Q (k r)) : Program.All Q (.step m k)

theorem Program.All.bind {α β : Type} {Q : (Engine → Micro) → Prop} {p : Program α}
    {f : α → Program β} (hp : p.All Q) (hf : ∀ a, (f a).All Q) : (p.bind f).All Q := by
  induction hp with
  | ret a => exact hf a
  | raise c => exact .raise c
  | step m k hm _ ih => exact .step m _ hm ih

theorem Program.All.onRaise {α : Type} {Q : (Engine → Micro) → Prop} {h : Program Unit}
    {p : Program α} (hp : p.All Q) (hh : h.All Q) : (Program.onRaise h p).All Q := by
  induction hp with
  | ret a => exact .ret a
  | raise c => exact Program.All.bind hh fun _ => .raise c
  | step m k hm _ ih => exact .step m _ hm ih

theorem Program.All.do_ {Q : (Engine → Micro) → Prop} {m : Engine → Micro} (hm : Q m) :
    (Program.do_ m).All Q := .step m _ hm fun _ => .ret ()

theorem Program.All.forEach {β : Type} {Q : (Engine → Micro) → Prop} {f : β → Program Unit}
    {l : List β} (h : ∀ b ∈ l, (f b).All Q) : (Program.forEach f l).All Q := by
  induction l with
  | nil => exact .ret ()
  | cons b rest ih =>
    exact Program.All.bind (h b (by simp)) fun _ => ih fun c hc => h c (by simp [hc])

theorem Program.All.mono {α : Type} {Q Q' : (Engine → Micro) → Prop} {p : Program α}
    (hp : p.All Q) (h : ∀ m, Q m → Q' m) : p.All Q' := by
  induction hp with
  | ret a => exact .ret a
  | raise c => exact .raise c
  | step m k hm _ ih => exact .step m _ (h m hm) ih

theorem Program.All.replay {α : Type} {Q : (Engine → Micro) → Prop} {p : Program α}
    (hp : p.All Q) (l : List Reply) : (p.replay l).All Q := by
  induction hp generalizing l with
  | ret a => cases l <;> exact .ret a
  | raise c => cases l <;> exact .raise c
  | step m k hm hk ih =>
    cases l with
    | nil => exact .step m k hm hk
    | cons r rest => exact ih r rest

/-- The engine a run leaves, if the model does not stop. -/
def Run.engine? {α : Type} : Run α → Option Engine
  | .done _ e => some e
  | .raised _ e => some e
  | .blocked _ e => some e
  | .stopped _ => none

@[simp] theorem Run.engine?_addLog {α : Type} (l : List Reply) (r : Run α) :
    (Run.addLog l r).engine? = r.engine? := by cases r <;> rfl

/-- A relation that is reflexive and transitive and that every micro-step of a program keeps holds
from the start of its run to its end. -/
theorem Program.All.eval {α : Type} {R : Engine → Engine → Prop} {p : Program α}
    (hp : p.All fun m => ∀ e e' r, m e = .next e' r → R e e')
    (hrefl : ∀ e, R e e) (htrans : ∀ a b c, R a b → R b c → R a c) (log : List Reply)
    {e e' : Engine} (h : (p.eval log e).engine? = some e') : R e e' := by
  induction hp generalizing log e with
  | ret a => simp only [Program.eval_ret, Run.engine?, Option.some.injEq] at h; exact h ▸ hrefl e
  | raise c => simp only [Program.eval_raise, Run.engine?, Option.some.injEq] at h; exact h ▸ hrefl e
  | step m k hm _ ih =>
    cases hme : m e with
    | next e1 r =>
      rw [Program.eval_step_next hme] at h
      exact htrans _ _ _ (hm e e1 r hme) (ih r _ h)
    | wait =>
      rw [Program.eval_step_wait hme] at h
      simp only [Run.engine?, Option.some.injEq] at h
      exact h ▸ hrefl e
    | stop x =>
      rw [Program.eval_step_stop hme] at h
      simp [Run.engine?] at h

end Sys2Proof.Machine
end

