-- ==== Sys2Proof/Laws/Ops.lean ====
section
/-! SUPPORT. One lemma for each shared operation that says what it does: bytes of memory, contexts, the
mutex, the adapter's operations, the guarded section, and how a command or a bare operation runs. -/

namespace Sys2Proof.Machine

/-! ### Inversion of runs -/

/-- A sequence that is done: both parts are done. -/
theorem Program.eval_bind_eq_done {α β : Type} {p : Program α} {f : α → Program β}
    {e e'' : Engine} {b : β} :
    (p.bind f).eval [] e = .done b e'' ↔
      ∃ a e', p.eval [] e = .done a e' ∧ (f a).eval [] e' = .done b e'' := by
  constructor
  · intro h
    cases hp : p.eval [] e with
    | done a e' =>
      refine ⟨a, e', rfl, ?_⟩
      obtain ⟨l, hl⟩ := Program.eval_bind_of_done (f := f) (log := []) hp
      rw [hl, Program.eval_log] at h
      cases hk : (f a).eval [] e' <;> simp_all
    | raised c e' => rw [Program.eval_bind_raised hp] at h; simp at h
    | blocked l e' => rw [Program.eval_bind_blocked hp] at h; simp at h
    | stopped x => rw [Program.eval_bind_stopped hp] at h; simp at h
  · rintro ⟨a, e', h1, h2⟩
    exact Program.eval_bind_done h1 h2

/-- A sequence that raises: its first part raises, or is done and the second raises. -/
theorem Program.eval_bind_eq_raised {α β : Type} {p : Program α} {f : α → Program β}
    {e e'' : Engine} {c : Cause} :
    (p.bind f).eval [] e = .raised c e'' ↔
      p.eval [] e = .raised c e'' ∨
        ∃ a e', p.eval [] e = .done a e' ∧ (f a).eval [] e' = .raised c e'' := by
  constructor
  · intro h
    cases hp : p.eval [] e with
    | done a e' =>
      right
      refine ⟨a, e', rfl, ?_⟩
      obtain ⟨l, hl⟩ := Program.eval_bind_of_done (f := f) (log := []) hp
      rw [hl, Program.eval_log] at h
      cases hk : (f a).eval [] e' <;> simp_all
    | raised c' e' =>
      rw [Program.eval_bind_raised hp] at h
      simp only [Run.raised.injEq] at h
      left; rw [h.1, h.2]
    | blocked l e' => rw [Program.eval_bind_blocked hp] at h; simp at h
    | stopped x => rw [Program.eval_bind_stopped hp] at h; simp at h
  · rintro (h | ⟨a, e', h1, h2⟩)
    · exact Program.eval_bind_raised h
    · exact Program.eval_bind_done_raised h1 h2

/-- A micro-step first in a run that is done. -/
theorem Program.eval_step_eq_done {α : Type} {m : Engine → Micro} {k : Reply → Program α}
    {e e'' : Engine} {a : α} :
    (Program.step m k).eval [] e = .done a e'' ↔
      ∃ e' r, m e = .next e' r ∧ (k r).eval [] e' = .done a e'' := by
  constructor
  · intro h
    cases hm : m e with
    | next e' r =>
      rw [Program.eval_step_next hm, Program.eval_log] at h
      refine ⟨e', r, rfl, ?_⟩
      cases hk : (k r).eval [] e' <;> simp_all
    | wait => rw [Program.eval_step_wait hm] at h; simp at h
    | stop x => rw [Program.eval_step_stop hm] at h; simp at h
  · rintro ⟨e', r, hm, hk⟩
    exact Program.eval_step_done hm hk

/-- A micro-step first in a run that raises. -/
theorem Program.eval_step_eq_raised {α : Type} {m : Engine → Micro} {k : Reply → Program α}
    {e e'' : Engine} {c : Cause} :
    (Program.step m k).eval [] e = .raised c e'' ↔
      ∃ e' r, m e = .next e' r ∧ (k r).eval [] e' = .raised c e'' := by
  constructor
  · intro h
    cases hm : m e with
    | next e' r =>
      rw [Program.eval_step_next hm, Program.eval_log] at h
      refine ⟨e', r, rfl, ?_⟩
      cases hk : (k r).eval [] e' <;> simp_all
    | wait => rw [Program.eval_step_wait hm] at h; simp at h
    | stop x => rw [Program.eval_step_stop hm] at h; simp at h
  · rintro ⟨e', r, hm, hk⟩
    exact Program.eval_step_raised hm hk

/-! ### Contexts and memory -/

@[simp] theorem getCtx_eval (s : Nat) (e : Engine) :
    (getCtx s).eval [] e = .done (e.ctx s) e := rfl

@[simp] theorem setCtx_eval (s : Nat) (f : Ctx → Ctx) (e : Engine) :
    (setCtx s f).eval [] e = .done () (e.setCtx s (f (e.ctx s))) := rfl

/-- A single micro-step that is taken. -/
theorem do_eval {m : Engine → Micro} {e e' : Engine} {r : Reply} (h : m e = .next e' r) :
    (Program.do_ m).eval [] e = .done () e' := by
  simp only [Program.do_, Program.eval, h]

/-- `MemRead` of a buffer that fits the address space gives its bytes and changes nothing (R20). -/
theorem memRead_eval (a n : Nat) (e : Engine) (h : fits e.params a n) :
    (memRead a n).eval [] e = .done (e.mem.readBytes a n) e := by
  induction n generalizing a with
  | zero => rfl
  | succ n ih =>
    have ha : a < 2 ^ e.params.addrBits := by
      rcases h with h | h
      · omega
      · omega
    have hm : readByteOp a e = .next e (.bytes [e.mem.read a]) := if_pos ha
    refine Program.eval_step_done hm (Program.eval_bind_done (ih (a + 1) ?_) rfl)
    rcases h with h | h
    · omega
    · right; omega

/-- `MemWrite` of a string that fits the address space writes it and changes nothing else (R20). -/
theorem memWrite_eval (a : Nat) (l : List Byte) (e : Engine) (h : fits e.params a l.length) :
    (memWrite a l).eval [] e = .done () { e with mem := e.mem.writeBytes a l } := by
  induction l generalizing a e with
  | nil => rfl
  | cons b rest ih =>
    have ha : a < 2 ^ e.params.addrBits := by
      rcases h with h | h
      · simp at h
      · simp only [List.length_cons] at h; omega
    have hm : writeByteOp a b e = .next { e with mem := e.mem.write a b } .unit := if_pos ha
    refine Program.eval_step_done hm ?_
    rw [ih (a + 1) _ ?_]
    · rfl
    · rcases h with h | h
      · simp at h
      · simp only [List.length_cons] at h; right; show _ ≤ 2 ^ e.params.addrBits; omega

/-! ### The mutex (R82 to R85) -/

theorem acquireOp_free {s : Nat} {e : Engine} (h1 : e.arb.mutexExists = true)
    (h2 : e.arb.holder = none) :
    acquireOp s e =
      .next { e.record s 0x22 with arb := { e.arb with holder := some s } } .unit := by
  simp [acquireOp, h1, h2]

/-- While the mutex does not exist or is held, `ACQUIRE` is not enabled (R84). -/
theorem acquireOp_wait {s : Nat} {e : Engine}
    (h : ¬ (e.arb.mutexExists = true ∧ e.arb.holder = none)) : acquireOp s e = .wait := by
  unfold acquireOp
  rw [if_neg]
  simpa using h

theorem releaseOp_held {s : Nat} {e : Engine} (h : e.arb.holder = some s) :
    releaseOp s e = .next { e.record s 0x23 with arb := { e.arb with holder := none } } .unit := by
  simp [releaseOp, h]

/-! ### Adapter operations (R45, R52) -/

/-- What an adapter operation of the holder that the accelerator performs does. -/
theorem adapterOp_done {s : Nat} {code : BitVec 8} {ready : Bool} {failure : Answer → Cause}
    {run : Engine → Engine × Reply} {e : Engine} {rest : List Answer}
    (hh : e.arb.holder = some s) (ha : e.answers = .done :: rest) (hr : ready = true) :
    adapterOp s code ready failure run e =
      .next (run (e.record s code).dropAnswer).1 (run (e.record s code).dropAnswer).2 := by
  have : e.answer = .done := by simp [Engine.answer, ha]
  simp [adapterOp, hh, this, hr]

/-- What an adapter operation of the holder that fails does (R45). -/
theorem adapterOp_failed {s : Nat} {code : BitVec 8} {ready : Bool} {failure : Answer → Cause}
    {run : Engine → Engine × Reply} {e : Engine}
    (hh : e.arb.holder = some s) (h : e.answer ≠ .done ∨ ready = false) :
    adapterOp s code ready failure run e =
      .next (e.record s code).dropAnswer.scrambleLive (.failed (failure e.answer)) := by
  unfold adapterOp
  rw [if_pos (by simp [hh])]
  simp only []
  rw [if_neg]
  rcases h with h | h <;> simp [h]

/-- Everything an adapter operation can do (R45, R52). -/
theorem adapterOp_cases (s : Nat) (code : BitVec 8) (ready : Bool) (failure : Answer → Cause)
    (run : Engine → Engine × Reply) (e : Engine) :
    (e.arb.holder = some s ∧ e.answer = .done ∧ ready = true ∧
      adapterOp s code ready failure run e =
        .next (run (e.record s code).dropAnswer).1 (run (e.record s code).dropAnswer).2) ∨
    (e.arb.holder = some s ∧ (e.answer ≠ .done ∨ ready = false) ∧
      adapterOp s code ready failure run e =
        .next (e.record s code).dropAnswer.scrambleLive (.failed (failure e.answer))) ∨
    (e.arb.holder ≠ some s ∧
      adapterOp s code ready failure run e = .stop (.refused .notHolder)) := by
  by_cases hh : e.arb.holder = some s
  · by_cases ha : e.answer = .done ∧ ready = true
    · left
      refine ⟨hh, ha.1, ha.2, ?_⟩
      simp [adapterOp, hh, ha]
    · right; left
      have : e.answer ≠ .done ∨ ready = false := by
        by_cases h : e.answer = .done
        · right; simpa using fun hr => ha ⟨h, hr⟩
        · exact .inl h
      exact ⟨hh, this, adapterOp_failed hh this⟩
  · right; right
    refine ⟨hh, ?_⟩
    simp [adapterOp, hh]

/-- A port call within its domain as an adapter operation, its effect in closed form (R41 to R43, R48
to R51). -/
theorem portCallOp_eq {s : Nat} {c : PortCall} {e : Engine} (hw : c.wellFormed = true) :
    portCallOp s c e =
      adapterOp s (callCode c) (callReady e.live c) dataFailure
        (fun _ => ({ (e.record s (callCode c)).dropAnswer with
          live := (callEffect e.live c).1 }, .bytes (callEffect e.live c).2)) e := by
  unfold portCallOp
  rw [if_pos hw]
  cases c with
  | configure key keyBits mode => rfl
  | encrypt d => rfl
  | decrypt d => rfl
  | gcmBegin dir y0 => rfl
  | gcmHeader d =>
    simp only [callEffect, ← headerAcc_eq (imageSubkey e.live) _ d e.live.gAcc rfl]
    rfl
  | gcmPayload d valid =>
    have hd : d.length % 16 = 0 := by
      have := hw
      simp only [PortCall.wellFormed, wholeBlocks, Bool.and_eq_true, beq_iff_eq] at this
      exact this.2
    simp only [gcmPayloadOp]
    rw [payloadBlocks_eq _ _ _ _ _ _ (by omega)]
    simp only [callEffect, counterAfter_blocks _ _ hd, List.nil_append]
    rfl
  | gcmTag aadBits payloadBits => rfl

/-- A successful port call. -/
theorem portCallOp_done {s : Nat} {c : PortCall} {e : Engine} {rest : List Answer}
    (hh : e.arb.holder = some s) (hw : c.wellFormed = true) (hr : callReady e.live c = true)
    (ha : e.answers = .done :: rest) :
    portCallOp s c e =
      .next { e with
        live := (callEffect e.live c).1
        answers := rest
        history := ⟨s, callCode c⟩ :: e.history } (.bytes (callEffect e.live c).2) := by
  rw [portCallOp_eq hw, adapterOp_done hh ha hr]
  simp [Engine.record, Engine.dropAnswer, ha]

/-- A failing port call (R45). -/
theorem portCallOp_failed {s : Nat} {c : PortCall} {e : Engine}
    (hh : e.arb.holder = some s) (hw : c.wellFormed = true)
    (h : e.answer ≠ .done ∨ callReady e.live c = false) :
    portCallOp s c e =
      .next (e.record s (callCode c)).dropAnswer.scrambleLive (.failed (dataFailure e.answer)) := by
  rw [portCallOp_eq hw, adapterOp_failed hh h]

/-- A port call outside its domain (log 17). -/
theorem portCallOp_shape {s : Nat} {c : PortCall} {e : Engine} (hw : c.wellFormed = false) :
    portCallOp s c e = .stop (.refused .operandShape) := by
  simp [portCallOp, hw]

/-- A port call of a session that does not hold the mutex (R52). -/
theorem portCallOp_notHolder {s : Nat} {c : PortCall} {e : Engine} (hw : c.wellFormed = true)
    (hh : e.arb.holder ≠ some s) : portCallOp s c e = .stop (.refused .notHolder) := by
  rw [portCallOp_eq hw]
  simp [adapterOp, hh]

/-! ### The guarded section (R86) -/

/-- The body of a guarded section in which no operation fails, before what follows it. -/
theorem guardBody_eval {s : Nat} {k : List Byte → Program (List Byte)} {rest : List Answer}
    (l : List PortCall) (e : Engine) (r0 r : List Byte) (img : Image) (log : List Reply)
    (hh : e.arb.holder = some s) (hl : runCalls e.live l r0 = some (img, r))
    (ha : e.answers = List.replicate l.length .done ++ rest) :
    ∃ h log', (guardBody s k l r0).eval log e =
      (k r).eval log' { e with live := img, answers := rest, history := h ++ e.history } := by
  induction l generalizing e r0 log with
  | nil =>
    simp only [runCalls, Option.some.injEq, Prod.mk.injEq] at hl
    obtain ⟨rfl, rfl⟩ := hl
    exact ⟨[], log, by simp [guardBody, ← show e.answers = rest by simpa using ha]⟩
  | cons c l ih =>
    simp only [runCalls] at hl
    split at hl
    · next hc =>
      simp only [Bool.and_eq_true] at hc
      have ha' : e.answers = .done :: (List.replicate l.length .done ++ rest) := by
        simpa [List.replicate_succ] using ha
      have hm := portCallOp_done hh hc.1 hc.2 ha'
      obtain ⟨h, log', hk⟩ := ih
        { e with live := (callEffect e.live c).1
                 answers := List.replicate l.length .done ++ rest
                 history := ⟨s, callCode c⟩ :: e.history }
        (callEffect e.live c).2 (log ++ [.bytes (callEffect e.live c).2]) hh hl rfl
      refine ⟨h ++ [⟨s, callCode c⟩], log', ?_⟩
      rw [guardBody, Program.eval_step_next hm]
      simp only [replyFailure, replyBytes]
      rw [hk]
      simp
    · simp at hl

/-- What a guarded section does after a failure: it releases the mutex and raises (R86). -/
theorem guardFail_eval {α : Type} {s : Nat} {c : Cause} {e : Engine} (log : List Reply)
    (hh : e.arb.holder = some s) :
    (guardFail s c : Program α).eval log e = .raised c { e with
      arb := { e.arb with holder := none }, history := ⟨s, 0x23⟩ :: e.history } := by
  rw [guardFail, Program.eval_step_next (releaseOp_held hh)]
  rfl

/-- The body of a guarded section in which an operation fails, the first in order: it is the last
one performed, the last to take an answer, and its cause is raised with the mutex free (R86). -/
theorem guardBody_fails {s : Nat} {k : List Byte → Program (List Byte)} {c : Cause}
    (l : List PortCall) (e : Engine) (r0 : List Byte) (log : List Reply)
    (hh : e.arb.holder = some s) (hw : ∀ d ∈ l, d.wellFormed = true)
    (hf : callsFailure e.live l e.answers = some c) :
    (guardBody s k l r0).eval log e = .raised c { e with
      arb := { e.arb with holder := none }
      live := Config.anyImage e.fresh
      fresh := e.fresh + 1
      answers := e.answers.drop (callsPerformed e.live l e.answers).length
      history := ⟨s, 0x23⟩ ::
        ((callsPerformed e.live l e.answers).reverse.map fun code => ⟨s, code⟩) ++ e.history } := by
  induction l generalizing e r0 log with
  | nil => simp [callsFailure] at hf
  | cons d l ih =>
    have hd := hw d (by simp)
    unfold callsFailure at hf
    unfold callsPerformed
    split at hf
    · next h1 =>
      have ha : e.answers = .done :: e.answers.tail := by
        cases he : e.answers with
        | nil => simp [he] at h1
        | cons a t => simp [he] at h1 ⊢; exact h1.1
      rw [guardBody, Program.eval_step_next (portCallOp_done hh hd h1.2 ha), if_pos h1]
      simp only [replyFailure, replyBytes]
      rw [ih { e with
        live := (callEffect e.live d).1
        answers := e.answers.tail
        history := ⟨s, callCode d⟩ :: e.history } _ _ hh (fun d hd => hw d (by simp [hd])) hf]
      simp
    · next h1 =>
      cases hf
      have he : e.answers.headD .timedOut = e.answer := rfl
      have h2 : e.answer ≠ .done ∨ callReady e.live d = false := by
        by_cases h : e.answer = .done
        · exact .inr (Bool.eq_false_iff.2 fun hr => h1 ⟨he ▸ h, hr⟩)
        · exact .inl h
      rw [guardBody, Program.eval_step_next (portCallOp_failed hh hd h2), if_neg h1]
      simp only [replyFailure]
      rw [guardFail_eval _ (by simpa using hh)]
      rw [he]
      simp [Engine.record, Engine.dropAnswer, Engine.scrambleLive]

/-- The session takes the mutex for a guarded section (R86). -/
theorem guardOpenOp_free {s : Nat} {e : Engine} (h1 : e.arb.mutexExists = true)
    (h2 : e.arb.holder = none) :
    guardOpenOp s e = .next { e with
      arb := { e.arb with holder := some s }
      history := ⟨s, 0x22⟩ :: ⟨s, 0x35⟩ :: e.history } .unit :=
  (acquireOp_free (s := s) (e := e.record s 0x35) h1 h2).trans rfl

/-- The session's image is restored, if it has one (R86). -/
theorem resumeOwnOp_valid {s : Nat} {e : Engine} {rest : List Answer}
    (hv : (e.ctx s).imageValid = true) (hh : e.arb.holder = some s)
    (ha : e.answers = .done :: rest) :
    resumeOwnOp s e = .next { e with
      live := (e.ctx s).image, answers := rest, history := ⟨s, 0x15⟩ :: e.history } .unit := by
  unfold resumeOwnOp resumeOp
  rw [if_pos hv, adapterOp_done hh ha rfl]
  simp [Engine.record, Engine.dropAnswer, ha]

theorem resumeOwnOp_none {s : Nat} {e : Engine} (hv : (e.ctx s).imageValid = false) :
    resumeOwnOp s e = .next e .unit := by
  simp [resumeOwnOp, hv]

/-- A guarded section up to its body: the mutex is held and the session's image is live (R86). -/
theorem guardSection_open {s : Nat} {body : List PortCall} {e : Engine} {rest : List Answer}
    (h1 : e.arb.mutexExists = true) (h2 : e.arb.holder = none)
    (ha : e.answers = List.replicate (if (e.ctx s).imageValid then 1 else 0) .done ++ rest) :
    ∃ h log, (guardSection s body).eval [] e =
      (guardBody s (guardClose s) body []).eval log { e with
        arb := { e.arb with holder := some s }
        live := if (e.ctx s).imageValid then (e.ctx s).image else e.live
        answers := rest
        history := h ++ e.history } := by
  unfold guardSection
  rw [Program.eval_step_next (guardOpenOp_free h1 h2)]
  by_cases hv : (e.ctx s).imageValid = true
  · have ha' : e.answers = .done :: rest := by simpa [hv] using ha
    refine ⟨[⟨s, 0x15⟩, ⟨s, 0x22⟩, ⟨s, 0x35⟩], [.unit, .unit], ?_⟩
    rw [Program.eval_step_next (resumeOwnOp_valid (s := s) (e := { e with
      arb := { e.arb with holder := some s }
      history := ⟨s, 0x22⟩ :: ⟨s, 0x35⟩ :: e.history }) hv rfl ha')]
    simp only [replyFailure, hv, if_true]
    rfl
  · have ha' : e.answers = rest := by simpa [hv] using ha
    refine ⟨[⟨s, 0x22⟩, ⟨s, 0x35⟩], [.unit, .unit], ?_⟩
    rw [Program.eval_step_next (resumeOwnOp_none (s := s) (e := { e with
      arb := { e.arb with holder := some s }
      history := ⟨s, 0x22⟩ :: ⟨s, 0x35⟩ :: e.history }) (Bool.eq_false_iff.2 hv))]
    simp [replyFailure, hv, ← ha']

/-- The end of a guarded section that does not fail (R86). -/
theorem guardClose_eval {s : Nat} {r : List Byte} {e : Engine} {rest : List Answer}
    (log : List Reply) (hh : e.arb.holder = some s) (ha : e.answers = .done :: rest) :
    ∃ h, (guardClose s r).eval log e = .done r { e with
      ctxs := e.ctxs.set s { e.ctx s with image := e.live, imageValid := true }
      arb := { e.arb with holder := none }
      answers := rest
      history := h ++ e.history } := by
  have hs : suspendOp s e = .next { e with
      answers := rest, history := ⟨s, 0x14⟩ :: e.history } (.image e.live) := by
    unfold suspendOp
    rw [adapterOp_done hh ha rfl]
    simp [Engine.record, Engine.dropAnswer, ha]
  refine ⟨[⟨s, 0x23⟩, ⟨s, 0x14⟩], ?_⟩
  unfold guardClose
  rw [Program.eval_step_next hs]
  simp only [replyFailure, replyImage]
  rw [Program.eval_step_next (show updateCtxOp s _ _ = .next _ _ from rfl)]
  rw [Program.eval_step_next (releaseOp_held (by simpa using hh))]
  simp [Engine.setCtx, Engine.record, Engine.ctx]

/-- A guarded section in which nothing fails (R86): the operations run on the session's own image, or
on the live one if it has none; the image they leave is saved and stays live; the mutex is free
again. -/
theorem guardSection_eval {s : Nat} {body : List PortCall} {e : Engine} {rest : List Answer}
    {img : Image} {r : List Byte} (h1 : e.arb.mutexExists = true) (h2 : e.arb.holder = none)
    (hb : runCalls (if (e.ctx s).imageValid then (e.ctx s).image else e.live) body [] =
      some (img, r))
    (ha : e.answers = List.replicate
      ((if (e.ctx s).imageValid then 1 else 0) + body.length + 1) .done ++ rest) :
    ∃ h, (guardSection s body).eval [] e = .done r { e with
      ctxs := e.ctxs.set s { e.ctx s with image := img, imageValid := true }
      live := img
      answers := rest
      history := h ++ e.history } := by
  have ha' : e.answers = List.replicate (if (e.ctx s).imageValid then 1 else 0) .done ++
      (List.replicate body.length .done ++ .done :: rest) := by
    rw [ha, Nat.add_assoc, ← List.replicate_append_replicate, List.append_assoc,
      ← List.replicate_append_replicate, List.append_assoc]
    rfl
  obtain ⟨ho, log, hopen⟩ := guardSection_open (body := body) h1 h2 ha'
  obtain ⟨hbd, log', hbody⟩ := guardBody_eval (s := s) (k := guardClose s) body
    { e with
      arb := { e.arb with holder := some s }
      live := if (e.ctx s).imageValid then (e.ctx s).image else e.live
      answers := List.replicate body.length .done ++ .done :: rest
      history := ho ++ e.history } [] r img log rfl hb rfl
  obtain ⟨hc, hclose⟩ := guardClose_eval (r := r) (rest := rest) (s := s)
    (e := { e with
      arb := { e.arb with holder := some s }
      live := img
      answers := .done :: rest
      history := hbd ++ (ho ++ e.history) }) log' rfl rfl
  refine ⟨hc ++ hbd ++ ho, ?_⟩
  rw [hopen, hbody, hclose]
  simp only [Engine.ctx, List.append_assoc]
  cases he : e.arb
  simp_all

/-! ### Running a command (R31) -/

theorem State.notAdmitted_idle {st : State} (h : st.Idle) : st.notAdmitted = none := by
  simp [State.notAdmitted, h.exists_, h.idle]

/-- With no command in execution, completing leaves the command slots as they are. -/
theorem State.completeOk_idle {st : State} (h : st.Idle) (e : Engine) (out : Option W64) :
    ({ st with eng := e } : State).completeOk out = st.okAfter e out := by
  have hr : st.run.set st.cur none = st.run := State.set_inFlight_none st st.cur h.idle
  simp only [State.completeOk, State.setMailbox, State.setRun, State.okAfter, hr]
  rfl

/-- A command whose checks pass and whose micro-steps run to their end completes with `OK`. -/
theorem runCommand_done {i : Instr} {cmd : Command} {st : State} {e : Engine} {out : Option W64}
    (h : st.Idle) (hc : cmd.check st.eng.params st.own st.args = none)
    (he : (cmd.body st.eng.params st.cur st.args).eval [] st.eng = .done out e) :
    runCommand i cmd st = .next (st.okAfter e out) := by
  have hc' : cmd.check st.eng.params (st.latch i).before (st.latch i).args = none := hc
  have he' : (cmd.body st.eng.params st.cur (st.latch i).args).eval [] st.eng = .done out e := he
  simp only [runCommand, State.notAdmitted_idle h, hc', he', State.afterRun,
    State.completeOk_idle h]

/-- A command whose micro-steps raise. -/
theorem runCommand_raised {i : Instr} {cmd : Command} {st : State} {e : Engine} {c : Cause}
    (h : st.Idle) (hc : cmd.check st.eng.params st.own st.args = none)
    (he : (cmd.body st.eng.params st.cur st.args).eval [] st.eng = .raised c e) :
    runCommand i cmd st = .next (({ st with eng := e } : State).raise i st.own c) := by
  have hc' : cmd.check st.eng.params (st.latch i).before (st.latch i).args = none := hc
  have he' : (cmd.body st.eng.params st.cur (st.latch i).args).eval [] st.eng = .raised c e := he
  simp only [runCommand, State.notAdmitted_idle h, hc', he', State.afterRun]
  rfl

/-- A command whose first failing check is not a hardware failure changes nothing but its status
(R97). -/
theorem runCommand_rejected {i : Instr} {cmd : Command} {st : State} {c : Cause}
    (h : st.Idle) (hc : cmd.check st.eng.params st.own st.args = some c)
    (hcl : causeClass c ≠ .hardwareFailure) :
    runCommand i cmd st = .next (st.rejected i (statusWord c)) := by
  have hc' : cmd.check st.eng.params (st.latch i).before (st.latch i).args = some c := hc
  have hr : st.run.set st.cur none = st.run := State.set_inFlight_none st st.cur h.idle
  simp only [runCommand, State.notAdmitted_idle h, hc', State.raise, hcl, if_false,
    State.rejected]
  by_cases ho : hasOutLen i = true
  · simp only [ho, if_true, State.setMailbox, State.setRun, hr]
  · simp only [ho, if_false, State.setMailbox, State.setRun, hr, Bool.false_eq_true]

/-- Everything `runCommand` can answer with a next state (R31, R93, R101). -/
theorem runCommand_next {i : Instr} {cmd : Command} {st t : State}
    (h : runCommand i cmd st = .next t) :
    st.cur < st.eng.params.nSessions ∧ st.inFlight st.cur = none ∧
    ((∃ c, cmd.check st.eng.params st.own st.args = some c ∧ t = st.raise i st.own c) ∨
      (cmd.check st.eng.params st.own st.args = none ∧
        ((∃ out e, (cmd.body st.eng.params st.cur st.args).eval [] st.eng = .done out e ∧
            t = ({ st with eng := e } : State).completeOk out) ∨
          (∃ c e, (cmd.body st.eng.params st.cur st.args).eval [] st.eng = .raised c e ∧
            t = ({ st with eng := e } : State).raise i st.own c) ∨
          (∃ log e, (cmd.body st.eng.params st.cur st.args).eval [] st.eng = .blocked log e ∧
            t = ({ st with eng := e } : State).setRun st.cur
              (some { st.latch i with log := log }))))) := by
  have hown : (st.latch i).before = st.own := rfl
  have hargs : (st.latch i).args = st.args := rfl
  unfold runCommand at h
  cases hn : st.notAdmitted with
  | some x => rw [hn] at h; cases x <;> simp [Stop.outcome] at h
  | none =>
    have hadm : st.cur < st.eng.params.nSessions ∧ st.inFlight st.cur = none := by
      unfold State.notAdmitted at hn
      split at hn
      · next hc =>
        refine ⟨hc, ?_⟩
        split at hn
        · simp at hn
        · next hi => simpa using hi
      · simp at hn
    refine ⟨hadm.1, hadm.2, ?_⟩
    rw [hn] at h
    simp only [hown, hargs] at h
    cases hc : cmd.check st.eng.params st.own st.args with
    | some c =>
      rw [hc] at h
      simp only [Host.Outcome.next.injEq] at h
      exact .inl ⟨c, rfl, h.symm⟩
    | none =>
      rw [hc] at h
      refine .inr ⟨rfl, ?_⟩
      cases he : (cmd.body st.eng.params st.cur st.args).eval [] st.eng with
      | done out e =>
        rw [he] at h
        simp only [State.afterRun, Host.Outcome.next.injEq] at h
        exact .inl ⟨out, e, rfl, h.symm⟩
      | raised c e =>
        rw [he] at h
        simp only [State.afterRun, Host.Outcome.next.injEq] at h
        exact .inr (.inl ⟨c, e, rfl, h.symm⟩)
      | blocked log e =>
        rw [he] at h
        simp only [State.afterRun, Host.Outcome.next.injEq] at h
        exact .inr (.inr ⟨log, e, rfl, h.symm⟩)
      | stopped x => rw [he] at h; cases x <;> simp [State.afterRun, Stop.outcome] at h

/-! ### Bare operations (log 14) -/

theorem bareOp_next {code : BitVec 8} {m : Engine → Micro} {st : State} {e : Engine} {r : Reply}
    (hs : st.cur < st.eng.params.nSessions) (hm : m st.eng = .next e r) :
    bareOp code m st = .next (st.operated e r) := by
  simp only [bareOp, hs, if_true, hm]
  rfl

theorem bareOp_wait {code : BitVec 8} {m : Engine → Micro} {st : State}
    (hs : st.cur < st.eng.params.nSessions) (hm : m st.eng = .wait) :
    bareOp code m st = .next { st with pendingOp := some code } := by
  simp only [bareOp, hs, if_true, hm]

theorem bareOp_stop {code : BitVec 8} {m : Engine → Micro} {st : State} {x : Stop}
    (hs : st.cur < st.eng.params.nSessions) (hm : m st.eng = .stop x) :
    bareOp code m st = x.outcome := by
  simp only [bareOp, hs, if_true, hm]

end Sys2Proof.Machine
end

