-- ==== Sys2Proof/Laws/Checks.lean ====
section
/-! SUPPORT. What the checks of the commands say (R97, R101): the status of the first failing check as
a chain of conditions. -/

namespace Sys2Proof.Machine

theorem rangeOk_iff (p : Params) (a : W64) (n : Nat) : rangeOk p a n = true ↔ fits p a.toNat n := by
  simp [rangeOk, fits]

theorem not_rangeOk_iff (p : Params) (a : W64) (n : Nat) :
    (!rangeOk p a n) = true ↔ ¬ fits p a.toNat n := by
  rw [← rangeOk_iff]; simp

theorem overlaps_iff (input output n : W64) :
    overlaps input output n = true ↔
      input.toNat < output.toNat ∧ output.toNat - input.toNat < n.toNat := by
  simp [overlaps]

/-- The status a list of checks ends in: 0 when none fails. -/
def checksStatus (l : List (Bool × Cause)) : BitVec 32 := (firstCause l).elim 0 statusWord

/-- A check that fails is reported; otherwise the later ones are (R101). -/
theorem checksStatus_cons {b : Bool} {c : Cause} {l : List (Bool × Cause)} {P : Prop} [Decidable P]
    {k r : BitVec 32} (h : b = true ↔ P) (hk : statusWord c = k) (hr : checksStatus l = r) :
    checksStatus ((b, c) :: l) = if P then k else r := by
  by_cases hb : b = true
  · simp [checksStatus, firstCause, hb, h.1 hb, hk]
  · rw [← hr]; simp [checksStatus, firstCause, hb, mt h.2 hb]

/-- The last check of a list. -/
theorem checksStatus_nil : checksStatus [] = 0 := rfl

/-- Two checks with one status. -/
theorem ite_ite_same {α : Type} (P Q : Prop) [Decidable P] [Decidable Q] (k r : α) :
    (if P then k else if Q then k else r) = if P ∨ Q then k else r := by
  by_cases hp : P <;> simp [hp]

theorem exists_of_checksStatus {l : List (Bool × Cause)} (h : checksStatus l ≠ 0) :
    ∃ c, firstCause l = some c ∧ checksStatus l = statusWord c := by
  cases hc : firstCause l with
  | none => simp [checksStatus, hc] at h
  | some c => exact ⟨c, rfl, by simp [checksStatus, hc]⟩

/-- No check fails. -/
theorem firstCause_eq_none {l : List (Bool × Cause)} :
    firstCause l = none ↔ ∀ q ∈ l, q.1 = false := by
  induction l with
  | nil => simp [firstCause]
  | cons q rest ih =>
    obtain ⟨b, c⟩ := q
    cases b <;> simp [firstCause, ih]

/-- The causes a list of checks can report are those it names. -/
theorem mem_of_firstCause {l : List (Bool × Cause)} {c : Cause} (h : firstCause l = some c) :
    (true, c) ∈ l := by
  induction l with
  | nil => simp [firstCause] at h
  | cons q rest ih =>
    obtain ⟨b, d⟩ := q
    unfold firstCause at h
    cases b with
    | true => simp at h; simp [h]
    | false => simp at h; simp [ih h]

/-- A check raises `BadInput` or `UnsupportedFeature`, never a hardware failure (R97). -/
theorem check_class {i : Instr} {cmd : Command} {p : Params} {x : Ctx} {a : Args} {c : Cause}
    (hi : commandOf i = some cmd) (h : cmd.check p x a = some c) :
    causeClass c = .badInput ∨ causeClass c = .unsupportedFeature := by
  have ht : causeClass (tagLenCause p) = .badInput ∨
      causeClass (tagLenCause p) = .unsupportedFeature := by
    unfold tagLenCause; cases p.strategy <;> decide
  have hp : ∀ o, prevalidate p x o = some c → causeClass c = .badInput ∨
      causeClass c = .unsupportedFeature := by
    intro o ho
    have := mem_of_firstCause ho
    simp only [List.mem_cons, Prod.mk.injEq, List.not_mem_nil, or_false] at this
    rcases this with h | h | h | h | h | h | h | h | h | h | h <;> rw [h.2] <;>
      first | exact ht | exact .inl rfl | exact .inr rfl
  cases i <;> simp only [commandOf, Option.some.injEq, reduceCtorEq] at hi <;> subst hi
  case free => cases h
  case cryptAndTag => exact hp _ h
  case authDecrypt => exact hp _ h
  all_goals
    have := mem_of_firstCause h
    simp only [List.mem_cons, Prod.mk.injEq, List.not_mem_nil, or_false] at this
  case init => rw [this.2]; exact .inl rfl
  case setkey => rcases this with h | h | h | h | h <;> rw [h.2] <;>
      first | exact .inl rfl | exact .inr rfl
  case starts => rcases this with h | h | h <;> rw [h.2] <;>
      first | exact .inl rfl | exact .inr rfl
  case updateAd => rcases this with h | h | h | h <;> rw [h.2] <;>
      first | exact .inl rfl | exact .inr rfl
  case update => rcases this with h | h | h | h | h | h | h <;> rw [h.2] <;>
      first | exact .inl rfl | exact .inr rfl
  case finish => rcases this with h | h | h <;> rw [h.2] <;>
      first | exact ht | exact .inl rfl

end Sys2Proof.Machine
end

