-- ==== Sys2Proof/Laws/Session.lean ====
section
/-! SUPPORT. What the parts of the session commands compute, when the mutex is free and the accelerator
does not fail: one lemma for each part. -/

namespace Sys2Proof.Machine

/-! ### The parts of the engine a session's command changes -/

/-- The engine with the context of session `s`, the memory, the live image, the answers and the
history given. -/
def Engine.put (e : Engine) (s : Nat) (x : Ctx) (m : Memory) (l : Image) (a : List Answer)
    (h : List HistoryEntry) : Engine :=
  { e with ctxs := e.ctxs.set s x, mem := m, live := l, answers := a, history := h }

section
variable (e : Engine) (s : Nat) (x : Ctx) (m : Memory) (l : Image) (a : List Answer)
  (h : List HistoryEntry)

@[simp] theorem Engine.put_params : (e.put s x m l a h).params = e.params := rfl
@[simp] theorem Engine.put_arb : (e.put s x m l a h).arb = e.arb := rfl
@[simp] theorem Engine.put_mem : (e.put s x m l a h).mem = m := rfl
@[simp] theorem Engine.put_live : (e.put s x m l a h).live = l := rfl
@[simp] theorem Engine.put_answers : (e.put s x m l a h).answers = a := rfl
@[simp] theorem Engine.put_fresh : (e.put s x m l a h).fresh = e.fresh := rfl
@[simp] theorem Engine.put_history : (e.put s x m l a h).history = h := rfl
@[simp] theorem Engine.put_length : (e.put s x m l a h).ctxs.length = e.ctxs.length := by
  simp [Engine.put]

@[simp] theorem Engine.put_ctx (hs : s < e.ctxs.length) : (e.put s x m l a h).ctx s = x := by
  simp [Engine.put, Engine.ctx, hs]

@[simp] theorem Engine.put_setCtx (x' : Ctx) :
    (e.put s x m l a h).setCtx s x' = e.put s x' m l a h := by
  simp [Engine.put, Engine.setCtx]

@[simp] theorem Engine.put_record (s' : Nat) (c : BitVec 8) :
    (e.put s x m l a h).record s' c = e.put s x m l a (⟨s', c⟩ :: h) := rfl

@[simp] theorem Engine.put_put (x' : Ctx) (m' : Memory) (l' : Image) (a' : List Answer)
    (h' : List HistoryEntry) :
    (e.put s x m l a h).put s x' m' l' a' h' = e.put s x' m' l' a' h' := by
  simp [Engine.put]

end

/-- The engine as it is. -/
theorem Engine.put_self (e : Engine) (s : Nat) :
    e.put s (e.ctx s) e.mem e.live e.answers e.history = e := Engine.setCtx_ctx e s

/-! ### The steps of a part, in that form -/

section
variable {e : Engine} {s : Nat} {x : Ctx} {m : Memory} {l : Image} {a : List Answer}
  {h : List HistoryEntry}

theorem getCtx_put (hs : s < e.ctxs.length) :
    (getCtx s).eval [] (e.put s x m l a h) = .done x (e.put s x m l a h) := by
  simp [hs]

theorem setCtx_put (hs : s < e.ctxs.length) (f : Ctx → Ctx) :
    (setCtx s f).eval [] (e.put s x m l a h) = .done () (e.put s (f x) m l a h) := by
  simp [hs]

theorem memRead_put (ad n : Nat) (hf : fits e.params ad n) :
    (memRead ad n).eval [] (e.put s x m l a h) =
      .done (m.readBytes ad n) (e.put s x m l a h) := memRead_eval ad n _ hf

theorem memWrite_put (ad : Nat) (b : List Byte) (hf : fits e.params ad b.length) :
    (memWrite ad b).eval [] (e.put s x m l a h) =
      .done () (e.put s x (m.writeBytes ad b) l a h) := memWrite_eval ad b _ hf

theorem multBuf_put (hs : s < e.ctxs.length) :
    (Program.do_ (multBufOp s)).eval [] (e.put s x m l a h) =
      .done () (e.put s { x with buf := ghashMult x.table x.buf } m l a (⟨s, 0x31⟩ :: h)) := by
  apply do_eval (r := .unit)
  simp [multBufOp, updateCtxOp, hs]

theorem multBufIf_put (hs : s < e.ctxs.length) (c : Bool) :
    ∃ k, (multBufIf s c).eval [] (e.put s x m l a h) =
      .done () (e.put s { x with buf := if c then ghashMult x.table x.buf else x.buf } m l a
        (k ++ h)) := by
  cases c with
  | false => exact ⟨[], by simp [multBufIf]⟩
  | true => exact ⟨[⟨s, 0x31⟩], by simp [multBufIf, multBuf_put hs]⟩

theorem incY_put (hs : s < e.ctxs.length) (n : Nat) :
    (Program.do_ (incYOp s n)).eval [] (e.put s x m l a h) =
      .done () (e.put s { x with y := inc32^[n] x.y } m l a (List.replicate n ⟨s, 0x32⟩ ++ h)) := by
  apply do_eval (r := .unit)
  simp only [incYOp, updateCtxOp]
  congr 1
  have : (e.put s x m l a h).ctx s = x := by simp [hs]
  simp only [Engine.setCtx, Engine.put, List.set_set]
  congr 2
  show _ = { x with y := inc32^[n] x.y }
  have h2 : ({ e.put s x m l a h with
    history := List.replicate n ⟨s, 0x32⟩ ++ h } : Engine).ctx s = x := this
  exact congrArg (fun z : Ctx => { z with y := inc32^[n] z.y }) h2

theorem closeAad_put (hs : s < e.ctxs.length) :
    ∃ k, (Program.do_ (closeAadOp s)).eval [] (e.put s x m l a h) =
      .done () (e.put s { x with
        buf := closePhase e.params.policy x.table x.addLen.toNat x.buf } m l a (k ++ h)) := by
  by_cases hc : e.params.policy = .carry ∧ x.addLen.toNat % 16 ≠ 0
  · refine ⟨[⟨s, 0x31⟩, ⟨s, 0x33⟩], do_eval (r := .unit) ?_⟩
    simp [closeAadOp, multBufOp, updateCtxOp, hs, hc, closePhase]
  · refine ⟨[⟨s, 0x33⟩], do_eval (r := .unit) ?_⟩
    have hb : (e.params.policy == .carry && x.addLen.toNat % 16 != 0) = false := by
      rw [Bool.eq_false_iff]; simpa using hc
    simp [closeAadOp, hs, hb, closePhase, hc]

theorem buildTable_put (hs : s < e.ctxs.length) (hk : Block) :
    (Program.do_ (buildTableOp s hk)).eval [] (e.put s x m l a h) =
      .done () (e.put s { x with table := ghashBuild hk } m l a (⟨s, 0x30⟩ :: h)) := by
  apply do_eval (r := .unit)
  simp [buildTableOp, updateCtxOp, hs]

/-- A guarded section in which nothing fails, in that form (R86). -/
theorem guardSection_put (hs : s < e.ctxs.length) {body : List PortCall} {rest : List Answer}
    {img : Image} {r : List Byte} (h1 : e.arb.mutexExists = true) (h2 : e.arb.holder = none)
    (hb : runCalls (if x.imageValid then x.image else l) body [] = some (img, r))
    (ha : a = List.replicate ((if x.imageValid then 1 else 0) + body.length + 1) .done ++ rest) :
    ∃ k, (guardSection s body).eval [] (e.put s x m l a h) =
      .done r (e.put s { x with image := img, imageValid := true } m img rest (k ++ h)) := by
  have hx : (e.put s x m l a h).ctx s = x := by simp [hs]
  obtain ⟨k, hk⟩ := guardSection_eval (s := s) (body := body) (e := e.put s x m l a h)
    (rest := rest) (img := img) (r := r) h1 h2 (by rw [hx]; exact hb) (by rw [hx]; exact ha)
  refine ⟨k, ?_⟩
  rw [hk, hx]
  simp [Engine.put]

end

/-! ### The pieces of a call (R23) -/

/-- A list of pieces goes from byte `p` to byte `n` of a call that starts `off` bytes inside a block,
each piece inside its block, each but the last up to the block's end. -/
def PieceChain (off n : Nat) : Nat → List Piece → Prop
  | p, [] => p = n
  | p, q :: rest =>
    q.p = p ∧ q.off = (off + p) % 16 ∧ q.fresh = decide (q.off = 0) ∧ 0 < q.use ∧
      q.off + q.use ≤ 16 ∧ (p + q.use < n → q.off + q.use = 16) ∧
      PieceChain off n (p + q.use) rest

theorem PieceChain.le {off n p : Nat} {l : List Piece} (h : PieceChain off n p l) : p ≤ n := by
  induction l generalizing p with
  | nil => exact le_of_eq h
  | cons q rest ih =>
    obtain ⟨_, _, _, _, _, _, hr⟩ := h
    have := ih hr
    omega

theorem openOffset_lt (policy : PartialPolicy) (done : Nat) : openOffset policy done < 16 := by
  cases policy
  · exact Nat.mod_lt _ (by decide)
  · exact Nat.zero_lt_succ _

theorem fullPieces_chain (off n first k : Nat) (hoff : (off + first) % 16 = 0)
    (hk : k ≤ (n - first + 15) / 16) (hn : first ≤ n) :
    PieceChain off n (min n (first + 16 * ((n - first + 15) / 16 - k)))
      ((List.range' ((n - first + 15) / 16 - k) k).map fun i =>
        ⟨first + 16 * i, 0, min 16 (n - first - 16 * i), true⟩) := by
  induction k with
  | zero => simp only [Nat.sub_zero, List.range'_zero, List.map_nil, PieceChain]; omega
  | succ k ih =>
    have ih := ih (by omega)
    have h1 : (n - first + 15) / 16 - (k + 1) + 1 = (n - first + 15) / 16 - k := by omega
    rw [List.range'_succ, h1]
    simp only [List.map_cons, PieceChain]
    have hlt : first + 16 * ((n - first + 15) / 16 - (k + 1)) < n := by omega
    have hm : min n (first + 16 * ((n - first + 15) / 16 - (k + 1))) =
        first + 16 * ((n - first + 15) / 16 - (k + 1)) := by omega
    refine ⟨hm.symm, by omega, by simp, by omega, by omega, by omega, ?_⟩
    have h2 : min n (first + 16 * ((n - first + 15) / 16 - (k + 1))) +
        min 16 (n - first - 16 * ((n - first + 15) / 16 - (k + 1))) =
        min n (first + 16 * ((n - first + 15) / 16 - k)) := by omega
    rw [h2]
    exact ih

/-- The pieces of a call go from its first byte to its last (R23). -/
theorem pieces_chain (policy : PartialPolicy) (done n : Nat) :
    PieceChain (openOffset policy done) n 0 (pieces policy done n) := by
  have ho := openOffset_lt policy done
  unfold pieces
  simp only []
  generalize openOffset policy done = off at ho ⊢
  have full := fullPieces_chain off n (if off = 0 then 0 else min (16 - off) n)
    ((n - (if off = 0 then 0 else min (16 - off) n) + 15) / 16)
  rw [Nat.sub_self, Nat.mul_zero, Nat.add_zero, ← List.range_eq_range'] at full
  by_cases h0 : off = 0
  · subst h0
    simp only [if_true, List.nil_append] at full ⊢
    simpa using full trivial (le_refl _) (Nat.zero_le _)
  · by_cases hn : n = 0
    · subst hn
      simp [h0, PieceChain]
    · simp only [h0, if_false] at full ⊢
      have hf : min (16 - off) n ≠ 0 := by omega
      simp only [hf, if_false, List.cons_append, List.nil_append, PieceChain]
      refine ⟨trivial, by omega, by simp [h0], by omega, by omega, by omega, ?_⟩
      by_cases hle : n ≤ 16 - off
      · have hz : (n - min (16 - off) n + 15) / 16 = 0 := by omega
        rw [hz]
        simp only [List.range_zero, List.map_nil, PieceChain]
        omega
      · have := full (by omega) (le_refl _) (by omega)
        rwa [show min n (min (16 - off) n + 0) = 0 + min (16 - off) n by omega] at this

/-- How many pieces a call has (R118). -/
theorem length_pieces (policy : PartialPolicy) (done n : Nat) :
    3 * (pieces policy done n).length = updateDrawsB (openOffset policy done) n := by
  have ho := openOffset_lt policy done
  unfold pieces updateDrawsB
  simp only []
  generalize openOffset policy done = off at ho ⊢
  by_cases hn : n = 0
  · subst hn; by_cases h0 : off = 0 <;> simp [h0]
  · by_cases h0 : off = 0
    · subst h0; simp [hn]
    · have hf : min (16 - off) n ≠ 0 := by omega
      simp only [h0, hn, hf, if_false, List.length_append, List.length_cons, List.length_nil,
        List.length_map, List.length_range]
      omega

end Sys2Proof.Machine
end

