-- ==== Sys2Proof/Laws/Exec.lean ====
section
/-! SUPPORT. What `exec` runs for each kind of instruction. -/

namespace Sys2Proof.Machine

/-- A host command is issued on the current session (R31). -/
theorem exec_command {i : Instr} {cmd : Command} (h : commandOf i = some cmd) (st : State) :
    exec i st = runCommand i cmd st := by
  cases i <;> cases h <;> exact rfl

/-- An adapter operation with the latched operands (log 14). -/
theorem exec_portCall {i : Instr} {st : State} {c : PortCall} (h : st.portCall i = some c) :
    exec i st = bareOp (callCode c) (portCallOp st.cur c) st := by
  cases i <;> cases h <;> rfl

/-- A command whose checks pass and whose micro-steps run to their end, in the form of the lemmas of
ModeA.lean and ModeB.lean. -/
theorem exec_done {i : Instr} {cmd : Command} {st : State} {e : Engine} {out : Option W64}
    (hi : commandOf i = some cmd) (h : st.Idle)
    (hc : cmd.check st.eng.params st.own st.args = none)
    (he : (cmd.body st.eng.params st.cur st.args).eval []
      (st.eng.put st.cur st.own st.eng.mem st.eng.live st.eng.answers st.eng.history) =
        .done out e) :
    exec i st = .next (st.okAfter e out) := by
  rw [show st.own = st.eng.ctx st.cur from rfl, Engine.put_self] at he
  rw [exec_command hi]
  exact runCommand_done h hc he

end Sys2Proof.Machine
end

