-- ==== Sys2Proof/Laws/Frame.lean ====
section
/-! SUPPORT. What holds of every micro-step a session's commands are made of holds of every micro-step
of every command: one lemma for each part. With it, what a command leaves alone (R10, R87). -/

namespace Sys2Proof.Machine

/-- `Q` holds of every micro-step that the commands of session `s` are made of. -/
structure OpsOf (s : Nat) (Q : (Engine → Micro) → Prop) : Prop where
  readCtx : Q (readCtxOp s)
  updateCtx : ∀ f, Q (updateCtxOp s f)
  readByte : ∀ a, Q (readByteOp a)
  writeByte : ∀ a b, Q (writeByteOp a b)
  acquire : Q (acquireOp s)
  guardOpen : Q (guardOpenOp s)
  release : Q (releaseOp s)
  portCall : ∀ c, Q (portCallOp s c)
  suspend : Q (suspendOp s)
  resumeOwn : Q (resumeOwnOp s)
  deinitialize : Q (deinitializeOp s)
  init : Q (initOp s)
  free : Q (freeOp s)
  multBuf : Q (multBufOp s)
  closeAad : Q (closeAadOp s)
  incY : ∀ n, Q (incYOp s n)
  buildTable : ∀ h, Q (buildTableOp s h)
  tagVerify : ∀ a b n, Q (tagVerifyOp s a b n)

section
variable {s : Nat} {Q : (Engine → Micro) → Prop} (h : OpsOf s Q)
include h

theorem OpsOf.getCtx : (getCtx s).All Q := .step _ _ h.readCtx fun _ => .ret _

theorem OpsOf.setCtx (f : Ctx → Ctx) : (setCtx s f).All Q := .do_ (h.updateCtx f)

theorem OpsOf.memRead (a n : Nat) : (memRead a n).All Q := by
  induction n generalizing a with
  | zero => exact .ret _
  | succ n ih => exact .step _ _ (h.readByte a) fun r => .bind (ih (a + 1)) fun _ => .ret _

theorem OpsOf.memWrite (a : Nat) (l : List Byte) : (memWrite a l).All Q := by
  induction l generalizing a with
  | nil => exact .ret _
  | cons b rest ih => exact .step _ _ (h.writeByte a b) fun _ => ih (a + 1)

theorem OpsOf.guardFail {α : Type} (c : Cause) : (guardFail s c : Program α).All Q :=
  .step _ _ h.release fun _ => .raise c

theorem OpsOf.guardClose (r : List Byte) : (guardClose s r).All Q := by
  refine .step _ _ h.suspend fun rep => ?_
  split
  · exact h.guardFail _
  · exact .step _ _ (h.updateCtx _) fun _ => .step _ _ h.release fun _ => .ret _

theorem OpsOf.guardBody (body : List PortCall) (r : List Byte) :
    (Machine.guardBody s (Machine.guardClose s) body r).All Q := by
  induction body generalizing r with
  | nil => exact h.guardClose r
  | cons c rest ih =>
    refine .step _ _ (h.portCall c) fun rep => ?_
    split
    · exact h.guardFail _
    · exact ih _

theorem OpsOf.guardSection (body : List PortCall) : (guardSection s body).All Q := by
  refine .step _ _ h.guardOpen fun _ => .step _ _ h.resumeOwn fun rep => ?_
  split
  · exact h.guardFail _
  · exact h.guardBody _ _

theorem OpsOf.multBufIf (c : Bool) : (multBufIf s c).All Q := by
  cases c
  · exact .ret _
  · exact .do_ h.multBuf

theorem OpsOf.setkeyPart (p : Params) (o : SetkeyOperands) : (setkeyPart p s o).All Q := by
  unfold Machine.setkeyPart
  split
  · exact .bind (h.memRead _ _) fun _ => .bind (h.setCtx _) fun _ =>
      .bind (h.guardSection _) fun _ => h.setCtx _
  · exact .bind (h.memRead _ _) fun _ => .bind (h.setCtx _) fun _ =>
      .bind (h.guardSection _) fun _ => .bind (.do_ (h.buildTable _)) fun _ => h.setCtx _

theorem OpsOf.startsPart (p : Params) (dir : Direction) (iv : W64) :
    (startsPart p s dir iv).All Q := by
  unfold Machine.startsPart
  split
  · exact .bind (h.memRead _ _) fun _ => .bind (h.setCtx _) fun _ => .bind h.getCtx fun _ =>
      .bind (h.guardSection _) fun _ => .ret _
  · exact .bind (h.memRead _ _) fun _ => .bind (h.setCtx _) fun _ => .bind h.getCtx fun _ =>
      .bind (h.guardSection _) fun _ => h.setCtx _

theorem OpsOf.updateAdPart (p : Params) (aad n : W64) : (updateAdPart p s aad n).All Q := by
  unfold Machine.updateAdPart
  split
  · exact h.setCtx _
  · exact .bind (h.setCtx _) fun _ => .bind h.getCtx fun _ => .forEach fun q _ =>
      .bind (h.memRead _ _) fun _ => .bind (h.setCtx _) fun _ => h.multBufIf _

theorem OpsOf.hwPass (c : PortCall) : (hwPass s c).All Q := by
  refine .bind h.getCtx fun x => ?_
  split
  · exact .bind (h.memRead _ _) fun _ => .bind (h.guardSection _) fun _ =>
      .bind (h.setCtx _) fun _ => .ret _
  · exact h.guardSection _

theorem OpsOf.updatePart (p : Params) (input n output : W64) :
    (updatePart p s input n output).All Q := by
  unfold Machine.updatePart
  split
  · refine .bind (h.setCtx _) fun _ => .bind ?_ fun _ => ?_
    · split
      · exact .ret _
      · exact .bind (h.memRead _ _) fun _ => .bind (h.hwPass _) fun _ =>
          .bind (h.memWrite _ _) fun _ => .bind (.do_ (h.incY _)) fun _ => h.setCtx _
    · split
      · exact .ret _
      · exact .bind (h.memRead _ _) fun _ => .bind (h.hwPass _) fun _ =>
          .bind (h.memWrite _ _) fun _ => .bind (.do_ (h.incY _)) fun _ => h.setCtx _
  · refine .bind h.getCtx fun x => .bind ?_ fun _ => .forEach fun q _ => .bind ?_ fun _ => ?_
    · split
      · exact .ret _
      · exact .bind (.do_ h.closeAad) fun _ => h.setCtx _
    · split
      · exact .do_ (h.incY _)
      · exact .ret _
    · exact .bind h.getCtx fun _ => .bind (h.guardSection _) fun _ => .bind (h.memRead _ _) fun _ =>
        .bind (h.setCtx _) fun _ => .bind (h.memWrite _ _) fun _ => .bind (h.setCtx _) fun _ =>
        h.multBufIf _

theorem OpsOf.finishTag (p : Params) : (finishTag p s).All Q := by
  unfold Machine.finishTag
  split
  · exact .bind h.getCtx fun _ => h.hwPass _
  · refine .bind h.getCtx fun x => .bind ?_ fun _ => .bind (h.setCtx _) fun _ =>
      .bind (.do_ h.multBuf) fun _ => .bind h.getCtx fun _ => .ret _
    split
    · exact h.multBufIf _
    · exact .do_ h.closeAad

theorem OpsOf.freeBody : (freeBody s).All Q := by
  refine .bind h.getCtx fun x => ?_
  split
  · exact .ret _
  · split
    · exact .step _ _ h.acquire fun _ => .step _ _ h.deinitialize fun _ =>
        .step _ _ h.release fun _ => .do_ h.free
    · exact .do_ h.free

/-- Every micro-step of every command of session `s` satisfies `Q`. -/
theorem OpsOf.command {i : Instr} {cmd : Command} (hi : commandOf i = some cmd) (p : Params)
    (a : Args) : (cmd.body p s a).All Q := by
  cases i <;> simp only [commandOf, Option.some.injEq, reduceCtorEq] at hi <;> subst hi
  case init => exact .bind (.do_ h.init) fun _ => .ret _
  case free => exact .bind h.freeBody fun _ => .ret _
  case setkey => exact .bind (h.setkeyPart _ _) fun _ => .ret _
  case starts => exact .bind (h.startsPart _ _ _) fun _ => .ret _
  case updateAd => exact .bind (h.updateAdPart _ _ _) fun _ => .ret _
  case update => exact .bind (h.updatePart _ _ _ _) fun _ => .ret _
  case finish =>
    exact .bind (.bind (h.finishTag _) fun _ => .bind (h.memWrite _ _) fun _ => h.setCtx _)
      fun _ => .ret _
  case cryptAndTag =>
    exact .bind (h.startsPart _ _ _) fun _ => .bind (h.updateAdPart _ _ _) fun _ =>
      .bind (h.updatePart _ _ _ _) fun _ =>
      .bind (.bind (h.finishTag _) fun _ => .bind (h.memWrite _ _) fun _ => h.setCtx _)
        fun _ => .ret _
  case authDecrypt =>
    refine .bind (h.startsPart _ _ _) fun _ => .bind (h.updateAdPart _ _ _) fun _ =>
      .bind (.onRaise (.bind (h.updatePart _ _ _ _) fun _ => h.finishTag _) (h.memWrite _ _))
        fun _ => .bind (h.setCtx _) fun _ => .bind (h.memRead _ _) fun _ =>
        .step _ _ (h.tagVerify _ _ _) fun r => ?_
    split
    · exact .ret _
    · exact .bind (h.memWrite _ _) fun _ => .raise _

end

/-! ### What a command leaves alone -/

/-- A micro-step of session `s`: the parameters, the number of contexts and every other session's
context stay, and while the mutex exists, no other session gets or loses it (R10, R84, R85). -/
def OwnOnly (s : Nat) (m : Engine → Micro) : Prop :=
  ∀ e e' r, m e = .next e' r → e'.params = e.params ∧ e'.ctxs.length = e.ctxs.length ∧
    (∀ s', s' ≠ s → e'.ctx s' = e.ctx s') ∧
    ∀ s', s' ≠ s → e.arb.mutexExists = true →
      (e'.arb.holder = some s' ↔ e.arb.holder = some s')

theorem ownOnly_updateCtx (s : Nat) (f : Ctx → Ctx) : OwnOnly s (updateCtxOp s f) := by
  intro e e' r h
  simp only [updateCtxOp, Micro.next.injEq] at h
  obtain ⟨rfl, rfl⟩ := h
  exact ⟨rfl, by simp, fun s' hs => Engine.ctx_setCtx_ne _ _ hs, fun _ _ _ => Iff.rfl⟩

/-- A micro-step that leaves contexts, parameters and the arbiter as they are. -/
theorem ownOnly_of_eq {s : Nat} {m : Engine → Micro}
    (h : ∀ e e' r, m e = .next e' r → e'.params = e.params ∧ e'.ctxs = e.ctxs ∧ e'.arb = e.arb) :
    OwnOnly s m := by
  intro e e' r hm
  obtain ⟨h1, h2, h3⟩ := h e e' r hm
  refine ⟨h1, by rw [h2], fun s' _ => by simp only [Engine.ctx, h2], fun s' _ _ => by rw [h3]⟩

/-- What an adapter operation leaves alone (R45). -/
theorem adapterOp_same {s : Nat} {code : BitVec 8} {ready : Bool} {failure : Answer → Cause}
    {run : Engine → Engine × Reply} {e e' : Engine} {r : Reply}
    (hrun : ∀ e1, (run e1).1.params = e1.params ∧ (run e1).1.ctxs = e1.ctxs ∧
      (run e1).1.arb = e1.arb ∧ (run e1).1.mem = e1.mem)
    (h : adapterOp s code ready failure run e = .next e' r) :
    e'.params = e.params ∧ e'.ctxs = e.ctxs ∧ e'.arb = e.arb ∧ e'.mem = e.mem := by
  rcases adapterOp_cases s code ready failure run e with ⟨_, _, _, h'⟩ | ⟨_, _, h'⟩ | ⟨_, h'⟩ <;>
    rw [h'] at h
  · simp only [Micro.next.injEq] at h
    obtain ⟨rfl, -⟩ := h
    exact hrun _
  · simp only [Micro.next.injEq] at h
    obtain ⟨rfl, -⟩ := h
    exact ⟨rfl, rfl, rfl, rfl⟩
  · cases h

theorem portCallOp_same {s : Nat} {c : PortCall} {e e' : Engine} {r : Reply}
    (h : portCallOp s c e = .next e' r) :
    e'.params = e.params ∧ e'.ctxs = e.ctxs ∧ e'.arb = e.arb ∧ e'.mem = e.mem := by
  cases hw : c.wellFormed with
  | false => rw [portCallOp_shape hw] at h; cases h
  | true =>
    rw [portCallOp_eq hw] at h
    rcases adapterOp_cases s (callCode c) (callReady e.live c) dataFailure
      (fun _ => ({ (e.record s (callCode c)).dropAnswer with live := (callEffect e.live c).1 },
        .bytes (callEffect e.live c).2)) e with ⟨_, _, _, h'⟩ | ⟨_, _, h'⟩ | ⟨_, h'⟩ <;>
      rw [h'] at h
    · simp only [Micro.next.injEq] at h
      obtain ⟨rfl, -⟩ := h
      exact ⟨rfl, rfl, rfl, rfl⟩
    · simp only [Micro.next.injEq] at h
      obtain ⟨rfl, -⟩ := h
      exact ⟨rfl, rfl, rfl, rfl⟩
    · cases h

theorem suspendOp_same {s : Nat} {e e' : Engine} {r : Reply} (h : suspendOp s e = .next e' r) :
    e'.params = e.params ∧ e'.ctxs = e.ctxs ∧ e'.arb = e.arb ∧ e'.mem = e.mem :=
  adapterOp_same (fun _ => ⟨rfl, rfl, rfl, rfl⟩) h

theorem resumeOwnOp_same {s : Nat} {e e' : Engine} {r : Reply} (h : resumeOwnOp s e = .next e' r) :
    e'.params = e.params ∧ e'.ctxs = e.ctxs ∧ e'.arb = e.arb ∧ e'.mem = e.mem := by
  unfold resumeOwnOp at h
  split at h
  · exact adapterOp_same (fun _ => ⟨rfl, rfl, rfl, rfl⟩) h
  · simp only [Micro.next.injEq] at h
    obtain ⟨rfl, -⟩ := h
    exact ⟨rfl, rfl, rfl, rfl⟩

theorem acquireOp_next {s : Nat} {e e' : Engine} {r : Reply} (h : acquireOp s e = .next e' r) :
    e.arb.mutexExists = true ∧ e.arb.holder = none ∧
      e' = { e.record s 0x22 with arb := { e.arb with holder := some s } } ∧ r = .unit := by
  unfold acquireOp at h
  split at h
  · next hc =>
    simp only [Bool.and_eq_true, beq_iff_eq] at hc
    simp only [Micro.next.injEq] at h
    exact ⟨hc.1, hc.2, h.1.symm, h.2.symm⟩
  · cases h

theorem releaseOp_next {s : Nat} {e e' : Engine} {r : Reply} (h : releaseOp s e = .next e' r) :
    e.arb.holder = some s ∧
      e' = { e.record s 0x23 with arb := { e.arb with holder := none } } ∧ r = .unit := by
  unfold releaseOp at h
  split at h
  · next hc =>
    simp only [beq_iff_eq] at hc
    simp only [Micro.next.injEq] at h
    exact ⟨hc, h.1.symm, h.2.symm⟩
  · cases h

theorem ownOnly_acquire (s : Nat) : OwnOnly s (acquireOp s) := by
  intro e e' r h
  obtain ⟨_, h2, rfl, -⟩ := acquireOp_next h
  refine ⟨rfl, rfl, fun _ _ => rfl, fun s' hs _ => ?_⟩
  simp only [h2, Option.some.injEq, reduceCtorEq, iff_false]
  exact fun hc => hs hc.symm

theorem ownOnly_release (s : Nat) : OwnOnly s (releaseOp s) := by
  intro e e' r h
  obtain ⟨h1, rfl, -⟩ := releaseOp_next h
  refine ⟨rfl, rfl, fun _ _ => rfl, fun s' hs _ => ?_⟩
  simp only [h1, reduceCtorEq, Option.some.injEq, false_iff]
  exact fun hc => hs hc.symm

theorem ownOnly_init (s : Nat) : OwnOnly s (initOp s) := by
  intro e e' r h
  unfold initOp mutexCreateOp at h
  simp only [Engine.setCtx_arb] at h
  by_cases h0 : e.arb.refcount = 0
  · cases hm : e.arb.mutexExists with
    | true => simp [h0, hm] at h
    | false =>
      simp only [h0, hm, if_true, if_false, Bool.false_eq_true, Micro.next.injEq] at h
      obtain ⟨rfl, -⟩ := h
      exact ⟨rfl, by simp, fun s' hs => Engine.ctx_setCtx_ne _ _ hs, fun _ _ hc => by cases hc⟩
  · simp only [h0, if_false, Micro.next.injEq] at h
    obtain ⟨rfl, -⟩ := h
    exact ⟨rfl, by simp, fun s' hs => Engine.ctx_setCtx_ne _ _ hs, fun _ _ _ => Iff.rfl⟩

theorem ownOnly_free (s : Nat) : OwnOnly s (freeOp s) := by
  intro e e' r h
  unfold freeOp mutexDestroyOp at h
  simp only [] at h
  split at h
  · simp only [Micro.next.injEq] at h
    obtain ⟨rfl, -⟩ := h
    exact ⟨rfl, rfl, fun _ _ => rfl, fun _ _ _ => Iff.rfl⟩
  · split at h
    · split at h
      · simp only [Micro.next.injEq] at h
        obtain ⟨rfl, -⟩ := h
        exact ⟨rfl, by simp, fun s' hs => Engine.ctx_setCtx_ne _ _ hs, fun _ _ _ => Iff.rfl⟩
      · cases h
    · simp only [Micro.next.injEq] at h
      obtain ⟨rfl, -⟩ := h
      exact ⟨rfl, by simp, fun s' hs => Engine.ctx_setCtx_ne _ _ hs, fun _ _ _ => Iff.rfl⟩

/-- Every micro-step of a session's commands concerns that session only (R10). -/
theorem ownOnly_ops (s : Nat) : OpsOf s (OwnOnly s) where
  readCtx := ownOnly_of_eq fun e e' r h => by
    simp only [readCtxOp, Micro.next.injEq] at h; rw [← h.1]; exact ⟨rfl, rfl, rfl⟩
  updateCtx := ownOnly_updateCtx s
  readByte a := ownOnly_of_eq fun e e' r h => by
    unfold readByteOp at h
    split at h
    · simp only [Micro.next.injEq] at h; rw [← h.1]; exact ⟨rfl, rfl, rfl⟩
    · cases h
  writeByte a b := ownOnly_of_eq fun e e' r h => by
    unfold writeByteOp at h
    split at h
    · simp only [Micro.next.injEq] at h; rw [← h.1]; exact ⟨rfl, rfl, rfl⟩
    · cases h
  acquire := ownOnly_acquire s
  guardOpen e e' r h := ownOnly_acquire s (e.record s 0x35) e' r h
  release := ownOnly_release s
  portCall c := ownOnly_of_eq fun e e' r h => by
    have := portCallOp_same h; exact ⟨this.1, this.2.1, this.2.2.1⟩
  suspend := ownOnly_of_eq fun e e' r h => by
    have := suspendOp_same h; exact ⟨this.1, this.2.1, this.2.2.1⟩
  resumeOwn := ownOnly_of_eq fun e e' r h => by
    have := resumeOwnOp_same h; exact ⟨this.1, this.2.1, this.2.2.1⟩
  deinitialize := ownOnly_of_eq fun e e' r h => by
    unfold deinitializeOp at h
    split at h
    · simp only [Micro.next.injEq] at h; rw [← h.1]; exact ⟨rfl, rfl, rfl⟩
    · cases h
  init := ownOnly_init s
  free := ownOnly_free s
  multBuf e e' r h := ownOnly_updateCtx s _ (e.record s 0x31) e' r h
  closeAad e e' r h := by
    unfold closeAadOp at h
    simp only [] at h
    split at h
    · exact ownOnly_updateCtx s _ ((e.record s 0x33).record s 0x31) e' r h
    · simp only [Micro.next.injEq] at h
      obtain ⟨rfl, -⟩ := h
      exact ⟨rfl, rfl, fun _ _ => rfl, fun _ _ _ => Iff.rfl⟩
  incY n e e' r h := ownOnly_updateCtx s _
    { e with history := List.replicate n ⟨s, 0x32⟩ ++ e.history } e' r h
  buildTable b e e' r h := ownOnly_updateCtx s _ (e.record s 0x30) e' r h
  tagVerify a b n := ownOnly_of_eq fun e e' r h => by
    simp only [tagVerifyOp, Micro.next.injEq] at h; rw [← h.1]; exact ⟨rfl, rfl, rfl⟩

end Sys2Proof.Machine
end

