-- ==== Sys2Proof/Laws/Invariant.lean ====
section
/-! SUPPORT. What keeps the engine's invariant, and the commands' programs kept to their guarded
sections, part by part (R15, R81, R86, R88). -/

namespace Sys2Proof.Machine

/-! ### The engine's invariant -/

/-- The invariant is about the parameters, the contexts, the arbiter and the memory only. -/
theorem Engine.Inv.congr {p : Params} {e e' : Engine} (h : e.Inv p) (hp : e'.params = e.params)
    (hc : e'.ctxs = e.ctxs) (ha : e'.arb = e.arb) (hm : e'.mem = e.mem) : e'.Inv p := by
  have hx : ∀ s, e'.ctx s = e.ctx s := fun s => by simp only [Engine.ctx, hc]
  refine ⟨hp.trans h.params, hc ▸ h.ctxs, hm ▸ h.memWf, hm ▸ h.memRange, ?_, ?_, ?_, hc ▸ h.header⟩
  · rw [ha, hc]; exact h.refcount
  · rw [ha]; exact h.mutex
  · intro s hs; rw [ha] at hs; rw [hx]; exact h.holder s hs

theorem Engine.standing_congr {e e' : Engine} (hc : e'.ctxs = e.ctxs) (ha : e'.arb = e.arb)
    (s : Nat) : e'.standing s = e.standing s := by
  simp only [Engine.standing, Engine.ctx, hc, ha]

theorem Engine.standing_eq {e : Engine} {s : Nat} {a b : Bool} :
    e.standing s = (a, b) ↔ (e.arb.holder = some s ↔ a = true) ∧
      ((e.ctx s).phase ≠ .uninit ↔ b = true) := by
  rw [Engine.standing, Prod.mk.injEq]
  cases a <;> cases b <;> simp

/-- The context of a session is one of the contexts. -/
theorem Engine.Inv.ctx_mem {p : Params} {e : Engine} (h : e.Inv p) {s : Nat}
    (hs : s < p.nSessions) : e.ctx s ∈ e.ctxs := by
  have hl : s < e.ctxs.length := by rw [h.ctxs]; exact hs
  simp only [Engine.ctx, List.getD_eq_getElem?_getD, List.getElem?_eq_getElem hl, Option.getD_some]
  exact List.getElem_mem hl

/-- A session with a context in use exists. -/
theorem Engine.Inv.lt_of_inUse {p : Params} {e : Engine} (h : e.Inv p) {s : Nat}
    (hu : (e.ctx s).phase ≠ .uninit) : s < p.nSessions := by
  by_contra hn
  have hl : e.ctxs.length ≤ s := by rw [h.ctxs]; omega
  apply hu
  simp only [Engine.ctx, List.getD_eq_getElem?_getD, List.getElem?_eq_none hl, Option.getD_none]
  rfl

/-- Setting one element of a list changes a count by what that element counts. -/
theorem countP_set_add {α : Type} (f : α → Bool) (l : List α) (n : Nat) (x : α)
    (h : n < l.length) :
    (l.set n x).countP f + (if f l[n] then 1 else 0) = l.countP f + if f x then 1 else 0 := by
  induction l generalizing n with
  | nil => simp at h
  | cons a rest ih =>
    cases n with
    | zero => simp only [List.set_cons_zero, List.countP_cons, List.getElem_cons_zero]; omega
    | succ n =>
      have := ih n (by simpa using h)
      simp only [List.set_cons_succ, List.countP_cons, List.getElem_cons_succ]
      omega

theorem Engine.countP_setCtx {p : Params} {e : Engine} (h : e.Inv p) {s : Nat} (x : Ctx)
    (hs : s < p.nSessions) :
    ((e.setCtx s x).ctxs.countP fun x => x.phase != .uninit) +
        (if (e.ctx s).phase = .uninit then 0 else 1) =
      e.arb.refcount + if x.phase = .uninit then 0 else 1 := by
  have hl : s < e.ctxs.length := by rw [h.ctxs]; exact hs
  have := countP_set_add (fun x : Ctx => x.phase != .uninit) e.ctxs s x hl
  rw [h.refcount, Engine.setCtx_ctxs]
  have hc : e.ctx s = e.ctxs[s] := by
    simp only [Engine.ctx, List.getD_eq_getElem?_getD, List.getElem?_eq_getElem hl,
      Option.getD_some]
  rw [hc]
  by_cases h1 : e.ctxs[s].phase = .uninit <;> by_cases h2 : x.phase = .uninit <;>
    simpa [h1, h2] using this

/-- What holds of every context after one is set. -/
theorem Engine.header_setCtx {p : Params} {e : Engine} (h : e.Inv p) {s : Nat} {x : Ctx}
    (hx : x.addrOk p) : ∀ y ∈ (e.setCtx s x).ctxs, y.addrOk p := by
  intro y hy
  rcases List.mem_or_eq_of_mem_set hy with hy | rfl
  · exact h.header y hy
  · exact hx

/-- A context in use stays in use. -/
theorem Engine.Inv.setCtx {p : Params} {e : Engine} (h : e.Inv p) {s : Nat} {x : Ctx}
    (hu : (e.ctx s).phase ≠ .uninit) (hx : x.phase ≠ .uninit)
    (hh : x.addrOk p) :
    (e.setCtx s x).Inv p := by
  have hs := h.lt_of_inUse hu
  refine ⟨h.params, by simp [h.ctxs], h.memWf, h.memRange, ?_, h.mutex, ?_, ?_⟩
  · have := Engine.countP_setCtx h x hs
    simp only [hu, hx, if_false] at this
    exact (Nat.add_right_cancel this).symm
  · intro s' hs'
    have := h.holder s' hs'
    refine ⟨this.1, ?_⟩
    by_cases hss : s' = s
    · subst hss
      rw [Engine.ctx_setCtx_self _ _ _ (by rw [h.ctxs]; exact hs)]; exact hx
    · rw [Engine.ctx_setCtx_ne _ _ hss]; exact this.2
  · exact Engine.header_setCtx h hh

theorem Engine.Inv.write {p : Params} {e : Engine} (h : e.Inv p) {a : Nat} (b : Byte)
    (ha : a < 2 ^ p.addrBits) : ({ e with mem := e.mem.write a b } : Engine).Inv p := by
  refine ⟨h.params, h.ctxs, Memory.wf_write _ h.memWf _ _, ?_, h.refcount, h.mutex, h.holder,
    h.header⟩
  intro c hc
  rcases Memory.mem_write _ _ _ _ hc with rfl | hc
  · exact ha
  · exact h.memRange c hc

/-- Taking the mutex. -/
theorem Engine.Inv.hold {p : Params} {e : Engine} (h : e.Inv p) {s : Nat}
    (hu : (e.ctx s).phase ≠ .uninit) :
    ({ e with arb := { e.arb with holder := some s } } : Engine).Inv p := by
  refine ⟨h.params, h.ctxs, h.memWf, h.memRange, h.refcount, h.mutex, ?_, h.header⟩
  intro s' hs'
  obtain rfl : s = s' := Option.some.inj hs'
  exact ⟨h.lt_of_inUse hu, hu⟩

/-- Giving it back. -/
theorem Engine.Inv.release {p : Params} {e : Engine} (h : e.Inv p) :
    ({ e with arb := { e.arb with holder := none } } : Engine).Inv p :=
  ⟨h.params, h.ctxs, h.memWf, h.memRange, h.refcount, h.mutex, fun s hs => (nomatch hs), h.header⟩

/-! ### The atomic steps of `INIT` and `FREE` -/

theorem clearedCtx_addrOk (p : Params) (ph : Phase) : (clearedCtx ph).addrOk p :=
  ⟨Nat.two_pow_pos _, fun h => nomatch h⟩

/-- `INIT`'s step on an `Uninit` context (R61, R88). -/
theorem initOp_next {p : Params} {e : Engine} (h : e.Inv p) {s : Nat} (hs : s < p.nSessions)
    (hu : (e.ctx s).phase = .uninit) :
    ∃ e' r, initOp s e = .next e' r ∧ e'.Inv p ∧ e'.arb.holder = e.arb.holder ∧
      e'.ctxs = e.ctxs.set s (clearedCtx .unkeyed) := by
  have hl : s < e.ctxs.length := by rw [h.ctxs]; exact hs
  have hcount := Engine.countP_setCtx h (clearedCtx .unkeyed) hs
  have hph : (clearedCtx .unkeyed).phase ≠ .uninit := by decide
  simp only [hu, hph, if_true, if_false, Nat.add_zero] at hcount
  have hheader := Engine.header_setCtx h (s := s) (clearedCtx_addrOk p .unkeyed)
  by_cases h0 : e.arb.refcount = 0
  · have hm : e.arb.mutexExists = false := by rw [h.mutex, h0]; rfl
    have hh : e.arb.holder = none := by
      cases hh : e.arb.holder with
      | none => rfl
      | some s' =>
        obtain ⟨hs', hu'⟩ := h.holder s' hh
        have hpos := List.countP_pos_iff (p := fun x : Ctx => x.phase != .uninit).2
          ⟨e.ctx s', h.ctx_mem hs', by simpa using hu'⟩
        rw [← h.refcount, h0] at hpos
        exact absurd hpos (lt_irrefl 0)
    have heq : initOp s e = .next { (e.setCtx s (clearedCtx .unkeyed)).record s 0x20 with
        arb := { refcount := 0 + 1, mutexExists := true, holder := none } } .unit := by
      simp only [initOp, Engine.setCtx_arb, h0, if_true, mutexCreateOp, hm, if_false,
        Bool.false_eq_true]
    refine ⟨_, _, heq, ⟨h.params, by simp [h.ctxs], h.memWf, h.memRange, ?_, ?_, ?_, hheader⟩, hh.symm, rfl⟩
    · dsimp only
      rw [h0] at hcount
      rw [Nat.zero_add]
      exact hcount.symm
    · rfl
    · intro s' hs'; cases hs'
  · have heq : initOp s e = .next { e.setCtx s (clearedCtx .unkeyed) with
        arb := { e.arb with refcount := e.arb.refcount + 1 } } .unit := by
      simp only [initOp, Engine.setCtx_arb, h0, if_false]
    refine ⟨_, _, heq, ⟨h.params, by simp [h.ctxs], h.memWf, h.memRange, hcount.symm, ?_, ?_, hheader⟩, rfl, rfl⟩
    · dsimp only [Engine.setCtx_arb]
      rw [h.mutex, decide_eq_true (Nat.pos_of_ne_zero h0), decide_eq_true (Nat.succ_pos _)]
    · intro s' hs'
      have := h.holder s' hs'
      refine ⟨this.1, ?_⟩
      have hne : s' ≠ s := fun hss => this.2 (hss ▸ hu)
      exact (Engine.ctx_setCtx_ne e (clearedCtx .unkeyed) hne).symm ▸ this.2

/-- `FREE`'s last step on a context in use, the session not holding the mutex (R62, R88). -/
theorem freeOp_next {p : Params} {e : Engine} (h : e.Inv p) {s : Nat}
    (hu : (e.ctx s).phase ≠ .uninit) (hn : e.arb.holder ≠ some s) :
    ∃ e' r, freeOp s e = .next e' r ∧ e'.Inv p ∧ e'.arb.holder = e.arb.holder ∧
      e'.ctxs = e.ctxs.set s (clearedCtx .uninit) := by
  have hs := h.lt_of_inUse hu
  have hcount := Engine.countP_setCtx h (clearedCtx .uninit) hs
  have hph : (clearedCtx .uninit).phase = .uninit := rfl
  simp only [hu, hph, if_true, if_false, Nat.add_zero] at hcount
  have hheader := Engine.header_setCtx h (s := s) (clearedCtx_addrOk p .uninit)
  have hpos : 0 < e.arb.refcount := by omega
  have hm : e.arb.mutexExists = true := by rw [h.mutex, decide_eq_true hpos]
  have hothers : ∀ s', e.arb.holder = some s' → s' < p.nSessions ∧
      ((e.setCtx s (clearedCtx .uninit)).ctx s').phase ≠ .uninit := by
    intro s' hs'
    have := h.holder s' hs'
    have hne : s' ≠ s := fun hss => hn (hss ▸ hs')
    exact ⟨this.1, (Engine.ctx_setCtx_ne e (clearedCtx .uninit) hne).symm ▸ this.2⟩
  by_cases h1 : e.arb.refcount - 1 = 0
  · have hh : e.arb.holder = none := by
      cases hh : e.arb.holder with
      | none => rfl
      | some s' =>
        obtain ⟨hs', hu'⟩ := hothers s' hh
        have hmem : (e.setCtx s (clearedCtx .uninit)).ctx s' ∈
            (e.setCtx s (clearedCtx .uninit)).ctxs := by
          have hl : s' < (e.setCtx s (clearedCtx .uninit)).ctxs.length := by
            simp [h.ctxs, hs']
          rw [Engine.ctx, List.getD_eq_getElem?_getD, List.getElem?_eq_getElem hl]
          exact List.getElem_mem hl
        have hp := List.countP_pos_iff (p := fun x : Ctx => x.phase != .uninit).2
          ⟨_, hmem, by simpa using hu'⟩
        omega
    have heq : freeOp s e = .next { (e.setCtx s (clearedCtx .uninit)).record s 0x21 with
        arb := { refcount := 0, mutexExists := false, holder := none } } .unit := by
      simp [freeOp, hu, h1, mutexDestroyOp, hm, hh, Engine.record]
    refine ⟨_, _, heq, ⟨h.params, by simp [h.ctxs], h.memWf, h.memRange, ?_, ?_, ?_, hheader⟩, ?_, rfl⟩
    · show 0 = _
      have : ((e.setCtx s (clearedCtx .uninit)).ctxs.countP fun x => x.phase != .uninit) = 0 := by
        omega
      exact this.symm
    · rfl
    · intro s' hs'; cases hs'
    · exact hh.symm
  · have heq : freeOp s e = .next { e.setCtx s (clearedCtx .uninit) with
        arb := { e.arb with refcount := e.arb.refcount - 1 } } .unit := by
      simp only [freeOp, hu, if_false, Engine.setCtx_arb, h1]
    refine ⟨_, _, heq, ⟨h.params, by simp [h.ctxs], h.memWf, h.memRange, ?_, ?_, hothers, hheader⟩, rfl, rfl⟩
    · show e.arb.refcount - 1 = _
      have : ((e.setCtx s (clearedCtx .uninit)).ctxs.countP fun x => x.phase != .uninit) =
        e.arb.refcount - 1 := by omega
      exact this.symm
    · show e.arb.mutexExists = decide (0 < e.arb.refcount - 1)
      rw [hm, decide_eq_true (Nat.pos_of_ne_zero h1)]

end Sys2Proof.Machine
end

