-- ==== Sys2Proof/Laws/ModeA.lean ====
section
/-! SUPPORT. What the parts of the session commands compute under strategy A (43_session_mode_a.md). -/

namespace Sys2Proof.Machine

/-- The header a session has staged, as the memory holds it (R76, R77). -/
def Ctx.header (x : Ctx) (m : Memory) : List Byte :=
  if x.hdrPending then m.readBytes x.hdrAddr x.hdrLen.toNat else []

/-- An image after its accumulator has absorbed a header (R49). -/
def headerImage (img : Image) (a : List Byte) : Image :=
  { img with gAcc := ghashFrom (imageSubkey img) img.gAcc (padBlocks a) }

@[simp] theorem headerImage_nil (img : Image) : headerImage img [] = img := by
  simp [headerImage]

/-- An image that is ready for the operations of a message in mode GCM (40_adapter.md). -/
def streaming (img : Image) : Bool := gcmReady img && img.gActive

section
variable {e : Engine} {s : Nat} {x : Ctx} {m : Memory} {l : Image} {a : List Answer}
  {h : List HistoryEntry}

/-- One pass over the accelerator, a staged header riding on it (R77). -/
theorem hwPass_put (op : PortCall) (hs : s < e.ctxs.length) (h1 : e.arb.mutexExists = true)
    (h2 : e.arb.holder = none) (hv : x.imageValid = true) (hr : streaming x.image = true)
    (hw : op.wellFormed = true) (hop : ∀ img, callReady img op = streaming img)
    (hh : x.headerOk e.params) (rest : List Answer)
    (ha : a = List.replicate (if x.hdrPending = true then 4 else 3) .done ++ rest)
    (img : Image × List Byte) (hi : img = callEffect (headerImage x.image (x.header m)) op) :
    ∃ k, (hwPass s op).eval [] (e.put s x m l a h) =
      .done img.2 (e.put s { x with image := img.1, hdrPending := false } m img.1 rest (k ++ h)) := by
  subst hi
  unfold hwPass
  by_cases hp : x.hdrPending = true
  · obtain ⟨hl, hfit⟩ := hh hp
    have hd : x.header m = m.readBytes x.hdrAddr x.hdrLen.toNat := by simp [Ctx.header, hp]
    have hlen : x.hdrLen.toNat ≠ 0 := fun h0 => hl (BitVec.eq_of_toNat_eq h0)
    have hrun : runCalls (if x.imageValid then x.image else l)
        [.gcmHeader (x.header m), op] [] =
        some ((callEffect (headerImage x.image (x.header m)) op).1,
          (callEffect (headerImage x.image (x.header m)) op).2) := by
      have hw1 : (PortCall.gcmHeader (x.header m)).wellFormed = true := by
        simp [PortCall.wellFormed, hd, hlen]
      have hr1 : callReady x.image (.gcmHeader (x.header m)) = true := hr
      have hr2 : callReady (callEffect x.image (.gcmHeader (x.header m))).1 op = true := by
        rw [hop]; exact hr
      simp only [hv, if_true, runCalls, hw1, hr1, hw, hr2, Bool.and_self]
      rfl
    rw [if_pos hp] at ha
    obtain ⟨k, hk⟩ := guardSection_put (e := e) (s := s) (x := x) (m := m) (l := l) (a := a)
      (h := h) (rest := rest) hs h1 h2 hrun (by rw [ha, hv]; rfl)
    refine ⟨k, ?_⟩
    refine Program.eval_bind_done (getCtx_put hs) ?_
    rw [if_pos hp]
    refine Program.eval_bind_done (memRead_put _ _ (Or.inr hfit)) ?_
    rw [← hd]
    refine Program.eval_bind_done hk (Program.eval_bind_done (setCtx_put hs _) ?_)
    simp only [hv]; rfl
  · have hd : x.header m = [] := by simp [Ctx.header, hp]
    rw [hd, headerImage_nil]
    have hrun : runCalls (if x.imageValid then x.image else l) [op] [] =
        some ((callEffect x.image op).1, (callEffect x.image op).2) := by
      have hr2 : callReady x.image op = true := by rw [hop]; exact hr
      simp only [hv, if_true, runCalls, hw, hr2, Bool.and_self]
    rw [if_neg hp] at ha
    obtain ⟨k, hk⟩ := guardSection_put (e := e) (s := s) (x := x) (m := m) (l := l) (a := a)
      (h := h) (rest := rest) hs h1 h2 hrun (by rw [ha, hv]; rfl)
    refine ⟨k, ?_⟩
    refine Program.eval_bind_done (getCtx_put hs) ?_
    rw [if_neg hp]
    refine hk.trans ?_
    have hp' : x.hdrPending = false := by simpa using hp
    simp only [hv, hp']

/-! ### `UPDATE` -/

/-- What a pass over payload leaves in the image and gives (R50): the running values over the first
`n` bytes, `d` being those bytes padded to whole blocks. -/
theorem callEffect_payload (img : Image) (z pad : List Byte) (valid : BitVec 4)
    (hlen : (z ++ pad).length % 16 = 0)
    (hvalid : (if valid = 0 then (z ++ pad).length else (z ++ pad).length - 16 + valid.toNat) =
      z.length)
    (hz : z ≠ []) (hpad : pad.length < 16) :
    (callEffect img (.gcmPayload (z ++ pad) valid)).1 =
      { img with
        gY := counterAfter 0 img.gY z.length
        gAcc := ghashFrom (imageSubkey img) img.gAcc
          (padBlocks (ciphertext img.gDir z (cryptBytes (imageKey img) 0 img.gY z))) } ∧
    (callEffect img (.gcmPayload (z ++ pad) valid)).2.take z.length =
      cryptBytes (imageKey img) 0 img.gY z := by
  have hzl : 0 < z.length := List.length_pos_iff.2 hz
  have htake : (cryptBytes (imageKey img) 0 img.gY (z ++ pad)).take z.length =
      cryptBytes (imageKey img) 0 img.gY z := by
    rw [cryptBytes_append _ _ (by decide)]
    exact List.take_left' (by simp)
  have hct : (ciphertext img.gDir (z ++ pad)
      (cryptBytes (imageKey img) 0 img.gY (z ++ pad))).take z.length =
      ciphertext img.gDir z (cryptBytes (imageKey img) 0 img.gY z) := by
    cases img.gDir
    · exact htake
    · exact List.take_left' rfl
  have hy : counterAfter 0 img.gY (z ++ pad).length = counterAfter 0 img.gY z.length := by
    simp only [List.length_append] at hlen ⊢
    have hq : (0 + (z.length + pad.length - 1)) / 16 = (0 + (z.length - 1)) / 16 := by omega
    have h1 : z.length + pad.length ≠ 0 := by omega
    have h2 : z.length ≠ 0 := by omega
    simp only [counterAfter, h1, h2, if_false, hq]
  refine ⟨?_, ?_⟩
  · simp only [callEffect, hvalid, hct, hy]
  · exact htake

/-- The aligned part of `UPDATE` (R78). -/
theorem updateAlignedA_put (input output n : Nat) (hs : s < e.ctxs.length) (hn : n ≠ 0)
    (h16 : n % 16 = 0) (hfi : fits e.params input n) (hfo : fits e.params output n)
    (h1 : e.arb.mutexExists = true) (h2 : e.arb.holder = none) (hv : x.imageValid = true)
    (hr : streaming x.image = true) (hh : x.headerOk e.params) (rest : List Answer)
    (ha : a = List.replicate (if x.hdrPending = true then 4 else 3) .done ++ rest)
    (z o : List Byte) (hz : z = m.readBytes input n)
    (ho : o = cryptBytes (imageKey x.image) 0 x.image.gY z) (img : Image)
    (hi : img = { x.image with
      gY := counterAfter 0 x.image.gY n
      gAcc := ghashFrom (imageSubkey x.image) x.image.gAcc
        (padBlocks (x.header m) ++ padBlocks (ciphertext x.image.gDir z o)) }) :
    ∃ k, (updateAlignedA s input output n).eval [] (e.put s x m l a h) =
      .done () (e.put s { x with
        y := counterAfter 0 x.y n, len := x.len + BitVec.ofNat 64 n
        image := img, hdrPending := false } (m.writeBytes output o) img rest (k ++ h)) := by
  have hzl : z.length = n := by simp [hz]
  have hze : z ≠ [] := by rw [← List.length_pos_iff]; omega
  have hce := callEffect_payload (headerImage x.image (x.header m)) z [] 0 (by simpa [hzl] using h16)
    (by simp) hze (by simp)
  rw [List.append_nil] at hce
  have himg : (callEffect (headerImage x.image (x.header m)) (.gcmPayload z 0)).1 = img := by
    rw [hce.1, hi, ghashFrom_append, hzl, ho]; rfl
  have hout : (callEffect (headerImage x.image (x.header m)) (.gcmPayload z 0)).2 = o := by
    rw [ho]; rfl
  have hol : o.length = n := by simp [ho, hzl]
  obtain ⟨k, hk⟩ := hwPass_put (e := e) (s := s) (x := x) (m := m) (l := l) (a := a) (h := h)
    (.gcmPayload z 0) hs h1 h2 hv hr (by simp [PortCall.wellFormed, wholeBlocks, hzl, hn, h16])
    (fun _ => rfl) hh rest ha _ rfl
  rw [himg, hout] at hk
  refine ⟨List.replicate (n / 16) ⟨s, 0x32⟩ ++ k, ?_⟩
  unfold updateAlignedA
  refine Program.eval_bind_done (memRead_put _ _ hfi) ?_
  rw [← hz]
  refine Program.eval_bind_done hk ?_
  refine Program.eval_bind_done (memWrite_put _ _ (by rw [hol]; exact hfo)) ?_
  refine Program.eval_bind_done (incY_put hs _) ((setCtx_put hs _).trans ?_)
  dsimp only
  rw [counterAfter_blocks _ _ h16, List.append_assoc]

/-- The remainder of `UPDATE` (R78). -/
theorem updateRemainderA_put (input output n : Nat) (hs : s < e.ctxs.length) (hn : n ≠ 0)
    (h16 : n < 16) (hfi : fits e.params input n) (hfo : fits e.params output n)
    (h1 : e.arb.mutexExists = true) (h2 : e.arb.holder = none) (hv : x.imageValid = true)
    (hr : streaming x.image = true) (hh : x.headerOk e.params) (rest : List Answer)
    (ha : a = List.replicate (if x.hdrPending = true then 4 else 3) .done ++ rest)
    (z o : List Byte) (hz : z = m.readBytes input n)
    (ho : o = cryptBytes (imageKey x.image) 0 x.image.gY z) (img : Image)
    (hi : img = { x.image with
      gY := counterAfter 0 x.image.gY n
      gAcc := ghashFrom (imageSubkey x.image) x.image.gAcc
        (padBlocks (x.header m) ++ padBlocks (ciphertext x.image.gDir z o)) }) :
    ∃ k, (updateRemainderA s input output n).eval [] (e.put s x m l a h) =
      .done () (e.put s { x with
        y := counterAfter 0 x.y n, len := x.len + BitVec.ofNat 64 n
        image := img, hdrPending := false } (m.writeBytes output o) img rest (k ++ h)) := by
  have hzl : z.length = n := by simp [hz]
  have hze : z ≠ [] := by rw [← List.length_pos_iff]; omega
  have hvn : (BitVec.ofNat 4 n).toNat = n := by simp; omega
  have hv0 : BitVec.ofNat 4 n ≠ 0 := fun h0 => hn (by rw [← hvn, h0]; rfl)
  have hdl : (z ++ List.replicate (16 - n) 0).length = 16 := by simp [hzl]; omega
  have hce := callEffect_payload (headerImage x.image (x.header m)) z (List.replicate (16 - n) 0)
    (BitVec.ofNat 4 n) (by rw [hdl]) (by rw [if_neg hv0, hdl, hvn, hzl]; omega) hze
    (by simp; omega)
  have himg : (callEffect (headerImage x.image (x.header m))
      (.gcmPayload (z ++ List.replicate (16 - n) 0) (BitVec.ofNat 4 n))).1 = img := by
    rw [hce.1, hi, ghashFrom_append, hzl, ho]; rfl
  have hout : (callEffect (headerImage x.image (x.header m))
      (.gcmPayload (z ++ List.replicate (16 - n) 0) (BitVec.ofNat 4 n))).2.take n = o := by
    have h2 := hce.2
    rw [hzl] at h2
    rw [ho]; exact h2
  have hol : o.length = n := by simp [ho, hzl]
  obtain ⟨k, hk⟩ := hwPass_put (e := e) (s := s) (x := x) (m := m) (l := l) (a := a) (h := h)
    (.gcmPayload (z ++ List.replicate (16 - n) 0) (BitVec.ofNat 4 n)) hs h1 h2 hv hr
    (by simp only [PortCall.wellFormed, wholeBlocks, hdl]; rfl) (fun _ => rfl) hh rest ha _ rfl
  rw [himg] at hk
  refine ⟨List.replicate 1 ⟨s, 0x32⟩ ++ k, ?_⟩
  unfold updateRemainderA
  refine Program.eval_bind_done (memRead_put _ _ hfi) ?_
  rw [← hz]
  refine Program.eval_bind_done hk ?_
  rw [hout]
  refine Program.eval_bind_done (memWrite_put _ _ (by rw [hol]; exact hfo)) ?_
  refine Program.eval_bind_done (incY_put hs _) ((setCtx_put hs _).trans ?_)
  have hy : counterAfter 0 x.y n = inc32^[1] x.y := by
    unfold counterAfter
    rw [if_neg hn, show (0 + (n - 1)) / 16 = 0 by omega]; rfl
  dsimp only
  rw [hy, List.append_assoc]

/-- `UPDATE` (R78), when the aliasing check passes, the mutex is free, the message is begun on the
accelerator and it does not fail. -/
theorem updatePartA_put (input n output : W64) (hs : s < e.ctxs.length)
    (hfi : fits e.params input.toNat n.toNat) (hfo : fits e.params output.toNat n.toNat)
    (hal : ¬ (input.toNat < output.toNat ∧ output.toNat - input.toNat < n.toNat))
    (hw : m.wf = true) (h1 : n = 0 ∨ e.arb.mutexExists = true ∧ e.arb.holder = none)
    (hv : x.imageValid = true) (hr : streaming x.image = true) (hh : x.headerOk e.params)
    (rest : List Answer)
    (ha : a = List.replicate (updateDrawsA x.hdrPending n.toNat) .done ++ rest)
    (z o : List Byte) (hz : z = m.readBytes input.toNat n.toNat)
    (ho : o = cryptBytes (imageKey x.image) 0 x.image.gY z) (img : Image)
    (hi : img = if n.toNat = 0 then x.image else { x.image with
      gY := counterAfter 0 x.image.gY n.toNat
      gAcc := ghashFrom (imageSubkey x.image) x.image.gAcc
        (padBlocks (x.header m) ++ padBlocks (ciphertext x.image.gDir z o)) }) :
    ∃ k, (updatePartA s input n output).eval [] (e.put s x m l a h) =
      .done () (e.put s { x with
        phase := .absorbingPayload, y := counterAfter 0 x.y n.toNat, len := x.len + n
        image := img, hdrPending := if n.toNat = 0 then x.hdrPending else false }
        (m.writeBytes output.toNat o) (if n.toNat = 0 then l else img) rest (k ++ h)) := by
  unfold updatePartA
  by_cases hn0 : n.toNat = 0
  · have hn : n = 0 := BitVec.eq_of_toNat_eq hn0
    subst hn
    have hz' : z = [] := hz
    subst hz'
    rw [if_pos hn0] at hi
    subst hi
    have ho' : o = [] := ho
    subst ho'
    have ha' : a = rest := by simpa [updateDrawsA] using ha
    subst ha'
    refine ⟨[], Program.eval_bind_done (setCtx_put hs _) ?_⟩
    simp [Memory.writeBytes, counterAfter]
  · obtain ⟨h1, h2⟩ := h1.resolve_left (fun h0 => hn0 (by simp [h0]))
    rw [if_neg hn0] at hi
    obtain ⟨N, hN⟩ : ∃ N, N = n.toNat := ⟨_, rfl⟩
    rw [← hN] at hn0 hfi hfo hal ha hz hi ⊢
    obtain ⟨I, hI⟩ : ∃ I, I = input.toNat := ⟨_, rfl⟩
    obtain ⟨O, hO⟩ : ∃ O, O = output.toNat := ⟨_, rfl⟩
    rw [← hI] at hfi hal hz ⊢
    rw [← hO] at hfo hal ⊢
    have hnN : n = BitVec.ofNat 64 N := by rw [hN]; simp
    obtain ⟨x1, hx1⟩ : ∃ x1 : Ctx, x1 = { x with phase := .absorbingPayload } := ⟨_, rfl⟩
    have hzl : z.length = N := by simp [hz]
    by_cases hal0 : N - N % 16 = 0
    · -- less than one block
      have hlt : N < 16 := by omega
      have hr0 : N % 16 = N := Nat.mod_eq_of_lt hlt
      obtain ⟨k, hk⟩ := updateRemainderA_put (e := e) (s := s) (x := x1) (m := m) (l := l) (a := a)
        (h := h) I O N hs hn0 hlt hfi hfo h1 h2 (hx1 ▸ hv) (hx1 ▸ hr) (hx1 ▸ hh) rest
        (by
          rw [ha, hx1]
          congr 2
          unfold updateDrawsA
          cases x.hdrPending <;> simp [hr0, hn0] <;> omega)
        z o hz (hx1 ▸ ho) img (by rw [hx1]; exact hi)
      refine ⟨k, Program.eval_bind_done (setCtx_put hs _) ?_⟩
      rw [if_pos hal0, hal0]
      simp only [Program.ret_bind, hr0, if_neg hn0, Nat.add_zero]
      rw [hx1] at hk
      refine hk.trans ?_
      rw [hnN]
    · obtain ⟨al, hald⟩ : ∃ al, al = N - N % 16 := ⟨_, rfl⟩
      have h16 : 16 ≤ N := by omega
      have hal16 : al % 16 = 0 := by omega
      obtain ⟨z1, hz1⟩ : ∃ z1, z1 = m.readBytes I al := ⟨_, rfl⟩
      obtain ⟨o1, ho1⟩ : ∃ o1, o1 = cryptBytes (imageKey x.image) 0 x.image.gY z1 := ⟨_, rfl⟩
      have hz1l : z1.length = al := by simp [hz1]
      have ho1l : o1.length = al := by simp [ho1, hz1l]
      obtain ⟨img1, hi1⟩ : ∃ img1 : Image, img1 = { x.image with
          gY := counterAfter 0 x.image.gY al
          gAcc := ghashFrom (imageSubkey x.image) x.image.gAcc
            (padBlocks (x.header m) ++ padBlocks (ciphertext x.image.gDir z1 o1)) } := ⟨_, rfl⟩
      obtain ⟨rest1, hr1⟩ : ∃ rest1, rest1 =
          List.replicate (if N % 16 ≠ 0 then 3 else 0) Answer.done ++ rest := ⟨_, rfl⟩
      obtain ⟨k1, hk1⟩ := updateAlignedA_put (e := e) (s := s) (x := x1) (m := m) (l := l) (a := a)
        (h := h) I O al hs (by omega) hal16
        (by rcases hfi with hf | hf <;> [left; right] <;> omega)
        (by rcases hfo with hf | hf <;> [left; right] <;> omega)
        h1 h2 (hx1 ▸ hv) (hx1 ▸ hr) (hx1 ▸ hh) rest1
        (by
          rw [ha, hr1, hx1, ← List.append_assoc, ← List.replicate_add]
          congr 2
          unfold updateDrawsA
          cases x.hdrPending <;> simp [h16, hn0] <;> omega)
        z1 o1 hz1 (hx1 ▸ ho1) img1 (by rw [hx1]; exact hi1)
      rw [hx1] at hk1
      by_cases hrem : N % 16 = 0
      · have halN : al = N := by omega
        rw [halN] at hz1 hi1 hk1
        have hzz : z1 = z := hz1.trans hz.symm
        have hoo : o1 = o := by rw [ho1, ho, hzz]
        have hii : img1 = img := by rw [hi1, hi, hzz, hoo]
        have hrr : rest1 = rest := by simp [hr1, hrem]
        refine ⟨k1, Program.eval_bind_done (setCtx_put hs _) ?_⟩
        rw [← hald, if_neg (by omega), halN]
        refine Program.eval_bind_done hk1 ?_
        simp [hrem, hoo, hii, hrr, hn0, ← hnN]
      · obtain ⟨r, hrd⟩ : ∃ r, r = N % 16 := ⟨_, rfl⟩
        have hrl : r < 16 := by omega
        have hNsum : N = al + r := by omega
        obtain ⟨z2, hz2⟩ : ∃ z2, z2 = m.readBytes (I + al) r := ⟨_, rfl⟩
        have hz12 : z = z1 ++ z2 := by rw [hz, hz1, hz2, hNsum, Memory.readBytes_add]
        have hz2' : z2 = (m.writeBytes O o1).readBytes (I + al) r := by
          rw [hz2]
          exact (Memory.readBytes_writeBytes_disjoint m hw _ _ _ _ (by omega)).symm
        obtain ⟨o2, ho2⟩ : ∃ o2, o2 = cryptBytes (imageKey x.image) 0
            (counterAfter 0 x.image.gY al) z2 := ⟨_, rfl⟩
        have ho12 : o = o1 ++ o2 := by
          rw [ho, hz12, cryptBytes_append _ _ (by decide), ho1, ho2, hz1l, Nat.zero_add, hal16]
        obtain ⟨x2, hx2⟩ : ∃ x2 : Ctx, x2 = { x with
            phase := .absorbingPayload, y := counterAfter 0 x.y al
            len := x.len + BitVec.ofNat 64 al, image := img1, hdrPending := false } := ⟨_, rfl⟩
        have hkey : imageKey img1 = imageKey x.image := by rw [hi1]; rfl
        obtain ⟨k2, hk2⟩ := updateRemainderA_put (e := e) (s := s) (x := x2)
          (m := m.writeBytes O o1) (l := img1) (a := rest1) (h := k1 ++ h) (I + al) (O + al) r hs
          (by omega) hrl (by rcases hfi with hf | hf <;> [left; right] <;> omega)
          (by rcases hfo with hf | hf <;> [left; right] <;> omega)
          h1 h2 (hx2 ▸ hv) (by rw [hx2, hi1]; exact hr) (by rw [hx2]; exact nofun) rest
          (by rw [hr1, hx2]; simp [hrem])
          z2 o2 hz2' (by rw [hx2, ho2, hkey, hi1]) img (by
            have hc : ciphertext x.image.gDir z o =
                ciphertext x.image.gDir z1 o1 ++ ciphertext x.image.gDir z2 o2 := by
              rw [hz12, ho12, ciphertext_append]
            have hcl : (ciphertext x.image.gDir z1 o1).length % 16 = 0 := by
              rw [length_ciphertext _ _ _ (by rw [ho1l, hz1l]), hz1l]; exact hal16
            have hhd : x2.header (m.writeBytes O o1) = [] := by simp [hx2, Ctx.header]
            have hctr := counterAfter_add 0 (by decide) x.image.gY al r
            rw [Nat.zero_add, hal16] at hctr
            rw [hhd, hi, hc, padBlocks_append _ _ hcl, hx2]
            dsimp only
            rw [hi1, hNsum, hctr, padBlocks_nil, List.nil_append, ← List.append_assoc,
              ghashFrom_append _ _ (_ ++ _)]
            rfl)
        rw [hx2] at hk2
        refine ⟨k2 ++ k1, Program.eval_bind_done (setCtx_put hs _) ?_⟩
        rw [← hald, if_neg (by omega), ← hrd, if_neg (by omega)]
        refine Program.eval_bind_done hk1 (hk2.trans ?_)
        have hctr := counterAfter_add 0 (by decide) x.y al r
        rw [Nat.zero_add, hal16] at hctr
        have hlen : x.len + BitVec.ofNat 64 al + BitVec.ofNat 64 r = x.len + n := by
          rw [BitVec.add_assoc, ← BitVec.ofNat_add, ← hNsum, hnN]
        have hmem : (m.writeBytes O o1).writeBytes (O + al) o2 = m.writeBytes O o := by
          rw [ho12, Memory.writeBytes_append, ho1l]
        dsimp only
        rw [← hctr, ← hNsum, hlen, hmem, List.append_assoc]
        simp [hn0]

/-! ### The other parts -/

/-- `UPDATE_AD` (R76). -/
theorem updateAdPartA_put (aad n : W64) (hs : s < e.ctxs.length) :
    (updateAdPartA e.params s aad n).eval [] (e.put s x m l a h) =
      .done () (e.put s { x with
        phase := .absorbingAAD, addLen := x.addLen + n
        hdrAddr := if n = 0 then x.hdrAddr else aad.toNat % 2 ^ e.params.addrBits
        hdrLen := if n = 0 then x.hdrLen else n
        hdrPending := if n = 0 then x.hdrPending else true } m l a h) := by
  unfold updateAdPartA
  refine (setCtx_put hs _).trans ?_
  by_cases h0 : n = 0
  · simp only [h0, if_true]
  · simp only [h0, if_false]

/-- The tag of `FINISH` (R79). -/
theorem finishTagA_put (hs : s < e.ctxs.length) (h1 : e.arb.mutexExists = true)
    (h2 : e.arb.holder = none) (hv : x.imageValid = true) (hr : streaming x.image = true)
    (hh : x.headerOk e.params) (rest : List Answer)
    (ha : a = List.replicate (if x.hdrPending = true then 4 else 3) .done ++ rest) (g : Block)
    (hg : g = ghashFrom (imageSubkey x.image) x.image.gAcc
      (padBlocks (x.header m) ++ [lengthBlock x.addLen x.len])) (img : Image)
    (hi : img = { x.image with gAcc := g, gActive := false }) :
    ∃ k, (finishTagA s).eval [] (e.put s x m l a h) =
      .done (bytesOfBlock (g ^^^ x.image.gEctr0))
        (e.put s { x with image := img, hdrPending := false } m img rest (k ++ h)) := by
  have hce : callEffect (headerImage x.image (x.header m)) (.gcmTag (8 * x.addLen) (8 * x.len)) =
      (img, bytesOfBlock (g ^^^ x.image.gEctr0)) := by
    rw [hi, hg, ghashFrom_append]; rfl
  obtain ⟨k, hk⟩ := hwPass_put (e := e) (s := s) (x := x) (m := m) (l := l) (a := a) (h := h)
    (.gcmTag (8 * x.addLen) (8 * x.len)) hs h1 h2 hv hr rfl (fun _ => rfl) hh rest ha _ rfl
  rw [hce] at hk
  exact ⟨k, Program.eval_bind_done (getCtx_put hs) hk⟩

/-- `SETKEY` (R74), when the mutex is free and the accelerator does not fail. -/
theorem setkeyPartA_put (o : SetkeyOperands) (hs : s < e.ctxs.length)
    (hk : o.keyBits = 128 ∨ o.keyBits = 192 ∨ o.keyBits = 256)
    (hf : fits e.params o.key.toNat (o.keyBits.toNat / 8)) (h1 : e.arb.mutexExists = true)
    (h2 : e.arb.holder = none) (rest : List Answer) (ha : a = List.replicate 2 .done ++ rest)
    (img : Image)
    (hi : img = { Image.blank with
      configured := true, mode := .gcm, keyBits := o.keyBits.setWidth 9
      key := m.readBytes o.key.toNat (o.keyBits.toNat / 8) }) :
    ∃ k, (setkeyPartA s o).eval [] (e.put s x m l a h) =
      .done () (e.put s { x with phase := .keyed, image := img, imageValid := true }
        m img rest (k ++ h)) := by
  have hw1 : (PortCall.configure (m.readBytes o.key.toNat (o.keyBits.toNat / 8))
      (o.keyBits.setWidth 9) .gcm).wellFormed = true := by
    rcases hk with h | h | h <;> simp [PortCall.wellFormed, h]
  have hrun : runCalls l [.configure (m.readBytes o.key.toNat (o.keyBits.toNat / 8))
      (o.keyBits.setWidth 9) .gcm] [] = some (img, []) := by
    subst hi
    simp only [runCalls, hw1, callReady, callEffect, if_true, Bool.and_self]
  obtain ⟨k, hg⟩ := guardSection_put (e := e) (s := s) (x := { x with
      image := Image.blank, imageValid := false, phase := .unkeyed })
    (m := m) (l := l) (a := a) (h := h) (rest := rest) hs h1 h2 hrun (by simpa using ha)
  refine ⟨k, ?_⟩
  unfold setkeyPartA
  refine Program.eval_bind_done (memRead_put _ _ hf) (Program.eval_bind_done (setCtx_put hs _) ?_)
  exact Program.eval_bind_done hg (setCtx_put hs _)

/-- `STARTS` (R75), when the mutex is free, the key is bound and the accelerator does not fail. -/
theorem startsPartA_put (dir : Direction) (iv : W64) (hs : s < e.ctxs.length)
    (hf : fits e.params iv.toNat 12) (h1 : e.arb.mutexExists = true) (h2 : e.arb.holder = none)
    (hv : x.imageValid = true) (hr : gcmReady x.image = true) (rest : List Answer)
    (ha : a = List.replicate 3 .done ++ rest) (y0 : Block)
    (hy : y0 = preCounter (m.readBytes iv.toNat 12)) (img : Image)
    (hi : img = { x.image with
      gActive := true, gDir := dir, gY := y0, gAcc := 0
      gEctr0 := cipherE (imageKey x.image) y0 }) :
    ∃ k, (startsPartA s dir iv).eval [] (e.put s x m l a h) =
      .done () (e.put s { x with
        phase := .started, direction := dir, y := y0, image := img
        len := 0, addLen := 0, tagLen := 0
        hdrAddr := 0, hdrLen := 0, hdrPending := false } m img rest (k ++ h)) := by
  have hrun : runCalls (if x.imageValid then x.image else l) [.gcmBegin dir y0] [] =
      some (img, []) := by
    have hc : callReady x.image (.gcmBegin dir y0) = true := hr
    have hw : (PortCall.gcmBegin dir y0).wellFormed = true := rfl
    simp only [hv, if_true, runCalls, hw, hc, Bool.and_self, callEffect, hi]
  obtain ⟨k, hg⟩ := guardSection_put (e := e) (s := s) (x := { x with
      direction := dir, len := 0, addLen := 0, tagLen := 0
      hdrAddr := 0, hdrLen := 0, hdrPending := false, y := y0, phase := .started })
    (m := m) (l := l) (a := a) (h := h) (rest := rest) hs h1 h2 hrun (by simpa [hv] using ha)
  refine ⟨k, ?_⟩
  unfold startsPartA
  refine Program.eval_bind_done (memRead_put _ _ hf) (Program.eval_bind_done (setCtx_put hs _) ?_)
  refine Program.eval_bind_done (getCtx_put hs) ?_
  rw [← hy]
  refine Program.eval_bind_done hg ?_
  simp only [hv]; rfl

end

end Sys2Proof.Machine
end

