-- ==== Sys2Proof/Laws/ModeB.lean ====
section
/-! SUPPORT. What the parts of the session commands compute under strategy B (42_session_mode_b.md). -/

namespace Sys2Proof.Machine

/-! ### Absorbing the pieces of a call -/

/-- The accumulator after the bytes `l` of a call that starts `off` bytes inside a block, from its
byte `p` to its end (R65, R68, R70). -/
def absorbRest (policy : PartialPolicy) (t : Table) (off p : Nat) (l : List Byte) (buf : Block) :
    Block :=
  if policy = .perCall ∧ l ≠ [] ∧ (off + p + l.length) % 16 ≠ 0 then
    ghashMult t (absorbBytes t (off + p) l buf)
  else absorbBytes t (off + p) l buf

theorem absorbRest_nil (policy : PartialPolicy) (t : Table) (off p : Nat) (buf : Block) :
    absorbRest policy t off p [] buf = buf := by simp [absorbRest, absorbBytes]

/-- The bytes of a call after `done` bytes of its phase. -/
theorem absorbRest_call (policy : PartialPolicy) (t : Table) (done : Nat) (l : List Byte)
    (buf : Block) :
    absorbRest policy t (openOffset policy done) 0 l buf = absorbCall policy t done l buf := by
  cases policy with
  | carry =>
    simp only [absorbRest, openOffset, absorbCall, reduceCtorEq, false_and, if_false]
    exact absorbBytes_mod t _ _ (by omega) l buf
  | perCall =>
    simp only [absorbRest, openOffset, absorbCall, Nat.zero_add]
    by_cases h : l.length % 16 = 0
    · simp [h]
    · have : l ≠ [] := by rintro rfl; simp at h
      simp [h, this]

/-- One piece, and then the rest. -/
theorem absorbRest_piece (policy : PartialPolicy) (t : Table) (off p o : Nat) (d r : List Byte)
    (buf : Block) (ho : o = (off + p) % 16) (hd : d ≠ []) (h16 : o + d.length ≤ 16)
    (hr : r ≠ [] → o + d.length = 16) :
    absorbRest policy t off p (d ++ r) buf =
      absorbRest policy t off (p + d.length) r
        (if (policy == .perCall || o + d.length == 16) = true
          then ghashMult t (buf ^^^ placeBytes o d) else buf ^^^ placeBytes o d) := by
  have hab : absorbBytes t (off + p) d buf =
      if o + d.length = 16 then ghashMult t (buf ^^^ placeBytes o d)
      else buf ^^^ placeBytes o d := by
    rw [absorbBytes_mod t (off + p) o (by omega) d buf, absorbBytes_piece t o d buf hd h16]
  by_cases hrn : r = []
  · subst hrn
    simp only [List.append_nil, absorbRest, hab]
    have hiff : (off + p + d.length) % 16 ≠ 0 ↔ o + d.length ≠ 16 := by
      have : 0 < d.length := List.length_pos_iff.2 hd
      omega
    by_cases h1 : o + d.length = 16 <;> cases policy <;> simp [h1, hiff, hd, absorbBytes]
  · have h1 := hr hrn
    have happ : d ++ r ≠ [] := by simp [hd]
    simp only [absorbRest, absorbBytes_append, hab, h1, List.length_append, ← Nat.add_assoc]
    simp [happ, hrn]

theorem length_ciphertext_crypt (dir : Direction) (key : List Byte) (off : Nat) (y : Block)
    (z : List Byte) : (ciphertext dir z (cryptBytes key off y z)).length = z.length := by
  cases dir <;> simp [ciphertext]

/-- The counter after a piece. -/
theorem counterAfter_piece (off : Nat) (y : Block) (n : Nat) (hn : 0 < n) (h : off + n ≤ 16) :
    counterAfter off y n = if off = 0 then inc32 y else y := by
  unfold counterAfter
  rw [if_neg (by omega), show (off + (n - 1)) / 16 = 0 by omega]
  by_cases h0 : off = 0 <;> simp [h0]

/-- A whole phase in one call: when the table multiplies by `h`, the accumulator after the phase's
end is GHASH of the phase's padded bytes (R71). -/
theorem closePhase_absorbCall (policy : PartialPolicy) (t : Table) (h : Block)
    (ht : ∀ b, ghashMult t b = gfMult b h) (l : List Byte) (buf : Block) :
    closePhase policy t l.length (absorbCall policy t 0 l buf) =
      ghashFrom h buf (padBlocks l) := by
  have hab : ∀ (n : Nat) (l : List Byte) (buf : Block), l.length = n →
      (if l.length % 16 = 0 then absorbBytes t 0 l buf else ghashMult t (absorbBytes t 0 l buf)) =
        ghashFrom h buf (padBlocks l) := by
    intro n
    induction n using Nat.strong_induction_on with
    | _ n ih =>
      intro l buf hl
      by_cases h0 : l = []
      · subst h0; simp [absorbBytes]
      · have hpos : 0 < l.length := List.length_pos_iff.2 h0
        by_cases h16 : l.length ≤ 16
        · have htake : l.take 16 = l := List.take_of_length_le h16
          have hdrop : l.drop 16 = [] := List.drop_eq_nil_iff.2 h16
          have hp : placeBytes 0 l = blockOfBytes l := by simp [placeBytes]
          rw [padBlocks_cons l h0, htake, hdrop, padBlocks_nil, ghashFrom_cons, ghashFrom_nil,
            absorbBytes_piece t 0 l buf h0 (by omega), Nat.zero_add, hp, ← ht]
          by_cases he : l.length = 16
          · simp [he]
          · rw [if_neg (by omega), if_neg he]
        · have hp : placeBytes 0 (l.take 16) = blockOfBytes (l.take 16) := by simp [placeBytes]
          have htl : (l.take 16).length = 16 := by simp; omega
          have hsplit : absorbBytes t 0 l buf = absorbBytes t 0 (l.drop 16)
              (ghashMult t (buf ^^^ blockOfBytes (l.take 16))) := by
            conv_lhs => rw [← List.take_append_drop 16 l, absorbBytes_append,
              absorbBytes_piece t 0 (l.take 16) buf (by simp [h0]) (by omega), htl, if_pos rfl, hp]
            exact absorbBytes_mod t _ _ (by omega) _ _
          have hm : (l.drop 16).length % 16 = l.length % 16 := by simp; omega
          rw [padBlocks_cons l h0, ghashFrom_cons, ← ht, hsplit, ← hm]
          exact ih (l.drop 16).length (by simp; omega) (l.drop 16) _ rfl
  rw [← hab _ l buf rfl]
  cases policy <;> by_cases h16 : l.length % 16 = 0 <;> simp [closePhase, absorbCall, h16]

section
variable {e : Engine} {s : Nat} {x : Ctx} {m : Memory} {l : Image} {a : List Answer}
  {h : List HistoryEntry}

/-! ### `UPDATE_AD` -/

theorem aadPieceB_put (policy : PartialPolicy) (aad : Nat) (q : Piece) (hs : s < e.ctxs.length)
    (hf : fits e.params (aad + q.p) q.use) :
    ∃ k, (aadPieceB policy s aad q).eval [] (e.put s x m l a h) =
      .done () (e.put s { x with
        addLen := x.addLen + BitVec.ofNat 64 q.use
        buf := if closesBlock policy q = true
          then ghashMult x.table (x.buf ^^^ placeBytes q.off (m.readBytes (aad + q.p) q.use))
          else x.buf ^^^ placeBytes q.off (m.readBytes (aad + q.p) q.use) } m l a (k ++ h)) := by
  obtain ⟨k, hk⟩ := multBufIf_put (e := e) (s := s) (m := m) (l := l) (a := a) (h := h)
    (x := { absorb q.off (m.readBytes (aad + q.p) q.use) x with
      addLen := x.addLen + BitVec.ofNat 64 q.use }) hs (closesBlock policy q)
  refine ⟨k, ?_⟩
  unfold aadPieceB
  refine Program.eval_bind_done (memRead_put _ _ hf) ?_
  refine Program.eval_bind_done (setCtx_put hs _) ?_
  exact hk

theorem aadPieces_put (policy : PartialPolicy) (aad off n : Nat) (ps : List Piece) (p : Nat)
    (hc : PieceChain off n p ps) (hs : s < e.ctxs.length) (hf : fits e.params aad n) :
    ∃ k, (Program.forEach (aadPieceB policy s aad) ps).eval [] (e.put s x m l a h) =
      .done () (e.put s { x with
        addLen := x.addLen + BitVec.ofNat 64 (n - p)
        buf := absorbRest policy x.table off p (m.readBytes (aad + p) (n - p)) x.buf }
        m l a (k ++ h)) := by
  induction ps generalizing p x h with
  | nil =>
    have hp : p = n := hc
    subst hp
    exact ⟨[], by simp [Program.forEach, Memory.readBytes, absorbRest_nil]⟩
  | cons q ps ih =>
    have hle := hc.le
    obtain ⟨rfl, ho, hfr, hu, h16, hlast, hrest⟩ := hc
    have hle2 := hrest.le
    obtain ⟨k, hk⟩ := aadPieceB_put (x := x) (m := m) (l := l) (a := a) (h := h) policy aad q hs
      (by rcases hf with hf | hf <;> [left; right] <;> omega)
    obtain ⟨k', hk'⟩ := ih (x := { x with
        addLen := x.addLen + BitVec.ofNat 64 q.use
        buf := if closesBlock policy q = true
          then ghashMult x.table (x.buf ^^^ placeBytes q.off (m.readBytes (aad + q.p) q.use))
          else x.buf ^^^ placeBytes q.off (m.readBytes (aad + q.p) q.use) })
        (h := k ++ h) (q.p + q.use) hrest
    refine ⟨k' ++ k, ?_⟩
    unfold Program.forEach
    refine Program.eval_bind_done hk (hk'.trans ?_)
    have hsplit : m.readBytes (aad + q.p) (n - q.p) =
        m.readBytes (aad + q.p) q.use ++ m.readBytes (aad + (q.p + q.use)) (n - (q.p + q.use)) := by
      rw [show n - q.p = q.use + (n - (q.p + q.use)) by omega, Memory.readBytes_add]
      simp only [Nat.add_assoc]
    have hab := absorbRest_piece policy x.table off q.p q.off (m.readBytes (aad + q.p) q.use)
      (m.readBytes (aad + (q.p + q.use)) (n - (q.p + q.use))) x.buf ho
      (by rw [← List.length_pos_iff]; simpa using hu) (by simpa using h16)
      (fun hne => by
        have : n - (q.p + q.use) ≠ 0 := by rintro h0; simp [h0, Memory.readBytes] at hne
        simpa using hlast (by omega))
    rw [Memory.length_readBytes] at hab
    have hlen : x.addLen + BitVec.ofNat 64 q.use + BitVec.ofNat 64 (n - (q.p + q.use)) =
        x.addLen + BitVec.ofNat 64 (n - q.p) := by
      rw [BitVec.add_assoc, ← BitVec.ofNat_add]
      congr 2; omega
    dsimp only
    rw [hlen, hsplit, hab, List.append_assoc]
    rfl

/-- `UPDATE_AD` (R65, R70). -/
theorem updateAdPartB_put (policy : PartialPolicy) (aad n : W64) (hs : s < e.ctxs.length)
    (hf : fits e.params aad.toNat n.toNat) :
    ∃ k, (updateAdPartB policy s aad n).eval [] (e.put s x m l a h) =
      .done () (e.put s { x with
        phase := .absorbingAAD
        addLen := x.addLen + n
        buf := absorbCall policy x.table x.addLen.toNat (m.readBytes aad.toNat n.toNat) x.buf }
        m l a (k ++ h)) := by
  obtain ⟨k, hk⟩ := aadPieces_put (e := e) (s := s) (x := { x with phase := .absorbingAAD })
    (m := m) (l := l) (a := a) (h := h) policy aad.toNat _ _ _ 0
    (pieces_chain policy x.addLen.toNat n.toNat) hs hf
  refine ⟨k, ?_⟩
  unfold updateAdPartB
  refine Program.eval_bind_done (setCtx_put hs _) (Program.eval_bind_done (getCtx_put hs) ?_)
  refine hk.trans ?_
  simp only [Nat.sub_zero, Nat.add_zero, absorbRest_call, BitVec.ofNat_toNat, BitVec.setWidth_eq]

/-! ### `UPDATE` -/

theorem payloadPieceB_put (policy : PartialPolicy) (input output : Nat) (q : Piece)
    (hs : s < e.ctxs.length) (hfi : fits e.params (input + q.p) q.use)
    (hfo : fits e.params (output + q.p) q.use) (h1 : e.arb.mutexExists = true)
    (h2 : e.arb.holder = none) (hv : x.imageValid = true) (hr : ecbReady x.image = true)
    (ha : a = List.replicate 3 .done ++ rest) (hfr : q.fresh = decide (q.off = 0))
    (hu : 0 < q.use) (h16 : q.off + q.use ≤ 16) (z o c : List Byte)
    (hz : z = m.readBytes (input + q.p) q.use)
    (ho : o = cryptBytes (imageKey x.image) q.off x.y z) (hc : c = ciphertext x.direction z o) :
    ∃ k, (payloadPieceB policy s input output q).eval [] (e.put s x m l a h) =
      .done () (e.put s { x with
        y := counterAfter q.off x.y q.use
        len := x.len + BitVec.ofNat 64 q.use
        buf := if closesBlock policy q = true
          then ghashMult x.table (x.buf ^^^ placeBytes q.off c)
          else x.buf ^^^ placeBytes q.off c }
        (m.writeBytes (output + q.p) o) x.image rest (k ++ h)) := by
  subst hc
  obtain ⟨y', hy'⟩ : ∃ y', y' = counterAfter q.off x.y q.use := ⟨_, rfl⟩
  have hinc : ∃ k, (if q.fresh = true then Program.do_ (incYOp s 1) else .ret ()).eval []
      (e.put s x m l a h) = .done () (e.put s { x with y := y' } m l a (k ++ h)) := by
    rw [counterAfter_piece _ _ _ hu h16] at hy'
    by_cases h0 : q.off = 0
    · refine ⟨[⟨s, 0x32⟩], ?_⟩
      simp only [hfr, h0, decide_true, if_true] at hy' ⊢
      rw [incY_put hs 1, hy']; rfl
    · refine ⟨[], ?_⟩
      simp only [hfr, h0, decide_false, if_false] at hy' ⊢
      rw [hy']; rfl
  obtain ⟨k1, hk1⟩ := hinc
  have hw : (PortCall.encrypt (bytesOfBlock y')).wellFormed = true := by
    simp [PortCall.wellFormed, wholeBlocks]
  have hrun : runCalls (if x.imageValid then x.image else l) [.encrypt (bytesOfBlock y')] [] =
      some (x.image, bytesOfBlock (cipherE (imageKey x.image) y')) := by
    simp only [hv, if_true, runCalls, hw, callReady, hr, Bool.and_self, callEffect,
      length_bytesOfBlock]
    simp [mapBlocks, List.take_of_length_le, blockOfBytes_bytesOfBlock]
  obtain ⟨k2, hk2⟩ := guardSection_put (e := e) (s := s) (x := { x with y := y' }) (m := m) (l := l)
    (a := a) (h := k1 ++ h) (rest := rest) hs h1 h2 hrun (by simpa [hv] using ha)
  have hks : o = xorBytes z ((bytesOfBlock (cipherE (imageKey x.image) y')).drop q.off) := by
    have hzl : z.length = q.use := by simp [hz]
    rw [ho, cryptBytes_piece _ _ _ _ (by omega), hy', counterAfter_piece _ _ _ hu h16]
  have hol : o.length = q.use := by simp [ho, hz]
  obtain ⟨k3, hk3⟩ := multBufIf_put (e := e) (s := s) (m := m.writeBytes (output + q.p) o)
    (l := x.image) (a := rest) (h := k2 ++ (k1 ++ h))
    (x := { x with
      imageValid := true
      y := y'
      len := x.len + BitVec.ofNat 64 q.use
      buf := x.buf ^^^ placeBytes q.off (ciphertext x.direction z o) }) hs (closesBlock policy q)
  refine ⟨k3 ++ (k2 ++ k1), ?_⟩
  unfold payloadPieceB
  refine Program.eval_bind_done hk1 (Program.eval_bind_done (getCtx_put hs) ?_)
  refine Program.eval_bind_done hk2 (Program.eval_bind_done (memRead_put _ _ hfi) ?_)
  rw [← hz]
  simp only [← hks]
  refine Program.eval_bind_done (setCtx_put hs _) ?_
  refine Program.eval_bind_done (memWrite_put _ _ (by rw [hol]; exact hfo)) ?_
  refine Program.eval_bind_done (setCtx_put hs _) ?_
  refine hk3.trans ?_
  simp only [List.append_assoc, ← hy', hv]

/-- What is read of a call's input after its first `u` bytes of output are written is what was there
before, when the call passes the aliasing check (R24). -/
theorem readBytes_after_write (hw : m.wf = true) (input output p u n : Nat) (o : List Byte)
    (ho : o.length = u) (hal : ¬ (input < output ∧ output - input < n)) (hp : p + u ≤ n) :
    (m.writeBytes (output + p) o).readBytes (input + (p + u)) (n - (p + u)) =
      m.readBytes (input + (p + u)) (n - (p + u)) := by
  by_cases h0 : n - (p + u) = 0
  · rw [h0]; rfl
  · exact Memory.readBytes_writeBytes_disjoint m hw _ _ _ _ (by omega)

theorem payloadPieces_put (policy : PartialPolicy) (input output off n : Nat) (ps : List Piece)
    (p : Nat) (hc : PieceChain off n p ps) (hs : s < e.ctxs.length) (hfi : fits e.params input n)
    (hfo : fits e.params output n) (hal : ¬ (input < output ∧ output - input < n))
    (hw : m.wf = true) (h1 : ps = [] ∨ e.arb.mutexExists = true ∧ e.arb.holder = none)
    (hv : x.imageValid = true) (hr : ecbReady x.image = true) (rest : List Answer)
    (ha : a = List.replicate (3 * ps.length) .done ++ rest) (z o : List Byte)
    (hz : z = m.readBytes (input + p) (n - p))
    (ho : o = cryptBytes (imageKey x.image) ((off + p) % 16) x.y z) :
    ∃ k, (Program.forEach (payloadPieceB policy s input output) ps).eval [] (e.put s x m l a h) =
      .done () (e.put s { x with
        y := counterAfter ((off + p) % 16) x.y (n - p)
        len := x.len + BitVec.ofNat 64 (n - p)
        buf := absorbRest policy x.table off p (ciphertext x.direction z o) x.buf }
        (m.writeBytes (output + p) o) (if ps = [] then l else x.image) rest (k ++ h)) := by
  induction ps generalizing p x m l a h z o with
  | nil =>
    have hp : p = n := hc
    subst hp
    have hz' : z = [] := by rw [hz, Nat.sub_self]; rfl
    subst hz'
    have ha' : a = rest := by simpa using ha
    have hct : ciphertext x.direction [] [] = [] := by cases x.direction <;> rfl
    exact ⟨[], by simp [Program.forEach, absorbRest_nil, ho, ha', Memory.writeBytes, hct]⟩
  | cons q ps ih =>
    obtain ⟨h1, h2⟩ := h1.resolve_left (by simp)
    obtain ⟨rfl, hoff, hfr, hu, h16, hlast, hrest⟩ := hc
    have hle := hrest.le
    have hsplit : m.readBytes (input + q.p) (n - q.p) = m.readBytes (input + q.p) q.use ++
        m.readBytes (input + (q.p + q.use)) (n - (q.p + q.use)) := by
      rw [show n - q.p = q.use + (n - (q.p + q.use)) by omega, Memory.readBytes_add]
      simp only [Nat.add_assoc]
    obtain ⟨z1, hz1⟩ : ∃ z1, z1 = m.readBytes (input + q.p) q.use := ⟨_, rfl⟩
    obtain ⟨z2, hz2⟩ :
        ∃ z2, z2 = m.readBytes (input + (q.p + q.use)) (n - (q.p + q.use)) := ⟨_, rfl⟩
    obtain ⟨o1, ho1⟩ : ∃ o1, o1 = cryptBytes (imageKey x.image) q.off x.y z1 := ⟨_, rfl⟩
    have hz1l : z1.length = q.use := by simp [hz1]
    have ho1l : o1.length = q.use := by simp [ho1, hz1l]
    obtain ⟨o2, ho2⟩ : ∃ o2, o2 = cryptBytes (imageKey x.image) ((off + (q.p + q.use)) % 16)
        (counterAfter q.off x.y q.use) z2 := ⟨_, rfl⟩
    have hz12 : z = z1 ++ z2 := by rw [hz, hsplit, hz1, hz2]
    have ho12 : o = o1 ++ o2 := by
      rw [ho, hz12, cryptBytes_append _ _ (Nat.mod_lt _ (by decide)), ← hoff, ho1, ho2, hz1l, hoff]
      congr 2
      · omega
    have ha3 : a = List.replicate 3 .done ++ (List.replicate (3 * ps.length) .done ++ rest) := by
      rw [ha, List.length_cons, show 3 * (ps.length + 1) = 3 + 3 * ps.length by omega,
        List.replicate_add, List.append_assoc]
    obtain ⟨k, hk⟩ := payloadPieceB_put (x := x) (m := m) (l := l) (a := a) (h := h) policy input
      output q hs (by rcases hfi with hf | hf <;> [left; right] <;> omega)
      (by rcases hfo with hf | hf <;> [left; right] <;> omega) h1 h2 hv hr ha3 hfr hu h16 z1 o1 _
      hz1 ho1 rfl
    have hz2' := readBytes_after_write hw input output q.p q.use n o1 ho1l hal hle
    obtain ⟨k', hk'⟩ := ih (x := { x with
        y := counterAfter q.off x.y q.use
        len := x.len + BitVec.ofNat 64 q.use
        buf := if closesBlock policy q = true
          then ghashMult x.table (x.buf ^^^ placeBytes q.off (ciphertext x.direction z1 o1))
          else x.buf ^^^ placeBytes q.off (ciphertext x.direction z1 o1) })
      (m := m.writeBytes (output + q.p) o1) (l := x.image) (h := k ++ h) (q.p + q.use) hrest
      (Memory.wf_writeBytes m hw _ _) (Or.inr ⟨h1, h2⟩) hv hr rfl z2 o2 (hz2.trans hz2'.symm) ho2
    refine ⟨k' ++ k, ?_⟩
    unfold Program.forEach
    refine Program.eval_bind_done hk (hk'.trans ?_)
    have hcl : (ciphertext x.direction z1 o1).length = q.use := by
      cases x.direction <;> simp [ciphertext, hz1l, ho1l]
    have hab := absorbRest_piece policy x.table off q.p q.off (ciphertext x.direction z1 o1)
      (ciphertext x.direction z2 o2) x.buf hoff
      (by rw [← List.length_pos_iff]; omega) (by omega)
      (fun hne => by
        have : n - (q.p + q.use) ≠ 0 := by
          rintro h0
          have hz20 : z2 = [] := by rw [hz2, h0]; rfl
          have ho20 : o2 = [] := by rw [ho2, hz20]; rfl
          rw [hz20, ho20] at hne
          exact hne (by cases x.direction <;> rfl)
        rw [hcl]; exact hlast (by omega))
    rw [hcl, ← ciphertext_append, ← hz12, ← ho12] at hab
    have hlen : x.len + BitVec.ofNat 64 q.use + BitVec.ofNat 64 (n - (q.p + q.use)) =
        x.len + BitVec.ofNat 64 (n - q.p) := by
      rw [BitVec.add_assoc, ← BitVec.ofNat_add]
      congr 2; omega
    have hct : counterAfter ((off + (q.p + q.use)) % 16) (counterAfter q.off x.y q.use)
        (n - (q.p + q.use)) = counterAfter ((off + q.p) % 16) x.y (n - q.p) := by
      rw [show n - q.p = q.use + (n - (q.p + q.use)) by omega,
        counterAfter_add _ (Nat.mod_lt _ (by decide)), ← hoff]
      congr 1; omega
    have hmem : (m.writeBytes (output + q.p) o1).writeBytes (output + (q.p + q.use)) o2 =
        m.writeBytes (output + q.p) o := by
      rw [ho12, Memory.writeBytes_append, ho1l, Nat.add_assoc]
    dsimp only
    rw [hab, hlen, hct, hmem, List.append_assoc]
    simp [closesBlock]

/-- `UPDATE` (R68, R70), when the aliasing check passes, the mutex is free, the key is bound and the
accelerator does not fail. -/
theorem updatePartB_put (policy : PartialPolicy) (input n output : W64) (hs : s < e.ctxs.length)
    (hpol : policy = e.params.policy) (hfi : fits e.params input.toNat n.toNat)
    (hfo : fits e.params output.toNat n.toNat)
    (hal : ¬ (input.toNat < output.toNat ∧ output.toNat - input.toNat < n.toNat))
    (hw : m.wf = true) (h1 : n = 0 ∨ e.arb.mutexExists = true ∧ e.arb.holder = none)
    (hv : x.imageValid = true) (hr : ecbReady x.image = true) (rest : List Answer) (off : Nat)
    (hoff : off = openOffset policy x.len.toNat)
    (ha : a = List.replicate (updateDrawsB off n.toNat) .done ++ rest) (z o : List Byte)
    (hz : z = m.readBytes input.toNat n.toNat)
    (ho : o = cryptBytes (imageKey x.image) off x.y z) :
    ∃ k, (updatePartB policy s input n output).eval [] (e.put s x m l a h) =
      .done () (e.put s { x with
        phase := .absorbingPayload
        y := counterAfter off x.y n.toNat
        len := x.len + n
        buf := absorbCall policy x.table x.len.toNat (ciphertext x.direction z o)
          (if x.phase = .absorbingPayload then x.buf
            else closePhase policy x.table x.addLen.toNat x.buf) }
        (m.writeBytes output.toNat o) (if n.toNat = 0 then l else x.image) rest (k ++ h)) := by
  obtain ⟨b, hb⟩ : ∃ b, b = (if x.phase = .absorbingPayload then x.buf
    else closePhase policy x.table x.addLen.toNat x.buf) := ⟨_, rfl⟩
  have hopen : ∃ k, (if x.phase = .absorbingPayload then Program.ret () else
      (Program.do_ (closeAadOp s)).bind fun _ =>
        setCtx s fun x => { x with phase := .absorbingPayload }).eval [] (e.put s x m l a h) =
      .done () (e.put s { x with phase := .absorbingPayload, buf := b } m l a (k ++ h)) := by
    by_cases hp : x.phase = .absorbingPayload
    · refine ⟨[], ?_⟩
      rw [if_pos hp] at hb ⊢
      rw [hb, ← hp]; rfl
    · rw [if_neg hp] at hb ⊢
      obtain ⟨k, hk⟩ := closeAad_put (e := e) (s := s) (x := x) (m := m) (l := l) (a := a) (h := h)
        hs
      refine ⟨k, Program.eval_bind_done hk ((setCtx_put hs _).trans ?_)⟩
      rw [hb, hpol]
  obtain ⟨k, hk⟩ := hopen
  have hd := length_pieces policy x.len.toNat n.toNat
  rw [← hoff] at hd
  have hlt : off < 16 := hoff ▸ openOffset_lt policy x.len.toNat
  have hps : pieces policy x.len.toNat n.toNat = [] ↔ n.toNat = 0 := by
    rw [← List.length_eq_zero_iff]
    unfold updateDrawsB at hd
    split at hd <;> constructor <;> intro _ <;> omega
  obtain ⟨k', hk'⟩ := payloadPieces_put (e := e) (s := s)
    (x := { x with phase := .absorbingPayload, buf := b }) (m := m) (l := l) (a := a) (h := k ++ h)
    policy input.toNat output.toNat _ _ _ 0 (pieces_chain policy x.len.toNat n.toNat) hs hfi hfo hal
    hw (by rw [hps]; exact h1.imp (fun h0 => by simp [h0]) id) hv hr rest (by rw [hd]; exact ha)
    z o hz (by rw [ho, hoff, Nat.add_zero, Nat.mod_eq_of_lt (openOffset_lt _ _)])
  refine ⟨k' ++ k, ?_⟩
  unfold updatePartB
  refine Program.eval_bind_done (getCtx_put hs) (Program.eval_bind_done hk (hk'.trans ?_))
  dsimp only
  rw [absorbRest_call, Nat.add_zero, Nat.add_zero, Nat.sub_zero, ← hoff, Nat.mod_eq_of_lt hlt,
    List.append_assoc, ← hb]
  simp only [hps, BitVec.ofNat_toNat, BitVec.setWidth_eq]

/-! ### `FINISH`, `SETKEY`, `STARTS` -/

/-- The tag of `FINISH` (R69, R70). -/
theorem finishTagB_put (policy : PartialPolicy) (hs : s < e.ctxs.length)
    (hpol : policy = e.params.policy) (g : Block)
    (hg : g = ghashMult x.table
      (closePhase policy x.table
        (if x.phase = .absorbingPayload then x.len.toNat else x.addLen.toNat) x.buf ^^^
          lengthBlock x.addLen x.len)) :
    ∃ k, (finishTagB policy s).eval [] (e.put s x m l a h) =
      .done (bytesOfBlock (x.baseEctr ^^^ g)) (e.put s { x with buf := g } m l a (k ++ h)) := by
  have hclose : ∃ k, (if x.phase = .absorbingPayload then
        multBufIf s (policy == .carry && x.len.toNat % 16 != 0)
      else Program.do_ (closeAadOp s)).eval [] (e.put s x m l a h) =
      .done () (e.put s { x with
        buf := (closePhase policy x.table
          (if x.phase = .absorbingPayload then x.len.toNat else x.addLen.toNat) x.buf) }
        m l a (k ++ h)) := by
    by_cases hp : x.phase = .absorbingPayload
    · rw [if_pos hp, if_pos hp]
      obtain ⟨k, hk⟩ := multBufIf_put (e := e) (s := s) (x := x) (m := m) (l := l) (a := a) (h := h)
        hs (policy == .carry && x.len.toNat % 16 != 0)
      exact ⟨k, hk.trans (by simp [closePhase])⟩
    · rw [if_neg hp, if_neg hp, hpol]
      exact closeAad_put hs
  obtain ⟨k, hk⟩ := hclose
  refine ⟨⟨s, 0x31⟩ :: k, ?_⟩
  unfold finishTagB
  refine Program.eval_bind_done (getCtx_put hs) (Program.eval_bind_done hk ?_)
  refine Program.eval_bind_done (setCtx_put hs _) (Program.eval_bind_done (multBuf_put hs) ?_)
  refine Program.eval_bind_done (getCtx_put hs) ?_
  dsimp only
  rw [← hg]; rfl

/-- `SETKEY` (R63), when the mutex is free and the accelerator does not fail. -/
theorem setkeyPartB_put (o : SetkeyOperands) (hs : s < e.ctxs.length)
    (hk : o.keyBits = 0 ∨ o.keyBits = 128 ∨ o.keyBits = 192 ∨ o.keyBits = 256)
    (hf : fits e.params o.key.toNat (o.keyBits.toNat / 8)) (h1 : e.arb.mutexExists = true)
    (h2 : e.arb.holder = none) (ha : a = List.replicate 3 .done ++ rest) (img : Image)
    (hi : img = { Image.blank with
      configured := true, mode := .ecb, keyBits := o.keyBits.setWidth 9
      key := m.readBytes o.key.toNat (o.keyBits.toNat / 8) }) :
    ∃ k, (setkeyPartB s o).eval [] (e.put s x m l a h) =
      .done () (e.put s { x with
        phase := .keyed, image := img, imageValid := true
        table := ghashBuild (cipherE (imageKey img) 0) } m img rest (k ++ h)) := by
  have hw1 : (PortCall.configure (m.readBytes o.key.toNat (o.keyBits.toNat / 8))
      (o.keyBits.setWidth 9) .ecb).wellFormed = true := by
    rcases hk with h | h | h | h <;> simp [PortCall.wellFormed, h]
  have hw2 : (PortCall.encrypt (bytesOfBlock 0)).wellFormed = true := by
    simp [PortCall.wellFormed, wholeBlocks]
  have hrun : runCalls l [.configure (m.readBytes o.key.toNat (o.keyBits.toNat / 8))
      (o.keyBits.setWidth 9) .ecb, .encrypt (bytesOfBlock 0)] [] =
      some (img, bytesOfBlock (cipherE (imageKey img) 0)) := by
    subst hi
    simp only [runCalls, hw1, hw2, callReady, callEffect, ecbReady, if_true,
      length_bytesOfBlock, beq_self_eq_true, Bool.and_self]
    simp [mapBlocks, List.take_of_length_le, blockOfBytes_bytesOfBlock]
  obtain ⟨k, hg⟩ := guardSection_put (e := e) (s := s) (x := { x with
      table := Table.zero, image := Image.blank, imageValid := false, phase := .unkeyed })
    (m := m) (l := l) (a := a) (h := h) (rest := rest) hs h1 h2 hrun (by simpa using ha)
  refine ⟨⟨s, 0x30⟩ :: k, ?_⟩
  unfold setkeyPartB
  refine Program.eval_bind_done (memRead_put _ _ hf) (Program.eval_bind_done (setCtx_put hs _) ?_)
  refine Program.eval_bind_done hg (Program.eval_bind_done (buildTable_put hs _) ?_)
  refine (setCtx_put hs _).trans ?_
  rw [blockOfBytes_bytesOfBlock]; rfl

/-- `STARTS` (R64), when the mutex is free, the key is bound and the accelerator does not fail. -/
theorem startsPartB_put (dir : Direction) (iv : W64) (hs : s < e.ctxs.length)
    (hf : fits e.params iv.toNat 12) (h1 : e.arb.mutexExists = true) (h2 : e.arb.holder = none)
    (hv : x.imageValid = true) (hr : ecbReady x.image = true)
    (ha : a = List.replicate 3 .done ++ rest) (y0 : Block)
    (hy : y0 = preCounter (m.readBytes iv.toNat 12)) :
    ∃ k, (startsPartB s dir iv).eval [] (e.put s x m l a h) =
      .done () (e.put s { x with
        phase := .started, direction := dir, y := y0
        baseEctr := cipherE (imageKey x.image) y0
        buf := 0, len := 0, addLen := 0, tagLen := 0
        hdrAddr := 0, hdrLen := 0, hdrPending := false } m x.image rest (k ++ h)) := by
  have hw : (PortCall.encrypt (bytesOfBlock y0)).wellFormed = true := by
    simp [PortCall.wellFormed, wholeBlocks]
  have hrun : runCalls (if x.imageValid then x.image else l) [.encrypt (bytesOfBlock y0)] [] =
      some (x.image, bytesOfBlock (cipherE (imageKey x.image) y0)) := by
    simp only [hv, if_true, runCalls, hw, callReady, hr, Bool.and_self, callEffect,
      length_bytesOfBlock]
    simp [mapBlocks, List.take_of_length_le, blockOfBytes_bytesOfBlock]
  obtain ⟨k, hg⟩ := guardSection_put (e := e) (s := s) (x := { x with
      direction := dir, buf := 0, len := 0, addLen := 0, tagLen := 0
      hdrAddr := 0, hdrLen := 0, hdrPending := false, y := y0, phase := .started })
    (m := m) (l := l) (a := a) (h := h) (rest := rest) hs h1 h2 hrun (by simpa [hv] using ha)
  refine ⟨k, ?_⟩
  unfold startsPartB
  refine Program.eval_bind_done (memRead_put _ _ hf) (Program.eval_bind_done (setCtx_put hs _) ?_)
  refine Program.eval_bind_done (getCtx_put hs) ?_
  rw [← hy]
  refine Program.eval_bind_done hg ((setCtx_put hs _).trans ?_)
  rw [blockOfBytes_bytesOfBlock]
  simp only [hv]

end

end Sys2Proof.Machine
end

