-- ==== Sys2Proof/Laws/Message.lean ====
section
/-! SUPPORT. A whole message in one go: the four parts that the composites are made of, under both
strategies (R71, R80, R90). -/

namespace Sys2Proof.Machine

section
variable {e : Engine} {s : Nat} {x : Ctx} {m : Memory} {l : Image} {a : List Answer}
  {h : List HistoryEntry}

/-- The four engines a whole message passes through, from `e0` on: the parts are done one after the
other, the last gives the tag (R90). -/
structure MessageRun (p : Params) (s : Nat) (dir : Direction) (o : CompositeOperands)
    (e0 e1 e2 e3 e4 : Engine) (tag : List Byte) : Prop where
  starts : (startsPart p s dir o.iv).eval [] e0 = .done () e1
  updateAd : (updateAdPart p s o.aad o.aadLen).eval [] e1 = .done () e2
  update : (updatePart p s o.input o.length o.output).eval [] e2 = .done () e3
  finish : (finishTag p s).eval [] e3 = .done tag e4

/-- What the checks of a composite (R90) give, with the mutex free, the key bound and enough
successful answers, as far as strategy and accelerator are concerned. -/
structure MessageReady (e : Engine) (x : Ctx) (m : Memory) (o : CompositeOperands) : Prop where
  mutex : e.arb.mutexExists = true
  free : e.arb.holder = none
  bound : x.Bound e.params
  wf : m.wf = true
  apart : ¬ (o.input.toNat < o.output.toNat ∧ o.output.toNat - o.input.toNat < o.length.toNat)
  iv : fits e.params o.iv.toNat 12
  aad : fits e.params o.aad.toNat o.aadLen.toNat
  input : fits e.params o.input.toNat o.length.toNat
  output : fits e.params o.output.toNat o.length.toNat

/-- What a whole message leaves in its context. -/
structure MessageCtx (p : Params) (dir : Direction) (o : CompositeOperands) (key : List Byte)
    (y0 : Block) (c : Ctx) : Prop where
  direction : c.direction = dir
  len : c.len = o.length
  addLen : c.addLen = o.aadLen
  y : c.y = counterAfter 0 y0 o.length.toNat
  bound : c.Bound p
  key : imageKey c.image = key
  hdrPending : c.hdrPending = false

theorem message_put_b (htab : ∀ h b, ghashMult (ghashBuild h) b = gfMult b h)
    (hs : s < e.ctxs.length) (dir : Direction) (o : CompositeOperands) (rest : List Answer)
    (hr : MessageReady e x m o) (hst : e.params.strategy = .b)
    (ha : a = List.replicate (compositeDraws e.params o.aadLen.toNat o.length.toNat) .done ++ rest)
    (key A X O : List Byte) (y0 : Block) (hkey : key = imageKey x.image)
    (hy0 : y0 = preCounter (m.readBytes o.iv.toNat 12))
    (hA : A = m.readBytes o.aad.toNat o.aadLen.toNat)
    (hX : X = m.readBytes o.input.toNat o.length.toNat) (hO : O = cryptBytes key 0 y0 X) :
    ∃ (e1 e2 e3 : Engine) (c : Ctx) (l' : Image) (k : List HistoryEntry),
      MessageRun e.params s dir o (e.put s x m l a h) e1 e2 e3
        (e.put s c (m.writeBytes o.output.toNat O) l' rest (k ++ h))
        (bytesOfBlock (gcmTag key y0 A (ciphertext dir X O))) ∧
      MessageCtx e.params dir o key y0 c := by
  have hready : ecbReady x.image = true := by
    have := hr.bound.mode
    rw [hst] at this
    simp [ecbReady, hr.bound.configured, this]
  have htx : ∀ b, ghashMult x.table b = gfMult b (cipherE key 0) := by
    intro b; rw [hr.bound.table hst, htab, hkey]
  obtain ⟨k1, hk1⟩ := startsPartB_put (e := e) (s := s) (x := x) (m := m) (l := l) (a := a) (h := h)
    (rest := List.replicate (updateDrawsB 0 o.length.toNat) .done ++ rest) dir o.iv hs hr.iv
    hr.mutex hr.free hr.bound.valid hready
    (by rw [ha, ← List.append_assoc, ← List.replicate_add]; simp [compositeDraws, hst]) y0 hy0
  obtain ⟨k2, hk2⟩ := updateAdPartB_put (e := e) (s := s) (m := m) (l := x.image)
    (a := List.replicate (updateDrawsB 0 o.length.toNat) .done ++ rest) (h := k1 ++ h)
    (x := { x with
      phase := .started, direction := dir, y := y0
      baseEctr := cipherE (imageKey x.image) y0
      buf := 0, len := 0, addLen := 0, tagLen := 0
      hdrAddr := 0, hdrLen := 0, hdrPending := false })
    e.params.policy o.aad o.aadLen hs hr.aad
  obtain ⟨x2, hx2⟩ : ∃ x2 : Ctx, x2 = { x with
      phase := .absorbingAAD, direction := dir, y := y0
      baseEctr := cipherE key y0
      buf := absorbCall e.params.policy x.table 0 A 0, len := 0, addLen := o.aadLen, tagLen := 0
      hdrAddr := 0, hdrLen := 0, hdrPending := false } := ⟨_, rfl⟩
  have hk2' := hk2.trans
    (c := .done ()
      (e.put s x2 m x.image (List.replicate (updateDrawsB 0 o.length.toNat) .done ++ rest)
        (k2 ++ (k1 ++ h)))) (by
    rw [hx2, hkey, hA]
    simp)
  have hoff : (0 : Nat) = openOffset e.params.policy x2.len.toNat := by
    rw [hx2]; cases e.params.policy <;> rfl
  obtain ⟨k3, hk3⟩ := updatePartB_put (e := e) (s := s) (x := x2) (m := m) (l := x.image)
    (a := List.replicate (updateDrawsB 0 o.length.toNat) .done ++ rest) (h := k2 ++ (k1 ++ h))
    e.params.policy o.input o.length o.output hs rfl hr.input hr.output hr.apart hr.wf
    (Or.inr ⟨hr.mutex, hr.free⟩) (by rw [hx2]; exact hr.bound.valid) (by rw [hx2]; exact hready)
    rest 0 hoff rfl X O hX (by rw [hx2, hO, hkey])
  obtain ⟨x3, hx3⟩ : ∃ x3 : Ctx, x3 = { x2 with
      phase := .absorbingPayload, y := counterAfter 0 y0 o.length.toNat, len := o.length
      buf := absorbCall e.params.policy x.table 0 (ciphertext dir X O)
        (ghashFrom (cipherE key 0) 0 (padBlocks A)) } := ⟨_, rfl⟩
  have hAl : A.length = o.aadLen.toNat := by simp [hA]
  have hk3' := hk3.trans
    (c := .done ()
      (e.put s x3 (m.writeBytes o.output.toNat O)
        (if o.length.toNat = 0 then x.image else x2.image) rest (k3 ++ (k2 ++ (k1 ++ h))))) (by
    have hcl := closePhase_absorbCall e.params.policy x.table (cipherE key 0) htx A 0
    rw [hAl] at hcl
    simp only [BitVec.ofNat_eq_ofNat] at hcl
    rw [hx3, hx2]
    simp [hcl])
  have hCl : (ciphertext dir X O).length = o.length.toNat := by
    rw [hO, length_ciphertext_crypt, hX]; simp
  have hcl3 := closePhase_absorbCall e.params.policy x.table (cipherE key 0) htx
    (ciphertext dir X O) (ghashFrom (cipherE key 0) 0 (padBlocks A))
  rw [hCl] at hcl3
  obtain ⟨g, hg⟩ : ∃ g, g = ghashFrom (cipherE key 0) 0
      (padBlocks A ++ padBlocks (ciphertext dir X O) ++ [lengthBlock o.aadLen o.length]) := ⟨_, rfl⟩
  obtain ⟨k4, hk4⟩ := finishTagB_put (e := e) (s := s) (x := x3)
    (m := m.writeBytes o.output.toNat O) (l := if o.length.toNat = 0 then x.image else x2.image)
    (a := rest) (h := k3 ++ (k2 ++ (k1 ++ h))) e.params.policy hs rfl g (by
      rw [hg, hx3, hx2]
      simp only [if_true]
      rw [hcl3, htx, ghashFrom_append, ghashFrom_append]
      rfl)
  have htag : x3.baseEctr ^^^ g = gcmTag key y0 A (ciphertext dir X O) := by
    rw [hx3, hx2, hg, gcmTag, hAl, hCl]
    simp
  rw [htag] at hk4
  rw [← show startsPart e.params s dir o.iv = startsPartB s dir o.iv by rw [startsPart, hst]] at hk1
  rw [← show updateAdPart e.params s o.aad o.aadLen = updateAdPartB e.params.policy s o.aad o.aadLen by
    rw [updateAdPart, hst]] at hk2'
  rw [← show updatePart e.params s o.input o.length o.output =
      updatePartB e.params.policy s o.input o.length o.output by
    rw [updatePart, hst]] at hk3'
  rw [← show finishTag e.params s = finishTagB e.params.policy s by rw [finishTag, hst]] at hk4
  refine ⟨_, _, _, _, _, k4 ++ (k3 ++ (k2 ++ k1)), ⟨hk1, hk2', hk3', by
    simpa only [List.append_assoc] using hk4⟩, ?_⟩
  · rw [hx3, hx2]
    exact ⟨rfl, rfl, rfl, rfl, ⟨hr.bound.valid, hr.bound.configured, hr.bound.mode, hr.bound.table⟩,
      hkey.symm, rfl⟩

theorem message_put_a (hs : s < e.ctxs.length) (dir : Direction) (o : CompositeOperands)
    (rest : List Answer) (hr : MessageReady e x m o) (hst : e.params.strategy = .a)
    (ha : a = List.replicate (compositeDraws e.params o.aadLen.toNat o.length.toNat) .done ++ rest)
    (key A X O : List Byte) (y0 : Block) (hkey : key = imageKey x.image)
    (hy0 : y0 = preCounter (m.readBytes o.iv.toNat 12))
    (hA : A = m.readBytes o.aad.toNat o.aadLen.toNat)
    (hX : X = m.readBytes o.input.toNat o.length.toNat) (hO : O = cryptBytes key 0 y0 X) :
    ∃ (e1 e2 e3 : Engine) (c : Ctx) (l' : Image) (k : List HistoryEntry),
      MessageRun e.params s dir o (e.put s x m l a h) e1 e2 e3
        (e.put s c (m.writeBytes o.output.toNat O) l' rest (k ++ h))
        (bytesOfBlock (gcmTag key y0 A (ciphertext dir X O))) ∧
      MessageCtx e.params dir o key y0 c := by
  have hready : gcmReady x.image = true := by
    have := hr.bound.mode
    rw [hst] at this
    simp [gcmReady, hr.bound.configured, this]
  obtain ⟨n, hn⟩ : ∃ n, n = o.length.toNat := ⟨_, rfl⟩
  obtain ⟨hd, hhd⟩ : ∃ hd : Bool, hd = decide (o.aadLen.toNat ≠ 0) := ⟨_, rfl⟩
  obtain ⟨rest2, hrest2⟩ : ∃ rest2 : List Answer, rest2 =
      List.replicate (if hd = true ∧ n = 0 then 4 else 3) .done ++ rest := ⟨_, rfl⟩
  obtain ⟨img1, hi1⟩ : ∃ img1 : Image, img1 = { x.image with
      gActive := true, gDir := dir, gY := y0, gAcc := 0
      gEctr0 := cipherE (imageKey x.image) y0 } := ⟨_, rfl⟩
  obtain ⟨k1, hk1⟩ := startsPartA_put (e := e) (s := s) (x := x) (m := m) (l := l) (a := a) (h := h)
    dir o.iv hs hr.iv hr.mutex hr.free hr.bound.valid hready
    (List.replicate (updateDrawsA hd n) .done ++ rest2)
    (by
      rw [ha, hrest2, ← List.append_assoc, ← List.append_assoc, ← List.replicate_add,
        ← List.replicate_add]
      simp [compositeDraws, hst, hhd, hn]) y0 hy0 img1 hi1
  have hk2 := updateAdPartA_put (e := e) (s := s) (m := m) (l := img1)
    (a := List.replicate (updateDrawsA hd n) .done ++ rest2) (h := k1 ++ h)
    (x := { x with
      phase := .started, direction := dir, y := y0, image := img1
      len := 0, addLen := 0, tagLen := 0
      hdrAddr := 0, hdrLen := 0, hdrPending := false })
    o.aad o.aadLen hs
  obtain ⟨x2, hx2⟩ : ∃ x2 : Ctx, x2 = { x with
      phase := .absorbingAAD, direction := dir, y := y0, image := img1
      len := 0, addLen := o.aadLen, tagLen := 0
      hdrAddr := if o.aadLen = 0 then 0 else o.aad.toNat % 2 ^ e.params.addrBits
      hdrLen := if o.aadLen = 0 then 0 else o.aadLen, hdrPending := hd } := ⟨_, rfl⟩
  have hzero : o.aadLen = 0 ↔ o.aadLen.toNat = 0 :=
    ⟨fun h0 => by rw [h0]; rfl, fun h0 => BitVec.eq_of_toNat_eq h0⟩
  have hk2' := hk2.trans
    (c := .done ()
      (e.put s x2 m img1 (List.replicate (updateDrawsA hd n) .done ++ rest2) (k1 ++ h))) (by
    rw [hx2, hhd]
    by_cases h0 : o.aadLen = 0
    · simp [h0]
    · have := mt hzero.2 h0
      have h0' : ¬ o.aadLen = 0#64 := h0
      simp [h0', this])
  have hmod : o.aadLen.toNat ≠ 0 → o.aad.toNat % 2 ^ e.params.addrBits = o.aad.toNat := fun h0 =>
    Nat.mod_eq_of_lt (by have := hr.aad.resolve_left h0; omega)
  have hh2 : x2.headerOk e.params := by
    rw [hx2]
    intro hp
    have h0 : o.aadLen.toNat ≠ 0 := by simpa [hhd] using hp
    have h0' := mt hzero.1 h0
    dsimp only
    rw [if_neg h0', if_neg h0']
    exact ⟨h0', by rw [hmod h0]; exact hr.aad.resolve_left h0⟩
  have hheader : x2.header m = A := by
    rw [hx2, hA]
    unfold Ctx.header
    by_cases h0 : o.aadLen = 0
    · have := hzero.1 h0
      simp [hhd, this, Memory.readBytes]
    · have := mt hzero.2 h0
      have h0' : ¬ o.aadLen = 0#64 := h0
      simp [hhd, this, h0', hmod this]
  have hstr : streaming x2.image = true := by
    rw [hx2, hi1]
    simpa [streaming, gcmReady] using hready
  have hkey1 : imageKey img1 = key := by rw [hi1, hkey]; rfl
  obtain ⟨img3, hi3⟩ : ∃ img3 : Image, img3 = (if o.length.toNat = 0 then x2.image else
      { x2.image with
        gY := counterAfter 0 x2.image.gY o.length.toNat
        gAcc := ghashFrom (imageSubkey x2.image) x2.image.gAcc
          (padBlocks (x2.header m) ++ padBlocks (ciphertext x2.image.gDir X O)) }) := ⟨_, rfl⟩
  obtain ⟨k3, hk3⟩ := updatePartA_put (e := e) (s := s) (x := x2) (m := m) (l := img1)
    (a := List.replicate (updateDrawsA hd n) .done ++ rest2) (h := k1 ++ h)
    o.input o.length o.output hs hr.input hr.output hr.apart hr.wf
    (Or.inr ⟨hr.mutex, hr.free⟩) (by rw [hx2]; exact hr.bound.valid) hstr hh2
    rest2 (by rw [hx2, ← hn]) X O hX (by rw [hx2, hO]; dsimp only; rw [hkey1, hi1]) img3 hi3
  obtain ⟨x3, hx3⟩ : ∃ x3 : Ctx, x3 = { x2 with
      phase := .absorbingPayload, y := counterAfter 0 y0 o.length.toNat, len := o.length
      image := img3, hdrPending := if o.length.toNat = 0 then hd else false } := ⟨_, rfl⟩
  have hk3' := hk3.trans
    (c := .done ()
      (e.put s x3 (m.writeBytes o.output.toNat O)
        (if o.length.toNat = 0 then img1 else img3) rest2 (k3 ++ (k1 ++ h)))) (by
    rw [hx3, hx2]
    simp)
  have hX0 : n = 0 → X = [] ∧ O = [] := by
    intro h0
    have hXe : X = [] := by rw [hX, ← hn, h0]; rfl
    exact ⟨hXe, by rw [hO, hXe]; rfl⟩
  have hkey3 : imageKey img3 = key := by
    rw [hi3, hx2]
    split <;> exact hkey1
  have hacc : ghashFrom (imageSubkey img3) img3.gAcc
      (padBlocks (x3.header (m.writeBytes o.output.toNat O))) =
      ghashFrom (cipherE key 0) 0 (padBlocks A ++ padBlocks (ciphertext dir X O)) := by
    have hsub : imageSubkey img3 = cipherE key 0 := by rw [imageSubkey, hkey3]
    rw [hsub]
    by_cases h0 : o.length.toNat = 0
    · obtain ⟨hXe, hOe⟩ := hX0 (hn.trans h0)
      have h3 : x3.header (m.writeBytes o.output.toNat O) = x2.header m := by
        rw [hx3, hOe]
        unfold Ctx.header
        rw [if_pos h0, hx2]; rfl
      rw [h3, hheader, hi3, if_pos h0, hx2, hi1, hXe, hOe]
      have : ciphertext dir [] [] = [] := by cases dir <;> rfl
      rw [this, padBlocks_nil, List.append_nil]
    · have h3 : x3.header (m.writeBytes o.output.toNat O) = [] := by
        rw [hx3]
        unfold Ctx.header
        rw [if_neg h0]; rfl
      have hsub2 : imageSubkey x2.image = cipherE key 0 := by rw [imageSubkey, hx2, hkey1]
      rw [h3, padBlocks_nil, ghashFrom_nil, hi3, if_neg h0]
      dsimp only
      rw [hheader, hsub2, hx2, hi1]
  obtain ⟨g, hg⟩ : ∃ g, g = ghashFrom (cipherE key 0) 0
      (padBlocks A ++ padBlocks (ciphertext dir X O) ++ [lengthBlock o.aadLen o.length]) := ⟨_, rfl⟩
  have hstr3 : streaming x3.image = true := by
    rw [hx3, hi3]
    dsimp only
    split
    · exact hstr
    · exact hstr
  have hctr : x3.image.gEctr0 = cipherE key y0 := by
    rw [hx3, hi3, hx2]
    dsimp only
    split <;> (rw [hi1, hkey])
  obtain ⟨k4, hk4⟩ := finishTagA_put (e := e) (s := s) (x := x3)
    (m := m.writeBytes o.output.toNat O) (l := if o.length.toNat = 0 then img1 else img3)
    (a := rest2) (h := k3 ++ (k1 ++ h)) hs hr.mutex hr.free
    (by rw [hx3, hx2]; exact hr.bound.valid) hstr3
    (by
      rw [hx3]
      intro hp
      by_cases h0 : o.length.toNat = 0
      · dsimp only at hp
        rw [if_pos h0] at hp
        have := hh2 (by rw [hx2]; exact hp)
        exact this
      · dsimp only at hp
        rw [if_neg h0] at hp
        cases hp) rest
    (by
      rw [hrest2, hx3]
      congr 2
      dsimp only
      by_cases h0 : o.length.toNat = 0 <;> cases hd <;> simp [hn, h0])
    g (by
      rw [ghashFrom_append, show x3.image = img3 by rw [hx3], hacc, hg, ghashFrom_append]
      rw [imageSubkey, hkey3, hx3, hx2]) _ rfl
  have hAl : A.length = o.aadLen.toNat := by simp [hA]
  have hCl : (ciphertext dir X O).length = o.length.toNat := by
    rw [hO, length_ciphertext_crypt, hX]; simp
  have htag : g ^^^ x3.image.gEctr0 = gcmTag key y0 A (ciphertext dir X O) := by
    rw [hctr, hg, gcmTag, hAl, hCl, BitVec.xor_comm]
    simp
  rw [htag] at hk4
  rw [← show startsPart e.params s dir o.iv = startsPartA s dir o.iv by rw [startsPart, hst]] at hk1
  rw [← show updateAdPart e.params s o.aad o.aadLen = updateAdPartA e.params s o.aad o.aadLen by
    rw [updateAdPart, hst]] at hk2'
  rw [← show updatePart e.params s o.input o.length o.output = updatePartA s o.input o.length o.output by
    rw [updatePart, hst]] at hk3'
  rw [← show finishTag e.params s = finishTagA s by rw [finishTag, hst]] at hk4
  refine ⟨_, _, _, _, _, k4 ++ (k3 ++ k1), ⟨hk1, hk2', hk3', by
    simpa only [List.append_assoc] using hk4⟩, ?_⟩
  · have hconf : img3.configured = true ∧ img3.mode = .gcm := by
      simp only [streaming, gcmReady, hx3, Bool.and_eq_true, beq_iff_eq] at hstr3
      exact hstr3.1
    refine ⟨?_, ?_, ?_, ?_, ⟨?_, ?_, ?_, ?_⟩, ?_, rfl⟩
    · rw [hx3, hx2]
    · rw [hx3]
    · rw [hx3, hx2]
    · rw [hx3]
    · rw [hx3, hx2]; exact hr.bound.valid
    · rw [hx3]; exact hconf.1
    · rw [hst, hx3]; exact hconf.2
    · intro hb; rw [hst] at hb; cases hb
    · rw [hx3]; exact hkey3

/-- A whole message under either strategy: the output is counter mode, the tag GCM's (R71, R80). The
table engine's correctness (R58) is a hypothesis here. -/
theorem message_put (htab : ∀ h b, ghashMult (ghashBuild h) b = gfMult b h)
    (hs : s < e.ctxs.length) (dir : Direction) (o : CompositeOperands) (rest : List Answer)
    (hr : MessageReady e x m o)
    (ha : a = List.replicate (compositeDraws e.params o.aadLen.toNat o.length.toNat) .done ++ rest)
    (key A X O : List Byte) (y0 : Block) (hkey : key = imageKey x.image)
    (hy0 : y0 = preCounter (m.readBytes o.iv.toNat 12))
    (hA : A = m.readBytes o.aad.toNat o.aadLen.toNat)
    (hX : X = m.readBytes o.input.toNat o.length.toNat) (hO : O = cryptBytes key 0 y0 X) :
    ∃ (e1 e2 e3 : Engine) (c : Ctx) (l' : Image) (k : List HistoryEntry),
      MessageRun e.params s dir o (e.put s x m l a h) e1 e2 e3
        (e.put s c (m.writeBytes o.output.toNat O) l' rest (k ++ h))
        (bytesOfBlock (gcmTag key y0 A (ciphertext dir X O))) ∧
      MessageCtx e.params dir o key y0 c := by
  cases hst : e.params.strategy with
  | a => exact message_put_a hs dir o rest hr hst ha key A X O y0 hkey hy0 hA hX hO
  | b => exact message_put_b htab hs dir o rest hr hst ha key A X O y0 hkey hy0 hA hX hO

end

end Sys2Proof.Machine
end

