-- ==== Sys2Proof/Laws/PerInstr.lean ====
section
/-! SUPPORT. Statements for all instructions, made per instruction. -/

namespace Sys2Proof.Laws.EncodeRoundTrip

/-- The instruction's encoding decodes to it (R30, R33, R35, R36), and it is a command word exactly
when that word matches a row of R33 (R34). -/
def Statement (i : Instr) : Prop :=
  decode (encode i) = .ok i ∧ ∀ w, encode i = .cmd w → CmdWord.wellFormed w = true

theorem init : Statement .init := ⟨by decide, fun w h => by cases h; decide⟩

theorem free : Statement .free := ⟨by decide, fun w h => by cases h; decide⟩

theorem setkey : Statement .setkey := ⟨by decide, fun w h => by cases h; decide⟩

theorem starts (dir : Direction) : Statement (.starts dir) := by
  cases dir <;> exact ⟨by decide, fun w h => by cases h; decide⟩

theorem updateAd : Statement .updateAd := ⟨by decide, fun w h => by cases h; decide⟩

theorem update : Statement .update := ⟨by decide, fun w h => by cases h; decide⟩

theorem finish : Statement .finish := ⟨by decide, fun w h => by cases h; decide⟩

theorem cryptAndTag (dir : Direction) : Statement (.cryptAndTag dir) := by
  cases dir <;> exact ⟨by decide, fun w h => by cases h; decide⟩

theorem authDecrypt : Statement .authDecrypt := ⟨by decide, fun w h => by cases h; decide⟩

theorem configure : Statement .configure := ⟨by decide, nofun⟩

theorem encrypt : Statement .encrypt := ⟨by decide, nofun⟩

theorem decrypt : Statement .decrypt := ⟨by decide, nofun⟩

theorem deinitialize : Statement .deinitialize := ⟨by decide, nofun⟩

theorem suspend : Statement .suspend := ⟨by decide, nofun⟩

theorem resume : Statement .resume := ⟨by decide, nofun⟩

theorem gcmBegin : Statement .gcmBegin := ⟨by decide, nofun⟩

theorem gcmHeader : Statement .gcmHeader := ⟨by decide, nofun⟩

theorem gcmPayload : Statement .gcmPayload := ⟨by decide, nofun⟩

theorem gcmTag : Statement .gcmTag := ⟨by decide, nofun⟩

theorem mutexCreate : Statement .mutexCreate := ⟨by decide, nofun⟩

theorem mutexDestroy : Statement .mutexDestroy := ⟨by decide, nofun⟩

theorem acquire : Statement .acquire := ⟨by decide, nofun⟩

theorem release : Statement .release := ⟨by decide, nofun⟩

theorem ghashBuild : Statement .ghashBuild := ⟨by decide, nofun⟩

theorem ghashMult : Statement .ghashMult := ⟨by decide, nofun⟩

theorem inc32 : Statement .inc32 := ⟨by decide, nofun⟩

theorem closeAad : Statement .closeAad := ⟨by decide, nofun⟩

theorem tagVerify : Statement .tagVerify := ⟨by decide, nofun⟩

theorem guard : Statement .guard := ⟨by decide, nofun⟩

end Sys2Proof.Laws.EncodeRoundTrip
end

