-- ==== Sys2Proof/Laws/Sections.lean ====
section
/-! SUPPORT. Every command keeps to its guarded sections (R81, R86), part by part: whatever the other
agents do between its micro-steps, none of them stops the model, it waits only for the mutex, and the
engine's invariant is kept. -/

namespace Sys2Proof.Machine

/-- A part of a command of session `s` that keeps to its sections, and ends where the session stands
at `at_` with the result `a` only when `R at_ a`. -/
inductive Program.Keeps {α : Type} (p : Params) (s : Nat) (R : Bool × Bool → α → Prop) :
    Bool × Bool → Program α → Prop
  | ret (at_ : Bool × Bool) (a : α) (h : R at_ a) : Program.Keeps p s R at_ (.ret a)
  | raise (c : Cause) : Program.Keeps p s R (false, true) (.raise c)
  | step (at_ : Bool × Bool) (m : Engine → Micro) (k : Reply → Program α)
      (safe : ∀ e, e.Inv p → e.standing s = at_ → ∀ x, m e ≠ .stop x)
      (waits : ∀ e, e.Inv p → e.standing s = at_ → m e = .wait → at_.1 = false)
      (inv : ∀ e e' r, e.Inv p → e.standing s = at_ → m e = .next e' r → e'.Inv p)
      (rest : ∀ e e' r, e.Inv p → e.standing s = at_ → m e = .next e' r →
        Program.Keeps p s R (e'.standing s) (k r)) :
      Program.Keeps p s R at_ (.step m k)

section
variable {α β : Type} {p : Params} {s : Nat} {at_ : Bool × Bool}

/-- A command that keeps to its sections and gives the mutex back. -/
theorem Program.Keeps.guarded {q : Program (Option W64)}
    (h : q.Keeps p s (fun x _ => x.1 = false) at_) : Program.Guarded p s at_ q := by
  induction h with
  | ret at_ a h =>
    obtain ⟨x, u⟩ := at_
    obtain rfl : x = false := h
    exact .ret u a
  | raise c => exact .raise c
  | step at_ m k safe waits inv _ ih => exact .step at_ m k safe waits inv ih

theorem Program.Keeps.bind {R : Bool × Bool → α → Prop} {R' : Bool × Bool → β → Prop}
    {q : Program α} {f : α → Program β} (h : q.Keeps p s R at_)
    (hf : ∀ x a, R x a → (f a).Keeps p s R' x) : (q.bind f).Keeps p s R' at_ := by
  induction h with
  | ret at_ a h => exact hf at_ a h
  | raise c => exact .raise c
  | step at_ m k safe waits inv _ ih => exact .step at_ m _ safe waits inv ih

theorem Program.Keeps.mono {R R' : Bool × Bool → α → Prop} {q : Program α}
    (h : q.Keeps p s R at_) (hR : ∀ x a, R x a → R' x a) : q.Keeps p s R' at_ := by
  induction h with
  | ret at_ a h => exact .ret at_ a (hR _ _ h)
  | raise c => exact .raise c
  | step at_ m k safe waits inv _ ih => exact .step at_ m k safe waits inv ih

/-- A handler that itself keeps to the sections runs where the session stands outside one. -/
theorem Program.Keeps.onRaise {R : Bool × Bool → α → Prop} {q : Program α} {h : Program Unit}
    (hq : q.Keeps p s R at_) (hh : h.Keeps p s (fun x _ => x = (false, true)) (false, true)) :
    (Program.onRaise h q).Keeps p s R at_ := by
  induction hq with
  | ret at_ a h => exact .ret at_ a h
  | raise c =>
    refine hh.bind fun x _ hx => ?_
    subst hx
    exact .raise c
  | step at_ m k safe waits inv _ ih => exact .step at_ m _ safe waits inv ih

/-- A micro-step that is always taken. -/
theorem Program.Keeps.next {R : Bool × Bool → α → Prop} {m : Engine → Micro}
    {k : Reply → Program α}
    (h : ∀ e, e.Inv p → e.standing s = at_ → ∃ e' r, m e = .next e' r ∧ e'.Inv p ∧
      (k r).Keeps p s R (e'.standing s)) : (Program.step m k).Keeps p s R at_ := by
  refine .step at_ m k ?_ ?_ ?_ ?_
  · intro e he hs x hx
    obtain ⟨e', r, hm, -, -⟩ := h e he hs
    rw [hm] at hx; cases hx
  · intro e he hs hx
    obtain ⟨e', r, hm, -, -⟩ := h e he hs
    rw [hm] at hx; cases hx
  · intro e e1 r1 he hs hx
    obtain ⟨e', r, hm, hi, -⟩ := h e he hs
    rw [hm, Micro.next.injEq] at hx
    exact hx.1 ▸ hi
  · intro e e1 r1 he hs hx
    obtain ⟨e', r, hm, -, hk⟩ := h e he hs
    rw [hm, Micro.next.injEq] at hx
    rw [← hx.1, ← hx.2]; exact hk

/-! ### The micro-steps -/

theorem getCtx_keeps (hs : s < p.nSessions) :
    (getCtx s).Keeps p s (fun x c => x = at_ ∧ c.addrOk p ∧ (c.phase ≠ .uninit ↔ at_.2 = true))
      at_ := by
  refine .next fun e he hst => ⟨e, _, rfl, he, ?_⟩
  rw [hst]
  obtain ⟨a, b⟩ := at_
  exact .ret _ _ ⟨rfl, he.header _ (he.ctx_mem hs), (Engine.standing_eq.1 hst).2⟩

/-- What a change of the context must keep. -/
def KeepsCtx (p : Params) (f : Ctx → Ctx) : Prop :=
  ∀ x : Ctx, x.phase ≠ .uninit → x.addrOk p → (f x).phase ≠ .uninit ∧ (f x).addrOk p

/-- Changing a context in use leaves the session where it stands. -/
theorem setCtx_inv {e : Engine} {h : Bool} {f : Ctx → Ctx} (hf : KeepsCtx p f) (he : e.Inv p)
    (hst : e.standing s = (h, true)) :
    (e.setCtx s (f (e.ctx s))).Inv p ∧ (e.setCtx s (f (e.ctx s))).standing s = (h, true) := by
  have hu : (e.ctx s).phase ≠ .uninit := (Engine.standing_eq.1 hst).2.2 rfl
  have hlt := he.lt_of_inUse hu
  obtain ⟨h1, h2⟩ := hf (e.ctx s) hu (he.header _ (he.ctx_mem hlt))
  refine ⟨he.setCtx hu h1 h2, Engine.standing_eq.2 ⟨(Engine.standing_eq.1 hst).1, ?_⟩⟩
  rw [Engine.ctx_setCtx_self _ _ _ (by rw [he.ctxs]; exact hlt)]
  exact ⟨fun _ => rfl, fun _ => h1⟩

theorem updateCtx_keeps {h : Bool} {f : Ctx → Ctx} (hf : KeepsCtx p f) {R : Bool × Bool → α → Prop}
    {k : Reply → Program α} (hk : (k .unit).Keeps p s R (h, true)) :
    (Program.step (updateCtxOp s f) k).Keeps p s R (h, true) := by
  refine .next fun e he hst => ⟨_, _, rfl, (setCtx_inv hf he hst).1, ?_⟩
  rw [(setCtx_inv hf he hst).2]; exact hk

theorem setCtx_keeps {h : Bool} {f : Ctx → Ctx} (hf : KeepsCtx p f) :
    (setCtx s f).Keeps p s (fun x _ => x = (h, true)) (h, true) :=
  updateCtx_keeps hf (.ret _ _ rfl)

/-- A change of the context that is recorded in the history first. -/
theorem updateCtx_keeps_record {h : Bool} {f : Ctx → Ctx} (hf : KeepsCtx p f)
    {g : Engine → Engine} (hg : ∀ e, (g e).params = e.params ∧ (g e).ctxs = e.ctxs ∧
      (g e).arb = e.arb ∧ (g e).mem = e.mem) {R : Bool × Bool → α → Prop}
    {k : Reply → Program α} (hk : (k .unit).Keeps p s R (h, true)) :
    (Program.step (fun e => updateCtxOp s f (g e)) k).Keeps p s R (h, true) := by
  refine .next fun e he hst => ?_
  obtain ⟨g1, g2, g3, g4⟩ := hg e
  have hi := setCtx_inv (s := s) hf (he.congr g1 g2 g3 g4)
    (by rw [Engine.standing_congr g2 g3]; exact hst)
  refine ⟨_, _, rfl, hi.1, ?_⟩
  rw [hi.2]; exact hk

theorem multBuf_keepsCtx : KeepsCtx p fun x => { x with buf := ghashMult x.table x.buf } :=
  fun _ h1 h2 => ⟨h1, h2⟩

theorem multBuf_keeps {h : Bool} : (Program.do_ (multBufOp s)).Keeps p s
    (fun x _ => x = (h, true)) (h, true) :=
  updateCtx_keeps_record (g := fun e => e.record s 0x31) multBuf_keepsCtx
    (fun _ => ⟨rfl, rfl, rfl, rfl⟩) (.ret _ _ rfl)

theorem multBufIf_keeps {h : Bool} (c : Bool) : (multBufIf s c).Keeps p s
    (fun x _ => x = (h, true)) (h, true) := by
  cases c
  · exact .ret _ _ rfl
  · exact multBuf_keeps

theorem incY_keeps {h : Bool} (n : Nat) : (Program.do_ (incYOp s n)).Keeps p s
    (fun x _ => x = (h, true)) (h, true) :=
  updateCtx_keeps_record (f := fun x => { x with y := inc32^[n] x.y })
    (g := fun e => { e with history := List.replicate n ⟨s, 0x32⟩ ++ e.history })
    (fun _ h1 h2 => ⟨h1, h2⟩) (fun _ => ⟨rfl, rfl, rfl, rfl⟩) (.ret _ _ rfl)

theorem buildTable_keeps {h : Bool} (b : Block) : (Program.do_ (buildTableOp s b)).Keeps p s
    (fun x _ => x = (h, true)) (h, true) :=
  updateCtx_keeps_record (f := fun x => { x with table := ghashBuild b })
    (g := fun e => e.record s 0x30)
    (fun _ h1 h2 => ⟨h1, h2⟩) (fun _ => ⟨rfl, rfl, rfl, rfl⟩) (.ret _ _ rfl)

theorem closeAad_keeps {h : Bool} : (Program.do_ (closeAadOp s)).Keeps p s
    (fun x _ => x = (h, true)) (h, true) := by
  refine .next fun e he hst => ?_
  by_cases hc : (e.params.policy == .carry && (e.ctx s).addLen.toNat % 16 != 0) = true
  · have hi := setCtx_inv (s := s) (e := (e.record s 0x33).record s 0x31) (multBuf_keepsCtx (p := p))
      (he.congr rfl rfl rfl rfl) ((Engine.standing_congr rfl rfl s).trans hst)
    refine ⟨_, .unit, ?_, hi.1, ?_⟩
    · simp only [closeAadOp, hc, if_true]
      rfl
    · rw [hi.2]; exact .ret _ _ rfl
  · refine ⟨e.record s 0x33, .unit, ?_, he.congr rfl rfl rfl rfl, ?_⟩
    · simp only [closeAadOp, hc, if_false, Bool.false_eq_true]
    · have : (e.record s 0x33).standing s = (h, true) := hst
      rw [this]; exact .ret _ _ rfl

theorem readByte_keeps {a : Nat} (ha : a < 2 ^ p.addrBits) {R : Bool × Bool → α → Prop}
    {k : Reply → Program α} (hk : ∀ b, (k (.bytes [b])).Keeps p s R at_) :
    (Program.step (readByteOp a) k).Keeps p s R at_ := by
  refine .next fun e he hst => ⟨e, .bytes [e.mem.read a], ?_, he, ?_⟩
  · rw [readByteOp, if_pos (by rw [he.params]; exact ha)]
  · rw [hst]; exact hk _

theorem memRead_keeps {a n : Nat} (hf : fits p a n) :
    (memRead a n).Keeps p s (fun x l => x = at_ ∧ l.length = n) at_ := by
  induction n generalizing a with
  | zero => exact .ret _ _ ⟨rfl, rfl⟩
  | succ n ih =>
    have hf : a + (n + 1) ≤ 2 ^ p.addrBits := hf.resolve_left (by omega)
    refine readByte_keeps (by omega) fun b => ?_
    refine (ih (a := a + 1) (by right; omega)).bind fun x l hl => ?_
    obtain ⟨rfl, hl⟩ := hl
    exact .ret _ _ ⟨rfl, by simp [replyBytes, hl]⟩

theorem memWrite_keeps {a : Nat} {l : List Byte} (hf : fits p a l.length) :
    (memWrite a l).Keeps p s (fun x _ => x = at_) at_ := by
  induction l generalizing a with
  | nil => exact .ret _ _ rfl
  | cons b rest ih =>
    have hf : a + (rest.length + 1) ≤ 2 ^ p.addrBits := hf.resolve_left (by simp)
    refine .next fun e he hst => ⟨{ e with mem := e.mem.write a b }, .unit, ?_,
      he.write b (by omega), ?_⟩
    · rw [writeByteOp, if_pos (by rw [he.params]; omega)]
    · have : ({ e with mem := e.mem.write a b } : Engine).standing s = at_ := hst
      rw [this]
      exact ih (by right; omega)

/-! ### The mutex and the guarded section -/

theorem acquire_keeps {m : Engine → Micro} {g : Engine → Engine} (hm : ∀ e, m e = acquireOp s (g e))
    (hg : ∀ e, (g e).params = e.params ∧ (g e).ctxs = e.ctxs ∧ (g e).arb = e.arb ∧
      (g e).mem = e.mem) {R : Bool × Bool → α → Prop} {k : Reply → Program α}
    (hk : (k .unit).Keeps p s R (true, true)) :
    (Program.step m k).Keeps p s R (false, true) := by
  refine .step _ _ _ ?_ (fun _ _ _ _ => rfl) ?_ ?_
  · intro e he hst x hx
    rw [hm, acquireOp] at hx
    split at hx <;> cases hx
  · intro e e' r he hst hx
    rw [hm] at hx
    obtain ⟨-, -, rfl, -⟩ := acquireOp_next hx
    obtain ⟨g1, g2, g3, g4⟩ := hg e
    have hu : (e.ctx s).phase ≠ .uninit := (Engine.standing_eq.1 hst).2.2 rfl
    exact (he.hold hu).congr g1 g2 (by show ({ (g e).arb with holder := some s } : Arbiter) = _; rw [g3]) g4
  · intro e e' r he hst hx
    rw [hm] at hx
    obtain ⟨-, -, rfl, rfl⟩ := acquireOp_next hx
    obtain ⟨g1, g2, g3, g4⟩ := hg e
    have : ({ (g e).record s 0x22 with arb := { (g e).arb with holder := some s } } :
        Engine).standing s = (true, true) := by
      refine Engine.standing_eq.2 ⟨⟨fun _ => rfl, fun _ => rfl⟩, ?_⟩
      have hc : ({ (g e).record s 0x22 with arb := { (g e).arb with holder := some s } } :
          Engine).ctx s = e.ctx s := by simp only [Engine.ctx, Engine.record, g2]
      rw [hc]
      exact (Engine.standing_eq.1 hst).2
    rw [this]; exact hk

theorem release_keeps {R : Bool × Bool → α → Prop} {k : Reply → Program α}
    (hk : (k .unit).Keeps p s R (false, true)) :
    (Program.step (releaseOp s) k).Keeps p s R (true, true) := by
  refine .next fun e he hst => ?_
  have hh : e.arb.holder = some s := (Engine.standing_eq.1 hst).1.2 rfl
  refine ⟨_, _, releaseOp_held hh, he.release.congr rfl rfl rfl rfl, ?_⟩
  have : ({ e.record s 0x23 with arb := { e.arb with holder := none } } : Engine).standing s =
      (false, true) :=
    Engine.standing_eq.2 ⟨Iff.intro (fun h => nomatch h) (fun h => nomatch h),
      (Engine.standing_eq.1 hst).2⟩
  exact this ▸ hk

theorem guardFail_keeps {R : Bool × Bool → α → Prop} (c : Cause) :
    (guardFail s c : Program α).Keeps p s R (true, true) := release_keeps (.raise c)

/-- An adapter operation of the holder is always taken, and leaves the session where it stands. -/
theorem adapter_keeps {b : Bool} {m : Engine → Micro} {P : Reply → Prop}
    (hm : ∀ e, e.Inv p → e.standing s = (true, b) → ∃ e' r, m e = .next e' r ∧
      e'.params = e.params ∧ e'.ctxs = e.ctxs ∧ e'.arb = e.arb ∧ e'.mem = e.mem ∧ P r)
    {R : Bool × Bool → α → Prop} {k : Reply → Program α}
    (hk : ∀ r, P r → (k r).Keeps p s R (true, b)) :
    (Program.step m k).Keeps p s R (true, b) := by
  refine .next fun e he hst => ?_
  obtain ⟨e', r, h, h1, h2, h3, h4, h5⟩ := hm e he hst
  refine ⟨e', r, h, he.congr h1 h2 h3 h4, ?_⟩
  rw [Engine.standing_congr h2 h3, hst]
  exact hk r h5

theorem adapterOp_taken {code : BitVec 8} {ready : Bool} {failure : Answer → Cause}
    {run : Engine → Engine × Reply} {e : Engine} {P : Reply → Prop}
    (hrun : ∀ e1, (run e1).1.params = e1.params ∧ (run e1).1.ctxs = e1.ctxs ∧
      (run e1).1.arb = e1.arb ∧ (run e1).1.mem = e1.mem)
    (hP : ∀ e1, P (run e1).2) (hF : ∀ c, P (.failed c)) (hh : e.arb.holder = some s) :
    ∃ e' r, adapterOp s code ready failure run e = .next e' r ∧
      e'.params = e.params ∧ e'.ctxs = e.ctxs ∧ e'.arb = e.arb ∧ e'.mem = e.mem ∧ P r := by
  rcases adapterOp_cases s code ready failure run e with ⟨_, _, _, h⟩ | ⟨_, _, h⟩ | ⟨h, _⟩
  · obtain ⟨h1, h2, h3, h4⟩ := hrun (e.record s code).dropAnswer
    exact ⟨_, _, h, h1, h2, h3, h4, hP _⟩
  · exact ⟨_, _, h, rfl, rfl, rfl, rfl, hF _⟩
  · exact absurd hh h

theorem portCallOp_taken {c : PortCall} (hw : c.wellFormed = true) {e : Engine}
    (hh : e.arb.holder = some s) :
    ∃ e' r, portCallOp s c e = .next e' r ∧ e'.params = e.params ∧ e'.ctxs = e.ctxs ∧
      e'.arb = e.arb ∧ e'.mem = e.mem ∧
      (replyFailure r = none → ∃ img, replyBytes r = (callEffect img c).2) := by
  rw [portCallOp_eq hw]
  rcases adapterOp_cases s (callCode c) (callReady e.live c) dataFailure
    (fun _ => ({ (e.record s (callCode c)).dropAnswer with live := (callEffect e.live c).1 },
      .bytes (callEffect e.live c).2)) e with ⟨_, _, _, h⟩ | ⟨_, _, h⟩ | ⟨h, _⟩
  · exact ⟨_, _, h, rfl, rfl, rfl, rfl, fun _ => Exists.intro e.live rfl⟩
  · exact ⟨_, _, h, rfl, rfl, rfl, rfl, fun h => nomatch h⟩
  · exact absurd hh h

theorem guardClose_keeps {r : List Byte} {P : List Byte → Prop} (hr : P r) :
    (guardClose s r).Keeps p s (fun x b => x = (false, true) ∧ P b) (true, true) := by
  refine adapter_keeps (P := fun _ => True)
    (fun e _ hst => adapterOp_taken (fun _ => ⟨rfl, rfl, rfl, rfl⟩) (fun _ => trivial)
      (fun _ => trivial) ((Engine.standing_eq.1 hst).1.2 rfl)) fun rep _ => ?_
  split
  · exact guardFail_keeps _
  · refine updateCtx_keeps ?_ (release_keeps (.ret _ _ ⟨rfl, hr⟩))
    exact fun x h1 h2 => ⟨h1, h2⟩

theorem guardBody_keeps {P : List Byte → Prop} {c : PortCall}
    (hP : ∀ img, P (callEffect img c).2) (body : List PortCall)
    (hw : ∀ d ∈ body ++ [c], d.wellFormed = true) (r : List Byte) :
    (guardBody s (guardClose s) (body ++ [c]) r).Keeps p s
      (fun x b => x = (false, true) ∧ P b) (true, true) := by
  induction body generalizing r with
  | nil =>
    refine adapter_keeps (P := fun r => replyFailure r = none → P (replyBytes r))
      (fun e _ hst => ?_) fun rep hrep => ?_
    · obtain ⟨e', r, h, h1, h2, h3, h4, h5⟩ := portCallOp_taken (s := s) (hw c (by simp))
        ((Engine.standing_eq.1 hst).1.2 rfl)
      refine ⟨e', r, h, h1, h2, h3, h4, fun hr => ?_⟩
      obtain ⟨img, hi⟩ := h5 hr
      rw [hi]; exact hP img
    · cases hf : replyFailure rep with
      | some cause => exact guardFail_keeps _
      | none => exact guardClose_keeps (hrep hf)
  | cons d rest ih =>
    refine adapter_keeps (P := fun _ => True) (fun e _ hst => ?_) fun rep _ => ?_
    · obtain ⟨e', r, h, h1, h2, h3, h4, -⟩ := portCallOp_taken (s := s) (hw d (by simp))
        ((Engine.standing_eq.1 hst).1.2 rfl)
      exact ⟨e', r, h, h1, h2, h3, h4, trivial⟩
    · split
      · exact guardFail_keeps _
      · exact ih (fun d' hd' => hw d' (by simp at hd' ⊢; tauto)) _

/-- A guarded section (R86): the last operation of its body is `c`. -/
theorem guardSection_keeps {P : List Byte → Prop} {c : PortCall} (body : List PortCall)
    (hP : ∀ img, P (callEffect img c).2) (hw : ∀ d ∈ body ++ [c], d.wellFormed = true) :
    (guardSection s (body ++ [c])).Keeps p s (fun x b => x = (false, true) ∧ P b)
      (false, true) := by
  refine acquire_keeps (g := fun e => e.record s 0x35) (fun _ => rfl)
    (fun _ => ⟨rfl, rfl, rfl, rfl⟩) ?_
  refine adapter_keeps (P := fun _ => True) (fun e _ hst => ?_) fun rep _ => ?_
  · unfold resumeOwnOp
    split
    · exact adapterOp_taken (fun _ => ⟨rfl, rfl, rfl, rfl⟩) (fun _ => trivial)
        (fun _ => trivial) ((Engine.standing_eq.1 hst).1.2 rfl)
    · exact ⟨_, _, rfl, rfl, rfl, rfl, rfl, trivial⟩
  · split
    · exact guardFail_keeps _
    · exact guardBody_keeps hP body hw []

/-- A section of one operation. -/
theorem guardSection_one_keeps {P : List Byte → Prop} {c : PortCall}
    (hP : ∀ img, P (callEffect img c).2) (hw : c.wellFormed = true) :
    (guardSection s [c]).Keeps p s (fun x b => x = (false, true) ∧ P b) (false, true) :=
  guardSection_keeps [] hP (by simpa using hw)

/-! ### The parts of the commands -/

/-- A sequence whose first part leaves the session standing where the second starts. -/
theorem Program.Keeps.andThen {x : Bool × Bool} {P : α → Prop} {R : Bool × Bool → β → Prop}
    {q : Program α} {f : α → Program β} (h : q.Keeps p s (fun y a => y = x ∧ P a) at_)
    (hf : ∀ a, P a → (f a).Keeps p s R x) : (q.bind f).Keeps p s R at_ :=
  h.bind fun y a ha => by
    obtain ⟨rfl, ha⟩ := ha
    exact hf a ha

theorem Program.Keeps.seq {x : Bool × Bool} {R : Bool × Bool → β → Prop}
    {q : Program Unit} {f : Unit → Program β} (h : q.Keeps p s (fun y _ => y = x) at_)
    (hf : (f ()).Keeps p s R x) : (q.bind f).Keeps p s R at_ :=
  h.bind fun y a ha => by
    obtain rfl := ha
    exact hf

theorem Program.Keeps.forEach {β : Type} {f : β → Program Unit} {l : List β}
    (h : ∀ b ∈ l, (f b).Keeps p s (fun x _ => x = at_) at_) :
    (Program.forEach f l).Keeps p s (fun x _ => x = at_) at_ := by
  induction l with
  | nil => exact .ret _ _ rfl
  | cons b rest ih =>
    exact (h b (by simp)).seq (ih fun c hc => h c (by simp [hc]))

/-- Reading the context of a session whose context is in use. -/
theorem getCtx_then {h : Bool} {R : Bool × Bool → β → Prop} {f : Ctx → Program β}
    (hs : s < p.nSessions)
    (hf : ∀ x : Ctx, x.addrOk p → x.phase ≠ .uninit → (f x).Keeps p s R (h, true)) :
    ((getCtx s).bind f).Keeps p s R (h, true) :=
  (getCtx_keeps hs).bind fun y x hx => by
    obtain ⟨rfl, h1, h2⟩ := hx
    exact hf x h1 (h2.2 rfl)

theorem encrypt_wellFormed (b : Block) : (PortCall.encrypt (bytesOfBlock b)).wellFormed = true := by
  simp [PortCall.wellFormed, wholeBlocks]

/-- What a range check of the pieces of a call gives (R23). -/
theorem PieceChain.fits {off n p0 : Nat} {l : List Piece} (h : PieceChain off n p0 l) {a : Nat}
    (ha : Machine.fits p a n) : ∀ q ∈ l, Machine.fits p (a + q.p) q.use := by
  induction l generalizing p0 with
  | nil => intro q hq; cases hq
  | cons q0 rest ih =>
    obtain ⟨h1, -, -, h4, -, -, hr⟩ := h
    intro q hq
    rcases List.mem_cons.1 hq with rfl | hq
    · have := hr.le
      rcases ha with ha | ha <;> right <;> omega
    · exact ih hr q hq

theorem setkeyPart_keeps {o : SetkeyOperands}
    (hk : o.keyBits = 0 ∨ o.keyBits = 128 ∨ o.keyBits = 192 ∨ o.keyBits = 256)
    (hf : fits p o.key.toNat (o.keyBits.toNat / 8)) :
    (setkeyPart p s o).Keeps p s (fun x _ => x = (false, true)) (false, true) := by
  have hw : ∀ (k : List Byte) (md : CipherMode), k.length = o.keyBits.toNat / 8 →
      (PortCall.configure k (o.keyBits.setWidth 9) md).wellFormed = true := by
    intro k md hl
    rcases hk with h | h | h | h <;> rw [h] at hl ⊢ <;> simpa [PortCall.wellFormed] using hl
  have hclear : ∀ t : Table → Table, KeepsCtx p fun x => { x with
      table := t x.table, image := Image.blank, imageValid := false, phase := .unkeyed } :=
    fun t x _ h2 => ⟨Phase.noConfusion, h2⟩
  have hkeyed : KeepsCtx p fun x => { x with phase := .keyed } :=
    fun x _ h2 => ⟨Phase.noConfusion, h2⟩
  unfold setkeyPart
  split
  · refine (memRead_keeps hf).andThen fun k hl => (setCtx_keeps (hclear id)).seq ?_
    refine (guardSection_one_keeps (P := fun _ => True) (fun _ => trivial)
      (hw k .gcm hl)).andThen fun _ _ => setCtx_keeps hkeyed
  · refine (memRead_keeps hf).andThen fun k hl => (setCtx_keeps (hclear fun _ => Table.zero)).seq ?_
    refine (guardSection_keeps (P := fun _ => True) [.configure k (o.keyBits.setWidth 9) .ecb]
      (c := .encrypt (bytesOfBlock 0)) (fun _ => trivial) ?_).andThen fun b _ =>
        (buildTable_keeps _).seq (setCtx_keeps hkeyed)
    intro d hd
    simp only [List.cons_append, List.nil_append, List.mem_cons, List.not_mem_nil, or_false] at hd
    rcases hd with rfl | rfl
    · exact hw k .ecb hl
    · exact encrypt_wellFormed 0

theorem startsPart_keeps {dir : Direction} {iv : W64} (hs : s < p.nSessions)
    (hf : fits p iv.toNat 12) :
    (startsPart p s dir iv).Keeps p s (fun x _ => x = (false, true)) (false, true) := by
  unfold startsPart
  split
  · refine (memRead_keeps hf).andThen fun b _ => (setCtx_keeps ?_).seq <| getCtx_then hs fun x _ _ =>
      (guardSection_one_keeps (P := fun _ => True) (fun _ => trivial) rfl).andThen fun _ _ =>
      .ret _ _ rfl
    exact fun x _ _ => ⟨Phase.noConfusion, Nat.two_pow_pos _, fun h => nomatch h⟩
  · refine (memRead_keeps hf).andThen fun b _ => (setCtx_keeps ?_).seq <| getCtx_then hs fun x _ _ =>
      (guardSection_one_keeps (P := fun _ => True) (fun _ => trivial)
        (encrypt_wellFormed _)).andThen fun _ _ => setCtx_keeps ?_
    · exact fun x _ _ => ⟨Phase.noConfusion, Nat.two_pow_pos _, fun h => nomatch h⟩
    · exact fun x h1 h2 => ⟨h1, h2⟩

theorem updateAdPart_keeps {aad n : W64} (hs : s < p.nSessions) (hf : fits p aad.toNat n.toNat) :
    (updateAdPart p s aad n).Keeps p s (fun x _ => x = (false, true)) (false, true) := by
  unfold updateAdPart
  split
  · refine setCtx_keeps fun x _ h2 => ?_
    by_cases hn : n = 0
    · simp only [hn, if_true]
      exact ⟨Phase.noConfusion, h2⟩
    · simp only [hn, if_false]
      have hr := hf.resolve_left fun h => hn (BitVec.eq_of_toNat_eq h)
      have hpos : 0 < n.toNat := Nat.pos_of_ne_zero fun h => hn (BitVec.eq_of_toNat_eq h)
      have hm : aad.toNat % 2 ^ p.addrBits = aad.toNat := Nat.mod_eq_of_lt (by omega)
      exact ⟨Phase.noConfusion, by rw [hm]; show aad.toNat < _; omega,
        fun _ => ⟨hn, by rw [hm]; exact hr⟩⟩
  · refine (setCtx_keeps ?_).seq <| getCtx_then hs fun x _ _ => .forEach fun q hq => ?_
    · exact fun x _ h2 => ⟨Phase.noConfusion, h2⟩
    · refine (memRead_keeps ((pieces_chain _ _ _).fits hf q hq)).andThen fun d _ =>
        (setCtx_keeps ?_).seq (multBufIf_keeps _)
      exact fun x h1 h2 => ⟨h1, h2⟩

theorem hwPass_keeps {P : List Byte → Prop} {c : PortCall} (hs : s < p.nSessions)
    (hP : ∀ img, P (callEffect img c).2) (hw : c.wellFormed = true) :
    (hwPass s c).Keeps p s (fun x b => x = (false, true) ∧ P b) (false, true) := by
  refine getCtx_then hs fun x hx _ => ?_
  split
  · next hp =>
    obtain ⟨h1, h2⟩ := hx.2 hp
    have h1' : x.hdrLen.toNat ≠ 0 := fun h => h1 (BitVec.eq_of_toNat_eq h)
    refine (memRead_keeps (.inr h2)).andThen fun d hd => ?_
    refine (guardSection_keeps [.gcmHeader d] hP ?_).andThen fun r hr =>
      (setCtx_keeps ?_).seq (.ret _ _ ⟨rfl, hr⟩)
    · intro b hb
      simp only [List.cons_append, List.nil_append, List.mem_cons, List.not_mem_nil,
        or_false] at hb
      rcases hb with rfl | rfl
      · simpa [PortCall.wellFormed, ← List.length_eq_zero_iff, hd] using h1'
      · exact hw
    · exact fun x h1 h2 => ⟨h1, h2.1, fun h => nomatch h⟩
  · exact guardSection_one_keeps hP hw

theorem length_callEffect_payload (img : Image) (d : List Byte) (v : BitVec 4) :
    (callEffect img (.gcmPayload d v)).2.length = d.length := by
  simp [callEffect, cryptBytes]

theorem updatePart_keeps {input n output : W64} (hs : s < p.nSessions)
    (hi : fits p input.toNat n.toNat) (ho : fits p output.toNat n.toNat) :
    (updatePart p s input n output).Keeps p s (fun x _ => x = (false, true)) (false, true) := by
  have hphase : KeepsCtx p fun x => { x with phase := .absorbingPayload } :=
    fun x _ h2 => ⟨Phase.noConfusion, h2⟩
  have hlen : ∀ k : W64, KeepsCtx p fun x => { x with len := x.len + k } :=
    fun k x h1 h2 => ⟨h1, h2⟩
  unfold updatePart
  split
  · refine (setCtx_keeps hphase).seq (.seq (x := (false, true)) ?_ ?_)
    · split
      · exact .ret _ _ rfl
      · next h0 =>
        have hi' := hi.resolve_left (by omega)
        have ho' := ho.resolve_left (by omega)
        refine (memRead_keeps (.inr (by omega))).andThen fun d hd => ?_
        refine (hwPass_keeps (P := fun b => b.length = d.length) hs
          (fun img => length_callEffect_payload img d 0) ?_).andThen fun b hb => ?_
        · simp [PortCall.wellFormed, wholeBlocks, hd, h0]; omega
        · exact (memWrite_keeps (.inr (by omega))).seq ((incY_keeps _).seq (setCtx_keeps (hlen _)))
    · split
      · exact .ret _ _ rfl
      · next h0 =>
        have hi' := hi.resolve_left (by omega)
        have ho' := ho.resolve_left (by omega)
        refine (memRead_keeps (.inr (by omega))).andThen fun d hd => ?_
        refine (hwPass_keeps (P := fun _ => True) hs (fun _ => trivial) ?_).andThen fun b _ => ?_
        · simp [PortCall.wellFormed, wholeBlocks, hd]; omega
        · exact (memWrite_keeps (.inr (by simp; omega))).seq
            ((incY_keeps _).seq (setCtx_keeps (hlen _)))
  · refine getCtx_then hs fun x _ _ => .seq (x := (false, true)) ?_ (.forEach fun q hq => ?_)
    · split
      · exact .ret _ _ rfl
      · exact closeAad_keeps.seq (setCtx_keeps hphase)
    · have hiq := (pieces_chain _ _ _).fits hi q hq
      have hoq := (pieces_chain _ _ _).fits ho q hq
      refine .seq (x := (false, true)) ?_ <| getCtx_then hs fun x _ _ =>
        (guardSection_one_keeps (P := fun _ => True) (fun _ => trivial)
          (encrypt_wellFormed _)).andThen fun ks _ =>
        (memRead_keeps hiq).andThen fun d hd => (setCtx_keeps ?_).seq <|
        (memWrite_keeps ?_).seq <| (setCtx_keeps (hlen _)).seq (multBufIf_keeps _)
      · split
        · exact incY_keeps _
        · exact .ret _ _ rfl
      · exact fun x h1 h2 => ⟨h1, h2⟩
      · rcases hoq with h | h
        · left; rw [length_xorBytes, hd, h, Nat.zero_min]
        · right
          rw [length_xorBytes, hd]
          omega

theorem finishTag_keeps (hs : s < p.nSessions) :
    (finishTag p s).Keeps p s (fun x b => x = (false, true) ∧ b.length = 16) (false, true) := by
  unfold finishTag
  split
  · exact getCtx_then hs fun x _ _ => hwPass_keeps hs (fun img => by simp [callEffect]) rfl
  · refine getCtx_then hs fun x _ _ => .seq (x := (false, true)) ?_ <|
      (setCtx_keeps ?_).seq <| multBuf_keeps.seq <| getCtx_then hs fun x _ _ =>
      .ret _ _ ⟨rfl, by simp⟩
    · split
      · exact multBufIf_keeps _
      · exact closeAad_keeps
    · exact fun x h1 h2 => ⟨h1, h2⟩

theorem finishClose_keeps {n : W64} :
    (finishClose s n).Keeps p s (fun x _ => x = (false, true)) (false, true) :=
  setCtx_keeps fun _ _ h2 => ⟨Phase.noConfusion, h2⟩

theorem finishPart_keeps {a n : W64} (hs : s < p.nSessions) (hf : fits p a.toNat n.toNat) :
    (finishPart p s a n).Keeps p s (fun x _ => x = (false, true)) (false, true) := by
  refine (finishTag_keeps hs).andThen fun t ht => (memWrite_keeps ?_).seq finishClose_keeps
  rw [List.length_take, ht]
  rcases hf with h | h
  · left; omega
  · right; omega

theorem freeBody_keeps {b : Bool} (hs : s < p.nSessions) :
    (freeBody s).Keeps p s (fun x _ => x.1 = false) (false, b) := by
  have hfree : (Program.do_ (freeOp s)).Keeps p s (fun x _ => x.1 = false) (false, true) := by
    refine .next fun e he hst => ?_
    have hst' := Engine.standing_eq.1 hst
    obtain ⟨e', r, h1, h2, h3, h4⟩ := freeOp_next he (hst'.2.2 rfl)
      (fun h => by cases hst'.1.1 h)
    refine ⟨e', r, h1, h2, .ret _ _ ?_⟩
    simp only [Engine.standing, h3]
    simpa using fun h => by cases hst'.1.1 h
  refine (getCtx_keeps hs).bind fun y x hx => ?_
  obtain ⟨rfl, -, hx⟩ := hx
  split
  · exact .ret _ _ rfl
  · next hu =>
    obtain rfl : b = true := hx.1 hu
    split
    · refine acquire_keeps (g := id) (fun _ => rfl) (fun _ => ⟨rfl, rfl, rfl, rfl⟩) ?_
      refine adapter_keeps (P := fun _ => True) (fun e _ hst => ?_) fun _ _ => release_keeps hfree
      have : deinitializeOp s e = .next { e.record s 0x13 with live := Image.blank } .unit := by
        rw [deinitializeOp, if_pos (by simpa using (Engine.standing_eq.1 hst).1.2 rfl)]
      exact ⟨_, _, this, rfl, rfl, rfl, rfl, trivial⟩
    · exact hfree

theorem initBody_keeps (hs : s < p.nSessions) :
    (initBody s).Keeps p s (fun x _ => x.1 = false) (false, false) := by
  refine .next fun e he hst => ?_
  have hst' := Engine.standing_eq.1 hst
  have hu : (e.ctx s).phase = .uninit := by
    by_contra h
    cases hst'.2.1 h
  obtain ⟨e', r, h1, h2, h3, h4⟩ := initOp_next he hs hu
  refine ⟨e', r, h1, h2, .ret _ _ ?_⟩
  simp only [Engine.standing, h3]
  simpa using fun h => by cases hst'.1.1 h

end

/-! ### The commands -/

/-- What the checks of a composite leave (R90). -/
theorem prevalidate_none {p : Params} {x : Ctx} {o : CompositeOperands}
    (h : prevalidate p x o = none) :
    x.phase ≠ .uninit ∧ x.phase ≠ .unkeyed ∧ o.ivLen = 12 ∧ o.aadLen.toNat < 2 ^ 61 ∧
      ¬ (o.input.toNat < o.output.toNat ∧ o.output.toNat - o.input.toNat < o.length.toNat) ∧
      o.length.toNat ≤ 2 ^ 36 - 32 ∧ tagLenOk p o.tagLen = true ∧ fits p o.iv.toNat 12 ∧
      fits p o.aad.toNat o.aadLen.toNat ∧ fits p o.input.toNat o.length.toNat ∧
      fits p o.output.toNat o.length.toNat ∧ fits p o.tag.toNat o.tagLen.toNat := by
  have h := firstCause_eq_none.1 h
  simp only [List.forall_mem_cons, Bool.not_eq_false', rangeOk_iff, bne_eq_false_iff_eq,
    decide_eq_false_iff_not, acceptsPhase, Bool.and_eq_true, bne_iff_ne] at h
  obtain ⟨h1, h2, h3, h4, h5, h6, h7, h8, h9, h10, h11, -⟩ := h
  refine ⟨h1.1, h1.2, h2, not_le.1 h3, ?_, not_lt.1 h5, h6, h7, h8, h9, h10, h11⟩
  rw [← overlaps_iff, h4]
  exact Bool.false_ne_true

/-- Every command whose checks pass keeps to its sections (R81, R86). -/
theorem command_guarded {i : Instr} {cmd : Command} (hi : commandOf i = some cmd) {p : Params}
    {s : Nat} {x : Ctx} {a : Args} (hs : s < p.nSessions) (hc : cmd.check p x a = none) :
    Program.Guarded p s (false, x.phase != .uninit) (cmd.body p s a) := by
  have composite : ∀ o, prevalidate p x o = none → (x.phase != .uninit) = true := by
    intro o ho
    simpa using (prevalidate_none ho).1
  have start : ∀ (o : CompositeOperands) (dir : Direction) (f : Unit → Program (Option W64)),
      prevalidate p x o = none →
      (f ()).Keeps p s (fun x _ => x.1 = false) (false, true) →
      ((startsPart p s dir o.iv).bind fun _ => (updateAdPart p s o.aad o.aadLen).bind f).Keeps p s
        (fun x _ => x.1 = false) (false, true) := by
    intro o dir f ho hf
    obtain ⟨-, -, -, -, -, -, -, f1, f2, -⟩ := prevalidate_none ho
    exact (startsPart_keeps hs f1).seq ((updateAdPart_keeps hs f2).seq hf)
  apply Program.Keeps.guarded
  cases i <;> simp only [commandOf, Option.some.injEq, reduceCtorEq] at hi <;> subst hi
  case free => exact (freeBody_keeps hs).bind fun _ _ hx => .ret _ _ hx
  case cryptAndTag dir =>
    rw [composite _ hc]
    obtain ⟨-, -, -, -, -, -, -, -, -, f3, f4, f5⟩ := prevalidate_none hc
    exact start _ _ _ hc ((updatePart_keeps hs f3 f4).seq ((finishPart_keeps hs f5).seq
      (.ret _ _ rfl)))
  case authDecrypt =>
    rw [composite _ hc]
    obtain ⟨-, -, -, -, -, -, -, -, -, f3, f4, f5⟩ := prevalidate_none hc
    have hz : (zeroOutput (authDecryptOperands a)).Keeps p s (fun x _ => x = (false, true))
        (false, true) := memWrite_keeps (by simpa using f4)
    refine start _ _ _ hc ?_
    refine Program.Keeps.andThen (x := (false, true)) (P := fun b => b.length = 16)
      (.onRaise ((updatePart_keeps hs f3 f4).seq (finishTag_keeps hs)) hz) fun t _ => ?_
    refine finishClose_keeps.seq <| (memRead_keeps f5).andThen fun d _ => .next fun e he hst =>
      ⟨e.record s 0x34, _, rfl, he.congr rfl rfl rfl rfl, ?_⟩
    have : (e.record s 0x34).standing s = (false, true) := hst
    rw [this]
    split
    · exact .ret _ _ rfl
    · exact hz.seq (.raise _)
  all_goals
    have h := firstCause_eq_none.1 hc
    simp only [List.forall_mem_cons, Bool.not_eq_false', rangeOk_iff, bne_eq_false_iff_eq,
      acceptsPhase, Bool.and_eq_true, Bool.or_eq_true, bne_iff_ne, beq_iff_eq] at h
  case init =>
    rw [h.1]
    exact (initBody_keeps hs).bind fun _ _ hx => .ret _ _ hx
  case setkey =>
    obtain ⟨h1, -, -, h4, h5, -⟩ := h
    rw [show (x.phase != .uninit) = true by simpa using h1]
    refine (setkeyPart_keeps ?_ h5).seq (.ret _ _ rfl)
    simp only [Bool.and_eq_false_iff, bne_eq_false_iff_eq] at h4
    tauto
  case starts =>
    obtain ⟨h1, -, h3, -⟩ := h
    rw [show (x.phase != .uninit) = true by simpa using h1.1]
    exact (startsPart_keeps hs h3).seq (.ret _ _ rfl)
  case updateAd =>
    obtain ⟨h1, -, -, h4, -⟩ := h
    rw [show (x.phase != .uninit) = true by rcases h1 with h | h <;> rw [h] <;> rfl]
    exact (updateAdPart_keeps hs h4).seq (.ret _ _ rfl)
  case update =>
    obtain ⟨h1, -, -, -, -, h6, h7, -⟩ := h
    rw [show (x.phase != .uninit) = true by rcases h1 with (h | h) | h <;> rw [h] <;> rfl]
    exact (updatePart_keeps hs h6 h7).seq (.ret _ _ rfl)
  case finish =>
    obtain ⟨h1, -, h3, -⟩ := h
    rw [show (x.phase != .uninit) = true by rcases h1 with (h | h) | h <;> rw [h] <;> rfl]
    exact (finishPart_keeps hs h3).seq (.ret _ _ rfl)

/-! ### What a run of a guarded command gives -/

/-- A command that keeps to its sections, run by itself, never stops the model: it is done without
the mutex, or raises without the mutex with its context in use, or waits outside its sections; the
engine's invariant holds again (R81, R84, R86). -/
theorem guarded_eval {p : Params} {s : Nat} {at_ : Bool × Bool} {q : Program (Option W64)}
    (h : Program.Guarded p s at_ q) {e : Engine} (he : e.Inv p) (hst : e.standing s = at_)
    (log : List Reply) :
    (∃ a e', q.eval log e = .done a e' ∧ e'.Inv p ∧ (e'.standing s).1 = false) ∨
    (∃ c e', q.eval log e = .raised c e' ∧ e'.Inv p ∧ e'.standing s = (false, true)) ∨
    ∃ l e', q.eval log e = .blocked (log ++ l) e' ∧ e'.Inv p ∧ (e'.standing s).1 = false ∧
      Program.Guarded p s (e'.standing s) (q.replay l) := by
  induction h generalizing e log with
  | ret u a => exact .inl ⟨a, e, rfl, he, by rw [hst]⟩
  | raise c => exact .inr (.inl ⟨c, e, rfl, he, hst⟩)
  | step at_ m k safe waits inv rest ih =>
    cases hm : m e with
    | next e1 r =>
      rw [Program.eval_step_next hm]
      rcases ih e e1 r he hst hm (inv e e1 r he hst hm) rfl (log ++ [r]) with
        ⟨a, e', h1, h2⟩ | ⟨c, e', h1, h2⟩ | ⟨l, e', h1, h2⟩
      · exact .inl ⟨a, e', h1, h2⟩
      · exact .inr (.inl ⟨c, e', h1, h2⟩)
      · exact .inr (.inr ⟨r :: l, e', by rw [h1]; simp, h2⟩)
    | wait =>
      refine .inr (.inr ⟨[], e, by rw [Program.eval_step_wait hm]; simp, he,
        by rw [hst]; exact waits e he hst hm, ?_⟩)
      rw [hst, Program.replay_nil]
      exact .step _ m k safe waits inv rest
    | stop x => exact absurd hm (safe e he hst x)

/-- A micro-step of session `s` leaves every other session standing where it stands (R84, R85). -/
theorem standing_others {p : Params} {s : Nat} {m : Engine → Micro} (hm : OwnOnly s m)
    {e e' : Engine} {r : Reply} (he : e.Inv p) (he' : e'.Inv p) (hx : m e = .next e' r) {s' : Nat}
    (hs : s' ≠ s) : e'.standing s' = e.standing s' := by
  obtain ⟨-, -, h3, h4⟩ := hm e e' r hx
  have hc := h3 s' hs
  cases hmx : e.arb.mutexExists with
  | true =>
    simp only [Engine.standing, hc, Prod.mk.injEq, and_true]
    rw [Bool.eq_iff_iff]
    simpa using h4 s' hs hmx
  | false =>
    have unused : s' < p.nSessions → ¬ (e.ctx s').phase ≠ .uninit := by
      intro hlt hu
      have hpos := List.countP_pos_iff (p := fun x : Ctx => x.phase != .uninit).2
        ⟨e.ctx s', he.ctx_mem hlt, by simpa using hu⟩
      rw [← he.refcount] at hpos
      have := he.mutex
      rw [hmx, decide_eq_true hpos] at this
      cases this
    have n1 : e.arb.holder ≠ some s' := fun h => unused (he.holder s' h).1 (he.holder s' h).2
    have n2 : e'.arb.holder ≠ some s' := fun h =>
      unused (he'.holder s' h).1 (hc ▸ (he'.holder s' h).2)
    simp [Engine.standing, hc, n1, n2]

end Sys2Proof.Machine
end

