-- ==== Sys2Proof/Tests/Slice0.lean ====
section
/-! SUPPORT. Tests on the spec's own examples (95_test_vectors.md) and, for every statement of
Certificates/Slice0/Obligations.lean that has hypotheses, a concrete state that meets them. -/

namespace Sys2Proof.Tests

open Sys2Proof Sys2Proof.Machine

/-! ### Well-formedness: what each check refuses -/

/-- E17, E18, E19: words that match no row of R33. -/
theorem test_illegal_words :
    ([0x00000000, 0x0000000A, 0x000000FF, 0x00000106, 0x00000203, 0x0000020A, 0x80000001].map
      CmdWord.wellFormed) = List.replicate 7 false := by decide

/-- The domains of R41, R42, R43, R49 and R50. -/
theorem test_illformed_calls :
    ([.configure [1] 128 .ecb, .configure [] 64 .ecb, .encrypt [], .encrypt [0], .decrypt [0],
      .gcmHeader [], .gcmPayload [0] 1, .gcmPayload [] 0] : List PortCall).map
      PortCall.wellFormed = List.replicate 8 false := by decide

/-! ### Decoding: each word written out from R30, R33, R35 and R36 -/

theorem test_decode_commands :
    decodeCmd 0b00000000000000000000000000000001 = .ok .init ∧
    decodeCmd 0b00000000000000000000000000000010 = .ok .free ∧
    decodeCmd 0b00000000000000000000000000000011 = .ok .setkey ∧
    decodeCmd 0b00000000000000000000000000000100 = .ok (.starts .enc) ∧
    decodeCmd 0b00000000000000000000000100000100 = .ok (.starts .dec) ∧
    decodeCmd 0b00000000000000000000000000000101 = .ok .updateAd ∧
    decodeCmd 0b00000000000000000000000000000110 = .ok .update ∧
    decodeCmd 0b00000000000000000000000000000111 = .ok .finish ∧
    decodeCmd 0b00000000000000000000000000001000 = .ok (.cryptAndTag .enc) ∧
    decodeCmd 0b00000000000000000000000100001000 = .ok (.cryptAndTag .dec) ∧
    decodeCmd 0b00000000000000000000000000001001 = .ok .authDecrypt := by decide

theorem test_decode_port_operations :
    decodeOp 0b00010000 = .ok .configure ∧ decodeOp 0b00010001 = .ok .encrypt ∧
    decodeOp 0b00010010 = .ok .decrypt ∧ decodeOp 0b00010011 = .ok .deinitialize ∧
    decodeOp 0b00010100 = .ok .suspend ∧ decodeOp 0b00010101 = .ok .resume ∧
    decodeOp 0b00010110 = .ok .gcmBegin ∧ decodeOp 0b00010111 = .ok .gcmHeader ∧
    decodeOp 0b00011000 = .ok .gcmPayload ∧ decodeOp 0b00011001 = .ok .gcmTag ∧
    decodeOp 0b00100000 = .ok .mutexCreate ∧ decodeOp 0b00100001 = .ok .mutexDestroy ∧
    decodeOp 0b00100010 = .ok .acquire ∧ decodeOp 0b00100011 = .ok .release := by decide

theorem test_decode_micro_operations :
    decodeOp 0b00110000 = .ok .ghashBuild ∧ decodeOp 0b00110001 = .ok .ghashMult ∧
    decodeOp 0b00110010 = .ok .inc32 ∧ decodeOp 0b00110011 = .ok .closeAad ∧
    decodeOp 0b00110100 = .ok .tagVerify ∧ decodeOp 0b00110101 = .ok .guard := by decide

/-- E17, E18, E19 and R34: which cause refuses a word; a port code is not one a host can write. -/
theorem test_decode_refusals :
    decodeCmd 0x00 = .error .opcode ∧ decodeCmd 0x0A = .error .opcode ∧
    decodeCmd 0xFF = .error .opcode ∧ decodeCmd 0x10 = .error .opcode ∧
    decodeCmd 0x106 = .error .reservedBits ∧ decodeCmd 0x203 = .error .reservedBits ∧
    decodeCmd 0x20A = .error .opcode ∧ decodeOp 0x1A = .error .operation ∧
    decodeOp 0x01 = .error .operation := by decide

/-- The numbering of the table's bits, and the widths it has. -/
theorem test_decode_table_words :
    decodeTableWord 32 0x104 = some (.starts .dec) ∧ decodeTableWord 8 0x35 = some .guard ∧
    decodeTableWord 32 0x35 = none ∧ decodeTableWord 8 0x104 = none ∧
    decodeTableWord 16 0x1 = none := by decide

/-! ### The field, the tables, the counter, the comparison (95, sections 2, 3 and 6) -/

/-- `H` of `K0`. -/
def hK0 : Block := 0x66e94bd4ef8a2c3b884cfa59ca342b2e

/-- T2: entries 1, 3, 12 and 15. -/
theorem test_table_T2 :
    (ghashBuild hK0).hh[1] = 0x9d5d297a9df14587 ∧ (ghashBuild hK0).hl[1] = 0x71099f4b39468565 ∧
    (ghashBuild hK0).hh[3] = 0x65e77b8fa613ce89 ∧ (ghashBuild hK0).hl[12] = 0x4c6a87752f2e3eb9 ∧
    (ghashBuild hK0).hh[15] = 0x307a95b13e5cf4af := by decide +kernel

/-- T3: halving with the correction. -/
theorem test_table_T3 :
    (ghashBuild 1).hh[4] = 0xe100000000000000 ∧ (ghashBuild 1).hl[4] = 0 ∧
    (ghashBuild 1).hh[2] = 0x7080000000000000 ∧ (ghashBuild 1).hh[1] = 0x3840000000000000 := by
  decide +kernel

/-- M2 to M8, on the table engine. -/
theorem test_ghash_mult :
    [0x80000000000000000000000000000000, 0x40000000000000000000000000000000, 1, 0x80,
      0xffffffffffffffffffffffffffffffff, 0x0388dace60b6a392f328c2b971b2fe78, 0x10].map
        (ghashMult (ghashBuild hK0)) =
      [0x66e94bd4ef8a2c3b884cfa59ca342b2e, 0x3374a5ea77c5161dc4267d2ce51a1597,
        0x52a4dcb814e54ae1b2d2402fdc6eb849, 0xa66e5c0a72a570d9692017ee375c24ba,
        0xcb2dc6f0b950f18d9e396c7438025a0c, 0x5e2ec746917062882c85b0685353deb7,
        0x644dcb814e54ae1b2d2402fdc6eb8497] := by decide +kernel

/-- M4 and M7 on the reference product. -/
theorem test_gf_mult :
    gfMult 1 hK0 = 0x52a4dcb814e54ae1b2d2402fdc6eb849 ∧
    gfMult 0x0388dace60b6a392f328c2b971b2fe78 hK0 = 0x5e2ec746917062882c85b0685353deb7 := by
  decide +kernel

/-- I1 to I5. -/
theorem test_inc32 :
    [0x00000000000000000000000000000001, 0xcafebabefacedbaddecaf888000000ff,
      0xcafebabefacedbaddecaf8880000ffff, 0xffffffffffffffffffffffffffffffff,
      0x000000000000000000000000fffffffe].map inc32 =
      [0x00000000000000000000000000000002, 0xcafebabefacedbaddecaf88800000100,
        0xcafebabefacedbaddecaf88800010000, 0xffffffffffffffffffffffff00000000,
        0x000000000000000000000000ffffffff] := by decide

/-- V1 to V4. -/
theorem test_tag_verify :
    tagVerify [1, 2, 3, 4] [1, 2, 3, 4] 4 = true ∧ tagVerify [1, 2, 3, 4] [1, 2, 3, 5] 4 = false ∧
    tagVerify [0x81, 2, 3, 4] [1, 2, 3, 4] 4 = false ∧
    tagVerify [1, 2, 3, 4] [1, 2, 3, 5] 3 = true := by decide

/-- The status words of R93 to R96 that 95_test_vectors.md names. -/
theorem test_status_words :
    [Cause.opcode, .sequence, .tagLen, .overlap, .outputCap, .reservedBits, .addrRange, .ivLen,
      .tagLenA, .partialChunkA, .aadChunkingA, .hwKey, .timeout, .tagMismatch].map statusWord =
      [0x011, 0x021, 0x051, 0x081, 0x091, 0x0A1, 0x0B1, 0x202, 0x212, 0x222, 0x232, 0x242, 0x403,
        0x604] := by decide

/-! ### States for the tests and the witnesses -/

/-- Strategy B with a policy, and strategy A, otherwise the parameters of 95_test_vectors.md. -/
def pB (policy : PartialPolicy) : Params := { Params.default with policy := policy }

def pA : Params := { Params.default with strategy := .a }

/-- The image `SETKEY` leaves for a 128-bit key. -/
def keyImage (p : Params) : Image :=
  { Image.blank with
    configured := true, keyBits := 128, key := List.replicate 16 0x5A
    mode := if p.strategy = .a then .gcm else .ecb }

/-- A context with that key bound, in a phase. -/
def keyed (p : Params) (ph : Phase) : Ctx :=
  { Ctx.zero with
    phase := ph, image := keyImage p, imageValid := true
    table := if p.strategy = .b then ghashBuild (cipherE (imageKey (keyImage p)) 0) else Table.zero }

/-- A context in the middle of a message under strategy A. -/
def streamingA : Ctx :=
  { keyed pA .started with image := { keyImage pA with gActive := true } }

/-- Session 0 in use, its context, arguments, the accelerator's answers and the memory given. -/
def mk (p : Params) (x : Ctx) (args : Args) (answers : List Answer) (mem : Memory := []) : State :=
  { State.resetWith p with
    eng := { Engine.resetWith p with
      ctxs := [x, Ctx.zero]
      arb := { refcount := 1, mutexExists := true, holder := none }
      answers := answers
      mem := mem }
    mbox := [{ Mailbox.reset with args := args }, Mailbox.reset] }

/-- Session 0 inside a guarded section, with a live image, operands for a bare operation and the
accelerator's answers. -/
def inSection (live : Image) (opnd : Operands) (answers : List Answer) : State :=
  let st := mk (pB .carry) (keyed (pB .carry) .keyed) Mailbox.reset.args answers
  { st with
    eng := { st.eng with live := live, arb := { st.eng.arb with holder := some 0 } }, opnd := opnd }

/-- A live image in the middle of a message in mode GCM. -/
def liveGcm : Image := { keyImage pA with gActive := true }

/-- Arguments: the first ones given, the others 0. -/
def argv (l : List W64) : Args := Vector.ofFn fun i => l.getD i.val 0

/-- The outcome is a next state with a property. -/
def nextAnd (o : Host.Outcome State Fault Refusal) (f : State → Bool) : Bool :=
  match o with
  | .next t => f t
  | .fault _ => false
  | .refused _ => false

/-- The next state of an outcome that has one. -/
def nextOr (o : Host.Outcome State Fault Refusal) : State :=
  match o with
  | .next t => t
  | .fault _ => State.reset
  | .refused _ => State.reset

theorem eq_next (o : Host.Outcome State Fault Refusal) (h : nextAnd o (fun _ => true) = true) :
    o = .next (nextOr o) := by
  cases o with
  | next t => rfl
  | fault f => exact nomatch h
  | refused r => exact nomatch h

/-! ### Single steps of the spec's examples -/

/-- P1 step 1: `INIT` from reset. -/
theorem test_init :
    nextAnd (step (State.reset.withFetchWord 32 1)) (fun t =>
      t.own.phase == .unkeyed && t.eng.arb.refcount == 1 && t.eng.arb.mutexExists &&
      t.eng.arb.holder == none && t.eng.history == [⟨0, 0x20⟩] &&
      (t.mailbox 0).status == 0 && t.eng.ctx 1 == Ctx.zero) = true := by decide +kernel

/-- The last step of section 8: `FREE` of the only session in use; then of an `Uninit` one. -/
theorem test_free :
    nextAnd (exec .free (mk (pB .carry) { Ctx.zero with phase := .unkeyed, len := 5 } (argv []) []))
      (fun t => t.own == Ctx.zero && t.eng.arb.refcount == 0 && !t.eng.arb.mutexExists) = true ∧
    nextAnd (exec .free State.reset) (fun t => t == State.reset) = true := by decide +kernel

/-- F1: the `ENCRYPT` inside `SETKEY` times out. -/
theorem test_setkey_failure :
    nextAnd (exec .setkey (mk (pB .carry) (keyed (pB .carry) .keyed) (argv [1, 0x100, 128])
        [.done, .timedOut]))
      (fun t => t.own == { Ctx.zero with phase := .unkeyed } && (t.mailbox 0).status == 0x403 &&
        t.eng.arb.holder == none &&
        t.eng.history.map (·.code) == [0x23, 0x11, 0x10, 0x22, 0x35]) = true := by decide +kernel

/-- D15, R96: the `CONFIGURE` inside `SETKEY` times out, or reports an error. -/
theorem test_setkey_configure_failure :
    ([Answer.timedOut, .error].map fun a => (nextOr (exec .setkey
      (mk (pB .carry) (keyed (pB .carry) .keyed) (argv [1, 0x100, 128]) [a]))).mailbox 0).map
        (·.status) = [0x403, 0x413] := by decide +kernel

/-- `STARTS`: the pre-counter block of P2 step 3, and the section `ACQUIRE, RESUME, ENCRYPT, SUSPEND,
RELEASE`. -/
theorem test_starts :
    nextAnd (exec (.starts .dec) (mk (pB .carry) (keyed (pB .carry) .failed) (argv [0x140, 12])
        (List.replicate 3 .done)
        (Memory.writeBytes [] 0x140
          [0xca, 0xfe, 0xba, 0xbe, 0xfa, 0xce, 0xdb, 0xad, 0xde, 0xca, 0xf8, 0x88])))
      (fun t => t.own.phase == .started && t.own.direction == .dec &&
        t.own.y == 0xcafebabefacedbaddecaf88800000001 && t.eng.answers == [] &&
        t.eng.history.map (·.code) == [0x23, 0x14, 0x11, 0x15, 0x22, 0x35]) = true := by
  decide +kernel

/-- The context of P2 with the table of its `H`. -/
def ctxP2 (ph : Phase) : Ctx :=
  { keyed (pB .carry) ph with
    table := ghashBuild 0xb83b533708bf535d0aa6e52980d53b78
    baseEctr := 0x3247184b3c4f69a44dbcd22887bbb418
    y := 0xcafebabefacedbaddecaf88800000001 }

/-- P2 step 4: twenty bytes of AAD. -/
theorem test_update_ad :
    nextAnd (exec .updateAd (mk (pB .carry) (ctxP2 .started) (argv [0x1000, 20]) []
        (Memory.writeBytes [] 0x1000
          [0xfe, 0xed, 0xfa, 0xce, 0xde, 0xad, 0xbe, 0xef, 0xfe, 0xed, 0xfa, 0xce, 0xde, 0xad, 0xbe,
            0xef, 0xab, 0xad, 0xda, 0xd2])))
      (fun t => t.own.phase == .absorbingAAD && t.own.addLen == 20 &&
        t.own.buf == 0x46fb702aa72d67049fdb9228edba1322) = true := by decide +kernel

/-- P2 step 6: eleven bytes that fill an open block; the counter stays. -/
theorem test_update_open_block :
    nextAnd (exec .update (mk (pB .carry)
        { ctxP2 .absorbingPayload with
          y := 0xcafebabefacedbaddecaf88800000002, len := 5, addLen := 20 }
        (argv [0x3005, 11, 0x5005, 11]) (List.replicate 3 .done)))
      (fun t => t.own.len == 16 && t.own.y == 0xcafebabefacedbaddecaf88800000002 &&
        (t.mailbox 0).outLen == 11 && t.eng.answers == [] &&
        t.eng.history.map (·.code) == [0x31, 0x23, 0x14, 0x11, 0x15, 0x22, 0x35]) = true := by
  decide +kernel

/-- P5 step 4: the second `ENCRYPT` of an `UPDATE` of two blocks times out. -/
theorem test_update_failure :
    nextAnd (exec .update (mk (pB .carry) (ctxP2 .started) (argv [0x3000, 32, 0x5000, 32])
        [.done, .done, .done, .done, .timedOut]))
      (fun t => t.own.phase == .failed && (t.mailbox 0).status == 0x403 && t.own.len == 16 &&
        t.own.imageValid && t.own.table == (ctxP2 .started).table &&
        t.eng.arb.holder == none) = true := by decide +kernel

/-- P2 step 8 and G9: the open block is closed, the lengths absorbed, the tag written. -/
theorem test_finish :
    nextAnd (exec .finish (mk (pB .carry)
        { ctxP2 .absorbingPayload with
          buf := 0xd1dedf7fc5400b9bfe982dcbbba6aa1c, len := 60, addLen := 20 }
        (argv [0, 0, 0x180, 16]) []))
      (fun t => t.own.phase == .finished && t.own.buf == 0x698e57f70e6ecc7fd9463b7260a9ae5f &&
        t.own.tagLen == 16 && (t.mailbox 0).outLen == 0 &&
        t.eng.mem.readBytes 0x180 17 ==
          bytesOfBlock 0x5bc94fbc3221a5db94fae95ae7121a47 ++ [0]) = true := by decide +kernel

/-- P5 step 5, E20, E21 and E13: statuses of rejected `UPDATE`s. -/
theorem test_update_rejections :
    ([(Phase.failed, argv [0x3010, 16, 0x5010, 16]),
      (Phase.started, argv [0xFFFFFFFF, 2, 0x5000, 2]),
      (Phase.started, argv [0x100000000, 1, 0x5000, 1]),
      (Phase.started, argv [0x3000, 4, 0x3000, 3])].map fun q =>
        nextAnd (exec .update (mk (pB .carry) (ctxP2 q.1) q.2 []))
          (fun t => [0x021, 0x0B1, 0x0B1, 0x091].contains (t.mailbox 0).status)) =
      [true, true, true, true] := by decide +kernel

/-- E22: empty buffers are not checked, and `UPDATE` of no bytes moves the phase. -/
theorem test_update_empty :
    nextAnd (exec .update (mk (pB .carry) (ctxP2 .started) (argv [0x100000000, 0, 0x1FFFFFFFFF, 0])
        []))
      (fun t => t.own.phase == .absorbingPayload && (t.mailbox 0).status == 0) = true := by
  decide +kernel

/-- The strategy A rows of section 8: a staged header; E23; E25. -/
theorem test_strategy_A :
    nextAnd (exec .updateAd (mk pA streamingA (argv [0x1000, 20]) [])) (fun t =>
      t.own.hdrPending && t.own.hdrAddr == 0x1000 && t.own.hdrLen == 20 &&
      t.own.addLen == 20) = true ∧
    nextAnd (exec .updateAd (mk pA { streamingA with hdrPending := true } (argv [0x1014, 4]) []))
      (fun t => (t.mailbox 0).status == 0x232) = true ∧
    nextAnd (exec .finish (mk pA streamingA (argv [0, 0, 0x180, 12]) []))
      (fun t => (t.mailbox 0).status == 0x212) = true := by decide +kernel

/-- `CRYPT_AND_TAG` under strategy A: the operations of Q1 for a message with a header, an aligned
part and a remainder. -/
theorem test_crypt_and_tag_A :
    nextAnd (exec (.cryptAndTag .enc) (mk pA (keyed pA .keyed)
        (argv [20, 0, 12, 0x100, 3, 0x200, 0x200, 16, 0x300]) (List.replicate 13 .done)))
      (fun t => t.own.phase == .finished && (t.mailbox 0).outLen == 20 && t.eng.answers == [] &&
        t.own.y == 3 &&
        (t.eng.history.map (·.code)).filter (fun c => 0x16 ≤ c.toNat && c.toNat ≤ 0x19) ==
          [0x19, 0x18, 0x18, 0x17, 0x16]) = true := by decide +kernel

/-- R92: a failure in the first section of the payload zeroes the whole output. -/
theorem test_auth_decrypt_failure :
    nextAnd (exec .authDecrypt (mk (pB .carry) (keyed (pB .carry) .keyed)
        (argv [20, 0, 12, 0, 0, 0x300, 16, 0x200, 0x200]) (List.replicate 4 .done)
        (Memory.writeBytes [] 0x200 (List.replicate 21 0xAA))))
      (fun t => (t.mailbox 0).status == 0x403 && t.own.phase == .failed &&
        t.eng.mem.readBytes 0x200 21 == List.replicate 20 0 ++ [0xAA]) = true := by decide +kernel

/-- R82 to R85, each from a state that meets its precondition. -/
theorem test_mutex_operations :
    nextAnd (exec .mutexCreate State.reset) (fun t => t.eng.arb.mutexExists) = true ∧
    nextAnd (exec .acquire (mk pA Ctx.zero (argv []) [])) (fun t => t.eng.arb.holder == some 0) =
      true ∧
    nextAnd (exec .release (inSection liveGcm Operands.blank []))
      (fun t => t.eng.arb.holder == none) = true ∧
    nextAnd (exec .mutexDestroy (mk pA Ctx.zero (argv []) [])) (fun t => !t.eng.arb.mutexExists) =
      true := by decide +kernel

/-- R44, R46, R47, R48: what is returned and what the live image becomes. -/
theorem test_image_operations :
    nextAnd (exec .suspend (inSection liveGcm Operands.blank [.done]))
      (fun t => t.result == some (.image liveGcm) && t.eng.live == liveGcm) = true ∧
    nextAnd (exec .resume (inSection liveGcm Operands.blank [.done]))
      (fun t => t.eng.live == Image.blank) = true ∧
    nextAnd (exec .deinitialize (inSection liveGcm Operands.blank []))
      (fun t => t.eng.live == Image.blank) = true ∧
    nextAnd (exec .gcmBegin (inSection liveGcm { Operands.blank with dir := .dec, block := 7 } [.done]))
      (fun t => t.eng.live.gActive && t.eng.live.gDir == .dec && t.eng.live.gY == 7 &&
        t.eng.live.gAcc == 0) = true := by decide +kernel

/-- R13, R14: `CAP` and `ARB` as the host reads them. -/
theorem test_cap_arb :
    capValue Params.default = 0x201 ∧ capValue { pA with nSessions := 255 } = 0xFF00 ∧
    arbValue { refcount := 2, mutexExists := true, holder := some 1 } 0 = 0x10302 := by decide

/-- A command that is to be advanced one micro-step at a time is latched, and nothing else. -/
theorem test_command_start :
    nextAnd (step { mk pA { Ctx.zero with phase := .unkeyed } (argv [1, 0x100, 128]) [] with
        bus := [.cmdStart 0 3] }) (fun t =>
      t.inFlight 0 == some ⟨.setkey, argv [1, 0x100, 128], { Ctx.zero with phase := .unkeyed }, []⟩ &&
        t.own.phase == .unkeyed) = true := by decide +kernel

/-! ### Witnesses: for each statement with hypotheses, a state that meets them -/

theorem witness_DecodeEncodeAgree : Instr.wellFormed (.starts .dec) = true := by decide

/-- Both causes of R34, at the boundaries of the opcode field and of the reserved bits. -/
theorem witness_IllegalWordChangesStatusOnly :
    ([0x00, 0x0A, 0xFF, 0x101, 0x203, 0x80000001].map CmdWord.wellFormed =
      List.replicate 6 false) ∧
    (∀ w : BitVec 32, ∃ (st : State) (rest : List BusEvent), st.pendingOp = none ∧
      st.bus = .hostWrite (0x100 * 1) (w.setWidth 64) :: rest ∧
      1 < st.eng.params.nSessions ∧ st.eng.params.Valid ∧ st.inFlight 1 = none) :=
  ⟨by decide, fun w => ⟨{ State.reset with bus := [.hostWrite (0x100 * 1) (w.setWidth 64)] }, [],
    rfl, rfl, Nat.lt_succ_self 1, (by decide : State.reset.eng.params.Valid), rfl⟩⟩

/-- A command word, with bits above 31 set, and an operation code. -/
theorem witness_StepRunsDecoded :
    (∃ (st : State) (s : Nat) (v : W64) (rest : List BusEvent) (i : Instr),
      st.pendingOp = none ∧ st.bus = .hostWrite (0x100 * s) v :: rest ∧
      s < st.eng.params.nSessions ∧ st.eng.params.Valid ∧ decodeCmd (v.setWidth 32) = .ok i) ∧
    (∃ (st : State) (code : BitVec 8) (i : Instr),
      st.pendingOp = some code ∧ decodeOp code = .ok i) :=
  ⟨⟨{ State.reset with bus := [.hostWrite 0x100 0x700000104] }, 1, 0x700000104, [], .starts .dec,
      rfl, rfl, by decide, by decide, by decide⟩,
    { State.reset with pendingOp := some 0x35 }, 0x35, .guard, rfl, by decide⟩

/-- A reset while a command of session 0 holds the mutex. -/
theorem witness_ResetEvent :
    ∃ (st : State) (rest : List BusEvent),
      st.pendingOp = none ∧ st.bus = .reset :: rest ∧ st.inFlight 0 ≠ none :=
  ⟨{ inSection Image.blank Operands.blank [] with
      run := [some ⟨.setkey, argv [1], Ctx.zero, []⟩, none], bus := [.reset] }, [], rfl, rfl,
    by decide⟩

/-- Session 0 with a command in execution, session 1 without. -/
theorem witness_HostReads (reg : Nat) :
    ∃ (st : State) (rest : List BusEvent), st.pendingOp = none ∧ st.eng.params.Valid ∧
      st.bus = .hostRead reg :: rest ∧ st.inFlight 0 ≠ none ∧ st.inFlight 1 = none :=
  ⟨{ State.reset with
      run := [some ⟨.setkey, argv [1], Ctx.zero, []⟩, none], bus := [.hostRead reg] }, [], rfl,
    (by decide : State.reset.eng.params.Valid), rfl, nofun, rfl⟩

/-- A register number of each clause, at the ends of its range. -/
theorem witness_HostReads_clauses :
    (0x100 = 0x100 * 1 ∧ 0x101 = 0x100 * 1 + 1 + (0 : Fin 9).val ∧
      0x109 = 0x100 * 1 + 1 + (8 : Fin 9).val ∧ 0x10A = 0x100 * 1 + 0x0A ∧
      0x10B = 0x100 * 1 + 0x0B) ∧
    (∀ reg ∈ [0x0C, 0xFF, 0x10C, 0x200, 0xFEFF, 0xFF02], reg ≠ 0xFF00 ∧ reg ≠ 0xFF01 ∧
      (State.reset.eng.params.nSessions ≤ reg / 0x100 ∨ 0x0B < reg % 0x100)) := by decide

/-- The same for a write; session 0 with a command in execution, session 1 without. -/
theorem witness_HostWrites (reg : Nat) (v : W64) :
    ∃ (st : State) (rest : List BusEvent), st.pendingOp = none ∧ st.eng.params.Valid ∧
      st.bus = .hostWrite reg v :: rest ∧ st.inFlight 0 ≠ none ∧ st.inFlight 1 = none :=
  ⟨{ State.reset with
      run := [some ⟨.setkey, argv [1], Ctx.zero, []⟩, none], bus := [.hostWrite reg v] }, [],
    rfl, (by decide : State.reset.eng.params.Valid), rfl, nofun, rfl⟩

theorem witness_CapArbFields :
    Params.Valid { pA with nSessions := 1 } ∧ Params.Valid { pA with nSessions := 255 } ∧
    (∃ a : Arbiter, a.refcount < 256 ∧ a.refcount = 255 ∧ a.holder = some 254 ∧ 254 < 256) ∧
    (∃ a : Arbiter, a.refcount < 256 ∧ a.holder = none) :=
  ⟨by decide, by decide, ⟨⟨255, true, some 254⟩, by decide⟩, ⟨⟨0, false, none⟩, by decide⟩⟩

theorem witness_MemoryReadAfterWrite : Memory.wf [(5, 1), (7, 2)] = true := by decide

theorem witness_MemoryStrings :
    Memory.wf [(5, 1), (7, 2)] = true ∧
    (∃ m m' : Memory, m.wf = true ∧ m'.wf = true ∧ ∀ x, m.read x = m'.read x) :=
  ⟨by decide, [(5, 1)], [(5, 1)], by decide, by decide, fun _ => rfl⟩

/-- The first session in use, a second one, and a context in use already. -/
theorem witness_InitCompletes :
    (∃ st : State, st.Idle ∧ st.own.phase = .uninit ∧ st.eng.arb.refcount = 0 ∧
      st.eng.arb.mutexExists = decide (0 < st.eng.arb.refcount)) ∧
    (∃ st : State, st.Idle ∧ st.own.phase = .uninit ∧ st.eng.arb.refcount = 1 ∧
      st.eng.arb.mutexExists = decide (0 < st.eng.arb.refcount)) ∧
    (∃ st : State, st.Idle ∧ st.own.phase ≠ .uninit) :=
  ⟨⟨State.reset, ⟨⟨rfl, rfl, rfl⟩, by decide, rfl⟩, rfl, rfl, rfl⟩,
    ⟨{ mk (pB .carry) (keyed (pB .carry) .keyed) (argv []) [] with cur := 1 },
      ⟨⟨rfl, rfl, rfl⟩, by decide, rfl⟩, rfl, rfl, rfl⟩,
    ⟨mk (pB .carry) (keyed (pB .carry) .keyed) (argv []) [], ⟨⟨rfl, rfl, rfl⟩, by decide, rfl⟩,
      by decide⟩⟩

/-- An `Uninit` context; one with a saved image; one without while another session holds the
mutex. -/
theorem witness_FreeCompletes :
    (∃ st : State, st.Idle ∧ st.own.phase = .uninit) ∧
    (∃ st : State, st.Idle ∧ st.own.phase ≠ .uninit ∧ st.own.imageValid = true ∧
      st.eng.arb.refcount ≤ 1 ∧ st.MutexFree) ∧
    (∃ st : State, st.Idle ∧ st.own.phase ≠ .uninit ∧ st.own.imageValid = false ∧
      ¬ st.eng.arb.refcount ≤ 1 ∧ st.eng.arb.holder = some 1) :=
  ⟨⟨State.reset, ⟨⟨rfl, rfl, rfl⟩, by decide, rfl⟩, rfl⟩,
    ⟨mk (pB .carry) (keyed (pB .carry) .keyed) (argv []) [], ⟨⟨rfl, rfl, rfl⟩, by decide, rfl⟩,
      by decide, rfl, by decide, rfl, rfl⟩,
    ⟨{ State.reset with
        eng := { State.reset.eng with
          ctxs := [{ Ctx.zero with phase := .unkeyed }, keyed (pB .carry) .keyed]
          arb := ⟨2, true, some 1⟩ } }, ⟨⟨rfl, rfl, rfl⟩, by decide, rfl⟩, by decide, rfl,
      by decide, rfl⟩⟩

theorem witness_SetkeyCompletesB :
    ∃ (st : State) (rest : List Answer), st.Idle ∧ st.eng.params.strategy = .b ∧ st.own.phase ≠
      .uninit ∧ st.args[0] = 1 ∧ (st.args[2] = 128 ∨ st.args[2] = 192 ∨ st.args[2] = 256 ∨
      st.args[2] = 0 ∧ st.eng.params.hasHwKey = true) ∧ fits st.eng.params st.args[1].toNat
      (st.args[2].toNat / 8) ∧ st.MutexFree ∧ st.eng.answers = List.replicate 3 .done ++ rest :=
  ⟨mk (pB .carry) (keyed (pB .carry) .failed) (argv [1, 0xFFFFFFF0, 128]) (List.replicate 3 .done), [],
    ⟨⟨rfl, rfl, rfl⟩, by decide, rfl⟩, rfl, by decide, rfl, Or.inl rfl, by decide, ⟨rfl, rfl⟩, rfl⟩

/-- The hardware key. -/
theorem witness_SetkeyCompletesB_hwKey :
    ∃ (st : State) (rest : List Answer), st.Idle ∧ st.eng.params.strategy = .b ∧ st.own.phase ≠
      .uninit ∧ st.args[0] = 1 ∧ (st.args[2] = 128 ∨ st.args[2] = 192 ∨ st.args[2] = 256 ∨
      st.args[2] = 0 ∧ st.eng.params.hasHwKey = true) ∧ fits st.eng.params st.args[1].toNat
      (st.args[2].toNat / 8) ∧ st.MutexFree ∧ st.eng.answers = List.replicate 3 .done ++ rest :=
  ⟨mk { pB .perCall with hasHwKey := true } (keyed (pB .carry) .keyed) (argv [1]) (List.replicate 3 .done), [],
    ⟨⟨rfl, rfl, rfl⟩, by decide, rfl⟩, rfl, by decide, rfl, Or.inr (Or.inr (Or.inr ⟨rfl, rfl⟩)), by decide,
    ⟨rfl, rfl⟩, rfl⟩

theorem witness_SetkeyCompletesA :
    ∃ (st : State) (rest : List Answer), st.Idle ∧ st.eng.params.strategy = .a ∧ st.own.phase ≠
      .uninit ∧ st.args[0] = 1 ∧ (st.args[2] = 128 ∨ st.args[2] = 192 ∨ st.args[2] = 256) ∧ fits
      st.eng.params st.args[1].toNat (st.args[2].toNat / 8) ∧ st.MutexFree ∧ st.eng.answers =
      List.replicate 2 .done ++ rest :=
  ⟨mk pA (keyed pA .keyed) (argv [1, 0x100, 256]) (List.replicate 2 .done), [],
    ⟨⟨rfl, rfl, rfl⟩, by decide, rfl⟩, rfl, by decide, rfl, Or.inr (Or.inr rfl), by decide, ⟨rfl, rfl⟩, rfl⟩

theorem witness_StartsCompletesB :
    ∃ (dir : Direction) (st : State) (rest : List Answer), st.Idle ∧ st.eng.params.strategy = .b ∧
      st.own.phase ≠ .uninit ∧ st.own.phase ≠ .unkeyed ∧ st.args[1] = 12 ∧ fits st.eng.params
      st.args[0].toNat 12 ∧ st.MutexFree ∧ st.own.imageValid = true ∧ st.own.image.configured =
      true ∧ st.own.image.mode = .ecb ∧ st.eng.answers = List.replicate 3 .done ++ rest :=
  ⟨.dec, mk (pB .carry) (keyed (pB .carry) .failed) (argv [0x140, 12]) (List.replicate 3 .done), [],
    ⟨⟨rfl, rfl, rfl⟩, by decide, rfl⟩, rfl, by decide, by decide, rfl, by decide, ⟨rfl, rfl⟩, rfl, rfl, rfl, rfl⟩

theorem witness_StartsCompletesA :
    ∃ (dir : Direction) (st : State) (rest : List Answer), st.Idle ∧ st.eng.params.strategy = .a ∧
      st.own.phase ≠ .uninit ∧ st.own.phase ≠ .unkeyed ∧ st.args[1] = 12 ∧ fits st.eng.params
      st.args[0].toNat 12 ∧ st.MutexFree ∧ st.own.imageValid = true ∧ st.own.image.configured =
      true ∧ st.own.image.mode = .gcm ∧ st.eng.answers = List.replicate 3 .done ++ rest :=
  ⟨.enc, mk pA (keyed pA .finished) (argv [0x140, 12]) (List.replicate 3 .done), [],
    ⟨⟨rfl, rfl, rfl⟩, by decide, rfl⟩, rfl, by decide, by decide, rfl, by decide, ⟨rfl, rfl⟩, rfl, rfl, rfl, rfl⟩

theorem witness_UpdateAdCompletesB :
    ∃ st : State, st.Idle ∧ st.eng.params.strategy = .b ∧ (st.own.phase = .started ∨ st.own.phase
      = .absorbingAAD) ∧ st.own.addLen.toNat + st.args[1].toNat < 2 ^ 61 ∧ fits st.eng.params
      st.args[0].toNat st.args[1].toNat :=
  ⟨mk (pB .perCall) { keyed (pB .carry) .absorbingAAD with addLen := 7 } (argv [0x1000, 13]) [],
    ⟨⟨rfl, rfl, rfl⟩, by decide, rfl⟩, rfl, Or.inr rfl, by decide, by decide⟩

theorem witness_UpdateAdCompletesA :
    ∃ st : State, st.Idle ∧ st.eng.params.strategy = .a ∧ (st.own.phase = .started ∨ st.own.phase
      = .absorbingAAD) ∧ st.own.addLen.toNat + st.args[1].toNat < 2 ^ 61 ∧ (st.args[1] = 0 ∨
      st.own.hdrPending = false) ∧ fits st.eng.params st.args[0].toNat st.args[1].toNat :=
  ⟨mk pA streamingA (argv [0x1000, 20]) [],
    ⟨⟨rfl, rfl, rfl⟩, by decide, rfl⟩, rfl, Or.inl rfl, by decide, Or.inr rfl, by decide⟩

/-- No bytes, a header being staged. -/
theorem witness_UpdateAdCompletesA_empty :
    ∃ st : State, st.Idle ∧ st.eng.params.strategy = .a ∧ (st.own.phase = .started ∨ st.own.phase
      = .absorbingAAD) ∧ st.own.addLen.toNat + st.args[1].toNat < 2 ^ 61 ∧ (st.args[1] = 0 ∨
      st.own.hdrPending = false) ∧ fits st.eng.params st.args[0].toNat st.args[1].toNat :=
  ⟨mk pA { streamingA with hdrPending := true, hdrLen := 1 } (argv [0x1000, 0]) [],
    ⟨⟨rfl, rfl, rfl⟩, by decide, rfl⟩, rfl, Or.inl rfl, by decide, Or.inl rfl, by decide⟩

/-- A call that continues an open block and overlaps its input. -/
theorem witness_UpdateCompletesB :
    ∃ (st : State) (rest : List Answer) (x o : List Byte) (off n : Nat), st.Idle ∧
      st.eng.params.strategy = .b ∧ (st.own.phase = .started ∨ st.own.phase = .absorbingAAD ∨
      st.own.phase = .absorbingPayload) ∧ ¬ (st.args[0].toNat < st.args[2].toNat ∧
      st.args[2].toNat - st.args[0].toNat < st.args[1].toNat) ∧ st.own.len.toNat +
      st.args[1].toNat ≤ 2 ^ 36 - 32 ∧ st.args[1].toNat ≤ st.args[3].toNat ∧ fits st.eng.params
      st.args[0].toNat st.args[1].toNat ∧ fits st.eng.params st.args[2].toNat st.args[1].toNat ∧
      (st.args[1] = 0 ∨ st.MutexFree) ∧ st.own.imageValid = true ∧ st.own.image.configured = true
      ∧ st.own.image.mode = .ecb ∧ st.eng.mem.wf = true ∧ n = st.args[1].toNat ∧ off = openOffset
      st.eng.params.policy st.own.len.toNat ∧ st.eng.answers = List.replicate (updateDrawsB off n)
      .done ++ rest ∧ x = st.eng.mem.readBytes st.args[0].toNat n ∧ o = cryptBytes (imageKey
      st.own.image) off st.own.y x :=
  ⟨mk (pB .carry) { keyed (pB .carry) .absorbingPayload with len := 5 } (argv [0x3005, 12, 0x3000, 12])
      (List.replicate 6 .done), [], _, _, 5, 12,
    ⟨⟨rfl, rfl, rfl⟩, by decide, rfl⟩, rfl, Or.inr (Or.inr rfl), by decide, by decide, by decide, by decide, by decide,
    Or.inr ⟨rfl, rfl⟩, rfl, rfl, rfl, rfl, rfl, rfl, rfl, rfl, rfl⟩

/-- No bytes, while another session holds the mutex. -/
theorem witness_UpdateCompletesB_empty :
    ∃ (st : State) (rest : List Answer) (x o : List Byte) (off n : Nat), st.Idle ∧
      st.eng.params.strategy = .b ∧ (st.own.phase = .started ∨ st.own.phase = .absorbingAAD ∨
      st.own.phase = .absorbingPayload) ∧ ¬ (st.args[0].toNat < st.args[2].toNat ∧
      st.args[2].toNat - st.args[0].toNat < st.args[1].toNat) ∧ st.own.len.toNat +
      st.args[1].toNat ≤ 2 ^ 36 - 32 ∧ st.args[1].toNat ≤ st.args[3].toNat ∧ fits st.eng.params
      st.args[0].toNat st.args[1].toNat ∧ fits st.eng.params st.args[2].toNat st.args[1].toNat ∧
      (st.args[1] = 0 ∨ st.MutexFree) ∧ st.own.imageValid = true ∧ st.own.image.configured = true
      ∧ st.own.image.mode = .ecb ∧ st.eng.mem.wf = true ∧ n = st.args[1].toNat ∧ off = openOffset
      st.eng.params.policy st.own.len.toNat ∧ st.eng.answers = List.replicate (updateDrawsB off n)
      .done ++ rest ∧ x = st.eng.mem.readBytes st.args[0].toNat n ∧ o = cryptBytes (imageKey
      st.own.image) off st.own.y x :=
  ⟨{ mk (pB .perCall) (keyed (pB .carry) .started) (argv []) [] with
      eng := { (mk (pB .perCall) (keyed (pB .carry) .started) (argv []) []).eng with
        arb := ⟨2, true, some 1⟩ } }, [], _, _, 0, 0,
    ⟨⟨rfl, rfl, rfl⟩, by decide, rfl⟩, rfl, Or.inl rfl, by decide, by decide, by decide, by decide, by decide,
    Or.inl rfl, rfl, rfl, rfl, rfl, rfl, rfl, rfl, rfl, rfl⟩

theorem witness_UpdateCompletesA :
    ∃ (st : State) (rest : List Answer) (x o a : List Byte) (n : Nat), st.Idle ∧
      st.eng.params.strategy = .a ∧ (st.own.phase = .started ∨ st.own.phase = .absorbingAAD ∨
      st.own.phase = .absorbingPayload) ∧ ¬ (st.args[0].toNat < st.args[2].toNat ∧
      st.args[2].toNat - st.args[0].toNat < st.args[1].toNat) ∧ st.own.len.toNat +
      st.args[1].toNat ≤ 2 ^ 36 - 32 ∧ st.args[1].toNat ≤ st.args[3].toNat ∧ (st.args[1] = 0 ∨
      st.own.len.toNat % 16 = 0) ∧ fits st.eng.params st.args[0].toNat st.args[1].toNat ∧ fits
      st.eng.params st.args[2].toNat st.args[1].toNat ∧ (st.args[1] = 0 ∨ st.MutexFree) ∧
      st.own.imageValid = true ∧ st.own.image.configured = true ∧ st.own.image.mode = .gcm ∧
      st.own.image.gActive = true ∧ st.own.headerOk st.eng.params ∧ st.eng.mem.wf = true ∧ n =
      st.args[1].toNat ∧ st.eng.answers = List.replicate (updateDrawsA st.own.hdrPending n) .done
      ++ rest ∧ x = st.eng.mem.readBytes st.args[0].toNat n ∧ o = cryptBytes (imageKey
      st.own.image) 0 st.own.image.gY x ∧ a = (if st.own.hdrPending then st.eng.mem.readBytes
      st.own.hdrAddr st.own.hdrLen.toNat else []) :=
  ⟨mk pA { streamingA with hdrPending := true, hdrAddr := 0x1000, hdrLen := 3 }
      (argv [0x3000, 20, 0x5000, 20]) (List.replicate 7 .done), [], _, _, _, 20,
    ⟨⟨rfl, rfl, rfl⟩, by decide, rfl⟩, rfl, Or.inl rfl, by decide, by decide, by decide, Or.inr rfl, by decide, by decide,
    Or.inr ⟨rfl, rfl⟩, rfl, rfl, rfl, rfl, fun _ => by decide, rfl, rfl, rfl, rfl, rfl, rfl⟩

theorem witness_FinishCompletesB :
    ∃ (st : State) (g : Block), st.Idle ∧ st.eng.params.strategy = .b ∧ (st.own.phase = .started ∨
      st.own.phase = .absorbingAAD ∨ st.own.phase = .absorbingPayload) ∧ 4 ≤ st.args[3].toNat ∧
      st.args[3].toNat ≤ 16 ∧ fits st.eng.params st.args[2].toNat st.args[3].toNat ∧ g = ghashMult
      st.own.table (closePhase st.eng.params.policy st.own.table (if st.own.phase =
      .absorbingPayload then st.own.len.toNat else st.own.addLen.toNat) st.own.buf ^^^ lengthBlock
      st.own.addLen st.own.len) :=
  ⟨mk (pB .carry) { keyed (pB .carry) .absorbingPayload with len := 60, addLen := 20 }
      (argv [0, 0, 0x180, 4]) [], _, ⟨⟨rfl, rfl, rfl⟩, by decide, rfl⟩, rfl, Or.inr (Or.inr rfl), by decide,
    by decide, by decide, rfl⟩

theorem witness_FinishCompletesA :
    ∃ (st : State) (rest : List Answer) (a : List Byte) (g : Block), st.Idle ∧
      st.eng.params.strategy = .a ∧ (st.own.phase = .started ∨ st.own.phase = .absorbingAAD ∨
      st.own.phase = .absorbingPayload) ∧ st.args[3] = 16 ∧ fits st.eng.params st.args[2].toNat 16
      ∧ st.MutexFree ∧ st.own.imageValid = true ∧ st.own.image.configured = true ∧
      st.own.image.mode = .gcm ∧ st.own.image.gActive = true ∧ st.own.headerOk st.eng.params ∧
      st.eng.answers = List.replicate (if st.own.hdrPending = true then 4 else 3) .done ++ rest ∧
      a = (if st.own.hdrPending then st.eng.mem.readBytes st.own.hdrAddr st.own.hdrLen.toNat else
      []) ∧ g = ghashFrom (imageSubkey st.own.image) st.own.image.gAcc (padBlocks a ++
      [lengthBlock st.own.addLen st.own.len]) :=
  ⟨mk pA { streamingA with hdrPending := true, hdrAddr := 0x1000, hdrLen := 3 }
      (argv [0, 0, 0x180, 16]) (List.replicate 4 .done), [], _, _, ⟨⟨rfl, rfl, rfl⟩, by decide, rfl⟩, rfl,
    Or.inl rfl, rfl, by decide, ⟨rfl, rfl⟩, rfl, rfl, rfl, rfl, fun _ => by decide, rfl, rfl, rfl⟩

theorem witness_CryptAndTagIsGcm :
    ∃ (dir : Direction) (st : State) (rest : List Answer) (key a x o : List Byte) (y0 : Block) (n
      : Nat), st.Idle ∧ st.own.phase ≠ .uninit ∧ st.own.phase ≠ .unkeyed ∧ st.own.Bound
      st.eng.params ∧ st.args[2] = 12 ∧ st.args[4].toNat < 2 ^ 61 ∧ ¬ (st.args[5].toNat <
      st.args[6].toNat ∧ st.args[6].toNat - st.args[5].toNat < st.args[0].toNat) ∧
      st.args[0].toNat ≤ 2 ^ 36 - 32 ∧ tagLenOk st.eng.params st.args[7] = true ∧ fits
      st.eng.params st.args[1].toNat 12 ∧ fits st.eng.params st.args[3].toNat st.args[4].toNat ∧
      fits st.eng.params st.args[5].toNat st.args[0].toNat ∧ fits st.eng.params st.args[6].toNat
      st.args[0].toNat ∧ fits st.eng.params st.args[8].toNat st.args[7].toNat ∧ st.MutexFree ∧
      st.eng.mem.wf = true ∧ n = st.args[0].toNat ∧ st.eng.answers = List.replicate
      (compositeDraws st.eng.params st.args[4].toNat n) .done ++ rest ∧ key = imageKey
      st.own.image ∧ y0 = preCounter (st.eng.mem.readBytes st.args[1].toNat 12) ∧ a =
      st.eng.mem.readBytes st.args[3].toNat st.args[4].toNat ∧ x = st.eng.mem.readBytes
      st.args[5].toNat n ∧ o = cryptBytes key 0 y0 x :=
  ⟨.dec, mk (pB .perCall) (keyed (pB .carry) .failed) (argv [20, 0, 12, 0x100, 3, 0x210, 0x200, 16, 0x300])
      (List.replicate 9 .done), [], _, _, _, _, _, 20, ⟨⟨rfl, rfl, rfl⟩, by decide, rfl⟩, by decide, by decide,
    ⟨rfl, rfl, rfl, fun _ => rfl⟩, rfl, by decide, by decide, by decide, by decide, by decide, by decide,
    by decide, by decide, by decide, ⟨rfl, rfl⟩, rfl, rfl, rfl, rfl, rfl, rfl, rfl, rfl⟩

theorem witness_CryptAndTagIsGcm_A :
    ∃ (dir : Direction) (st : State) (rest : List Answer) (key a x o : List Byte) (y0 : Block) (n
      : Nat), st.Idle ∧ st.own.phase ≠ .uninit ∧ st.own.phase ≠ .unkeyed ∧ st.own.Bound
      st.eng.params ∧ st.args[2] = 12 ∧ st.args[4].toNat < 2 ^ 61 ∧ ¬ (st.args[5].toNat <
      st.args[6].toNat ∧ st.args[6].toNat - st.args[5].toNat < st.args[0].toNat) ∧
      st.args[0].toNat ≤ 2 ^ 36 - 32 ∧ tagLenOk st.eng.params st.args[7] = true ∧ fits
      st.eng.params st.args[1].toNat 12 ∧ fits st.eng.params st.args[3].toNat st.args[4].toNat ∧
      fits st.eng.params st.args[5].toNat st.args[0].toNat ∧ fits st.eng.params st.args[6].toNat
      st.args[0].toNat ∧ fits st.eng.params st.args[8].toNat st.args[7].toNat ∧ st.MutexFree ∧
      st.eng.mem.wf = true ∧ n = st.args[0].toNat ∧ st.eng.answers = List.replicate
      (compositeDraws st.eng.params st.args[4].toNat n) .done ++ rest ∧ key = imageKey
      st.own.image ∧ y0 = preCounter (st.eng.mem.readBytes st.args[1].toNat 12) ∧ a =
      st.eng.mem.readBytes st.args[3].toNat st.args[4].toNat ∧ x = st.eng.mem.readBytes
      st.args[5].toNat n ∧ o = cryptBytes key 0 y0 x :=
  ⟨.dec, mk pA (keyed pA .failed) (argv [20, 0, 12, 0x100, 3, 0x210, 0x200, 16, 0x300])
      (List.replicate 13 .done), [], _, _, _, _, _, 20, ⟨⟨rfl, rfl, rfl⟩, by decide, rfl⟩, by decide, by decide,
    ⟨rfl, rfl, rfl, nofun⟩, rfl, by decide, by decide, by decide, by decide, by decide, by decide,
    by decide, by decide, by decide, ⟨rfl, rfl⟩, rfl, rfl, rfl, rfl, rfl, rfl, rfl, rfl⟩

/-- Arguments of an `AUTH_DECRYPT` of three bytes and three bytes of AAD, the tag at 0x300. -/
def authArgs (n : W64) : Args := argv [n, 0, 12, 0x100, 3, 0x300, 4, 0x200, 0x200]

/-- The tag of the empty message with three zero bytes of AAD under the tests' key. -/
def authTag : List Byte :=
  (bytesOfBlock (gcmTag (List.replicate 16 0x5A) (preCounter (List.replicate 12 0))
    (List.replicate 3 0) [])).take 4

/-- A memory that holds, at the tag's address, a string computed from the tag GCM gives for the
empty message. -/
def authMem (f : Byte → Byte) : Memory := Memory.writeBytes [] 0x300 (authTag.map f)

theorem witness_AuthDecryptVerifies :
    ∃ (st : State) (rest : List Answer) (key a x o tag expected : List Byte) (y0 : Block) (n :
      Nat), st.Idle ∧ st.own.phase ≠ .uninit ∧ st.own.phase ≠ .unkeyed ∧ st.own.Bound
      st.eng.params ∧ st.args[2] = 12 ∧ st.args[4].toNat < 2 ^ 61 ∧ ¬ (st.args[7].toNat <
      st.args[8].toNat ∧ st.args[8].toNat - st.args[7].toNat < st.args[0].toNat) ∧
      st.args[0].toNat ≤ 2 ^ 36 - 32 ∧ tagLenOk st.eng.params st.args[6] = true ∧ fits
      st.eng.params st.args[1].toNat 12 ∧ fits st.eng.params st.args[3].toNat st.args[4].toNat ∧
      fits st.eng.params st.args[5].toNat st.args[6].toNat ∧ fits st.eng.params st.args[7].toNat
      st.args[0].toNat ∧ fits st.eng.params st.args[8].toNat st.args[0].toNat ∧ st.MutexFree ∧
      st.eng.mem.wf = true ∧ n = st.args[0].toNat ∧ st.eng.answers = List.replicate
      (compositeDraws st.eng.params st.args[4].toNat n) .done ++ rest ∧ key = imageKey
      st.own.image ∧ y0 = preCounter (st.eng.mem.readBytes st.args[1].toNat 12) ∧ a =
      st.eng.mem.readBytes st.args[3].toNat st.args[4].toNat ∧ x = st.eng.mem.readBytes
      st.args[7].toNat n ∧ o = cryptBytes key 0 y0 x ∧ tag = (bytesOfBlock (gcmTag key y0 a
      x)).take st.args[6].toNat ∧ expected = (st.eng.mem.writeBytes st.args[8].toNat o).readBytes
      st.args[5].toNat st.args[6].toNat :=
  ⟨mk (pB .carry) (keyed (pB .carry) .keyed) (authArgs 3) (List.replicate 6 .done), [], _, _, _, _, _, _,
    _, 3, ⟨⟨rfl, rfl, rfl⟩, by decide, rfl⟩, by decide, by decide, ⟨rfl, rfl, rfl, fun _ => rfl⟩, rfl,
    by decide, by decide, by decide, by decide, by decide, by decide, by decide, by decide,
    by decide, ⟨rfl, rfl⟩, rfl, rfl, rfl, rfl, rfl, rfl, rfl, rfl, rfl, rfl⟩

/-- What is in the memory `authMem f`. -/
theorem authMem_reads (f : Byte → Byte) :
    (authMem f).wf = true ∧ (authMem f).readBytes 0 12 = List.replicate 12 0 ∧
      (authMem f).readBytes 0x100 3 = List.replicate 3 0 ∧
      (authMem f).readBytes 0x300 4 = authTag.map f := by
  have hl : authTag.length = 4 := by simp [authTag]
  have hw : Memory.wf [] = true := rfl
  refine ⟨Memory.wf_writeBytes _ hw _ _, ?_, ?_, ?_⟩
  · exact Memory.readBytes_writeBytes_disjoint [] hw _ _ _ _ (by omega)
  · exact Memory.readBytes_writeBytes_disjoint [] hw _ _ _ _ (by omega)
  · have := Memory.readBytes_writeBytes_self [] hw 0x300 (authTag.map f)
    rwa [List.length_map, hl] at this

theorem authTag_flipped : authTag.map (~~~ ·) ≠ authTag := by
  have hl : authTag.length = 4 := by simp [authTag]
  intro h
  have hb : ∀ b : Byte, ~~~b ≠ b := fun b e => by
    have := congrArg (·.getLsbD 0) e
    simp at this
  match ht : authTag, hl with
  | b :: _, _ => rw [ht, List.map_cons, List.cons.injEq] at h; exact hb b h.1

/-- The tag in memory is the one GCM gives for the empty message with three bytes of AAD. -/
theorem witness_AuthDecryptVerifies_match :
    ∃ (st : State) (rest : List Answer) (key a x o tag expected : List Byte) (y0 : Block) (n :
      Nat), st.Idle ∧ st.own.phase ≠ .uninit ∧ st.own.phase ≠ .unkeyed ∧ st.own.Bound
      st.eng.params ∧ st.args[2] = 12 ∧ st.args[4].toNat < 2 ^ 61 ∧ ¬ (st.args[7].toNat <
      st.args[8].toNat ∧ st.args[8].toNat - st.args[7].toNat < st.args[0].toNat) ∧
      st.args[0].toNat ≤ 2 ^ 36 - 32 ∧ tagLenOk st.eng.params st.args[6] = true ∧ fits
      st.eng.params st.args[1].toNat 12 ∧ fits st.eng.params st.args[3].toNat st.args[4].toNat ∧
      fits st.eng.params st.args[5].toNat st.args[6].toNat ∧ fits st.eng.params st.args[7].toNat
      st.args[0].toNat ∧ fits st.eng.params st.args[8].toNat st.args[0].toNat ∧ st.MutexFree ∧
      st.eng.mem.wf = true ∧ n = st.args[0].toNat ∧ st.eng.answers = List.replicate
      (compositeDraws st.eng.params st.args[4].toNat n) .done ++ rest ∧ key = imageKey
      st.own.image ∧ y0 = preCounter (st.eng.mem.readBytes st.args[1].toNat 12) ∧ a =
      st.eng.mem.readBytes st.args[3].toNat st.args[4].toNat ∧ x = st.eng.mem.readBytes
      st.args[7].toNat n ∧ o = cryptBytes key 0 y0 x ∧ tag = (bytesOfBlock (gcmTag key y0 a
      x)).take st.args[6].toNat ∧ expected = (st.eng.mem.writeBytes st.args[8].toNat o).readBytes
      st.args[5].toNat st.args[6].toNat ∧ tag = expected :=
  by
  have hr := authMem_reads id
  generalize authMem id = m at hr
  obtain ⟨tag, htag⟩ : ∃ tag, tag = authTag := ⟨_, rfl⟩
  obtain ⟨hm, h1, h2, h3⟩ := hr
  have hd {P : Prop} [Decidable P] (h : decide P = true) : P := of_decide_eq_true h
  exact ⟨mk (pB .carry) (keyed (pB .carry) .keyed) (authArgs 0) (List.replicate 3 .done) m, [],
    List.replicate 16 0x5A, List.replicate 3 0, [], [], tag, authTag.map id,
    preCounter (List.replicate 12 0), 0, ⟨⟨rfl, rfl, rfl⟩, hd rfl, rfl⟩, hd rfl, hd rfl,
    ⟨rfl, rfl, rfl, fun _ => rfl⟩, rfl, hd rfl, hd rfl, hd rfl, hd rfl, hd rfl,
    hd rfl, hd rfl, hd rfl, hd rfl, ⟨rfl, rfl⟩, hm, rfl, rfl, rfl,
    congrArg preCounter h1.symm, h2.symm, rfl, rfl, htag, h3.symm, htag.trans (List.map_id _).symm⟩

/-- The tag in memory differs from it in every bit. -/
theorem witness_AuthDecryptVerifies_mismatch :
    ∃ (st : State) (rest : List Answer) (key a x o tag expected : List Byte) (y0 : Block) (n :
      Nat), st.Idle ∧ st.own.phase ≠ .uninit ∧ st.own.phase ≠ .unkeyed ∧ st.own.Bound
      st.eng.params ∧ st.args[2] = 12 ∧ st.args[4].toNat < 2 ^ 61 ∧ ¬ (st.args[7].toNat <
      st.args[8].toNat ∧ st.args[8].toNat - st.args[7].toNat < st.args[0].toNat) ∧
      st.args[0].toNat ≤ 2 ^ 36 - 32 ∧ tagLenOk st.eng.params st.args[6] = true ∧ fits
      st.eng.params st.args[1].toNat 12 ∧ fits st.eng.params st.args[3].toNat st.args[4].toNat ∧
      fits st.eng.params st.args[5].toNat st.args[6].toNat ∧ fits st.eng.params st.args[7].toNat
      st.args[0].toNat ∧ fits st.eng.params st.args[8].toNat st.args[0].toNat ∧ st.MutexFree ∧
      st.eng.mem.wf = true ∧ n = st.args[0].toNat ∧ st.eng.answers = List.replicate
      (compositeDraws st.eng.params st.args[4].toNat n) .done ++ rest ∧ key = imageKey
      st.own.image ∧ y0 = preCounter (st.eng.mem.readBytes st.args[1].toNat 12) ∧ a =
      st.eng.mem.readBytes st.args[3].toNat st.args[4].toNat ∧ x = st.eng.mem.readBytes
      st.args[7].toNat n ∧ o = cryptBytes key 0 y0 x ∧ tag = (bytesOfBlock (gcmTag key y0 a
      x)).take st.args[6].toNat ∧ expected = (st.eng.mem.writeBytes st.args[8].toNat o).readBytes
      st.args[5].toNat st.args[6].toNat ∧ tag ≠ expected :=
  by
  have hr := authMem_reads (~~~ ·)
  generalize authMem (~~~ ·) = m at hr
  obtain ⟨tag, htag⟩ : ∃ tag, tag = authTag := ⟨_, rfl⟩
  obtain ⟨hm, h1, h2, h3⟩ := hr
  have hd {P : Prop} [Decidable P] (h : decide P = true) : P := of_decide_eq_true h
  exact ⟨mk (pB .carry) (keyed (pB .carry) .keyed) (authArgs 0) (List.replicate 3 .done) m, [],
    List.replicate 16 0x5A, List.replicate 3 0, [], [], tag, authTag.map (~~~ ·),
    preCounter (List.replicate 12 0), 0, ⟨⟨rfl, rfl, rfl⟩, hd rfl, rfl⟩, hd rfl, hd rfl,
    ⟨rfl, rfl, rfl, fun _ => rfl⟩, rfl, hd rfl, hd rfl, hd rfl, hd rfl, hd rfl,
    hd rfl, hd rfl, hd rfl, hd rfl, ⟨rfl, rfl⟩, hm, rfl, rfl, rfl,
    congrArg preCounter h1.symm, h2.symm, rfl, rfl, htag, h3.symm, fun h => authTag_flipped (h.symm.trans htag)⟩

/-- A failure in the second section: the output was written and is zeroed. -/
theorem witness_AuthDecryptReleasesNothing :
    ∃ st t : State, st.Idle ∧ st.eng.mem.wf = true ∧ exec .authDecrypt st = .next t ∧
      t.inFlight st.cur = none ∧ (t.mailbox st.cur).status ≠ 0 :=
  ⟨mk (pB .carry) (keyed (pB .carry) .keyed) (authArgs 3) (List.replicate 5 .done), _,
    ⟨⟨rfl, rfl, rfl⟩, by decide, rfl⟩, rfl, eq_next _ (by decide +kernel), by decide +kernel,
    by decide +kernel⟩

/-- The output overlaps the input from below -/
theorem witness_DecryptOfEncrypt :
    ∃ (st t : State) (x : List Byte) (n k : Nat) (out : W64), st.Idle ∧ st.own.phase ≠ .uninit ∧
      st.own.phase ≠ .unkeyed ∧ st.own.Bound st.eng.params ∧ st.MutexFree ∧ st.eng.mem.wf = true ∧
      n = st.args[0].toNat ∧ checkCryptAndTag st.eng.params st.own st.args = none ∧ st.eng.answers
      = List.replicate k .done ∧ 2 * compositeDraws st.eng.params st.args[4].toNat n ≤ k ∧ x =
      st.eng.mem.readBytes st.args[5].toNat n ∧ ((∀ b m, b = st.args[6].toNat ∧ m = n ∨ b =
      st.args[8].toNat ∧ m = st.args[7].toNat → apart b m st.args[1].toNat 12 ∧ apart b m
      st.args[3].toNat st.args[4].toNat)) ∧ apart st.args[6].toNat n st.args[8].toNat
      st.args[7].toNat ∧ fits st.eng.params out.toNat n ∧ apart out.toNat n st.args[8].toNat
      st.args[7].toNat ∧ ¬ (st.args[6].toNat < out.toNat ∧ out.toNat - st.args[6].toNat < n) ∧
      exec (.cryptAndTag .enc) st = .next t :=
  ⟨mk (pB .carry) (keyed (pB .carry) .keyed) (argv [5, 0, 12, 0x100, 3, 0x200, 0x200, 16, 0x300])
      (List.replicate 12 .done), _, _, 5, 12, 0x1FD, ⟨⟨rfl, rfl, rfl⟩, by decide, rfl⟩, by decide, by decide,
    ⟨rfl, rfl, rfl, fun _ => rfl⟩, ⟨rfl, rfl⟩, rfl, rfl, by decide, rfl, by decide, rfl, by
      rintro b m (⟨rfl, rfl⟩ | ⟨rfl, rfl⟩) <;> decide, by decide, by decide, by decide, by decide,
    eq_next _ (by decide +kernel)⟩

def streamState (a b : W64) (i o : W64) : State :=
  mk (pB .carry) { keyed (pB .carry) .absorbingPayload with len := 9 } #v[i, a, o, a, 0, 0, 0, 0, 0]
    (List.replicate (updateDrawsB 9 a.toNat + updateDrawsB ((9 + a.toNat) % 16) b.toNat) .done)

theorem witness_StreamingUpdate :
    ∃ (st t u w : State) (i o a b : W64) (k : Nat), st.Idle ∧ st.eng.params.strategy = .b ∧
      st.eng.params.policy = .carry ∧ (st.own.phase = .started ∨ st.own.phase = .absorbingAAD ∨
      st.own.phase = .absorbingPayload) ∧ st.own.imageValid = true ∧ st.own.image.configured =
      true ∧ st.own.image.mode = .ecb ∧ st.MutexFree ∧ st.eng.mem.wf = true ∧ st.eng.answers =
      List.replicate k .done ∧ st.own.len.toNat + a.toNat + b.toNat ≤ 2 ^ 36 - 32 ∧ i.toNat +
      a.toNat + b.toNat ≤ 2 ^ st.eng.params.addrBits ∧ o.toNat + a.toNat + b.toNat ≤ 2 ^
      st.eng.params.addrBits ∧ i.toNat + a.toNat < 2 ^ 64 ∧ o.toNat + a.toNat < 2 ^ 64 ∧ ((o.toNat
      ≤ i.toNat ∨ i.toNat + a.toNat + b.toNat ≤ o.toNat)) ∧ updateDrawsB (st.own.len.toNat % 16)
      a.toNat + updateDrawsB ((st.own.len.toNat + a.toNat) % 16) b.toNat ≤ k ∧ st.args = #v[i, a,
      o, a, 0, 0, 0, 0, 0] ∧ exec .update st = .next t ∧ exec .update (t.setMailbox t.cur {
      t.mailbox t.cur with args := #v[i + a, b, o + a, b, 0, 0, 0, 0, 0] }) = .next u ∧ exec
      .update (st.setMailbox st.cur { st.mailbox st.cur with args := #v[i, a + b, o, a + b, 0, 0,
      0, 0, 0] }) = .next w :=
  ⟨streamState 3 5 0x210 0x200, _, _, _, 0x210, 0x200, 3, 5, _, ⟨⟨rfl, rfl, rfl⟩, by decide, rfl⟩, rfl, rfl,
    Or.inr (Or.inr rfl), rfl, rfl, rfl, ⟨rfl, rfl⟩, rfl, rfl, by decide, by decide, by decide,
    by decide, by decide, by decide, by decide, rfl, eq_next _ (by decide +kernel),
    eq_next _ (by decide +kernel), eq_next _ (by decide +kernel)⟩

theorem witness_RejectionChangesStatusOnly :
    ∃ (i : Instr) (cmd : Command) (st : State) (c : Cause), commandOf i = some cmd ∧ st.Idle ∧
      cmd.check st.eng.params st.own st.args = some c :=
  ⟨.starts .enc, startsCommand .enc, mk (pB .carry) (keyed (pB .carry) .keyed) (argv [0, 11]) [], .ivLen, rfl,
    ⟨⟨rfl, rfl, rfl⟩, by decide, rfl⟩, by decide⟩

theorem witness_RejectionChangesStatusOnly_ended :
    ∃ (i : Instr) (cmd : Command) (st t : State), commandOf i = some cmd ∧ st.Idle ∧ exec i st =
      .next t ∧ t.inFlight st.cur = none ∧ ((t.mailbox st.cur).status &&& 0xF = 1 ∨ (t.mailbox
      st.cur).status &&& 0xF = 2) :=
  ⟨.starts .enc, startsCommand .enc, mk (pB .carry) (keyed (pB .carry) .keyed) (argv [0, 11]) [], _, rfl,
    ⟨⟨rfl, rfl, rfl⟩, by decide, rfl⟩, eq_next _ (by decide +kernel), by decide +kernel, .inr (by decide +kernel)⟩

theorem witness_SetkeyStartsRejections_setkey :
    ∃ (st : State) (status : BitVec 32), st.Idle ∧ (status = (if st.own.phase = .uninit then 0x021
      else if st.args[0] ≠ 1 then 0x031 else if st.args[2] = 0 ∧ (st.eng.params.strategy = .a ∨
      st.eng.params.hasHwKey = false) then 0x242 else if st.args[2] ≠ 0 ∧ st.args[2] ≠ 128 ∧
      st.args[2] ≠ 192 ∧ st.args[2] ≠ 256 then 0x041 else if ¬ fits st.eng.params st.args[1].toNat
      (st.args[2].toNat / 8) then 0x0B1 else 0 : BitVec 32)) ∧ status ≠ 0 :=
  ⟨mk (pB .carry) (keyed (pB .carry) .unkeyed) (argv [1, 0xFFFFFFF1, 128]) [], 0x0B1, ⟨⟨rfl, rfl, rfl⟩, by decide, rfl⟩,
    by decide +kernel, by decide⟩

theorem witness_SetkeyStartsRejections_starts :
    ∃ (dir : Direction) (st : State) (status : BitVec 32), st.Idle ∧ (status = (if st.own.phase =
      .uninit ∨ st.own.phase = .unkeyed then 0x021 else if st.args[1] ≠ 12 then 0x202 else if ¬
      fits st.eng.params st.args[0].toNat 12 then 0x0B1 else 0 : BitVec 32)) ∧ status ≠ 0 :=
  ⟨.dec, mk (pB .carry) (keyed (pB .carry) .keyed) (argv [0, 13]) [], 0x202, ⟨⟨rfl, rfl, rfl⟩, by decide, rfl⟩,
    by decide +kernel, by decide⟩

theorem witness_UpdateAdFinishRejections_updateAd :
    ∃ (st : State) (status : BitVec 32), st.Idle ∧ status = (if st.own.phase ≠ .started ∧
      st.own.phase ≠ .absorbingAAD then 0x021 else if 2 ^ 61 ≤ st.own.addLen.toNat +
      st.args[1].toNat then 0x061 else if st.eng.params.strategy = .a ∧ st.args[1] ≠ 0 ∧
      st.own.hdrPending = true then 0x232 else if ¬ fits st.eng.params st.args[0].toNat
      st.args[1].toNat then 0x0B1 else 0 : BitVec 32) ∧ status ≠ 0 :=
  ⟨mk pA { streamingA with hdrPending := true } (argv [0, 1]) [], 0x232, ⟨⟨rfl, rfl, rfl⟩, by decide, rfl⟩,
    by decide +kernel, by decide⟩

theorem witness_UpdateAdFinishRejections_finish :
    ∃ (st : State) (status : BitVec 32), st.Idle ∧ (status = (if st.own.phase ≠ .started ∧
      st.own.phase ≠ .absorbingAAD ∧ st.own.phase ≠ .absorbingPayload then 0x021 else if
      st.eng.params.strategy = .b ∧ (st.args[3].toNat < 4 ∨ 16 < st.args[3].toNat) then 0x051 else
      if st.eng.params.strategy = .a ∧ st.args[3] ≠ 16 then 0x212 else if ¬ fits st.eng.params
      st.args[2].toNat st.args[3].toNat then 0x0B1 else 0 : BitVec 32)) ∧ status ≠ 0 :=
  ⟨mk (pB .carry) (keyed (pB .carry) .started) (argv [0, 0, 0, 17]) [], 0x051, ⟨⟨rfl, rfl, rfl⟩, by decide, rfl⟩,
    by decide +kernel, by decide⟩

theorem witness_UpdateRejections_order :
    ∃ (st : State) (status : BitVec 32), st.Idle ∧ (status = (if st.own.phase ≠ .started ∧
      st.own.phase ≠ .absorbingAAD ∧ st.own.phase ≠ .absorbingPayload then 0x021 else if
      st.args[0].toNat < st.args[2].toNat ∧ st.args[2].toNat - st.args[0].toNat < st.args[1].toNat
      then 0x081 else if 2 ^ 36 - 32 < st.own.len.toNat + st.args[1].toNat then 0x071 else if
      st.args[3].toNat < st.args[1].toNat then 0x091 else if st.eng.params.strategy = .a ∧
      st.args[1] ≠ 0 ∧ st.own.len.toNat % 16 ≠ 0 then 0x222 else if ¬ fits st.eng.params
      st.args[0].toNat st.args[1].toNat ∨ ¬ fits st.eng.params st.args[2].toNat st.args[1].toNat
      then 0x0B1 else 0 : BitVec 32)) ∧ status ≠ 0 :=
  ⟨mk (pB .carry) (keyed (pB .carry) .started) (argv [0, 2 ^ 37, 1, 0]) [], 0x081, ⟨⟨rfl, rfl, rfl⟩, by decide, rfl⟩,
    by decide +kernel, by decide⟩

theorem witness_CompositeRejections_authDecrypt :
    ∃ (i : Instr) (st : State) (o : CompositeOperands) (status : BitVec 32), st.Idle ∧ (((∃ dir, i
      = .cryptAndTag dir) ∧ o = cryptAndTagOperands st.args ∨ i = .authDecrypt ∧ o =
      authDecryptOperands st.args)) ∧ (status = (if st.own.phase = .uninit ∨ st.own.phase =
      .unkeyed then 0x021 else if o.ivLen ≠ 12 then 0x202 else if 2 ^ 61 ≤ o.aadLen.toNat then
      0x061 else if o.input.toNat < o.output.toNat ∧ o.output.toNat - o.input.toNat <
      o.length.toNat then 0x081 else if 2 ^ 36 - 32 < o.length.toNat then 0x071 else if
      st.eng.params.strategy = .b ∧ (o.tagLen.toNat < 4 ∨ 16 < o.tagLen.toNat) then 0x051 else if
      st.eng.params.strategy = .a ∧ o.tagLen ≠ 16 then 0x212 else if ¬ fits st.eng.params
      o.iv.toNat 12 ∨ ¬ fits st.eng.params o.aad.toNat o.aadLen.toNat ∨ ¬ fits st.eng.params
      o.input.toNat o.length.toNat ∨ ¬ fits st.eng.params o.output.toNat o.length.toNat ∨ ¬ fits
      st.eng.params o.tag.toNat o.tagLen.toNat then 0x0B1 else 0 : BitVec 32)) ∧ status ≠ 0 :=
  ⟨.authDecrypt, mk pA (keyed pA .keyed) (argv [0, 0, 12, 0, 0, 0, 15, 0, 0]) [], _, 0x212, ⟨⟨rfl, rfl, rfl⟩, by decide, rfl⟩,
    .inr ⟨rfl, rfl⟩, by decide +kernel, by decide⟩

theorem witness_CompositeRejections_cryptAndTag :
    ∃ (i : Instr) (st : State) (o : CompositeOperands) (status : BitVec 32), st.Idle ∧ (((∃ dir, i
      = .cryptAndTag dir) ∧ o = cryptAndTagOperands st.args ∨ i = .authDecrypt ∧ o =
      authDecryptOperands st.args)) ∧ (status = (if st.own.phase = .uninit ∨ st.own.phase =
      .unkeyed then 0x021 else if o.ivLen ≠ 12 then 0x202 else if 2 ^ 61 ≤ o.aadLen.toNat then
      0x061 else if o.input.toNat < o.output.toNat ∧ o.output.toNat - o.input.toNat <
      o.length.toNat then 0x081 else if 2 ^ 36 - 32 < o.length.toNat then 0x071 else if
      st.eng.params.strategy = .b ∧ (o.tagLen.toNat < 4 ∨ 16 < o.tagLen.toNat) then 0x051 else if
      st.eng.params.strategy = .a ∧ o.tagLen ≠ 16 then 0x212 else if ¬ fits st.eng.params
      o.iv.toNat 12 ∨ ¬ fits st.eng.params o.aad.toNat o.aadLen.toNat ∨ ¬ fits st.eng.params
      o.input.toNat o.length.toNat ∨ ¬ fits st.eng.params o.output.toNat o.length.toNat ∨ ¬ fits
      st.eng.params o.tag.toNat o.tagLen.toNat then 0x0B1 else 0 : BitVec 32)) ∧ status ≠ 0 :=
  ⟨.cryptAndTag .enc, mk (pB .carry) (keyed (pB .carry) .keyed) (argv [2, 0, 12, 0, 0, 0, 1, 16, 0]) [], _, 0x081, ⟨⟨rfl, rfl, rfl⟩, by decide, rfl⟩,
    .inl ⟨⟨.enc, rfl⟩, rfl⟩, by decide +kernel, by decide⟩

/-- Each status of R63, R74, R64 and R75 is met, the two classes among them. -/
theorem witness_SetkeyStartsRejections :
    ([(Phase.uninit, argv [1, 0, 128]), (.unkeyed, argv [2, 0, 128]), (.unkeyed, argv [1, 0, 0]),
      (.unkeyed, argv [1, 0, 129]), (.unkeyed, argv [1, 0xFFFFFFF1, 128])].map fun q =>
        checkSetkey (pB .carry) { Ctx.zero with phase := q.1 } q.2) =
      [some .sequence, some .cipherId, some .hwKey, some .keyBits, some .addrRange] ∧
    ([(Phase.unkeyed, argv [0, 12]), (.keyed, argv [0, 13]), (.keyed, argv [0xFFFFFFF5, 12])].map
      fun q => checkStarts (pB .carry) { Ctx.zero with phase := q.1 } q.2) =
      [some .sequence, some .ivLen, some .addrRange] ∧
    (mk (pB .carry) (keyed (pB .carry) .keyed) (argv []) []).Idle :=
  ⟨by decide, by decide, ⟨rfl, rfl, rfl⟩, by decide, rfl⟩

theorem witness_UpdateAdFinishRejections :
    ([(Phase.keyed, 0, argv [0, 1]), (.started, 5, argv [0, 2 ^ 61 - 5]),
      (.started, 0, argv [0x100000000, 1])].map fun q : Phase × W64 × Args =>
        checkUpdateAd (pB .carry) { Ctx.zero with phase := q.1, addLen := q.2.1 } q.2.2) =
      [some .sequence, some .aadBound, some .addrRange] ∧
    checkUpdateAd pA { streamingA with hdrPending := true } (argv [0, 1]) = some .aadChunkingA ∧
    ([argv [0, 0, 0, 3], argv [0, 0, 0, 17], argv [0, 0, 0xFFFFFFFD, 4]].map
      (checkFinish (pB .carry) (keyed (pB .carry) .started))) =
      [some .tagLen, some .tagLen, some .addrRange] ∧
    checkFinish pA streamingA (argv [0, 0, 0, 15]) = some .tagLenA ∧
    checkFinish pA (keyed pA .finished) (argv [0, 0, 0, 16]) = some .sequence := by
  decide +kernel

/-- E11 to E13, E20, E24 and the order of R101: a call that fails several checks reports the first. -/
theorem witness_UpdateRejections :
    ([(Phase.keyed, 0, argv [0, 9, 1, 0]), (.started, 0, argv [0, 2 ^ 37, 1, 0]),
      (.started, 2, argv [0, 2 ^ 36 - 33, 0, 0]), (.started, 2, argv [0, 4, 0, 3]),
      (.started, 0, argv [0xFFFFFFFF, 2, 0, 2])].map fun q : Phase × W64 × Args =>
        checkUpdate (pB .carry) { Ctx.zero with phase := q.1, len := q.2.1 } q.2.2) =
      [some .sequence, some .overlap, some .payloadBound, some .outputCap, some .addrRange] ∧
    checkUpdate pA { streamingA with len := 5 } (argv [0, 1, 0, 1]) = some .partialChunkA ∧
    (mk pA streamingA (argv []) []).Idle :=
  ⟨by decide, by decide, ⟨rfl, rfl, rfl⟩, by decide, rfl⟩

theorem witness_CompositeRejections :
    ([(Phase.unkeyed, argv [0, 0, 12, 0, 0, 0, 0, 16, 0]), (.keyed, argv [0, 0, 0, 0, 0, 0, 0, 16, 0]),
      (.keyed, argv [0, 0, 12, 0, 2 ^ 61, 0, 0, 16, 0]), (.keyed, argv [2, 0, 12, 0, 0, 0, 1, 16, 0]),
      (.keyed, argv [2 ^ 36 - 31, 0, 12, 0, 0, 0, 0, 16, 0]), (.keyed, argv [0, 0, 12, 0, 0, 0, 0, 3, 0]),
      (.keyed, argv [0, 0, 12, 0, 0, 0, 0, 4, 0xFFFFFFFD])].map fun q =>
        checkCryptAndTag (pB .carry) { Ctx.zero with phase := q.1 } q.2) =
      [some .sequence, some .ivLen, some .aadBound, some .overlap, some .payloadBound, some .tagLen,
        some .addrRange] ∧
    checkAuthDecrypt pA (keyed pA .keyed) (argv [0, 0, 12, 0, 0, 0, 15, 0, 0]) = some .tagLenA ∧
    (mk pA streamingA (argv []) []).Idle :=
  ⟨by decide +kernel, by decide +kernel, ⟨rfl, rfl, rfl⟩, by decide, rfl⟩

theorem witness_HardwareFailureEffect_setkey :
    ∃ (i : Instr) (cmd : Command) (st : State) (k : Nat) (c : BitVec 8), commandOf i = some cmd ∧
      st.Idle ∧ st.MutexFree ∧ cmd.check st.eng.params st.own st.args = none ∧ (i ≠ .setkey →
      st.own.Bound st.eng.params) ∧ ((i = .update ∨ i = .finish → st.eng.params.strategy = .a →
      st.own.image.gActive = true ∧ st.own.headerOk st.eng.params)) ∧ (st.portCodes i)[k]? = some
      c ∧ ((∀ j < k, st.eng.answers.getD j .timedOut = .done)) ∧ st.eng.answers.getD k .timedOut ≠
      .done :=
  ⟨.setkey, setkeyCommand, mk (pB .carry) (keyed (pB .carry) .unkeyed) (argv [1, 0x100, 128]) [.timedOut], 0, 0x10,
    rfl, ⟨⟨rfl, rfl, rfl⟩, by decide, rfl⟩, ⟨rfl, rfl⟩, by decide, fun h => absurd rfl h, nofun, rfl, nofun,
    by decide⟩

/-- The last operation of the second section, which is not answered. -/
theorem witness_HardwareFailureEffect_update :
    ∃ (i : Instr) (cmd : Command) (st : State) (k : Nat) (c : BitVec 8), commandOf i = some cmd ∧
      st.Idle ∧ st.MutexFree ∧ cmd.check st.eng.params st.own st.args = none ∧ (i ≠ .setkey →
      st.own.Bound st.eng.params) ∧ ((i = .update ∨ i = .finish → st.eng.params.strategy = .a →
      st.own.image.gActive = true ∧ st.own.headerOk st.eng.params)) ∧ (st.portCodes i)[k]? = some
      c ∧ ((∀ j < k, st.eng.answers.getD j .timedOut = .done)) ∧ st.eng.answers.getD k .timedOut ≠
      .done :=
  ⟨.update, updateCommand, mk (pB .carry) { keyed (pB .carry) .absorbingPayload with len := 5 }
      (argv [0x3005, 12, 0x5005, 12]) [.done, .done, .done, .done, .done], 5, 0x14,
    rfl, ⟨⟨rfl, rfl, rfl⟩, by decide, rfl⟩, ⟨rfl, rfl⟩, by decide, fun _ => ⟨rfl, rfl, rfl, fun _ => rfl⟩, nofun, by decide +kernel,
    by decide, by decide⟩

theorem witness_HardwareFailureEffect_finishA :
    ∃ (i : Instr) (cmd : Command) (st : State) (k : Nat) (c : BitVec 8), commandOf i = some cmd ∧
      st.Idle ∧ st.MutexFree ∧ cmd.check st.eng.params st.own st.args = none ∧ (i ≠ .setkey →
      st.own.Bound st.eng.params) ∧ ((i = .update ∨ i = .finish → st.eng.params.strategy = .a →
      st.own.image.gActive = true ∧ st.own.headerOk st.eng.params)) ∧ (st.portCodes i)[k]? = some
      c ∧ ((∀ j < k, st.eng.answers.getD j .timedOut = .done)) ∧ st.eng.answers.getD k .timedOut ≠
      .done :=
  ⟨.finish, finishCommand, mk pA { streamingA with hdrPending := true, hdrAddr := 0x1000, hdrLen := 3 }
      (argv [0, 0, 0x180, 16]) [.done, .done, .error], 2, 0x19, rfl, ⟨⟨rfl, rfl, rfl⟩, by decide, rfl⟩, ⟨rfl, rfl⟩,
    by decide, fun _ => ⟨rfl, rfl, rfl, nofun⟩, fun _ _ => ⟨rfl, fun _ => by decide⟩, rfl,
    by decide, by decide⟩

/-- A failure in `SETKEY` and one in `FINISH` under strategy A. -/
theorem witness_HardwareFailureEffect_left :
    (∃ st t : State, commandOf .setkey = some setkeyCommand ∧ st.Idle ∧
      exec .setkey st = .next t ∧ t.inFlight st.cur = none ∧
      (t.mailbox st.cur).status &&& 0xF = 3) ∧
    (∃ st t : State, commandOf .finish = some finishCommand ∧ st.Idle ∧
      exec .finish st = .next t ∧ t.inFlight st.cur = none ∧
      (t.mailbox st.cur).status &&& 0xF = 3) :=
  ⟨⟨mk (pB .carry) (keyed (pB .carry) .keyed) (argv [1, 0x100, 128]) [.done, .timedOut], _, rfl,
      ⟨⟨rfl, rfl, rfl⟩, by decide, rfl⟩, eq_next _ (by decide +kernel), by decide +kernel,
      by decide +kernel⟩,
    ⟨mk pA streamingA (argv [0, 0, 0x180, 16]) [.done, .done, .error], _, rfl,
      ⟨⟨rfl, rfl, rfl⟩, by decide, rfl⟩, eq_next _ (by decide +kernel), by decide +kernel,
      by decide +kernel⟩⟩

theorem witness_ImageOperations :
    ∃ (st : State) (rest : List Answer), st.cur < st.eng.params.nSessions ∧
      st.eng.arb.holder = some st.cur ∧ st.eng.answers = .done :: rest ∧
      st.opnd.keyBits = 192 ∧ st.opnd.key.length = st.opnd.keyBits.toNat / 8 :=
  ⟨inSection liveGcm { Operands.blank with keyBits := 192, key := List.replicate 24 7 } [.done], [],
    by decide, rfl, rfl, rfl, rfl⟩

theorem witness_EncryptDecryptBlocks :
    ∃ (st : State) (rest : List Answer), st.cur < st.eng.params.nSessions ∧ st.eng.arb.holder =
      some st.cur ∧ st.eng.answers = .done :: rest ∧ st.eng.live.configured = true ∧
      st.eng.live.mode = .ecb ∧ st.opnd.data.length ≠ 0 ∧ st.opnd.data.length % 16 = 0 :=
  ⟨inSection (keyImage (pB .carry)) { Operands.blank with data := List.replicate 32 7 } [.done], [],
    by decide, rfl, rfl, rfl, rfl, by decide, by decide⟩

theorem witness_GcmBeginTag :
    ∃ (st : State) (rest : List Answer), st.cur < st.eng.params.nSessions ∧ st.eng.arb.holder =
      some st.cur ∧ st.eng.answers = .done :: rest ∧ st.eng.live.configured = true ∧
      st.eng.live.mode = .gcm ∧ st.eng.live.gActive = true :=
  ⟨inSection liveGcm Operands.blank [.done], [],
    by decide, rfl, rfl, rfl, rfl, rfl⟩

theorem witness_GcmHeaderAbsorbs :
    ∃ (st : State) (rest : List Answer), st.cur < st.eng.params.nSessions ∧ st.eng.arb.holder =
      some st.cur ∧ st.eng.answers = .done :: rest ∧ st.eng.live.configured = true ∧
      st.eng.live.mode = .gcm ∧ st.eng.live.gActive = true ∧ st.opnd.data ≠ [] :=
  ⟨inSection liveGcm { Operands.blank with data := List.replicate 17 7 } [.done], [],
    by decide, rfl, rfl, rfl, rfl, rfl, by decide⟩

theorem witness_GcmPayloadProcesses :
    ∃ (st : State) (rest : List Answer) (o : List Byte) (n m : Nat), st.cur <
      st.eng.params.nSessions ∧ st.eng.arb.holder = some st.cur ∧ st.eng.answers = .done :: rest ∧
      st.eng.live.configured = true ∧ st.eng.live.mode = .gcm ∧ st.eng.live.gActive = true ∧ n =
      st.opnd.data.length ∧ n ≠ 0 ∧ n % 16 = 0 ∧ m = (if st.opnd.valid = 0 then n else n - 16 +
      st.opnd.valid.toNat) ∧ o = cryptBytes (imageKey st.eng.live) 0 st.eng.live.gY st.opnd.data :=
  ⟨inSection liveGcm { Operands.blank with data := List.replicate 32 7, valid := 15 } [.done], [],
    _, 32, 31, by decide, rfl, rfl, rfl, rfl, rfl, rfl, by decide, by decide, by decide, rfl⟩

/-- An operation that does not succeed, one on an image it cannot be performed on, and the two others. -/
theorem witness_PortFailure :
    ∃ (i : Instr) (st : State) (c : Cause) (code : BitVec 8) (a : Answer) (rest : List Answer),
      st.cur < st.eng.params.nSessions ∧ st.eng.arb.holder = some st.cur ∧ st.eng.answers = a ::
      rest ∧ (((∃ call, st.portCall i = some call ∧ call.wellFormed = true ∧ (a ≠ .done ∨
      callReady st.eng.live call = false) ∧ c = dataFailure a ∧ code = callCode call) ∨ i =
      .suspend ∧ a ≠ .done ∧ c = .suspendFail ∧ code = 0x14 ∨ i = .resume ∧ a ≠ .done ∧ c =
      .resumeFail ∧ code = 0x15)) :=
  ⟨.configure, inSection liveGcm Operands.blank [.timedOut], .timeout, 0x10, .timedOut, [],
    by decide, rfl, rfl, Or.inl ⟨_, rfl, by decide, Or.inl (by decide), rfl, rfl⟩⟩

theorem witness_PortFailure_notReady :
    ∃ (i : Instr) (st : State) (c : Cause) (code : BitVec 8) (a : Answer) (rest : List Answer),
      st.cur < st.eng.params.nSessions ∧ st.eng.arb.holder = some st.cur ∧ st.eng.answers = a ::
      rest ∧ (((∃ call, st.portCall i = some call ∧ call.wellFormed = true ∧ (a ≠ .done ∨
      callReady st.eng.live call = false) ∧ c = dataFailure a ∧ code = callCode call) ∨ i =
      .suspend ∧ a ≠ .done ∧ c = .suspendFail ∧ code = 0x14 ∨ i = .resume ∧ a ≠ .done ∧ c =
      .resumeFail ∧ code = 0x15)) :=
  ⟨.encrypt, inSection liveGcm Operands.blank [.done], .adapterError, 0x11, .done, [],
    by decide, rfl, rfl, Or.inl ⟨_, rfl, by decide, Or.inr rfl, rfl, rfl⟩⟩

theorem witness_PortFailure_suspend :
    ∃ (i : Instr) (st : State) (c : Cause) (code : BitVec 8) (a : Answer) (rest : List Answer),
      st.cur < st.eng.params.nSessions ∧ st.eng.arb.holder = some st.cur ∧ st.eng.answers = a ::
      rest ∧ (((∃ call, st.portCall i = some call ∧ call.wellFormed = true ∧ (a ≠ .done ∨
      callReady st.eng.live call = false) ∧ c = dataFailure a ∧ code = callCode call) ∨ i =
      .suspend ∧ a ≠ .done ∧ c = .suspendFail ∧ code = 0x14 ∨ i = .resume ∧ a ≠ .done ∧ c =
      .resumeFail ∧ code = 0x15)) :=
  ⟨.suspend, inSection liveGcm Operands.blank [.error], .suspendFail, 0x14, .error, [],
    by decide, rfl, rfl, Or.inr (Or.inl ⟨rfl, by decide, rfl, rfl⟩)⟩

theorem witness_PortFailure_resume :
    ∃ (i : Instr) (st : State) (c : Cause) (code : BitVec 8) (a : Answer) (rest : List Answer),
      st.cur < st.eng.params.nSessions ∧ st.eng.arb.holder = some st.cur ∧ st.eng.answers = a ::
      rest ∧ (((∃ call, st.portCall i = some call ∧ call.wellFormed = true ∧ (a ≠ .done ∨
      callReady st.eng.live call = false) ∧ c = dataFailure a ∧ code = callCode call) ∨ i =
      .suspend ∧ a ≠ .done ∧ c = .suspendFail ∧ code = 0x14 ∨ i = .resume ∧ a ≠ .done ∧ c =
      .resumeFail ∧ code = 0x15)) :=
  ⟨.resume, inSection liveGcm Operands.blank [.error], .resumeFail, 0x15, .error, [],
    by decide, rfl, rfl, Or.inr (Or.inr ⟨rfl, by decide, rfl, rfl⟩)⟩

/-- Each of the five situations. -/
theorem witness_StopsByName :
    (∃ st : State, st.cur < st.eng.params.nSessions ∧ st.eng.arb.holder ≠ some st.cur ∧
      ∃ call, st.portCall .gcmTag = some call ∧ call.wellFormed = true) ∧
    (∃ st : State, st.cur < st.eng.params.nSessions ∧
      ∃ call, st.portCall .encrypt = some call ∧ call.wellFormed = false) ∧
    (∃ st : State, st.cur < st.eng.params.nSessions ∧ (commandOf .free).isSome = true ∧
      st.inFlight st.cur ≠ none) ∧
    (∃ st : State, st.eng.params.nSessions ≤ st.cur ∧ st.cur = 2) :=
  ⟨⟨State.reset, by decide, by decide, _, rfl, rfl⟩,
    ⟨{ State.reset with opnd := { Operands.blank with data := [0] } }, by decide, _, rfl, by decide⟩,
    ⟨{ State.reset with run := [some ⟨.setkey, argv [1], Ctx.zero, []⟩, none] }, by decide, rfl,
      by decide⟩,
    ⟨{ State.reset with cur := 2 }, by decide, rfl⟩⟩

/-- No mutex; a free one; a held one. -/
theorem witness_MutexOperations :
    (∃ st : State, st.cur < st.eng.params.nSessions ∧ st.eng.arb.mutexExists = false) ∧
    (∃ st : State, st.cur < st.eng.params.nSessions ∧ st.eng.arb.mutexExists = true ∧
      st.eng.arb.holder = none) ∧
    (∃ st : State, st.cur < st.eng.params.nSessions ∧ st.eng.arb.holder = some st.cur) :=
  ⟨⟨State.reset, by decide, rfl⟩, ⟨mk pA Ctx.zero (argv []) [], by decide, rfl, rfl⟩,
    ⟨inSection liveGcm Operands.blank [], by decide, rfl⟩⟩

theorem witness_AcquireWaits :
    ∃ st : State, st.cur < st.eng.params.nSessions ∧ ¬ st.MutexFree ∧ st.Idle ∧
      st.own.phase ≠ .uninit ∧ st.own.imageValid = true ∧ st.eng.arb.mutexExists = true ∧
      st.eng.arb.holder ≠ some st.cur :=
  ⟨{ mk pA (keyed pA .keyed) (argv []) [] with
      eng := { (mk pA (keyed pA .keyed) (argv []) []).eng with arb := ⟨2, true, some 1⟩ } },
    by decide, fun h => absurd h.2 (by decide), ⟨⟨rfl, rfl, rfl⟩, by decide, rfl⟩, by decide, rfl,
    rfl, by decide⟩

theorem witness_GuardCompletes :
    ∃ (st : State) (rest : List Answer) (img : Image) (r : List Byte), st.cur <
      st.eng.params.nSessions ∧ st.Shaped ∧ st.MutexFree ∧ runCalls (if st.own.imageValid then
      st.own.image else st.eng.live) st.opnd.body [] = some (img, r) ∧ st.eng.answers =
      List.replicate ((if st.own.imageValid then 1 else 0) + st.opnd.body.length + 1) .done ++
      rest :=
  ⟨{ mk (pB .carry) (keyed (pB .carry) .keyed) (argv []) (List.replicate 3 .done) with
      opnd := Operands.blank }, [], _, _, by decide, ⟨rfl, rfl, rfl⟩, ⟨rfl, rfl⟩, rfl, rfl⟩

/-- The three kinds of failure, and an operation outside its domain at the head of the body. -/
theorem witness_GuardReportsFirstFailure :
    ([[.error], [.done, .timedOut], [.done, .done, .error]].map fun a : List Answer =>
      (mk (pB .carry) (keyed (pB .carry) .keyed) (argv []) a).sectionFailure) =
      [some .resumeFail, some .timeout, some .suspendFail] ∧
    ([[.error], [.done, .timedOut, .done], [.done, .done, .error]].map fun a : List Answer =>
      (mk (pB .carry) (keyed (pB .carry) .keyed) (argv []) a).sectionPerformed) =
      [[0x15], [0x15, 0x11], [0x15, 0x11, 0x14]] ∧
    (∀ c ∈ Operands.blank.body, c.wellFormed = true) ∧
    (mk (pB .carry) (keyed (pB .carry) .keyed) (argv []) []).MutexFree ∧
    (∃ st : State, st.cur < st.eng.params.nSessions ∧ st.MutexFree ∧
      st.opnd.body = .encrypt [] :: [] ∧ (PortCall.encrypt []).wellFormed = false ∧
      st.own.imageValid = false) :=
  ⟨by decide, by decide, by decide, ⟨rfl, rfl⟩,
    { mk (pB .carry) Ctx.zero (argv []) [] with opnd := { Operands.blank with body := [.encrypt []] } },
    by decide, ⟨rfl, rfl⟩, rfl, by decide, rfl⟩

/-- The micro-operations: every state of an existing session; here one with a built table. -/
theorem witness_MicroOperations :
    ∃ st : State, st.cur < st.eng.params.nSessions ∧ st.Shaped ∧
      st.opnd.table = ghashBuild hK0 ∧ st.opnd.n ≤ st.opnd.a.length ∧
      st.opnd.n ≤ st.opnd.b.length :=
  ⟨{ State.reset with opnd := { Operands.blank with table := ghashBuild hK0 } }, by decide,
    ⟨rfl, rfl, rfl⟩, rfl, by decide, by decide⟩

theorem witness_TagVerifyIsEquality_short :
    ∃ st : State, st.cur < st.eng.params.nSessions ∧ st.opnd.a.length < st.opnd.n :=
  ⟨{ State.reset with opnd := { Operands.blank with n := 17 } }, by decide, by decide⟩

theorem witness_InvAtReset : Params.Valid pA := by decide

/-- The reset state with a command word written to a mailbox meets the invariant, and the move is
admitted. -/
theorem witness_Inv : ∃ s s' : State, s.Inv ∧ s.Admits ∧ step s = .next s' := by
  refine ⟨{ State.reset with bus := [.hostWrite 0x100 1] }, _, ?_, ?_,
    eq_next _ (by decide +kernel)⟩
  · have hc : ∀ s, (State.reset.eng.ctx s) = Ctx.zero := by
      intro s
      match s with
      | 0 => rfl
      | 1 => rfl
      | _ + 2 => rfl
    have hf : ∀ s, (State.reset.inFlight s) = none := by
      intro s
      match s with
      | 0 => rfl
      | 1 => rfl
      | _ + 2 => rfl
    exact {
      valid := by decide
      shaped := ⟨rfl, rfl, rfl⟩
      pendingOp := rfl
      eng := {
        params := rfl
        ctxs := rfl
        memWf := rfl
        memRange := by intro c hc; cases hc
        refcount := by decide
        mutex := rfl
        holder := by intro s h; cases h
        header := fun x hx => by
          rw [(List.mem_replicate.1 hx).2]
          exact ⟨Nat.two_pow_pos _, fun h => nomatch h⟩ }
      busy := by intro s f h; have := hf s; exact absurd (this.symm.trans h) (by simp)
      idle := by intro s _ h; cases h
      status := fun m hm => Or.inl ((by decide : ∀ m ∈ State.reset.mbox, m.status = 0) m hm) }
  · show State.Admits _
    unfold State.Admits
    exact ⟨.cmd 1, by decide, rfl⟩

/-- An instruction; the issue of a command; a micro-step of one in execution; each leaves session 1. -/
theorem witness_OtherSessionsUntouched :
    (∃ (i : Instr) (st t : State), exec i st = .next t ∧ 1 ≠ st.cur ∧
      st.eng.arb.mutexExists = true) ∧
    (∃ (st t : State) (w : BitVec 32), st.pendingOp = none ∧ st.bus = .cmdStart 0 w :: [] ∧
      step st = .next t ∧ st.eng.arb.mutexExists = true) ∧
    (∃ (st t : State), st.pendingOp = none ∧ st.bus = .microStep 0 :: [] ∧
      st.inFlight 0 ≠ none ∧ step st = .next t ∧ st.eng.arb.mutexExists = true) :=
  ⟨⟨.finish, mk (pB .carry) (ctxP2 .started) (argv [0, 0, 0x180, 16]) [], _,
      eq_next _ (by decide +kernel), by decide, rfl⟩,
    ⟨{ mk (pB .carry) (ctxP2 .started) (argv [0, 0, 0x180, 16]) [] with bus := [.cmdStart 0 7] }, _, 7,
      rfl, rfl, eq_next _ (by decide +kernel), rfl⟩,
    ⟨{ mk (pB .carry) (ctxP2 .started) (argv []) [] with
        run := [some ⟨.finish, argv [0, 0, 0x180, 16], ctxP2 .started, []⟩, none]
        bus := [.microStep 0] }, _, rfl, rfl, nofun, eq_next _ (by decide +kernel), rfl⟩⟩

/-- For each clause, an instruction of its kind that has a next state, at once and by a micro-step. -/
theorem witness_WhoWritesWhat :
    ∀ i ∈ [Instr.init, .free, .updateAd, .ghashBuild], ∃ st t : State, exec i st = .next t := by
  intro i hi
  simp only [List.mem_cons, List.mem_nil_iff, or_false] at hi
  refine ⟨mk (pB .carry) (ctxP2 .started) (argv [0, 1]) [], _, eq_next _ ?_⟩
  rcases hi with rfl | rfl | rfl | rfl <;> decide +kernel

theorem witness_WhoWritesWhat_microStep :
    (∀ i ∈ [Instr.init, .free, .updateAd], ∃ (f : InFlight) (st t : State), st.pendingOp = none ∧
      st.bus = .microStep 0 :: [] ∧ st.inFlight 0 = some f ∧ f.instr = i ∧ step st = .next t) ∧
    (∃ st t : State, st.pendingOp = none ∧ st.bus = .cmdStart 0 7 :: [] ∧ step st = .next t) := by
  refine ⟨fun i hi => ?_, ⟨{ mk (pB .carry) (ctxP2 .started) (argv [0, 0, 0x180, 16]) [] with
    bus := [.cmdStart 0 7] }, _, rfl, rfl, eq_next _ (by decide +kernel)⟩⟩
  simp only [List.mem_cons, List.mem_nil_iff, or_false] at hi
  refine ⟨⟨i, argv [0, 1], ctxP2 .started, []⟩, { mk (pB .carry) (ctxP2 .started) (argv []) [] with
    run := [some ⟨i, argv [0, 1], ctxP2 .started, []⟩, none], bus := [.microStep 0] }, _, rfl, rfl,
    rfl, rfl, eq_next _ ?_⟩
  rcases hi with rfl | rfl | rfl <;> decide +kernel

/-- At the bounds: the last byte of AAD and of payload that is admitted. -/
theorem witness_LengthBounds :
    ∃ st t : State, commandOf .updateAd = some updateAdCommand ∧ st.Idle ∧
      exec .updateAd st = .next t ∧ t.inFlight st.cur = none ∧
      st.own.addLen.toNat = 2 ^ 61 - 2 ∧ st.own.len.toNat = 2 ^ 36 - 32 ∧
      st.own.lengthsOk st.eng.params ∧ t.own.addLen.toNat = 2 ^ 61 - 1 :=
  ⟨mk (pB .carry) { ctxP2 .started with addLen := 2 ^ 61 - 2, len := 2 ^ 36 - 32, tagLen := 4 }
      (argv [0, 1]) [], _, rfl, ⟨⟨rfl, rfl, rfl⟩, by decide, rfl⟩, eq_next _ (by decide +kernel),
    by decide +kernel, by decide +kernel, by decide +kernel,
    ⟨by decide +kernel, by decide +kernel, Or.inr ⟨by decide, by decide⟩⟩, by decide +kernel⟩

/-- From lengths out of bounds in phase `Failed`: a `STARTS` that ends with `OK`; and a `FREE`. -/
theorem witness_LengthBounds_failed :
    (∃ (st t : State), commandOf (.starts .enc) = some (startsCommand .enc) ∧ st.Idle ∧
      exec (.starts .enc) st = .next t ∧ t.inFlight st.cur = none ∧
      st.own.phase = .failed ∧ ¬ st.own.lengthsOk st.eng.params ∧
      (t.mailbox st.cur).status = 0) ∧
    (∃ (st t : State), commandOf .free = some freeCommand ∧ st.Idle ∧ exec .free st = .next t ∧
      t.inFlight st.cur = none ∧ st.own.phase ≠ .uninit ∧ (t.mailbox st.cur).status = 0) :=
  ⟨⟨mk pA { keyed pA .failed with tagLen := 12 } (argv [0x140, 12]) (List.replicate 3 .done), _,
      rfl, ⟨⟨rfl, rfl, rfl⟩, by decide, rfl⟩, eq_next _ (by decide +kernel), by decide +kernel, rfl,
      fun h => h.tagLen.elim (fun h => absurd (show (12 : BitVec 5) = 0 from h) (by decide))
        fun h => absurd (show (12 : BitVec 5) = 16 from h) (by decide), by decide +kernel⟩,
    ⟨mk pA (keyed pA .failed) (argv []) [], _, rfl, ⟨⟨rfl, rfl, rfl⟩, by decide, rfl⟩,
      eq_next _ (by decide +kernel), by decide +kernel, by decide, by decide +kernel⟩⟩

theorem witness_LiveImageHidden :
    ∃ (st t : State), commandOf .setkey = some setkeyCommand ∧ st.Idle ∧
      st.own.phase ≠ .uninit ∧ st.own.phase ≠ .unkeyed ∧ st.own.imageValid = true ∧
      exec .setkey st = .next t :=
  ⟨mk (pB .carry) (keyed (pB .carry) .keyed) (argv [1, 0x100, 128]) (List.replicate 3 .done), _,
    rfl, ⟨⟨rfl, rfl, rfl⟩, by decide, rfl⟩, by decide, by decide, rfl,
    eq_next _ (by decide +kernel)⟩

theorem witness_MicroStepsReachExec :
    ∃ (st t : State), decodeCmd 5 = .ok .updateAd ∧ st.Idle ∧ st.pendingOp = none ∧
      exec .updateAd st = .next t ∧ t.inFlight st.cur = none :=
  ⟨mk (pB .carry) (ctxP2 .started) (argv [0, 3]) [], _, by decide,
    ⟨⟨rfl, rfl, rfl⟩, by decide, rfl⟩, rfl, eq_next _ (by decide +kernel), by decide +kernel⟩

end Sys2Proof.Tests
end

section
/-! The moves of the agents one at a time, and the registers a host reads and writes
(00_scope.md R6, R7; R13, R14). -/

namespace Sys2Proof.Machine

/-! ### Which register a number names -/

section
variable {N s : Nat} (hs : s < N) (hN : N ≤ 255)
include hs hN

theorem registerOf_cmd : registerOf N (0x100 * s) = some (.cmd s) := by
  unfold registerOf
  rw [show 0x100 * s / 0x100 = s by omega, show 0x100 * s % 0x100 = 0 by omega]
  simp [hs, show 0x100 * s ≠ 0xFF00 by omega, show 0x100 * s ≠ 0xFF01 by omega]

theorem registerOf_arg (i : Fin 9) : registerOf N (0x100 * s + 1 + i) = some (.arg s i) := by
  have hi := i.isLt
  unfold registerOf
  rw [show (0x100 * s + 1 + i) / 0x100 = s by omega,
    show (0x100 * s + 1 + i) % 0x100 = i + 1 by omega]
  simp [hs, hi, show 0x100 * s + 1 + i ≠ 0xFF00 by omega, show 0x100 * s + 1 + i ≠ 0xFF01 by omega]

omit hN in
theorem registerOf_status : registerOf N (0x100 * s + 0x0A) = some (.status s) := by
  unfold registerOf
  rw [show (0x100 * s + 0x0A) / 0x100 = s by omega, show (0x100 * s + 0x0A) % 0x100 = 0x0A by omega]
  simp [hs, show 0x100 * s + 0x0A ≠ 0xFF00 by omega, show 0x100 * s + 0x0A ≠ 0xFF01 by omega]

omit hN in
theorem registerOf_outLen : registerOf N (0x100 * s + 0x0B) = some (.outLen s) := by
  unfold registerOf
  rw [show (0x100 * s + 0x0B) / 0x100 = s by omega, show (0x100 * s + 0x0B) % 0x100 = 0x0B by omega]
  simp [hs, show 0x100 * s + 0x0B ≠ 0xFF00 by omega, show 0x100 * s + 0x0B ≠ 0xFF01 by omega]

/-- Each of the twelve numbers of a mailbox is a register of it, busy while the session's command is
in execution. -/
theorem registerOf_mailbox {n : Nat} (hn : n ≤ 0x0B) :
    ∃ r, registerOf N (0x100 * s + n) = some r ∧
      ∀ st : State, r.busy st = (st.inFlight s).isSome := by
  have hcases : n = 0 ∨ (∃ i : Fin 9, n = 1 + i) ∨ n = 0x0A ∨ n = 0x0B := by
    by_cases h : 1 ≤ n ∧ n ≤ 9
    · exact .inr (.inl ⟨⟨n - 1, by omega⟩, by simp; omega⟩)
    · omega
  rcases hcases with rfl | ⟨i, rfl⟩ | rfl | rfl
  · exact ⟨_, registerOf_cmd hs hN, fun _ => rfl⟩
  · exact ⟨_, Nat.add_assoc _ _ _ ▸ registerOf_arg hs hN i, fun _ => rfl⟩
  · exact ⟨_, registerOf_status hs, fun _ => rfl⟩
  · exact ⟨_, registerOf_outLen hs, fun _ => rfl⟩

end

theorem registerOf_cap (N : Nat) : registerOf N 0xFF00 = some .cap := rfl

theorem registerOf_arb (N : Nat) : registerOf N 0xFF01 = some .arb := rfl

theorem registerOf_none {N reg : Nat} (h0 : reg ≠ 0xFF00) (h1 : reg ≠ 0xFF01)
    (h : N ≤ reg / 0x100 ∨ 0x0B < reg % 0x100) : registerOf N reg = none := by
  unfold registerOf
  simp only [h0, h1, if_false]
  split
  · have hn : 0x0B < reg % 0x100 := by omega
    rw [if_neg (by omega), dif_neg (by omega), if_neg (by omega), if_neg (by omega)]
  · rfl

/-- The mailbox of a `CMD` register is one of the mailboxes. -/
theorem registerOf_cmd_lt {N reg s : Nat} (h : registerOf N reg = some (.cmd s)) : s < N := by
  unfold registerOf at h
  dsimp only at h
  split at h
  · cases h
  split at h
  · cases h
  split at h
  · next hs =>
    split at h
    · cases h; exact hs
    split at h
    · cases h
    split at h
    · cases h
    split at h <;> cases h
  · cases h

/-! ### One move of the script -/

/-- With no bare operation pending the next move of the script is made (R6). -/
theorem fetch_event {st : State} {ev : BusEvent} {rest : List BusEvent}
    (hp : st.pendingOp = none) (hb : st.bus = ev :: rest) :
    fetch st = fetchEvent ev { st with bus := rest } := by
  unfold fetch
  rw [hp, hb]

theorem step_of_fetch_instr {st st' : State} {i : Instr} (h : fetch st = .instr i st') :
    step st = exec i st' := by
  simp only [step, h]

theorem step_of_fetch_other {st : State} {o : Host.Outcome State Fault Refusal}
    (h : fetch st = .other o) : step st = o := by
  simp only [step, h]

section
variable {st : State} {rest : List BusEvent} (hp : st.pendingOp = none)
include hp

/-- With an empty script the machine does nothing (R19). -/
theorem step_nil (hb : st.bus = []) : step st = .next st := by
  refine step_of_fetch_other ?_
  unfold fetch
  rw [hp, hb]

theorem step_hostRead {reg : Nat} (hb : st.bus = .hostRead reg :: rest) :
    step st = hostRead reg { st with bus := rest } := step_of_fetch_other (fetch_event hp hb)

theorem step_cmdStart {s : Nat} {w : BitVec 32} (hb : st.bus = .cmdStart s w :: rest) :
    step st = postCommand w { st with bus := rest, cur := s } :=
  step_of_fetch_other (fetch_event hp hb)

theorem step_microStep {s : Nat} (hb : st.bus = .microStep s :: rest) :
    step st = advance { st with bus := rest, cur := s } := step_of_fetch_other (fetch_event hp hb)

theorem step_masterWrite {a : Nat} {b : Byte} (hb : st.bus = .masterWrite a b :: rest) :
    step st = masterWrite a b { st with bus := rest } := step_of_fetch_other (fetch_event hp hb)

theorem step_reset (hb : st.bus = .reset :: rest) :
    step st = .next (resetMachine { st with bus := rest }) :=
  step_of_fetch_other (fetch_event hp hb)

end

/-! ### A host's read -/

theorem hostRead_none {reg : Nat} {st : State}
    (hr : registerOf st.eng.params.nSessions reg = none) :
    hostRead reg st = .fault .noSuchRegister := by
  simp only [hostRead, hr]

theorem hostRead_busy {reg : Nat} {st : State} {r : Register}
    (hr : registerOf st.eng.params.nSessions reg = some r) (hbusy : r.busy st = true) :
    hostRead reg st = .refused .secondOwner := by
  simp only [hostRead, hr, hbusy, if_true]

theorem hostRead_next {reg : Nat} {st : State} {r : Register}
    (hr : registerOf st.eng.params.nSessions reg = some r) (hbusy : r.busy st = false) :
    hostRead reg st = .next { st with
      readData := registerValue st r, eng := { st.eng with fresh := st.eng.fresh + 1 } } := by
  simp only [hostRead, hr, hbusy, Bool.false_eq_true, if_false]

/-! ### A host's write -/

section
variable {reg : Nat} {v : W64} {st : State}

theorem fetchHostWrite_none (hr : registerOf st.eng.params.nSessions reg = none) :
    fetchHostWrite reg v st = .other (.fault .noSuchRegister) := by
  simp only [fetchHostWrite, hr]

theorem fetchHostWrite_busy {r : Register} (hr : registerOf st.eng.params.nSessions reg = some r)
    (hbusy : r.busy st = true) : fetchHostWrite reg v st = .other (.refused .secondOwner) := by
  simp only [fetchHostWrite, hr, hbusy, if_true]

/-- A legal command word written to `CMD` is executed on the session of the mailbox (R31). -/
theorem fetchHostWrite_cmd {s : Nat} {i : Instr}
    (hr : registerOf st.eng.params.nSessions reg = some (.cmd s))
    (hbusy : (Register.cmd s).busy st = false) (hw : decodeCmd (v.setWidth 32) = .ok i) :
    fetchHostWrite reg v st = .instr i { st with cur := s } := by
  simp only [fetchHostWrite, hr, hbusy, hw, Bool.false_eq_true, if_false]

theorem fetchHostWrite_illegal {s : Nat} {x : DecodeError}
    (hr : registerOf st.eng.params.nSessions reg = some (.cmd s))
    (hbusy : (Register.cmd s).busy st = false) (hw : decodeCmd (v.setWidth 32) = .error x) :
    fetchHostWrite reg v st = .other (refuseWord x { st with cur := s }) := by
  simp only [fetchHostWrite, hr, hbusy, hw, Bool.false_eq_true, if_false]

theorem fetchHostWrite_arg {s : Nat} {i : Fin 9}
    (hr : registerOf st.eng.params.nSessions reg = some (.arg s i))
    (hbusy : (Register.arg s i).busy st = false) :
    fetchHostWrite reg v st = .other (.next (writeArg s i v st)) := by
  simp only [fetchHostWrite, hr, hbusy, Bool.false_eq_true, if_false]

/-- A write to a register that is neither `CMD` nor an `ARG` is ignored (R13, R14). -/
theorem fetchHostWrite_ignored {r : Register}
    (hr : registerOf st.eng.params.nSessions reg = some r) (hbusy : r.busy st = false)
    (hcmd : ∀ s, r ≠ .cmd s) (harg : ∀ s i, r ≠ .arg s i) :
    fetchHostWrite reg v st = .other (.next st) := by
  simp only [fetchHostWrite, hr, hbusy, Bool.false_eq_true, if_false]
  cases r with
  | cmd s => exact absurd rfl (hcmd s)
  | arg s i => exact absurd rfl (harg s i)
  | status s => rfl
  | outLen s => rfl
  | cap => rfl
  | arb => rfl

end

/-! ### The obligations on registers -/

/-- Settles O7: the number names a register, of an idle or a busy session, or none. -/
theorem hostReads : Obligations.HostReads := by
  intro st rest reg hp hv hb
  obtain ⟨-, hN, -⟩ := hv
  rw [step_hostRead hp hb]
  have hread {r : Register} := hostRead_next (reg := reg) (st := { st with bus := rest }) (r := r)
  refine ⟨fun s hs hidle => ?_, fun s hs hbusy n hn hreg => ?_, fun hreg => ?_, fun hreg => ?_,
    fun h0 h1 h => hostRead_none (registerOf_none h0 h1 h)⟩
  · have hbusy : (State.inFlight { st with bus := rest } s).isSome = false :=
      congrArg Option.isSome hidle
    refine ⟨fun hreg => ?_, fun i hreg => ?_, fun hreg => ?_, fun hreg => ?_⟩ <;> subst hreg
    · exact hread (registerOf_cmd hs hN) hbusy
    · exact hread (registerOf_arg hs hN i) hbusy
    · exact hread (registerOf_status hs) hbusy
    · exact hread (registerOf_outLen hs) hbusy
  · subst hreg
    obtain ⟨r, hr, hrb⟩ := registerOf_mailbox hs hN hn
    exact hostRead_busy hr ((hrb _).trans (Option.isSome_iff_ne_none.2 hbusy))
  · subst hreg; exact hread (r := .cap) rfl rfl
  · subst hreg; exact hread (r := .arb) rfl rfl

/-- Settles O8: the number names a register, of an idle or a busy session, or none. -/
theorem hostWrites : Obligations.HostWrites := by
  intro st rest reg v hp hv hb
  obtain ⟨-, hN, -⟩ := hv
  have hstep : ∀ {o}, fetchHostWrite reg v { st with bus := rest } = .other o → step st = o :=
    fun h => step_of_fetch_other ((fetch_event hp hb).trans h)
  refine ⟨fun s hs hidle => ?_, fun s hs hbusy n hn hreg => ?_, fun hreg => ?_,
    fun h0 h1 h => hstep (fetchHostWrite_none (registerOf_none h0 h1 h))⟩
  · have hbusy : (State.inFlight { st with bus := rest } s).isSome = false :=
      congrArg Option.isSome hidle
    refine ⟨fun i hreg => ?_, fun hreg => ?_⟩
    · subst hreg
      exact hstep (fetchHostWrite_arg (registerOf_arg hs hN i) hbusy)
    · rcases hreg with rfl | rfl
      · exact hstep (fetchHostWrite_ignored (registerOf_status hs) hbusy nofun nofun)
      · exact hstep (fetchHostWrite_ignored (registerOf_outLen hs) hbusy nofun nofun)
  · subst hreg
    obtain ⟨r, hr, hrb⟩ := registerOf_mailbox hs hN hn
    exact hstep (fetchHostWrite_busy hr ((hrb _).trans (Option.isSome_iff_ne_none.2 hbusy)))
  · rcases hreg with rfl | rfl
    · exact hstep (fetchHostWrite_ignored (r := .cap) rfl rfl nofun nofun)
    · exact hstep (fetchHostWrite_ignored (r := .arb) rfl rfl nofun nofun)

end Sys2Proof.Machine
end

section
/-! Issuing a command and taking its micro-steps one at a time (00_scope.md R6, R7; R31): what each
of these moves does, that from the invariant none of them stops, and that micro-steps reach what
`exec` reaches. -/

namespace Sys2Proof.Machine

/-! ### Issuing a command -/

/-- Every legal command word names one of the nine host commands (R33). -/
theorem exists_command_of_decodeCmd {w : BitVec 32} {i : Instr} (h : decodeCmd w = .ok i) :
    ∃ cmd, commandOf i = some cmd := by
  have hhost : ∀ {n dir}, hostCommand n dir = some i → ∃ cmd, commandOf i = some cmd := by
    intro n dir hn
    unfold hostCommand at hn
    split at hn <;> cases hn <;> exact ⟨_, rfl⟩
  unfold decodeCmd at h
  dsimp only at h
  split at h
  · cases h
  · next j hj =>
    split at h
    · cases h
    · split at h
      · cases h
      · cases h; exact hhost hj

/-- A session that exists and has no command in execution takes one (R7, R31). -/
theorem State.notAdmitted_eq_none {st : State} :
    st.notAdmitted = none ↔ st.cur < st.eng.params.nSessions ∧ st.inFlight st.cur = none := by
  unfold State.notAdmitted
  by_cases hc : st.cur < st.eng.params.nSessions <;> cases hf : st.inFlight st.cur <;> simp [hc]

section
variable {i : Instr} {cmd : Command} {st : State} (hn : st.notAdmitted = none)
include hn

theorem runCommand_of_check {c : Cause} (hc : cmd.check st.eng.params st.own st.args = some c) :
    runCommand i cmd st = .next (st.raise i st.own c) := by
  have hc' : cmd.check st.eng.params (st.latch i).before (st.latch i).args = some c := hc
  simp only [runCommand, hn, hc']
  rfl

theorem runCommand_of_checks_pass (hc : cmd.check st.eng.params st.own st.args = none) :
    runCommand i cmd st =
      st.afterRun (st.latch i) ((cmd.body st.eng.params st.cur st.args).eval [] st.eng) := by
  have hc' : cmd.check st.eng.params (st.latch i).before (st.latch i).args = none := hc
  simp only [runCommand, hn, hc']
  rfl

theorem startCommand_of_check {c : Cause} (hc : cmd.check st.eng.params st.own st.args = some c) :
    startCommand i cmd st = .next (st.raise i st.own c) := by
  have hc' : cmd.check st.eng.params (st.latch i).before (st.latch i).args = some c := hc
  simp only [startCommand, hn, hc']
  rfl

theorem startCommand_of_checks_pass (hc : cmd.check st.eng.params st.own st.args = none) :
    startCommand i cmd st = .next (st.setRun st.cur (some (st.latch i))) := by
  have hc' : cmd.check st.eng.params (st.latch i).before (st.latch i).args = none := hc
  simp only [startCommand, hn, hc']

theorem refuseWord_of_admitted (x : DecodeError) :
    refuseWord x st = .next (st.setMailbox st.cur
      { st.mailbox st.cur with status := statusWord (causeOfDecodeError x) }) := by
  simp only [refuseWord, hn]

end

/-- A next state comes only of a command that is admitted. -/
theorem notAdmitted_of_startCommand {i : Instr} {cmd : Command} {st t : State}
    (h : startCommand i cmd st = .next t) : st.notAdmitted = none := by
  cases hn : st.notAdmitted with
  | none => rfl
  | some x => simp only [startCommand, hn] at h; cases x <;> cases h

theorem notAdmitted_of_refuseWord {x : DecodeError} {st t : State}
    (h : refuseWord x st = .next t) : st.notAdmitted = none := by
  cases hn : st.notAdmitted with
  | none => rfl
  | some y => simp only [refuseWord, hn] at h; cases y <;> cases h

theorem postCommand_ok {w : BitVec 32} {i : Instr} {cmd : Command} {st : State}
    (hw : decodeCmd w = .ok i) (hi : commandOf i = some cmd) :
    postCommand w st = startCommand i cmd st := by
  simp only [postCommand, hw, hi]

theorem postCommand_error {w : BitVec 32} {x : DecodeError} {st : State}
    (hw : decodeCmd w = .error x) : postCommand w st = refuseWord x st := by
  simp only [postCommand, hw]

/-! ### One micro-step -/

/-- A session without a command in execution has no step (R7; log 28). -/
theorem advance_idle {st : State} (h : st.inFlight st.cur = none) : advance st = .next st := by
  simp only [advance, h]

section
variable {st : State} {f : InFlight} {cmd : Command} (hf : st.inFlight st.cur = some f)
  (hi : commandOf f.instr = some cmd)
include hf hi

theorem advance_ret {out : Option W64}
    (hq : (cmd.body st.eng.params st.cur f.args).replay f.log = .ret out) :
    advance st = .next (st.completeOk out) := by
  simp only [advance, hf, hi, advanceCommand, hq]

theorem advance_raise {c : Cause}
    (hq : (cmd.body st.eng.params st.cur f.args).replay f.log = .raise c) :
    advance st = .next (st.raise f.instr f.before c) := by
  simp only [advance, hf, hi, advanceCommand, hq]

section
variable {m : Engine → Micro} {k : Reply → Program (Option W64)}
  (hq : (cmd.body st.eng.params st.cur f.args).replay f.log = .step m k)
include hq

theorem advance_step {e : Engine} {r : Reply} (hm : m st.eng = .next e r) :
    advance st = .next (({ st with eng := e } : State).setRun st.cur
      (some { f with log := f.log ++ [r] })) := by
  simp only [advance, hf, hi, advanceCommand, hq, hm]

/-- A micro-step that is not enabled (R84; log 28). -/
theorem advance_wait (hm : m st.eng = .wait) : advance st = .next st := by
  simp only [advance, hf, hi, advanceCommand, hq, hm]

theorem advance_stop {x : Stop} (hm : m st.eng = .stop x) : advance st = x.outcome := by
  simp only [advance, hf, hi, advanceCommand, hq, hm]

end
end

/-! ### From the invariant no move stops -/

/-- The next micro-step of a command that keeps to its sections does not stop the model. -/
theorem Program.Guarded.not_stop {p : Params} {s : Nat} {at_ : Bool × Bool} {m : Engine → Micro}
    {k : Reply → Program (Option W64)} (h : Program.Guarded p s at_ (.step m k)) {e : Engine}
    (he : e.Inv p) (hst : e.standing s = at_) (x : Stop) : m e ≠ .stop x := by
  cases h with
  | step _ _ _ safe _ _ _ => exact safe e he hst x

/-- The invariant does not speak of the script or of which session moves. -/
theorem State.Inv.move {st : State} (h : st.Inv) (b : List BusEvent) (s : Nat) :
    State.Inv { st with bus := b, cur := s } :=
  ⟨h.valid, ⟨h.shaped.ctxs, h.shaped.mbox, h.shaped.run⟩, h.pendingOp, h.eng, h.busy, h.idle,
    h.status⟩

/-- A command issued on an idle session never stops the model (R45, R81, R104). -/
theorem exec_taken {st : State} {i : Instr} {cmd : Command} (h : st.Inv)
    (hn : st.notAdmitted = none) (hi : commandOf i = some cmd) : ∃ t, exec i st = .next t := by
  obtain ⟨hs, hidle⟩ := State.notAdmitted_eq_none.1 hn
  rw [exec_command hi]
  cases hc : cmd.check st.eng.params st.own st.args with
  | some c => exact ⟨_, runCommand_of_check hn hc⟩
  | none =>
    have hst : st.eng.standing st.cur = (false, st.own.phase != .uninit) := by
      simp [Engine.standing, h.idle _ hidle, State.own]
    rw [runCommand_of_checks_pass hn hc]
    rcases guarded_eval (command_guarded hi hs hc) h.eng hst [] with
      ⟨a, e, he, -⟩ | ⟨c, e, he, -⟩ | ⟨l, e, he, -⟩ <;> rw [he] <;> exact ⟨_, rfl⟩

theorem startCommand_taken {st : State} {i : Instr} {cmd : Command} (hn : st.notAdmitted = none) :
    ∃ t, startCommand i cmd st = .next t := by
  cases hc : cmd.check st.eng.params st.own st.args with
  | some c => exact ⟨_, startCommand_of_check hn hc⟩
  | none => exact ⟨_, startCommand_of_checks_pass hn hc⟩

/-- No micro-step of any session stops the model, however the sessions' steps interleave (R81 to
R86). -/
theorem advance_taken {st : State} (h : st.Inv) : ∃ t, advance st = .next t := by
  cases hf : st.inFlight st.cur with
  | none => exact ⟨_, advance_idle hf⟩
  | some f =>
    obtain ⟨cmd, hi, hg⟩ := h.busy _ f hf
    cases hq : (cmd.body st.eng.params st.cur f.args).replay f.log with
    | ret out => exact ⟨_, advance_ret hf hi hq⟩
    | raise c => exact ⟨_, advance_raise hf hi hq⟩
    | step m k =>
      cases hm : m st.eng with
      | next e r => exact ⟨_, advance_step hf hi hq hm⟩
      | wait => exact ⟨_, advance_wait hf hi hq hm⟩
      | stop x =>
        exact absurd hm ((hq ▸ hg).not_stop h.eng rfl x)

theorem Register.cmd_busy {st : State} {s : Nat} :
    (Register.cmd s).busy st = false ↔ st.inFlight s = none := by
  simp [Register.busy]

/-- A host's write of an admitted register never stops the model. -/
theorem hostWrite_taken {st : State} {rest : List BusEvent} {reg : Nat} {v : W64} {r : Register}
    (h : st.Inv) (hb : st.bus = .hostWrite reg v :: rest)
    (hr : registerOf st.eng.params.nSessions reg = some r) (hbusy : r.busy st = false) :
    ∃ t, step st = .next t := by
  have hfetch := fetch_event h.pendingOp hb
  have hbusy' : r.busy { st with bus := rest } = false := hbusy
  cases r with
  | cmd s =>
    have hs : s < st.eng.params.nSessions := registerOf_cmd_lt hr
    have hn : State.notAdmitted { st with bus := rest, cur := s } = none :=
      State.notAdmitted_eq_none.2 ⟨hs, Register.cmd_busy.1 hbusy⟩
    cases hw : decodeCmd (v.setWidth 32) with
    | ok i =>
      rw [step_of_fetch_instr (hfetch.trans (fetchHostWrite_cmd hr hbusy' hw))]
      obtain ⟨cmd, hi⟩ := exists_command_of_decodeCmd hw
      exact exec_taken (h.move rest s) hn hi
    | error x =>
      rw [step_of_fetch_other (hfetch.trans (fetchHostWrite_illegal hr hbusy' hw))]
      exact ⟨_, refuseWord_of_admitted hn x⟩
  | arg s i => exact ⟨_, step_of_fetch_other (hfetch.trans (fetchHostWrite_arg hr hbusy'))⟩
  | status s | outLen s | cap | arb =>
    exact ⟨_, step_of_fetch_other (hfetch.trans (fetchHostWrite_ignored hr hbusy' nofun nofun))⟩

/-- Settles O55, by the kind of the next move: a command and a micro-step by the guarded sections
that the invariant keeps them to, the other moves because they are admitted. -/
theorem admittedMovesAreTaken : Obligations.AdmittedMovesAreTaken := by
  intro st h hadm
  have hp := h.pendingOp
  unfold State.Admits at hadm
  split at hadm
  next hb => exact ⟨_, step_nil hp hb⟩
  next reg v rest hb =>
    obtain ⟨r, hr, hbusy⟩ := hadm
    exact hostWrite_taken h hb hr hbusy
  next reg rest hb =>
    obtain ⟨r, hr, hbusy⟩ := hadm
    rw [step_hostRead hp hb]
    exact ⟨_, hostRead_next (st := { st with bus := rest }) hr hbusy⟩
  next s w rest hb =>
    have hn : State.notAdmitted { st with bus := rest, cur := s } = none :=
      State.notAdmitted_eq_none.2 hadm
    rw [step_cmdStart hp hb]
    cases hw : decodeCmd w with
    | ok i =>
      obtain ⟨cmd, hi⟩ := exists_command_of_decodeCmd hw
      rw [postCommand_ok hw hi]
      exact startCommand_taken hn
    | error x => exact ⟨_, (postCommand_error hw).trans (refuseWord_of_admitted hn x)⟩
  next s rest hb =>
    rw [step_microStep hp hb]
    exact advance_taken (h.move rest s)
  next a b rest hb =>
    rw [step_masterWrite hp hb]
    exact ⟨_, if_pos hadm⟩
  next rest hb => exact ⟨_, step_reset hp hb⟩

/-! ### A command run at once and one micro-step at a time -/

theorem core_run_succ {st t : State} (k : Nat) (h : step st = .next t) :
    Host.Core.run core (k + 1) st = Host.Core.run core k t := by
  have h' : core.step st = .next t := h
  simp only [Host.Core.run, h']

/-- The next move of the script is a micro-step of the current session. -/
theorem step_microStep_cons {st : State} (hp : st.pendingOp = none) (b : List BusEvent) :
    step { st with bus := .microStep st.cur :: b } = advance { st with bus := b } :=
  step_microStep (st := { st with bus := .microStep st.cur :: b }) hp rfl

/-- The next move of the script issues a command on the current session. -/
theorem step_cmdStart_cons {st : State} (hp : st.pendingOp = none) (w : BitVec 32)
    (b : List BusEvent) :
    step { st with bus := .cmdStart st.cur w :: b } = postCommand w { st with bus := b } :=
  step_cmdStart (st := { st with bus := .cmdStart st.cur w :: b }) hp rfl

/-- A raise does not touch the script. -/
theorem State.raise_setBus (st : State) (b : List BusEvent) (i : Instr) (x : Ctx) (c : Cause) :
    ({ st with bus := b } : State).raise i x c = { st.raise i x c with bus := b } := by
  unfold State.raise
  dsimp only
  split <;> rfl

theorem State.raise_setRun (st : State) (g : Option InFlight) (i : Instr) (x : Ctx) (c : Cause) :
    (st.setRun st.cur g).raise i x c = st.raise i x c := by
  unfold State.raise
  dsimp only [State.setRun_eng, State.setRun_cur]
  split <;> simp [State.setMailbox, State.setRun, State.mailbox]

/-- How far a command has come before the rest of it runs is forgotten. -/
theorem State.afterRun_setRun (st : State) (e : Engine) (g : Option InFlight) (f : InFlight)
    (log : List Reply) (r : Run (Option W64)) (hr : ∀ l e, r ≠ .blocked l e) :
    (({ st with eng := e } : State).setRun st.cur g).afterRun { f with log := log } r =
      st.afterRun f r := by
  cases r with
  | done out e' => simp [State.afterRun, State.completeOk, State.setRun, State.setMailbox,
      State.mailbox]
  | raised c e' =>
    exact congrArg Host.Outcome.next
      (State.raise_setRun { st with eng := e' } g f.instr f.before c)
  | blocked l e' => exact absurd rfl (hr l e')
  | stopped x => rfl

theorem Run.addLog_of_not_blocked {α : Type} {r : Run α} (h : ∀ l e, r ≠ .blocked l e)
    (log : List Reply) : Run.addLog log r = r := by
  cases r with
  | blocked l e => exact absurd rfl (h l e)
  | _ => rfl

/-- A run after which no command is in execution did not end in a wait. -/
theorem State.not_blocked_of_ended {st t : State} {f : InFlight} {r : Run (Option W64)}
    (hl : st.cur < st.run.length) (h : st.afterRun f r = .next t)
    (hdone : t.inFlight st.cur = none) (l : List Reply) (e : Engine) : r ≠ .blocked l e := by
  rintro rfl
  cases h
  rw [State.inFlight_setRun_self { st with eng := e } _ _ hl] at hdone
  cases hdone

/-- A command in execution that would come to its end comes there by micro-steps of its session
alone. -/
theorem run_microSteps {cmd : Command} {s : Nat} {q : Program (Option W64)}
    (hq : q.All (OwnOnly s)) {st t : State} {f : InFlight} (hi : commandOf f.instr = some cmd)
    (hcur : st.cur = s) (hp : st.pendingOp = none) (hl : s < st.run.length)
    (hf : st.inFlight s = some f) (hbody : (cmd.body st.eng.params s f.args).replay f.log = q)
    (hend : ∀ l e, q.eval [] st.eng ≠ .blocked l e)
    (ht : st.afterRun f (q.eval [] st.eng) = .next t) :
    ∃ k, Host.Core.run core k { st with bus := List.replicate k (.microStep s) } =
      .next { t with bus := [] } := by
  induction hq generalizing st f with
  | ret out =>
    subst hcur
    cases ht
    exact ⟨1, core_run_succ 0 ((step_microStep_cons hp []).trans
      (advance_ret (st := { st with bus := [] }) hf hi hbody))⟩
  | raise c =>
    subst hcur
    cases ht
    refine ⟨1, core_run_succ 0 ((step_microStep_cons hp []).trans
      ((advance_raise (st := { st with bus := [] }) hf hi hbody).trans (congrArg _ ?_)))⟩
    exact State.raise_setBus st [] f.instr f.before c
  | step m k hm hk ih =>
    subst hcur
    cases hme : m st.eng with
    | wait => exact absurd (Program.eval_step_wait hme) (hend _ _)
    | stop x =>
      rw [Program.eval_step_stop hme] at ht
      cases x <;> cases ht
    | next e r =>
      have hlog : (Program.step m k).eval [] st.eng = Run.addLog [r] ((k r).eval [] e) :=
        (Program.eval_step_next hme).trans (Program.eval_log _ _ _)
      have hend' : ∀ l e', (k r).eval [] e ≠ .blocked l e' := by
        intro l e' h
        exact hend (r :: l) e' (by rw [hlog, h]; rfl)
      rw [hlog, Run.addLog_of_not_blocked hend'] at ht
      have hparams : e.params = st.eng.params := (hm _ _ _ hme).1
      obtain ⟨n, hn⟩ := ih r (st := ({ st with eng := e } : State).setRun st.cur
          (some { f with log := f.log ++ [r] })) (f := { f with log := f.log ++ [r] })
        hi rfl hp (by simpa using hl) (State.inFlight_setRun_self _ _ _ hl)
        (by
          show (cmd.body e.params st.cur f.args).replay (f.log ++ [r]) = k r
          rw [hparams, Program.replay_append, hbody]; exact Program.replay_nil _)
        hend' ((State.afterRun_setRun st e _ f _ _ hend').trans ht)
      exact ⟨n + 1, (core_run_succ n ((step_microStep_cons hp _).trans
        (advance_step (st := { st with bus := List.replicate n (.microStep st.cur) })
          hf hi hbody hme))).trans hn⟩

/-- Settles O60: a rejection is reached by the issue itself, a completion by the micro-steps of the
command's run. -/
theorem microStepsReachExec : Obligations.MicroStepsReachExec := by
  intro i w st t hw hidle hp hexec hdone
  obtain ⟨cmd, hi⟩ := exists_command_of_decodeCmd hw
  have hn := State.notAdmitted_idle hidle
  have hl : st.cur < st.run.length := by rw [hidle.shaped.run]; exact hidle.exists_
  have hstart : ∀ k, step { st with
      bus := .cmdStart st.cur w :: List.replicate k (.microStep st.cur) } =
      startCommand i cmd { st with bus := List.replicate k (.microStep st.cur) } := fun k =>
    (step_cmdStart_cons hp w _).trans (postCommand_ok hw hi)
  rw [exec_command hi] at hexec
  cases hc : cmd.check st.eng.params st.own st.args with
  | some c =>
    rw [runCommand_of_check hn hc] at hexec
    cases hexec
    refine ⟨0, core_run_succ 0 ((hstart 0).trans ((startCommand_of_check
      (st := { st with bus := [] }) hn hc).trans (congrArg _ ?_)))⟩
    exact State.raise_setBus st [] i st.own c
  | none =>
    rw [runCommand_of_checks_pass hn hc] at hexec
    have hend := State.not_blocked_of_ended hl hexec hdone
    obtain ⟨k, hk⟩ := run_microSteps (st := st.setRun st.cur (some (st.latch i)))
      (f := st.latch i) ((ownOnly_ops st.cur).command hi st.eng.params st.args) hi rfl hp
      (by simpa using hl) (State.inFlight_setRun_self _ _ _ hl) (Program.replay_nil _) hend
      ((State.afterRun_setRun st st.eng _ (st.latch i) [] _ hend).trans hexec)
    exact ⟨k, (core_run_succ k ((hstart k).trans (startCommand_of_checks_pass
      (st := { st with bus := List.replicate k (.microStep st.cur) }) hn hc))).trans hk⟩

end Sys2Proof.Machine
end

section
/-! Sessions are independent (00_scope.md R7; R10, R87, R107): what a command of one session, run at
once or one micro-step at a time, leaves of the others. -/

namespace Sys2Proof.Machine

/-! ### What a micro-step that is taken leaves -/

theorem readByteOp_eq_next {a : Nat} {e e' : Engine} {r : Reply}
    (h : readByteOp a e = .next e' r) : e' = e := by
  unfold readByteOp at h
  split at h <;> cases h
  rfl

theorem writeByteOp_eq_next {a : Nat} {b : Byte} {e e' : Engine} {r : Reply}
    (h : writeByteOp a b e = .next e' r) : e' = { e with mem := e.mem.write a b } := by
  unfold writeByteOp at h
  split at h <;> cases h
  rfl

theorem deinitializeOp_eq_next {s : Nat} {e e' : Engine} {r : Reply}
    (h : deinitializeOp s e = .next e' r) :
    e' = { e.record s 0x13 with live := Image.blank } := by
  unfold deinitializeOp at h
  split at h <;> cases h
  rfl

/-- `CLOSE_AAD` multiplies an open block or does nothing (R67). -/
theorem closeAadOp_eq_next {s : Nat} {e e' : Engine} {r : Reply}
    (h : closeAadOp s e = .next e' r) :
    e' = ((e.record s 0x33).record s 0x31).setCtx s
        { e.ctx s with buf := ghashMult (e.ctx s).table (e.ctx s).buf } ∨
      e' = e.record s 0x33 := by
  unfold closeAadOp at h
  dsimp only at h
  split at h
  · cases h; exact .inl rfl
  · cases h; exact .inr rfl

/-- `INIT` clears the context, and creates the mutex with the first context in use (R61, R88). -/
theorem initOp_eq_next {s : Nat} {e e' : Engine} {r : Reply} (h : initOp s e = .next e' r) :
    (e.arb.mutexExists = false ∧ e' = { (e.setCtx s (clearedCtx .unkeyed)).record s 0x20 with
        arb := { refcount := e.arb.refcount + 1, mutexExists := true, holder := none } }) ∨
      e' = { e.setCtx s (clearedCtx .unkeyed) with
        arb := { e.arb with refcount := e.arb.refcount + 1 } } := by
  unfold initOp mutexCreateOp at h
  simp only [Engine.setCtx_arb] at h
  by_cases h0 : e.arb.refcount = 0
  · cases hm : e.arb.mutexExists with
    | true => simp [h0, hm] at h
    | false =>
      simp only [h0, hm, if_true, if_false, Bool.false_eq_true, Micro.next.injEq] at h
      obtain ⟨rfl, -⟩ := h
      exact .inl ⟨rfl, by rw [h0]⟩
  · simp only [h0, if_false, Micro.next.injEq] at h
    obtain ⟨rfl, -⟩ := h
    exact .inr rfl

/-- `FREE` leaves a context that is not in use; it clears another, and destroys the mutex, held by
nobody, with the last of them (R62, R88). -/
theorem freeOp_eq_next {s : Nat} {e e' : Engine} {r : Reply} (h : freeOp s e = .next e' r) :
    ((e.ctx s).phase = .uninit ∧ e' = e) ∨
      ((e.ctx s).phase ≠ .uninit ∧ e'.ctxs = e.ctxs.set s (clearedCtx .uninit) ∧
        e'.arb.holder = e.arb.holder ∧
        (e'.arb.mutexExists = e.arb.mutexExists ∨ e.arb.holder = none)) := by
  unfold freeOp mutexDestroyOp at h
  dsimp only at h
  split at h
  · next hu => cases h; exact .inl ⟨hu, rfl⟩
  · next hu =>
    refine .inr ⟨hu, ?_⟩
    split at h
    · split at h
      · next hc =>
        simp only [Bool.and_eq_true, beq_iff_eq] at hc
        cases h
        exact ⟨rfl, rfl, .inr hc.2⟩
      · cases h
    · cases h; exact ⟨rfl, rfl, .inl rfl⟩

/-! ### Who holds the mutex over a whole run

`OwnOnly` says of one micro-step that no other session gets or loses the mutex while it exists. Over
a run, in which `FREE` may destroy the mutex, that takes one fact more: nobody holds a mutex that
does not exist. -/

/-- From an arbiter without a holder of a mutex that does not exist, to another such arbiter, no
session but `s` having got or lost the mutex. -/
def ArbKept (s : Nat) (a a' : Arbiter) : Prop :=
  a.mutexExists = true ∨ a.holder = none →
    (a'.mutexExists = true ∨ a'.holder = none) ∧
      ∀ s', s' ≠ s → (a'.holder = some s' ↔ a.holder = some s')

theorem ArbKept.refl (s : Nat) (a : Arbiter) : ArbKept s a a := fun h => ⟨h, fun _ _ => Iff.rfl⟩

theorem ArbKept.trans {s : Nat} {a b c : Arbiter} (hab : ArbKept s a b) (hbc : ArbKept s b c) :
    ArbKept s a c := by
  intro ha
  obtain ⟨hb, h1⟩ := hab ha
  obtain ⟨hc, h2⟩ := hbc hb
  exact ⟨hc, fun s' hs => (h2 s' hs).trans (h1 s' hs)⟩

/-- The holder stays, and so does the mutex unless nobody holds it. -/
theorem ArbKept.of_holder {s : Nat} {a a' : Arbiter} (hh : a'.holder = a.holder)
    (hm : a'.mutexExists = a.mutexExists ∨ a.holder = none) :
    ArbKept s a a' := by
  intro ha
  refine ⟨?_, fun s' _ => by rw [hh]⟩
  rw [hh]
  rcases hm with h | h
  · rwa [h]
  · exact .inr h

/-- A micro-step with which no session but `s` gets or loses the mutex. -/
def KeepsArb (s : Nat) (m : Engine → Micro) : Prop :=
  ∀ e e' r, m e = .next e' r → ArbKept s e.arb e'.arb

theorem keepsArb_of_eq {s : Nat} {m : Engine → Micro}
    (h : ∀ e e' r, m e = .next e' r → e'.arb = e.arb) : KeepsArb s m :=
  fun e e' r hm => h e e' r hm ▸ ArbKept.refl s e.arb

theorem keepsArb_acquire (s : Nat) : KeepsArb s (acquireOp s) := by
  intro e e' r h
  obtain ⟨hm, hh, rfl, -⟩ := acquireOp_next h
  refine fun _ => ⟨.inl hm, fun s' hs => ?_⟩
  simp [hh, Ne.symm hs]

theorem keepsArb_release (s : Nat) : KeepsArb s (releaseOp s) := by
  intro e e' r h
  obtain ⟨hh, rfl, -⟩ := releaseOp_next h
  refine fun _ => ⟨.inr rfl, fun s' hs => ?_⟩
  simp [hh, Ne.symm hs]

/-- `INIT` creates the mutex only where there is none, so that nobody held it (R82, R88). -/
theorem keepsArb_init (s : Nat) : KeepsArb s (initOp s) := by
  intro e e' r h
  rcases initOp_eq_next h with ⟨hm, rfl⟩ | rfl
  · intro ha
    have hh : e.arb.holder = none := ha.resolve_left (by simp [hm])
    exact ⟨.inl rfl, fun s' _ => by rw [hh]⟩
  · exact .of_holder rfl (.inl rfl)

/-- `FREE` destroys the mutex only while nobody holds it (R83, R88). -/
theorem keepsArb_free (s : Nat) : KeepsArb s (freeOp s) := by
  intro e e' r h
  rcases freeOp_eq_next h with ⟨-, rfl⟩ | ⟨-, -, hh, hm⟩
  · exact .refl s _
  · exact .of_holder hh hm

theorem keepsArb_ops (s : Nat) : OpsOf s (KeepsArb s) where
  readCtx := keepsArb_of_eq fun _ _ _ h => by cases h; rfl
  updateCtx _ := keepsArb_of_eq fun _ _ _ h => by cases h; rfl
  readByte _ := keepsArb_of_eq fun _ _ _ h => by rw [readByteOp_eq_next h]
  writeByte _ _ := keepsArb_of_eq fun _ _ _ h => by rw [writeByteOp_eq_next h]
  acquire := keepsArb_acquire s
  guardOpen e e' r h := keepsArb_acquire s (e.record s 0x35) e' r h
  release := keepsArb_release s
  portCall _ := keepsArb_of_eq fun _ _ _ h => (portCallOp_same h).2.2.1
  suspend := keepsArb_of_eq fun _ _ _ h => (suspendOp_same h).2.2.1
  resumeOwn := keepsArb_of_eq fun _ _ _ h => (resumeOwnOp_same h).2.2.1
  deinitialize := keepsArb_of_eq fun _ _ _ h => by rw [deinitializeOp_eq_next h]; rfl
  init := keepsArb_init s
  free := keepsArb_free s
  multBuf := keepsArb_of_eq fun _ _ _ h => by cases h; rfl
  closeAad := keepsArb_of_eq fun _ _ _ h => by
    rcases closeAadOp_eq_next h with rfl | rfl <;> rfl
  incY _ := keepsArb_of_eq fun _ _ _ h => by cases h; rfl
  buildTable _ := keepsArb_of_eq fun _ _ _ h => by cases h; rfl
  tagVerify _ _ _ := keepsArb_of_eq fun _ _ _ h => by cases h; rfl

/-! ### What the other sessions see of a run -/

/-- The parameters and every other session's context stay, and while the mutex exists no other
session gets or loses it. -/
structure Engine.OthersKept (s : Nat) (e e' : Engine) : Prop where
  params : e'.params = e.params
  ctx : ∀ s', s' ≠ s → e'.ctx s' = e.ctx s'
  holder : ∀ s', s' ≠ s → e.arb.mutexExists = true →
    (e'.arb.holder = some s' ↔ e.arb.holder = some s')

theorem Engine.OthersKept.refl (s : Nat) (e : Engine) : e.OthersKept s e :=
  ⟨rfl, fun _ _ => rfl, fun _ _ _ => Iff.rfl⟩

theorem OwnOnly.othersKept {s : Nat} {m : Engine → Micro} (hm : OwnOnly s m) {e e' : Engine}
    {r : Reply} (h : m e = .next e' r) : e.OthersKept s e' := by
  obtain ⟨hp, -, hc, hh⟩ := hm e e' r h
  exact ⟨hp, hc, hh⟩

/-- What every micro-step of a program leaves of the others, its run leaves. -/
theorem Program.othersKept_eval {α : Type} {s : Nat} {q : Program α} (hq : q.All (OwnOnly s))
    (ha : q.All (KeepsArb s)) {log : List Reply} {e e' : Engine}
    (h : (q.eval log e).engine? = some e') : e.OthersKept s e' := by
  have hown : e'.params = e.params ∧ ∀ s', s' ≠ s → e'.ctx s' = e.ctx s' :=
    Program.All.eval (R := fun a b => b.params = a.params ∧ ∀ s', s' ≠ s → b.ctx s' = a.ctx s')
      (hq.mono fun m hm a b r hr => ⟨(hm a b r hr).1, (hm a b r hr).2.2.1⟩)
      (fun _ => ⟨rfl, fun _ _ => rfl⟩)
      (fun _ _ _ hab hbc => ⟨hbc.1.trans hab.1, fun s' hs => (hbc.2 s' hs).trans (hab.2 s' hs)⟩)
      log h
  have harb : ArbKept s e.arb e'.arb :=
    Program.All.eval (R := fun a b => ArbKept s a.arb b.arb) ha (fun a => .refl s a.arb)
      (fun _ _ _ => ArbKept.trans) log h
  exact ⟨hown.1, hown.2, fun s' hs hm => (harb (.inl hm)).2 s' hs⟩

/-! ### What the other sessions see of a move -/

/-- What a move of session `s` leaves as it is: every other session's context, mailbox, command in
execution and hold on the mutex; the parameters, the script and the operation latch. -/
structure State.OthersKept (s : Nat) (st t : State) : Prop where
  eng : st.eng.OthersKept s t.eng
  mailbox : ∀ s', s' ≠ s → t.mailbox s' = st.mailbox s'
  inFlight : ∀ s', s' ≠ s → t.inFlight s' = st.inFlight s'
  cur : t.cur = st.cur
  bus : t.bus = st.bus
  opnd : t.opnd = st.opnd

section
variable {st : State} {e : Engine} (h : st.eng.OthersKept st.cur e)
include h

theorem State.othersKept_setRun (g : Option InFlight) :
    st.OthersKept st.cur (({ st with eng := e } : State).setRun st.cur g) :=
  ⟨h, fun _ _ => rfl, fun _ hs => State.inFlight_setRun_ne { st with eng := e } g hs, rfl, rfl, rfl⟩

theorem State.othersKept_setMailbox (m : Mailbox) :
    st.OthersKept st.cur (({ st with eng := e } : State).setMailbox st.cur m) :=
  ⟨h, fun _ hs => State.mailbox_setMailbox_ne { st with eng := e } m hs, fun _ _ => rfl, rfl, rfl,
    rfl⟩

theorem State.othersKept_completeOk (out : Option W64) :
    st.OthersKept st.cur (({ st with eng := e } : State).completeOk out) :=
  ⟨h, fun _ hs => State.mailbox_setMailbox_ne { st with eng := e } _ hs,
    fun _ hs => State.inFlight_setRun_ne { st with eng := e } none hs, rfl, rfl, rfl⟩

/-- A raise changes of the contexts the session's own only (R98). -/
theorem State.othersKept_raise (i : Instr) (x : Ctx) (c : Cause) :
    st.OthersKept st.cur (({ st with eng := e } : State).raise i x c) := by
  refine ⟨?_, fun s' hs => ?_, fun s' hs => ?_, State.raise_cur .., State.raise_bus ..,
    State.raise_opnd ..⟩
  · rw [State.raise_eng]
    split
    · exact ⟨h.params, fun s' hs => (Engine.ctx_setCtx_ne e _ hs).trans (h.ctx s' hs), h.holder⟩
    · exact ⟨h.params, h.ctx, h.holder⟩
  · rw [State.mailbox, State.raise_mbox]
    exact State.mailbox_setMailbox_ne { st with eng := e } _ hs
  · rw [State.inFlight, State.raise_run]
    exact State.inFlight_setRun_ne { st with eng := e } none hs

end

theorem runCommand_othersKept {i : Instr} {cmd : Command} (hi : commandOf i = some cmd)
    {st t : State} (h : runCommand i cmd st = .next t) : st.OthersKept st.cur t := by
  have hrun : ∀ {e}, ((cmd.body st.eng.params st.cur st.args).eval [] st.eng).engine? = some e →
      st.eng.OthersKept st.cur e :=
    Program.othersKept_eval ((ownOnly_ops st.cur).command hi _ _)
      ((keepsArb_ops st.cur).command hi _ _)
  obtain ⟨-, -, ⟨c, -, rfl⟩ | ⟨-, ⟨out, e, he, rfl⟩ | ⟨c, e, he, rfl⟩ | ⟨l, e, he, rfl⟩⟩⟩ :=
    runCommand_next h
  · exact State.othersKept_raise (.refl _ _) i st.own c
  · exact State.othersKept_completeOk (hrun (by rw [he]; rfl)) out
  · exact State.othersKept_raise (hrun (by rw [he]; rfl)) i st.own c
  · exact State.othersKept_setRun (hrun (by rw [he]; rfl)) _

theorem startCommand_othersKept {i : Instr} {cmd : Command} {st t : State}
    (h : startCommand i cmd st = .next t) : st.OthersKept st.cur t := by
  have hn := notAdmitted_of_startCommand h
  cases hc : cmd.check st.eng.params st.own st.args with
  | some c =>
    rw [startCommand_of_check hn hc] at h
    cases h
    exact State.othersKept_raise (.refl _ _) i st.own c
  | none =>
    rw [startCommand_of_checks_pass hn hc] at h
    cases h
    exact State.othersKept_setRun (.refl _ _) _

theorem postCommand_othersKept {w : BitVec 32} {st t : State} (h : postCommand w st = .next t) :
    st.OthersKept st.cur t := by
  cases hw : decodeCmd w with
  | ok i =>
    obtain ⟨cmd, hi⟩ := exists_command_of_decodeCmd hw
    rw [postCommand_ok hw hi] at h
    exact startCommand_othersKept h
  | error x =>
    rw [postCommand_error hw] at h
    rw [refuseWord_of_admitted (notAdmitted_of_refuseWord h)] at h
    cases h
    exact State.othersKept_setMailbox (.refl _ _) _

/-- The first of the micro-steps that are left. -/
theorem Program.All.of_step {α : Type} {Q : (Engine → Micro) → Prop} {m : Engine → Micro}
    {k : Reply → Program α} (h : (Program.step m k).All Q) : Q m := by
  cases h with
  | step _ _ hm _ => exact hm

theorem advance_othersKept {st t : State} (h : advance st = .next t) : st.OthersKept st.cur t := by
  have same : st.OthersKept st.cur st := ⟨.refl _ _, fun _ _ => rfl, fun _ _ => rfl, rfl, rfl, rfl⟩
  cases hf : st.inFlight st.cur with
  | none => rw [advance_idle hf] at h; cases h; exact same
  | some f =>
    cases hi : commandOf f.instr with
    | none => simp only [advance, hf, hi] at h; cases h
    | some cmd =>
      have hown := ((ownOnly_ops st.cur).command hi st.eng.params f.args).replay f.log
      cases hq : (cmd.body st.eng.params st.cur f.args).replay f.log with
      | ret out =>
        rw [advance_ret hf hi hq] at h; cases h
        exact State.othersKept_completeOk (.refl _ _) out
      | raise c =>
        rw [advance_raise hf hi hq] at h; cases h
        exact State.othersKept_raise (.refl _ _) f.instr f.before c
      | step m k =>
        cases hm : m st.eng with
        | next e r =>
          rw [advance_step hf hi hq hm] at h; cases h
          rw [hq] at hown
          exact State.othersKept_setRun (hown.of_step.othersKept hm) _
        | wait => rw [advance_wait hf hi hq hm] at h; cases h; exact same
        | stop x => rw [advance_stop hf hi hq hm] at h; cases x <;> cases h

/-! ### Bare operations (log 14) -/

theorem bareOp_othersKept {code : BitVec 8} {m : Engine → Micro} {st t : State}
    (hm : OwnOnly st.cur m) (h : bareOp code m st = .next t) : st.OthersKept st.cur t := by
  unfold bareOp at h
  split at h
  · split at h
    · next e r he =>
      cases h
      exact ⟨hm.othersKept he, fun _ _ => rfl, fun _ _ => rfl, rfl, rfl, rfl⟩
    · cases h
      exact ⟨.refl _ _, fun _ _ => rfl, fun _ _ => rfl, rfl, rfl, rfl⟩
    · next x _ => cases x <;> cases h
  · cases h

theorem bareGuard_othersKept {code : BitVec 8} {body : List PortCall} {st t : State}
    (h : bareGuard code (guardSection st.cur body) st = .next t) : st.OthersKept st.cur t := by
  have hrun : ∀ {e}, ((guardSection st.cur body).eval [] st.eng).engine? = some e →
      st.eng.OthersKept st.cur e :=
    Program.othersKept_eval ((ownOnly_ops st.cur).guardSection body)
      ((keepsArb_ops st.cur).guardSection body)
  unfold bareGuard at h
  split at h
  · split at h
    · next b e he =>
      cases h
      exact ⟨hrun (by rw [he]; rfl), fun _ _ => rfl, fun _ _ => rfl, rfl, rfl, rfl⟩
    · next c e he =>
      cases h
      exact ⟨hrun (by rw [he]; rfl), fun _ _ => rfl, fun _ _ => rfl, rfl, rfl, rfl⟩
    · cases h
      exact ⟨.refl _ _, fun _ _ => rfl, fun _ _ => rfl, rfl, rfl, rfl⟩
    · next x _ => cases x <;> cases h
  · cases h

theorem ownOnly_record (s : Nat) (code : BitVec 8) (r : Reply) :
    OwnOnly s fun e => .next (e.record s code) r :=
  ownOnly_of_eq fun e e' r h => by cases h; exact ⟨rfl, rfl, rfl⟩

theorem ownOnly_stop (s : Nat) (x : Stop) : OwnOnly s fun _ => .stop x := fun _ _ _ h => nomatch h

theorem ownOnly_resume (s : Nat) (img : Image) : OwnOnly s (resumeOp s img) :=
  ownOnly_of_eq fun _ _ _ h => by
    obtain ⟨h1, h2, h3, -⟩ := adapterOp_same (fun _ => ⟨rfl, rfl, rfl, rfl⟩) h
    exact ⟨h1, h2, h3⟩

/-- `MUTEX_CREATE` while the mutex exists is refused (R82). -/
theorem ownOnly_mutexCreate (s : Nat) : OwnOnly s (mutexCreateOp s) := by
  intro e e' r h
  unfold mutexCreateOp at h
  split at h
  · cases h
  · next hm =>
    cases h
    exact ⟨rfl, rfl, fun _ _ => rfl, fun _ _ hc => absurd hc hm⟩

theorem ownOnly_mutexDestroy (s : Nat) : OwnOnly s (mutexDestroyOp s) := by
  intro e e' r h
  unfold mutexDestroyOp at h
  split at h
  · cases h; exact ⟨rfl, rfl, fun _ _ => rfl, fun _ _ _ => Iff.rfl⟩
  · cases h

/-- What `exec` performs for an instruction that is no host command: one operation that concerns the
current session only, or a guarded section of it. -/
theorem exec_bare {i : Instr} (hi : commandOf i = none) (st : State) :
    (∃ code m, OwnOnly st.cur m ∧ exec i st = bareOp code m st) ∨
      exec i st = bareGuard 0x35 (guardSection st.cur st.opnd.body) st := by
  have ops := ownOnly_ops st.cur
  cases hc : st.portCall i with
  | some c => exact .inl ⟨_, _, ops.portCall c, exec_portCall hc⟩
  | none =>
    cases i <;> simp only [commandOf, State.portCall, reduceCtorEq] at hi hc
    case deinitialize => exact .inl ⟨_, _, ops.deinitialize, rfl⟩
    case suspend => exact .inl ⟨_, _, ops.suspend, rfl⟩
    case resume => exact .inl ⟨_, _, ownOnly_resume _ _, rfl⟩
    case mutexCreate => exact .inl ⟨_, _, ownOnly_mutexCreate _, rfl⟩
    case mutexDestroy => exact .inl ⟨_, _, ownOnly_mutexDestroy _, rfl⟩
    case acquire => exact .inl ⟨_, _, ops.acquire, rfl⟩
    case release => exact .inl ⟨_, _, ops.release, rfl⟩
    case ghashBuild => exact .inl ⟨0x30, _, ownOnly_record _ _ _, rfl⟩
    case ghashMult => exact .inl ⟨0x31, _, ownOnly_record _ _ _, rfl⟩
    case inc32 => exact .inl ⟨0x32, _, ownOnly_record _ _ _, rfl⟩
    case closeAad => exact .inl ⟨_, _, ops.closeAad, rfl⟩
    case tagVerify =>
      refine .inl ⟨_, _, ?_, rfl⟩
      split
      · exact ops.tagVerify _ _ _
      · exact ownOnly_stop _ _
    case guard => exact .inr rfl

theorem exec_othersKept {i : Instr} {st t : State} (h : exec i st = .next t) :
    st.OthersKept st.cur t := by
  cases hi : commandOf i with
  | some cmd => exact runCommand_othersKept hi (exec_command hi st ▸ h)
  | none =>
    rcases exec_bare hi st with ⟨code, m, hm, he⟩ | he
    · exact bareOp_othersKept hm (he ▸ h)
    · exact bareGuard_othersKept (he ▸ h)

/-- Settles O56: an instruction, the issue of a command and a micro-step each keep what the other
sessions have. -/
theorem otherSessionsUntouched : Obligations.OtherSessionsUntouched := by
  refine ⟨fun i st t h => ?_, fun ev s st t rest hev hp hb h => ?_⟩
  · have k := exec_othersKept h
    exact ⟨fun s hs => ⟨k.eng.ctx s hs, k.mailbox s hs, k.inFlight s hs, k.eng.holder s hs⟩,
      k.eng.params, k.cur, k.bus, k.opnd⟩
  · have k : State.OthersKept s { st with bus := rest, cur := s } t := by
      rcases hev with rfl | ⟨w, rfl⟩
      · exact advance_othersKept (step_microStep hp hb ▸ h)
      · exact postCommand_othersKept (step_cmdStart hp hb ▸ h)
    exact ⟨fun s' hs => ⟨k.eng.ctx s' hs, k.mailbox s' hs, k.inFlight s' hs, k.eng.holder s' hs⟩,
      k.eng.params, k.cur, k.bus, k.opnd⟩

end Sys2Proof.Machine
end

section
/-! The bounds on the stored lengths (00_scope.md R4; R12, R117): a command whose checks pass leaves
the lengths of its context within them, wherever it ends. -/

namespace Sys2Proof.Machine

/-! ### Lengths within their bounds, with room for more -/

/-- The lengths are within their bounds and stay so when `a` bytes of AAD and `n` bytes of payload
are added to them. -/
structure Ctx.Room (p : Params) (a n : Nat) (x : Ctx) : Prop where
  ok : x.lengthsOk p
  addLen : x.addLen.toNat + a < 2 ^ 61
  len : x.len.toNat + n ≤ 2 ^ 36 - 32

/-- A change of a context that leaves its three lengths as they are. -/
def SameLengths (f : Ctx → Ctx) : Prop :=
  ∀ x, (f x).addLen = x.addLen ∧ (f x).len = x.len ∧ (f x).tagLen = x.tagLen

section
variable {p : Params} {a n : Nat} {x y : Ctx}

theorem Ctx.lengthsOk.congr (h : x.lengthsOk p) (ha : y.addLen = x.addLen) (hl : y.len = x.len)
    (ht : y.tagLen = x.tagLen) : y.lengthsOk p :=
  ⟨ha ▸ h.addLen, hl ▸ h.len, ht ▸ h.tagLen⟩

theorem Ctx.lengthsOk_of_zero (ha : x.addLen = 0) (hl : x.len = 0) (ht : x.tagLen = 0) :
    x.lengthsOk p :=
  ⟨by rw [ha]; decide, by rw [hl]; decide, .inl ht⟩

theorem clearedCtx_lengthsOk (ph : Phase) : (clearedCtx ph).lengthsOk p :=
  Ctx.lengthsOk_of_zero rfl rfl rfl

theorem Ctx.room_zero_iff : x.Room p 0 0 ↔ x.lengthsOk p :=
  ⟨Ctx.Room.ok, fun h => ⟨h, h.addLen, h.len⟩⟩

theorem Ctx.Room.same {f : Ctx → Ctx} (h : x.Room p a n)
    (hf : SameLengths f := by exact fun _ => ⟨rfl, rfl, rfl⟩) :
    (f x).Room p a n := by
  obtain ⟨ha, hl, ht⟩ := hf x
  exact ⟨h.ok.congr ha hl ht, ha ▸ h.addLen, hl ▸ h.len⟩

/-- After a message has begun, its lengths being 0, there is room for all that the checks allow. -/
theorem Ctx.Room.of_zero (ha : x.addLen = 0) (hl : x.len = 0) (ht : x.tagLen = 0)
    (hra : a < 2 ^ 61) (hrn : n ≤ 2 ^ 36 - 32) : x.Room p a n :=
  ⟨Ctx.lengthsOk_of_zero ha hl ht, by rw [ha]; simpa using hra, by rw [hl]; simpa using hrn⟩

/-- Bytes of AAD are added: the sum does not wrap, and the room shrinks by as much. -/
theorem Ctx.Room.addAad {c : Nat} (h : x.Room p (c + a) n)
    (ha : y.addLen = x.addLen + BitVec.ofNat 64 c) (hl : y.len = x.len) (ht : y.tagLen = x.tagLen) :
    y.Room p a n := by
  have hroom := h.addLen
  have hsum : y.addLen.toNat = x.addLen.toNat + c := by
    rw [ha, BitVec.toNat_add, BitVec.toNat_ofNat]; omega
  exact ⟨⟨by omega, hl ▸ h.ok.len, ht ▸ h.ok.tagLen⟩, by omega, hl ▸ h.len⟩

/-- Bytes of payload are added. -/
theorem Ctx.Room.addPayload {c : Nat} (h : x.Room p a (c + n)) (ha : y.addLen = x.addLen)
    (hl : y.len = x.len + BitVec.ofNat 64 c) (ht : y.tagLen = x.tagLen) : y.Room p a n := by
  have hroom := h.len
  have hsum : y.len.toNat = x.len.toNat + c := by
    rw [hl, BitVec.toNat_add, BitVec.toNat_ofNat]; omega
  exact ⟨⟨ha ▸ h.ok.addLen, by omega, ht ▸ h.ok.tagLen⟩, ha ▸ h.addLen, by omega⟩

/-- A tag length that passed its check is stored (R4, R69, R79). -/
theorem Ctx.lengthsOk.setTag {t : W64} (h : x.lengthsOk p) (ht : tagLenOk p t = true)
    (ha : y.addLen = x.addLen) (hl : y.len = x.len) (hy : y.tagLen = t.setWidth 5) :
    y.lengthsOk p := by
  refine ⟨ha ▸ h.addLen, hl ▸ h.len, .inr ?_⟩
  unfold tagLenOk at ht
  rw [hy]
  cases hs : p.strategy with
  | a =>
    simp only [hs, beq_iff_eq] at ht
    apply BitVec.eq_of_toNat_eq
    rw [BitVec.toNat_setWidth, ht]; rfl
  | b =>
    simp only [hs, Bool.and_eq_true, decide_eq_true_eq] at ht
    simp only [BitVec.toNat_setWidth]
    omega

end

/-! ### Where a program leaves its session's context -/

/-- A program of session `s` run from a context of the session that satisfies `P`: where it is done
with a result `a` the context satisfies `Q a`, and where it raises the lengths are within their
bounds. -/
inductive Program.Bounded {α : Type} (p : Params) (s : Nat) (Q : α → Ctx → Prop) :
    (Ctx → Prop) → Program α → Prop
  | ret (P : Ctx → Prop) (a : α) (h : ∀ x, P x → Q a x) : Program.Bounded p s Q P (.ret a)
  | raise (P : Ctx → Prop) (c : Cause) (h : ∀ x, P x → x.lengthsOk p) :
      Program.Bounded p s Q P (.raise c)
  | step (P : Ctx → Prop) (m : Engine → Micro) (k : Reply → Program α) (P' : Reply → Ctx → Prop)
      (hm : ∀ e e' r, s < e.ctxs.length → P (e.ctx s) → m e = .next e' r →
        s < e'.ctxs.length ∧ P' r (e'.ctx s))
      (hk : ∀ r, Program.Bounded p s Q (P' r) (k r)) : Program.Bounded p s Q P (.step m k)

section
variable {α β : Type} {p : Params} {s : Nat} {P P' : Ctx → Prop} {Q : α → Ctx → Prop}

theorem Program.Bounded.pre {q : Program α} (h : q.Bounded p s Q P) (hP : ∀ x, P' x → P x) :
    q.Bounded p s Q P' := by
  cases h with
  | ret _ a h => exact .ret _ a fun x hx => h x (hP x hx)
  | raise _ c h => exact .raise _ c fun x hx => h x (hP x hx)
  | step _ m k P₁ hm hk =>
    exact .step _ m k P₁ (fun e e' r hl hx => hm e e' r hl (hP _ hx)) hk

theorem Program.Bounded.retSame {a : α} : (Program.ret a).Bounded p s (fun _ => P) P :=
  .ret P a fun _ hx => hx

theorem Program.Bounded.bind {R : β → Ctx → Prop} {q : Program α} {f : α → Program β}
    (h : q.Bounded p s Q P) (hf : ∀ a, (f a).Bounded p s R (Q a)) :
    (q.bind f).Bounded p s R P := by
  induction h with
  | ret P a h => exact (hf a).pre h
  | raise P c h => exact .raise P c h
  | step P m k P₁ hm _ ih => exact .step P m _ P₁ hm ih

/-- A handler that keeps the bounds runs before a raise goes on (R92). -/
theorem Program.Bounded.onRaise {q : Program α} {h : Program Unit} (hq : q.Bounded p s Q P)
    (hh : h.Bounded p s (fun _ x => x.lengthsOk p) fun x => x.lengthsOk p) :
    (Program.onRaise h q).Bounded p s Q P := by
  induction hq with
  | ret P a h => exact .ret P a h
  | raise P c h => exact (hh.pre h).bind fun _ => .raise _ c fun _ hx => hx
  | step P m k P₁ hm _ ih => exact .step P m _ P₁ hm ih

/-- A micro-step that changes no context. -/
theorem Program.Bounded.same {m : Engine → Micro} {k : Reply → Program α}
    (hm : ∀ e e' r, m e = .next e' r → e'.ctxs = e.ctxs) (hk : ∀ r, (k r).Bounded p s Q P) :
    (Program.step m k).Bounded p s Q P :=
  .step P m k (fun _ => P) (fun e e' r hl hx he => by
    have hc := hm e e' r he
    exact ⟨hc ▸ hl, by rw [Engine.ctx, hc]; exact hx⟩) hk

/-- A micro-step that sets the session's own context by `f`. -/
theorem Program.Bounded.set {m : Engine → Micro} {k : Reply → Program α} {f : Ctx → Ctx}
    (hm : ∀ e e' r, m e = .next e' r → e'.ctxs = e.ctxs.set s (f (e.ctx s)))
    (hf : ∀ x, P x → P' (f x)) (hk : ∀ r, (k r).Bounded p s Q P') :
    (Program.step m k).Bounded p s Q P :=
  .step P m k (fun _ => P') (fun e e' r hl hx he => by
    have hc := hm e e' r he
    refine ⟨by rw [hc, List.length_set]; exact hl, ?_⟩
    have hself : e'.ctx s = f (e.ctx s) := by
      rw [Engine.ctx, hc]; exact Engine.ctx_setCtx_self e s _ hl
    exact hself ▸ hf _ hx) hk

/-- What a run from such a context leaves. -/
theorem Program.Bounded.eval {q : Program α} (h : q.Bounded p s Q P) {e : Engine}
    (hl : s < e.ctxs.length) (hx : P (e.ctx s)) (log : List Reply) :
    (∀ a e', q.eval log e = .done a e' → s < e'.ctxs.length ∧ Q a (e'.ctx s)) ∧
      ∀ c e', q.eval log e = .raised c e' → s < e'.ctxs.length ∧ (e'.ctx s).lengthsOk p := by
  induction h generalizing e log with
  | ret P a h =>
    refine ⟨fun b e' he => ?_, fun c e' he => nomatch he⟩
    cases he; exact ⟨hl, h _ hx⟩
  | raise P c h =>
    refine ⟨fun b e' he => (nomatch he), fun c e' he => ?_⟩
    cases he; exact ⟨hl, h _ hx⟩
  | step P m k P₁ hm _ ih =>
    cases he : m e with
    | next e' r =>
      rw [Program.eval_step_next he]
      obtain ⟨hl', hx'⟩ := hm e e' r hl hx he
      exact ih r hl' hx' _
    | wait =>
      rw [Program.eval_step_wait he]
      exact ⟨fun _ _ h => (nomatch h), fun _ _ h => nomatch h⟩
    | stop y =>
      rw [Program.eval_step_stop he]
      exact ⟨fun _ _ h => (nomatch h), fun _ _ h => nomatch h⟩

/-! ### The micro-steps -/

theorem getCtx_bounded : (getCtx s).Bounded p s (fun c x => c = x ∧ P x) P :=
  .step P _ _ (fun r x => replyCtx r = x ∧ P x)
    (fun e e' r hl hx he => by cases he; exact ⟨hl, rfl, hx⟩) fun _ => .ret _ _ fun _ hx => hx

/-- The context is read, and what follows does not use that it is the session's own. -/
theorem getCtx_bind_bounded {f : Ctx → Program α} (hf : ∀ c, (f c).Bounded p s Q P) :
    ((getCtx s).bind f).Bounded p s Q P :=
  getCtx_bounded.bind fun c => (hf c).pre fun _ hx => hx.2

theorem setCtx_bounded {f : Ctx → Ctx} (hf : ∀ x, P x → P' (f x)) :
    (setCtx s f).Bounded p s (fun _ => P') P :=
  .set (fun e e' r he => by cases he; rfl) hf fun _ => .retSame

theorem acquireOp_ctxs {e e' : Engine} {r : Reply} (h : acquireOp s e = .next e' r) :
    e'.ctxs = e.ctxs := by
  obtain ⟨-, -, rfl, -⟩ := acquireOp_next h; rfl

theorem releaseOp_ctxs {e e' : Engine} {r : Reply} (h : releaseOp s e = .next e' r) :
    e'.ctxs = e.ctxs := by
  obtain ⟨-, rfl, -⟩ := releaseOp_next h; rfl

/-- Memory is read and written without a raise, and no context changes. -/
theorem memRead_bounded (a n : Nat) : (memRead a n).Bounded p s (fun _ => P) P := by
  induction n generalizing a with
  | zero => exact .retSame
  | succ n ih =>
    exact .same (fun _ _ _ h => by rw [readByteOp_eq_next h]) fun r => (ih (a + 1)).bind fun _ =>
      .retSame

theorem memWrite_bounded (a : Nat) (l : List Byte) :
    (memWrite a l).Bounded p s (fun _ => P) P := by
  induction l generalizing a with
  | nil => exact .retSame
  | cons b rest ih => exact .same (fun _ _ _ h => by rw [writeByteOp_eq_next h]) fun _ => ih (a + 1)

/-! ### The parts that leave the lengths alone -/

/-- A program that, done, leaves the room for `a` and `n` bytes that there was. -/
abbrev Program.KeepsRoom (p : Params) (s a n : Nat) (q : Program α) : Prop :=
  q.Bounded p s (fun _ => Ctx.Room p a n) (Ctx.Room p a n)

variable {a n : Nat}

/-- A micro-step that sets the session's own context and not its lengths. -/
theorem Program.Bounded.setSame {m : Engine → Micro} {k : Reply → Program α} {f : Ctx → Ctx}
    (hm : ∀ e e' r, m e = .next e' r → e'.ctxs = e.ctxs.set s (f (e.ctx s)))
    (hk : ∀ r, (k r).Bounded p s Q (Ctx.Room p a n))
    (hf : SameLengths f := by exact fun _ => ⟨rfl, rfl, rfl⟩) :
    (Program.step m k).Bounded p s Q (Ctx.Room p a n) := .set hm (fun _ hx => hx.same hf) hk

theorem setCtx_keepsRoom {f : Ctx → Ctx}
    (hf : SameLengths f := by exact fun _ => ⟨rfl, rfl, rfl⟩) :
    (setCtx s f).KeepsRoom p s a n := setCtx_bounded fun _ hx => hx.same hf

theorem multBuf_keepsRoom : (Program.do_ (multBufOp s)).KeepsRoom p s a n :=
  .setSame (f := fun x => { x with buf := ghashMult x.table x.buf })
    (fun _ _ _ he => by cases he; rfl) fun _ => .retSame

theorem multBufIf_keepsRoom (c : Bool) : (multBufIf s c).KeepsRoom p s a n := by
  cases c
  · exact .retSame
  · exact multBuf_keepsRoom

theorem incY_keepsRoom (k : Nat) : (Program.do_ (incYOp s k)).KeepsRoom p s a n :=
  .setSame (f := fun x => { x with y := inc32^[k] x.y }) (fun _ _ _ he => by cases he; rfl)
    fun _ => .retSame

theorem buildTable_keepsRoom (h : Block) : (Program.do_ (buildTableOp s h)).KeepsRoom p s a n :=
  .setSame (f := fun x => { x with table := ghashBuild h }) (fun _ _ _ he => by cases he; rfl)
    fun _ => .retSame

theorem closeAad_keepsRoom : (Program.do_ (closeAadOp s)).KeepsRoom p s a n := by
  refine .step _ _ _ (fun _ => Ctx.Room p a n) (fun e e' r hl hx he => ?_) fun _ => .retSame
  rcases closeAadOp_eq_next he with rfl | rfl
  · refine ⟨by simpa using hl, ?_⟩
    rw [Engine.ctx_setCtx_self ((e.record s 0x33).record s 0x31) _ _ hl]
    exact hx.same (f := fun x => { x with buf := ghashMult x.table x.buf })
  · exact ⟨hl, hx⟩

theorem guardFail_bounded (c : Cause) :
    (guardFail s c : Program α).Bounded p s Q (Ctx.Room p a n) :=
  .same (fun _ _ _ => releaseOp_ctxs) fun _ => .raise _ c fun _ hx => hx.ok

theorem guardClose_keepsRoom (r : List Byte) : (guardClose s r).KeepsRoom p s a n := by
  refine .same (fun _ _ _ h => (suspendOp_same h).2.1) fun rep => ?_
  split
  · exact guardFail_bounded _
  · exact .setSame (f := fun x => { x with image := replyImage rep, imageValid := true })
      (fun _ _ _ he => by cases he; rfl) fun _ =>
      .same (fun _ _ _ => releaseOp_ctxs) fun _ => .retSame

theorem guardBody_keepsRoom (body : List PortCall) (r : List Byte) :
    (guardBody s (guardClose s) body r).KeepsRoom p s a n := by
  induction body generalizing r with
  | nil => exact guardClose_keepsRoom r
  | cons c rest ih =>
    refine .same (fun _ _ _ h => (portCallOp_same h).2.1) fun rep => ?_
    split
    · exact guardFail_bounded _
    · exact ih _

theorem guardSection_keepsRoom (body : List PortCall) :
    (guardSection s body).KeepsRoom p s a n := by
  refine .same (fun e _ _ h => acquireOp_ctxs (e := e.record s 0x35) h) fun _ =>
    .same (fun _ _ _ h => (resumeOwnOp_same h).2.1) fun rep => ?_
  split
  · exact guardFail_bounded _
  · exact guardBody_keepsRoom body []

theorem hwPass_keepsRoom (c : PortCall) : (hwPass s c).KeepsRoom p s a n := by
  refine getCtx_bind_bounded fun x => ?_
  split
  · exact (memRead_bounded _ _).bind fun _ => (guardSection_keepsRoom _).bind fun _ =>
      .bind setCtx_keepsRoom fun _ => .retSame
  · exact guardSection_keepsRoom _

theorem finishTag_keepsRoom : (finishTag p s).KeepsRoom p s a n := by
  unfold finishTag
  split
  · exact getCtx_bind_bounded fun _ => hwPass_keepsRoom _
  · refine getCtx_bind_bounded fun _ => .bind (Q := fun _ => Ctx.Room p a n) ?_ fun _ =>
      .bind setCtx_keepsRoom fun _ => multBuf_keepsRoom.bind fun _ =>
      getCtx_bind_bounded fun _ => .retSame
    split
    · exact multBufIf_keepsRoom _
    · exact closeAad_keepsRoom

theorem setkeyPart_keepsRoom (o : SetkeyOperands) : (setkeyPart p s o).KeepsRoom p s a n := by
  unfold setkeyPart
  split
  · exact (memRead_bounded _ _).bind fun _ => .bind setCtx_keepsRoom
      fun _ => (guardSection_keepsRoom _).bind fun _ => setCtx_keepsRoom
  · exact (memRead_bounded _ _).bind fun _ => .bind setCtx_keepsRoom
      fun _ => (guardSection_keepsRoom _).bind fun _ => (buildTable_keepsRoom _).bind fun _ =>
      setCtx_keepsRoom

/-! ### The parts that change them -/

/-- `STARTS` begins a message: whatever the lengths were, they are 0 then (R64, R75). -/
theorem startsPart_bounded (dir : Direction) (iv : W64) (ha : a < 2 ^ 61)
    (hn : n ≤ 2 ^ 36 - 32) :
    (startsPart p s dir iv).Bounded p s (fun _ => Ctx.Room p a n) P := by
  unfold startsPart
  split
  · exact (memRead_bounded (P := P) _ _).bind fun _ =>
      (setCtx_bounded fun _ _ => .of_zero rfl rfl rfl ha hn).bind fun _ =>
      getCtx_bind_bounded fun _ => (guardSection_keepsRoom _).bind fun _ => .retSame
  · exact (memRead_bounded (P := P) _ _).bind fun _ =>
      (setCtx_bounded fun _ _ => .of_zero rfl rfl rfl ha hn).bind fun _ =>
      getCtx_bind_bounded fun _ => (guardSection_keepsRoom _).bind fun _ =>
      setCtx_keepsRoom

/-- The pieces of a call use up room for as many bytes as the call has (R23). -/
theorem forEach_pieces_bounded {J : Nat → Ctx → Prop} {f : Piece → Program Unit}
    (hf : ∀ q k, (f q).Bounded p s (fun _ => J k) (J (q.use + k))) {off m p0 : Nat} {l : List Piece}
    (hl : PieceChain off m p0 l) (k : Nat) :
    (Program.forEach f l).Bounded p s (fun _ => J k) (J (m - p0 + k)) := by
  induction l generalizing p0 with
  | nil =>
    obtain rfl : p0 = m := hl
    exact .ret _ _ fun _ hx => by simpa using hx
  | cons q rest ih =>
    obtain ⟨-, -, -, -, -, -, hrest⟩ := hl
    have hle := hrest.le
    have hsum : m - p0 + k = q.use + (m - (p0 + q.use) + k) := by omega
    rw [hsum]
    exact (hf q _).bind fun _ => ih hrest

theorem updateAdPart_bounded (aad v : W64) :
    (updateAdPart p s aad v).Bounded p s (fun _ => Ctx.Room p a n)
      (Ctx.Room p (v.toNat + a) n) := by
  unfold updateAdPart
  split
  · refine setCtx_bounded fun x hx => ?_
    have hv : v = BitVec.ofNat 64 v.toNat := by simp
    by_cases h0 : v = 0
    · simp only [h0, if_true] at hx ⊢
      exact hx.addAad rfl rfl rfl
    · simp only [h0, if_false]
      exact hx.addAad (congrArg (x.addLen + ·) hv) rfl rfl
  · refine .bind setCtx_keepsRoom fun _ => getCtx_bind_bounded fun x => ?_
    refine forEach_pieces_bounded (J := fun k => Ctx.Room p k n) (fun q k => ?_)
      (pieces_chain _ _ _) a
    exact (memRead_bounded _ _).bind fun _ =>
      (setCtx_bounded fun _ hx => hx.addAad rfl rfl rfl).bind fun _ => multBufIf_keepsRoom _

theorem updateAlignedA_bounded (input output m : Nat) :
    (updateAlignedA s input output m).Bounded p s (fun _ => Ctx.Room p a n)
      (Ctx.Room p a (m + n)) :=
  (memRead_bounded _ _).bind fun _ => (hwPass_keepsRoom _).bind fun _ =>
    (memWrite_bounded _ _).bind fun _ => (incY_keepsRoom _).bind fun _ =>
    setCtx_bounded fun _ hx => hx.addPayload rfl rfl rfl

theorem updateRemainderA_bounded (input output m : Nat) :
    (updateRemainderA s input output m).Bounded p s (fun _ => Ctx.Room p a n)
      (Ctx.Room p a (m + n)) :=
  (memRead_bounded _ _).bind fun _ => (hwPass_keepsRoom _).bind fun _ =>
    (memWrite_bounded _ _).bind fun _ => (incY_keepsRoom _).bind fun _ =>
    setCtx_bounded fun _ hx => hx.addPayload rfl rfl rfl

/-- A part that handles `m` bytes, left out when there are none. -/
theorem ite_eq_zero_bounded {m : Nat} {q : Program Unit} {J : Nat → Ctx → Prop}
    (hq : q.Bounded p s (fun _ => J n) (J (m + n))) :
    (if m = 0 then Program.ret () else q).Bounded p s (fun _ => J n) (J (m + n)) := by
  split
  · next h => exact .ret _ _ fun _ hx => by simpa [h] using hx
  · exact hq

theorem updatePartA_bounded (input v output : W64) :
    (updatePartA s input v output).Bounded p s (fun _ => Ctx.Room p a n)
      (Ctx.Room p a (v.toNat + n)) := by
  have hsum : v.toNat + n = (v.toNat - v.toNat % 16) + (v.toNat % 16 + n) := by omega
  rw [hsum]
  exact .bind setCtx_keepsRoom fun _ =>
    (ite_eq_zero_bounded (J := Ctx.Room p a) (updateAlignedA_bounded _ _ _)).bind fun _ =>
    ite_eq_zero_bounded (J := Ctx.Room p a) (updateRemainderA_bounded _ _ _)

theorem payloadPieceB_bounded (policy : PartialPolicy) (input output : Nat) (q : Piece) :
    (payloadPieceB policy s input output q).Bounded p s (fun _ => Ctx.Room p a n)
      (Ctx.Room p a (q.use + n)) := by
  refine .bind (Q := fun _ => Ctx.Room p a (q.use + n)) ?_ fun _ => getCtx_bind_bounded fun _ =>
    (guardSection_keepsRoom _).bind fun _ => (memRead_bounded _ _).bind fun _ =>
    .bind setCtx_keepsRoom fun _ => (memWrite_bounded _ _).bind fun _ =>
    (setCtx_bounded fun _ hx => hx.addPayload rfl rfl rfl).bind fun _ => multBufIf_keepsRoom _
  split
  · exact incY_keepsRoom 1
  · exact .retSame

theorem updatePart_bounded (input v output : W64) :
    (updatePart p s input v output).Bounded p s (fun _ => Ctx.Room p a n)
      (Ctx.Room p a (v.toNat + n)) := by
  unfold updatePart
  split
  · exact updatePartA_bounded _ _ _
  · refine getCtx_bind_bounded fun x => .bind (Q := fun _ => Ctx.Room p a (v.toNat + n)) ?_ fun _ =>
      forEach_pieces_bounded (fun q _ => payloadPieceB_bounded _ _ _ q) (pieces_chain _ _ _) n
    split
    · exact .retSame
    · exact closeAad_keepsRoom.bind fun _ => setCtx_keepsRoom

theorem finishClose_bounded {t : W64} (ht : tagLenOk p t = true) :
    (finishClose s t).Bounded p s (fun _ x => x.lengthsOk p) (Ctx.Room p a n) :=
  setCtx_bounded fun _ hx => hx.ok.setTag ht rfl rfl rfl

theorem finishPart_bounded {t : W64} (tagOut : W64) (ht : tagLenOk p t = true) :
    (finishPart p s tagOut t).Bounded p s (fun _ x => x.lengthsOk p) (Ctx.Room p a n) :=
  finishTag_keepsRoom.bind fun _ => (memWrite_bounded _ _).bind fun _ => finishClose_bounded ht

theorem initOp_ctxs {e e' : Engine} {r : Reply} (h : initOp s e = .next e' r) :
    e'.ctxs = e.ctxs.set s (clearedCtx .unkeyed) := by
  rcases initOp_eq_next h with ⟨-, rfl⟩ | rfl <;> rfl

theorem freeOp_ctxs {e e' : Engine} {r : Reply} (h : freeOp s e = .next e' r) :
    e'.ctxs = e.ctxs.set s
      (if (e.ctx s).phase = .uninit then e.ctx s else clearedCtx .uninit) := by
  rcases freeOp_eq_next h with ⟨hu, rfl⟩ | ⟨hu, hc, -⟩
  · rw [if_pos hu]
    exact (congrArg Engine.ctxs (Engine.setCtx_ctx e' s)).symm
  · rw [if_neg hu, hc]

theorem initBody_bounded : (initBody s).Bounded p s (fun _ x => x.lengthsOk p) P :=
  .set (f := fun _ => clearedCtx .unkeyed) (fun _ _ _ => initOp_ctxs)
    (fun _ _ => clearedCtx_lengthsOk _) fun _ => .retSame

/-- `FREE` clears a context in use and leaves another as it is (R62). -/
theorem freeBody_bounded : (freeBody s).Bounded p s (fun _ x => x.lengthsOk p)
    (fun x => x.phase = .uninit → x.lengthsOk p) := by
  have hfree : (Program.do_ (freeOp s)).Bounded p s (fun _ x => x.lengthsOk p)
      (fun x => x.phase = .uninit → x.lengthsOk p) := by
    refine .set (f := fun x => if x.phase = .uninit then x else clearedCtx .uninit)
      (fun _ _ _ => freeOp_ctxs) (fun x hx => ?_) fun _ => .retSame
    split
    · next hu => exact hx hu
    · exact clearedCtx_lengthsOk _
  refine getCtx_bounded.bind fun c => ?_
  split
  · next hu => exact .ret _ _ fun x ⟨hc, hx⟩ => hx (hc ▸ hu)
  · refine Program.Bounded.pre ?_ fun _ hx => hx.2
    split
    · exact .same (fun _ _ _ => acquireOp_ctxs) fun _ =>
        .same (fun _ _ _ h => by rw [deinitializeOp_eq_next h]; rfl) fun _ =>
        .same (fun _ _ _ => releaseOp_ctxs) fun _ => hfree
    · exact hfree

/-! ### The commands -/

theorem Program.Bounded.thenRet {q : Program Unit} {b : β}
    (h : q.Bounded p s (fun _ x => x.lengthsOk p) P) :
    (q.bind fun _ => Program.ret b).Bounded p s (fun _ x => x.lengthsOk p) P :=
  h.bind fun _ => .retSame

/-- The first two parts of a composite: a message begins and its AAD is absorbed (R91, R92). -/
theorem compositeStart_bounded {x : Ctx} {o : CompositeOperands} (dir : Direction)
    (ho : prevalidate p x o = none) {f : Unit → Program α}
    (hf : (f ()).Bounded p s Q (Ctx.Room p 0 (o.length.toNat + 0))) :
    ((startsPart p s dir o.iv).bind fun _ => (updateAdPart p s o.aad o.aadLen).bind f).Bounded p s
      Q P := by
  obtain ⟨-, -, -, haad, -, hlen, -⟩ := prevalidate_none ho
  exact (startsPart_bounded (a := o.aadLen.toNat + 0) dir o.iv haad hlen).bind fun _ =>
    (updateAdPart_bounded _ _).bind fun _ => hf

theorem cryptAndTag_bounded {x : Ctx} {args : Args} (dir : Direction)
    (hc : checkCryptAndTag p x args = none) :
    ((cryptAndTagCommand dir).body p s args).Bounded p s (fun _ x => x.lengthsOk p) P := by
  obtain ⟨-, -, -, -, -, -, htag, -⟩ := prevalidate_none hc
  exact compositeStart_bounded dir hc ((updatePart_bounded _ _ _).bind fun _ =>
    (finishPart_bounded _ htag).thenRet)

theorem authDecrypt_bounded {x : Ctx} {args : Args} (hc : checkAuthDecrypt p x args = none) :
    (authDecryptCommand.body p s args).Bounded p s (fun _ x => x.lengthsOk p) P := by
  obtain ⟨-, -, -, -, -, -, htag, -⟩ := prevalidate_none hc
  have hz : (zeroOutput (authDecryptOperands args)).Bounded p s (fun _ x => x.lengthsOk p)
      (fun x => x.lengthsOk p) := memWrite_bounded _ _
  refine compositeStart_bounded .dec hc (.bind (Q := fun _ => Ctx.Room p 0 0) ?_ fun t => ?_)
  · exact .onRaise ((updatePart_bounded _ _ _).bind fun _ => finishTag_keepsRoom) hz
  · refine (finishClose_bounded htag).bind fun _ => (memRead_bounded _ _).bind fun _ =>
      .same (fun _ _ _ he => by cases he; rfl) fun r => ?_
    split
    · exact .retSame
    · exact hz.bind fun _ => .raise _ _ fun _ hx => hx

end

/-- The commands that put the lengths of a context within their bounds whatever they were: those
that begin a message or clear the context (R61, R62, R64, R75, R91, R92). -/
def ResetsLengths (i : Instr) (x : Ctx) : Prop :=
  i = .init ∨ (∃ dir, i = .starts dir ∨ i = .cryptAndTag dir) ∨ i = .authDecrypt ∨
    i = .free ∧ x.phase ≠ .uninit

/-- A command whose checks pass keeps the bounds, or puts the lengths back within them. -/
theorem command_bounded {i : Instr} {cmd : Command} (hi : commandOf i = some cmd) {p : Params}
    {s : Nat} {x : Ctx} {args : Args} (hc : cmd.check p x args = none)
    (hx : x.lengthsOk p ∨ ResetsLengths i x) :
    (cmd.body p s args).Bounded p s (fun _ y => y.lengthsOk p) (fun y => y = x) := by
  have keep : ¬ ResetsLengths i x → x.lengthsOk p := fun h => hx.resolve_right h
  cases i <;> simp only [commandOf, Option.some.injEq, reduceCtorEq] at hi <;> subst hi
  case init => exact initBody_bounded.thenRet
  case free =>
    refine (freeBody_bounded.pre fun y hy hu => ?_).thenRet
    subst hy
    exact keep (by simp [ResetsLengths, hu])
  case setkey =>
    have hok := keep (by simp [ResetsLengths])
    exact ((setkeyPart_keepsRoom _).pre fun y hy => Ctx.room_zero_iff.2 (hy ▸ hok)).bind fun _ =>
      .ret _ _ fun _ hy => hy.ok
  case starts dir =>
    exact (startsPart_bounded (a := 0) (n := 0) dir _ (by decide) (by decide)).bind fun _ =>
      .ret _ _ fun _ hy => hy.ok
  case updateAd =>
    have hok := keep (by simp [ResetsLengths])
    have hsum : x.addLen.toNat + (updateAdOperands args).aadLen.toNat < 2 ^ 61 := by
      have h := firstCause_eq_none.1 hc
      simp only [List.forall_mem_cons, decide_eq_false_iff_not, not_le] at h
      obtain ⟨-, hbound, -⟩ := h
      exact hbound
    exact ((updateAdPart_bounded (a := 0) (n := 0) _ _).pre fun y hy =>
      hy ▸ ⟨hok, hsum, hok.len⟩).bind fun _ => .ret _ _ fun _ hy => hy.ok
  case update =>
    have hok := keep (by simp [ResetsLengths])
    have hsum : x.len.toNat + (updateOperands args).inputLen.toNat ≤ 2 ^ 36 - 32 := by
      have h := firstCause_eq_none.1 hc
      simp only [List.forall_mem_cons, decide_eq_false_iff_not, not_lt] at h
      obtain ⟨-, -, hbound, -⟩ := h
      exact hbound
    exact ((updatePart_bounded (a := 0) (n := 0) _ _ _).pre fun y hy =>
      hy ▸ ⟨hok, hok.addLen, hsum⟩).bind fun _ => .ret _ _ fun _ hy => hy.ok
  case finish =>
    have hok := keep (by simp [ResetsLengths])
    have htag : tagLenOk p (finishOperands args).tagLen = true := by
      have h := firstCause_eq_none.1 hc
      simp only [List.forall_mem_cons, Bool.not_eq_false'] at h
      obtain ⟨-, htag, -⟩ := h
      exact htag
    exact .thenRet (.pre (finishPart_bounded _ htag) fun y hy =>
      Ctx.room_zero_iff.2 (hy ▸ hok))
  case cryptAndTag dir => exact cryptAndTag_bounded dir hc
  case authDecrypt => exact authDecrypt_bounded hc

/-! ### How a command ends -/

theorem hardwareFailureCtx_lengthsOk {p : Params} {i : Instr} {before now : Ctx}
    (h : now.lengthsOk p) : (hardwareFailureCtx i before now).lengthsOk p := by
  unfold hardwareFailureCtx
  split
  · exact clearedCtx_lengthsOk _
  · exact h.congr rfl rfl rfl

theorem State.raise_own_lengthsOk {p : Params} {st : State} {i : Instr} {x : Ctx} {c : Cause}
    (hl : st.cur < st.eng.ctxs.length) (h : st.own.lengthsOk p) :
    (st.raise i x c).own.lengthsOk p := by
  rw [State.own, State.raise_cur, State.raise_eng]
  split
  · show ((st.eng.setCtx st.cur (hardwareFailureCtx i x st.own)).ctx st.cur).lengthsOk p
    rw [Engine.ctx_setCtx_self _ _ _ hl]
    exact hardwareFailureCtx_lengthsOk h
  · exact h

/-- A raise that is no hardware failure leaves the context as it is (R97, R99). -/
theorem State.raise_own {st : State} {i : Instr} {x : Ctx} {c : Cause}
    (hc : causeClass c ≠ .hardwareFailure) : (st.raise i x c).own = st.own := by
  rw [State.own, State.raise_cur, State.raise_eng, if_neg hc]
  rfl

theorem State.raise_status {st : State} (i : Instr) (x : Ctx) (c : Cause)
    (hl : st.cur < st.mbox.length) :
    ((st.raise i x c).mailbox st.cur).status = statusWord c := by
  rw [State.mailbox, State.raise_mbox]
  simp [hl]

/-- The status of a failed check is neither `OK` nor that of a wrong tag (R93 to R95, R97). -/
theorem statusWord_of_check {i : Instr} {cmd : Command} {p : Params} {x : Ctx} {args : Args}
    {c : Cause} (hi : commandOf i = some cmd) (h : cmd.check p x args = some c) :
    statusWord c ≠ 0 ∧ statusWord c ≠ 0x604 ∧ causeClass c ≠ .hardwareFailure := by
  have hcl := check_class hi h
  cases c <;> revert hcl <;> decide

/-- A command that has ended: a check has failed, its status says so and its context is unchanged;
or its checks have passed, and the lengths are within their bounds if they were, or if the command puts
them there. -/
theorem exec_ended_lengths {i : Instr} {cmd : Command} {st t : State}
    (hi : commandOf i = some cmd) (hidle : st.Idle) (h : exec i st = .next t)
    (hdone : t.inFlight st.cur = none) :
    (t.own = st.own ∧ (t.mailbox st.cur).status ≠ 0 ∧ (t.mailbox st.cur).status ≠ 0x604) ∨
      (st.own.lengthsOk st.eng.params ∨ ResetsLengths i st.own →
        t.own.lengthsOk st.eng.params) := by
  have hl : st.cur < st.eng.ctxs.length := by rw [hidle.shaped.ctxs]; exact hidle.exists_
  have hmbox : st.cur < st.mbox.length := by rw [hidle.shaped.mbox]; exact hidle.exists_
  have hrun : st.cur < st.run.length := by rw [hidle.shaped.run]; exact hidle.exists_
  rw [exec_command hi] at h
  obtain ⟨-, -, ⟨c, hc, rfl⟩ | ⟨hc, hend⟩⟩ := runCommand_next h
  · obtain ⟨h0, h604, hhw⟩ := statusWord_of_check hi hc
    rw [State.raise_status i st.own c hmbox]
    exact .inl ⟨State.raise_own hhw, h0, h604⟩
  · refine .inr fun hx => ?_
    obtain ⟨hok, hraised⟩ := (command_bounded (s := st.cur) hi hc hx).eval hl rfl []
    rcases hend with ⟨out, e, he, rfl⟩ | ⟨c, e, he, rfl⟩ | ⟨l, e, he, rfl⟩
    · exact (hok out e he).2
    · obtain ⟨hle, hlen⟩ := hraised c e he
      exact State.raise_own_lengthsOk (st := { st with eng := e }) hle hlen
    · rw [State.inFlight_setRun_self { st with eng := e } _ _ hrun] at hdone
      cases hdone

/-- Settles O58: the status tells a command whose checks have passed from one that was rejected. -/
theorem lengthBounds : Obligations.LengthBounds := by
  intro i cmd st t hi hidle h hdone
  rcases exec_ended_lengths hi hidle h hdone with ⟨hown, h0, h604⟩ | hok
  · exact ⟨fun hx => hown ▸ hx, fun hs => absurd hs h0, fun _ hs => absurd hs h604⟩
  · exact ⟨fun hx => hok (.inl hx), fun _ hr => hok (.inr hr),
      fun hr _ => hok (.inr (.inr (.inr (.inl hr))))⟩

end Sys2Proof.Machine
end

section
/-! The state after reset and the invariant of the machine (10_state.md): it holds after reset (R19)
and every move of every agent keeps it (R15, R81, R86, R88). -/

namespace Sys2Proof.Machine

/-! ### The state after reset (R19) -/

/-- A list of one value, read with that value as its default. -/
theorem getD_replicate_default {α : Type} (a : α) (n s : Nat) :
    (List.replicate n a).getD s a = a := by
  rw [List.getD_eq_getElem?_getD]
  exact List.getElem?_getD_replicate_default_eq a n s

theorem Engine.resetWith_ctx (p : Params) (s : Nat) : (Engine.resetWith p).ctx s = Ctx.zero :=
  getD_replicate_default _ _ _

theorem State.resetWith_mailbox (p : Params) (s : Nat) :
    (State.resetWith p).mailbox s = Mailbox.reset := getD_replicate_default _ _ _

theorem State.resetWith_inFlight (p : Params) (s : Nat) : (State.resetWith p).inFlight s = none :=
  getD_replicate_default _ _ _

/-- Settles O5: each list of the reset state repeats one value, and nothing is pending. -/
theorem resetState : Obligations.ResetState := fun p =>
  ⟨Engine.resetWith_ctx p, List.length_replicate, rfl, rfl,
    fun s => congrArg Mailbox.status (State.resetWith_mailbox p s), State.resetWith_inFlight p, rfl,
    rfl, step_nil rfl rfl⟩

/-- The engine after reset keeps the invariant with whatever canonical memory there is: no context
is in use, and nobody holds the mutex, which does not exist. -/
theorem Engine.inv_reset {p : Params} {e : Engine} (hp : e.params = p)
    (hc : e.ctxs = List.replicate p.nSessions Ctx.zero) (ha : e.arb = Arbiter.reset)
    (hw : e.mem.wf = true) (hr : ∀ c ∈ e.mem, c.1 < 2 ^ p.addrBits) : e.Inv p where
  params := hp
  ctxs := by rw [hc, List.length_replicate]
  memWf := hw
  memRange := hr
  refcount := by
    rw [ha, hc, List.countP_replicate]
    rfl
  mutex := by rw [ha]; rfl
  holder s hs := by rw [ha] at hs; cases hs
  header x hx := by
    rw [hc] at hx
    rw [List.eq_of_mem_replicate hx]
    exact clearedCtx_addrOk p .uninit

/-- What the status register may hold: `OK`, or a class and a cause that exist (R93). -/
def Mailbox.StatusOk (m : Mailbox) : Prop := m.status = 0 ∨ ∃ c, m.status = statusWord c

/-- A machine without a command in execution and with its engine at reset keeps the invariant. -/
theorem State.inv_reset {st : State} (hv : st.eng.params.Valid) (he : st.eng.Inv st.eng.params)
    (ha : st.eng.arb = Arbiter.reset) (hm : st.mbox.length = st.eng.params.nSessions)
    (hr : st.run = List.replicate st.eng.params.nSessions none) (hp : st.pendingOp = none)
    (hs : ∀ m ∈ st.mbox, m.StatusOk) : st.Inv where
  valid := hv
  shaped := ⟨he.ctxs, hm, by rw [hr, List.length_replicate]⟩
  pendingOp := hp
  eng := he
  busy s f hf := by
    rw [State.inFlight, hr, getD_replicate_default] at hf
    cases hf
  idle s _ := by rw [ha]; exact nofun
  status := hs

/-- Settles O53: nothing is in use after reset, and memory lists nothing. -/
theorem invAtReset : Obligations.InvAtReset := fun p hv =>
  State.inv_reset hv (Engine.inv_reset rfl rfl rfl rfl nofun) rfl List.length_replicate rfl rfl
    fun m hm => .inl (by rw [List.eq_of_mem_replicate hm]; rfl)

/-- A reset event leaves memory, which stays in canonical form and in range (R109). -/
theorem State.Inv.resetMachine {st : State} (h : st.Inv) : (resetMachine st).Inv := by
  refine State.inv_reset h.valid (Engine.inv_reset rfl rfl rfl h.eng.memWf h.eng.memRange) rfl
    (by simp [Machine.resetMachine, State.resetWith, Engine.resetWith]) rfl rfl fun m hm => .inl ?_
  obtain ⟨s, -, rfl⟩ := List.mem_map.1 hm
  rfl

/-! ### Where the other sessions stand -/

/-- While a context is in use the mutex exists (R88). -/
theorem Engine.Inv.mutexExists {p : Params} {e : Engine} (h : e.Inv p) {s : Nat}
    (hu : (e.ctx s).phase ≠ .uninit) : e.arb.mutexExists = true := by
  have hpos := List.countP_pos_iff (p := fun x : Ctx => x.phase != .uninit).2
    ⟨e.ctx s, h.ctx_mem (h.lt_of_inUse hu), by simpa using hu⟩
  rw [← h.refcount] at hpos
  rw [h.mutex, decide_eq_true hpos]

/-- A move of session `s` leaves every other session standing where it stands: only a session with a
context in use holds the mutex, and while one is in use the mutex exists. -/
theorem Engine.OthersKept.standing {p : Params} {s s' : Nat} {e e' : Engine}
    (hk : e.OthersKept s e') (h : e.Inv p) (h' : e'.Inv p) (hs : s' ≠ s) :
    e'.standing s' = e.standing s' := by
  have hc := hk.ctx s' hs
  have hh : e'.arb.holder = some s' ↔ e.arb.holder = some s' := by
    constructor
    · intro ho
      obtain ⟨-, hu⟩ := h'.holder s' ho
      exact (hk.holder s' hs (h.mutexExists (hc ▸ hu))).1 ho
    · intro ho
      obtain ⟨-, hu⟩ := h.holder s' ho
      exact (hk.holder s' hs (h.mutexExists hu)).2 ho
  refine Engine.standing_eq.2 ⟨?_, ?_⟩
  · rw [hh]; simp
  · rw [hc]; simp

theorem Engine.standing_fst {e : Engine} {s : Nat} :
    (e.standing s).1 = false ↔ e.arb.holder ≠ some s := by
  simp [Engine.standing]

/-! ### Parts of the machine that a move sets -/

/-- The command slot of a session fits where the session stands: a command in execution keeps to its
sections, and a session without one does not hold the mutex. -/
def SlotOk (p : Params) (e : Engine) (s : Nat) : Option InFlight → Prop
  | some f => ∃ cmd, commandOf f.instr = some cmd ∧
      Program.Guarded p s (e.standing s) ((cmd.body p s f.args).replay f.log)
  | none => e.arb.holder ≠ some s

theorem State.Inv.slotOk {st : State} (h : st.Inv) (s : Nat) :
    SlotOk st.eng.params st.eng s (st.inFlight s) := by
  cases hf : st.inFlight s with
  | none => exact h.idle s hf
  | some f => exact h.busy s f hf

theorem SlotOk.congr {p : Params} {e e' : Engine} {s : Nat} {g : Option InFlight}
    (h : SlotOk p e s g) (hst : e'.standing s = e.standing s) : SlotOk p e' s g := by
  cases g with
  | none => exact Engine.standing_fst.1 (hst ▸ Engine.standing_fst.2 h)
  | some f =>
    obtain ⟨cmd, hi, hg⟩ := h
    exact ⟨cmd, hi, hst ▸ hg⟩

section
variable {st : State} (h : st.Inv)
include h

/-- The engine and the command slots are set: the invariant holds of the engine, and every slot fits
where its session stands. -/
theorem State.Inv.setEngRun {e : Engine} {run : List (Option InFlight)}
    (hp : e.params = st.eng.params) (he : e.Inv st.eng.params) (hl : run.length = st.run.length)
    (hslot : ∀ s, SlotOk st.eng.params e s (run.getD s none)) :
    State.Inv { st with eng := e, run := run } where
  valid := hp ▸ h.valid
  shaped := ⟨hp ▸ he.ctxs, hp ▸ h.shaped.mbox, hp ▸ hl.trans h.shaped.run⟩
  pendingOp := h.pendingOp
  eng := hp ▸ he
  busy s f hf := by
    have := hslot s
    rw [show run.getD s none = some f from hf] at this
    exact hp ▸ this
  idle s hf := by
    have := hslot s
    rwa [show run.getD s none = none from hf] at this
  status := h.status

/-- A move that leaves every session standing where it stands. -/
theorem State.Inv.setEng {e : Engine} (hp : e.params = st.eng.params) (he : e.Inv st.eng.params)
    (hst : ∀ s, e.standing s = st.eng.standing s) : State.Inv { st with eng := e } :=
  h.setEngRun hp he rfl fun s => (h.slotOk s).congr (hst s)

/-- A move of the current session that leaves the engine `e` and the slot `g`. -/
theorem State.Inv.setOwn {e : Engine} {g : Option InFlight} (hk : st.eng.OthersKept st.cur e)
    (he : e.Inv st.eng.params) (hg : SlotOk st.eng.params e st.cur g)
    (hs : st.cur < st.run.length) :
    (({ st with eng := e } : State).setRun st.cur g).Inv := by
  refine h.setEngRun hk.params he List.length_set fun s => ?_
  by_cases hsc : s = st.cur
  · rw [hsc, show (st.run.set st.cur g).getD st.cur none = g by simp [hs]]
    exact hg
  · rw [show (st.run.set st.cur g).getD s none = st.inFlight s from
      State.inFlight_setRun_ne st g hsc]
    exact (h.slotOk s).congr (hk.standing h.eng he hsc)

theorem State.Inv.setMailbox (s : Nat) {m : Mailbox} (hm : m.StatusOk) :
    (st.setMailbox s m).Inv where
  valid := h.valid
  shaped := ⟨h.shaped.ctxs, List.length_set.trans h.shaped.mbox, h.shaped.run⟩
  pendingOp := h.pendingOp
  eng := h.eng
  busy := h.busy
  idle := h.idle
  status m' hm' := by
    rcases List.mem_or_eq_of_mem_set hm' with hm' | rfl
    · exact h.status m' hm'
    · exact hm

theorem State.Inv.mailbox_statusOk (s : Nat) : (st.mailbox s).StatusOk := by
  unfold State.mailbox
  by_cases hs : s < st.mbox.length
  · rw [List.getD_eq_getElem _ _ hs]
    exact h.status _ (List.getElem_mem hs)
  · rw [List.getD_eq_default _ _ (by omega)]
    exact .inl rfl

/-- A host's read advances the counter of free values and sets what it read. -/
theorem State.Inv.setRead (n : Nat) (v : W64) :
    State.Inv { st with readData := v, eng := { st.eng with fresh := n } } :=
  have k := h.setEng (e := { st.eng with fresh := n }) rfl (h.eng.congr rfl rfl rfl rfl)
    fun _ => rfl
  ⟨k.valid, ⟨k.shaped.ctxs, k.shaped.mbox, k.shaped.run⟩, k.pendingOp, k.eng, k.busy, k.idle,
    k.status⟩

/-! ### How a command ends -/

/-- The current session's command has ended, leaving the engine `e` without the mutex, the status
being one that exists. -/
theorem State.Inv.ended {e : Engine} {m : Mailbox} (hk : st.eng.OthersKept st.cur e)
    (he : e.Inv st.eng.params) (hh : e.arb.holder ≠ some st.cur) (hm : m.StatusOk)
    (hs : st.cur < st.run.length) :
    ((({ st with eng := e } : State).setRun st.cur none).setMailbox st.cur m).Inv :=
  (h.setOwn (g := none) hk he hh hs).setMailbox st.cur hm

theorem State.Inv.completeOk {e : Engine} (hk : st.eng.OthersKept st.cur e)
    (he : e.Inv st.eng.params) (hh : e.arb.holder ≠ some st.cur) (hs : st.cur < st.run.length)
    (out : Option W64) : (({ st with eng := e } : State).completeOk out).Inv :=
  h.ended hk he hh (m := { st.mailbox st.cur with
    status := statusOk, outLen := out.getD (st.mailbox st.cur).outLen }) (.inl rfl) hs

end

/-- A hardware failure leaves a context in use, its header as it is or cleared (R98). -/
theorem hardwareFailureCtx_addrOk {p : Params} {i : Instr} {before now : Ctx} (h : now.addrOk p) :
    (hardwareFailureCtx i before now).phase ≠ .uninit ∧
      (hardwareFailureCtx i before now).addrOk p := by
  unfold hardwareFailureCtx
  split
  · exact ⟨Phase.noConfusion, clearedCtx_addrOk p .unkeyed⟩
  · exact ⟨Phase.noConfusion, h⟩

/-- A raise sets the engine, the command slot and the mailbox of the session. -/
theorem State.raise_eq_setMailbox (st : State) (i : Instr) (x : Ctx) (c : Cause) :
    st.raise i x c =
      (({ st with eng := (st.raise i x c).eng } : State).setRun st.cur none).setMailbox
      st.cur { st.mailbox st.cur with
        status := statusWord c
        outLen := if hasOutLen i then Config.anyWord st.eng.fresh
          else (st.mailbox st.cur).outLen } := by
  have hrun := State.raise_run st i x c
  have hmbox := State.raise_mbox st i x c
  generalize ht : st.raise i x c = t at hrun hmbox ⊢
  have hrest : t.bus = st.bus ∧ t.cur = st.cur ∧ t.pendingOp = st.pendingOp ∧ t.opnd = st.opnd ∧
      t.result = st.result ∧ t.readData = st.readData := by
    subst ht; simp
  obtain ⟨hbus, hcur, hop, hopnd, hres, hread⟩ := hrest
  cases t
  simp_all [State.setRun, State.setMailbox]

/-- The engine after a raise: a hardware failure comes only of a command whose context is in use. -/
theorem Engine.Inv.raise {p : Params} {st : State} {i : Instr} {x : Ctx} {c : Cause}
    (h : st.eng.Inv p) (hu : causeClass c = .hardwareFailure → st.own.phase ≠ .uninit) :
    (st.raise i x c).eng.Inv p := by
  rw [State.raise_eng]
  split
  · next hc =>
    have hlt := h.lt_of_inUse (hu hc)
    obtain ⟨hph, haddr⟩ := hardwareFailureCtx_addrOk (i := i) (before := x)
      (h.header _ (h.ctx_mem hlt))
    exact (h.setCtx (hu hc) hph haddr).congr rfl rfl rfl rfl
  · exact h.congr rfl rfl rfl rfl

section
variable {st : State} (h : st.Inv)
include h

theorem State.Inv.raise {e : Engine} (hk : st.eng.OthersKept st.cur e) (he : e.Inv st.eng.params)
    (hh : e.arb.holder ≠ some st.cur) (hs : st.cur < st.run.length) {i : Instr} {x : Ctx}
    {c : Cause} (hu : causeClass c = .hardwareFailure → (e.ctx st.cur).phase ≠ .uninit) :
    (({ st with eng := e } : State).raise i x c).Inv := by
  have hkr := (State.othersKept_raise (st := st) hk i x c).eng
  have hor : (({ st with eng := e } : State).raise i x c).eng.arb = e.arb := by
    rw [State.raise_eng]; split <;> rfl
  rw [State.raise_eq_setMailbox]
  exact h.ended hkr (Engine.Inv.raise (st := { st with eng := e }) he hu) (hor ▸ hh)
    (.inr ⟨c, rfl⟩) hs

/-- A session without a command in execution, which takes one. -/
theorem State.Inv.admitted (hn : st.notAdmitted = none) :
    st.cur < st.eng.params.nSessions ∧ st.cur < st.run.length ∧
      st.eng.arb.holder ≠ some st.cur ∧
      st.eng.standing st.cur = (false, st.own.phase != .uninit) := by
  obtain ⟨hs, hidle⟩ := State.notAdmitted_eq_none.1 hn
  have hh := h.idle _ hidle
  exact ⟨hs, h.shaped.run ▸ hs, hh, by simp [Engine.standing, hh, State.own]⟩

/-- A failed check is raised; it is no hardware failure (R97). -/
theorem State.Inv.raise_check {i : Instr} {cmd : Command} {c : Cause} (hn : st.notAdmitted = none)
    (hi : commandOf i = some cmd) (hc : cmd.check st.eng.params st.own st.args = some c) :
    (st.raise i st.own c).Inv := by
  obtain ⟨-, hs, hh, -⟩ := h.admitted hn
  obtain ⟨-, -, hcl⟩ := statusWord_of_check hi hc
  exact h.raise (.refl _ _) h.eng hh hs fun hhw => absurd hhw hcl

theorem State.Inv.refuseWord {t : State} {x : DecodeError} (ht : refuseWord x st = .next t) :
    t.Inv := by
  rw [refuseWord_of_admitted (notAdmitted_of_refuseWord ht)] at ht
  cases ht
  exact h.setMailbox _ (.inr ⟨_, rfl⟩)

/-! ### The moves of a session's command -/

/-- A command run at once: it is rejected, or done, or raises, or waits outside its sections. -/
theorem State.Inv.runCommand {t : State} {i : Instr} {cmd : Command} (hi : commandOf i = some cmd)
    (ht : runCommand i cmd st = .next t) : t.Inv := by
  obtain ⟨hlt, hidle, hcases⟩ := runCommand_next ht
  have hn := State.notAdmitted_eq_none.2 ⟨hlt, hidle⟩
  obtain ⟨-, hs, -, hst⟩ := h.admitted hn
  rcases hcases with ⟨c, hc, rfl⟩ | ⟨hc, hend⟩
  · exact h.raise_check hn hi hc
  have hk : ∀ {e}, ((cmd.body st.eng.params st.cur st.args).eval [] st.eng).engine? = some e →
      st.eng.OthersKept st.cur e :=
    Program.othersKept_eval ((ownOnly_ops st.cur).command hi _ _)
      ((keepsArb_ops st.cur).command hi _ _)
  rcases guarded_eval (command_guarded hi hlt hc) h.eng hst [] with
    ⟨a, e, he, hinv, hfree⟩ | ⟨c, e, he, hinv, hfree⟩ | ⟨l, e, he, hinv, hfree, hg⟩ <;>
    rcases hend with ⟨out, e', he', rfl⟩ | ⟨c', e', he', rfl⟩ | ⟨l', e', he', rfl⟩ <;>
    rw [he] at he' <;> cases he'
  · exact h.completeOk (hk (by rw [he]; rfl)) hinv (Engine.standing_fst.1 hfree) hs a
  · obtain ⟨hh, hu⟩ := Engine.standing_eq.1 hfree
    exact h.raise (hk (by rw [he]; rfl)) hinv (by simp [hh]) hs fun _ => hu.2 rfl
  · exact h.setOwn (hk (by rw [he]; rfl)) hinv ⟨cmd, hi, hg⟩ hs

/-- The issue of a command, of whose micro-steps none is taken yet. -/
theorem State.Inv.startCommand {t : State} {i : Instr} {cmd : Command} (hi : commandOf i = some cmd)
    (ht : startCommand i cmd st = .next t) : t.Inv := by
  have hn := notAdmitted_of_startCommand ht
  obtain ⟨hlt, hs, -, hst⟩ := h.admitted hn
  cases hc : cmd.check st.eng.params st.own st.args with
  | some c =>
    rw [startCommand_of_check hn hc] at ht
    cases ht
    exact h.raise_check hn hi hc
  | none =>
    rw [startCommand_of_checks_pass hn hc] at ht
    cases ht
    refine h.setOwn (.refl _ _) h.eng ⟨cmd, hi, ?_⟩ hs
    rw [hst]
    exact (Program.replay_nil _).symm ▸ command_guarded hi hlt hc

/-- One micro-step of a command in execution: what is left of it is guarded, and so is what is left
after its next micro-step. -/
theorem State.Inv.advance {t : State} (ht : advance st = .next t) : t.Inv := by
  cases hf : st.inFlight st.cur with
  | none => rw [advance_idle hf] at ht; cases ht; exact h
  | some f =>
    obtain ⟨cmd, hi, hg⟩ := h.busy _ f hf
    have hs : st.cur < st.run.length := by
      by_contra hn
      rw [State.inFlight, List.getD_eq_default _ _ (by omega)] at hf
      cases hf
    cases hq : (cmd.body st.eng.params st.cur f.args).replay f.log with
    | ret out =>
      rw [advance_ret hf hi hq] at ht; cases ht
      rw [hq] at hg
      generalize hst : st.eng.standing st.cur = at_ at hg
      cases hg
      exact h.completeOk (.refl _ _) h.eng (Engine.standing_fst.1 (by rw [hst])) hs out
    | raise c =>
      rw [advance_raise hf hi hq] at ht; cases ht
      rw [hq] at hg
      generalize hst : st.eng.standing st.cur = at_ at hg
      cases hg
      obtain ⟨hh, hu⟩ := Engine.standing_eq.1 hst
      exact h.raise (.refl _ _) h.eng (by simp [hh]) hs fun _ => hu.2 rfl
    | step m k =>
      rw [hq] at hg
      cases hm : m st.eng with
      | wait => rw [advance_wait hf hi hq hm] at ht; cases ht; exact h
      | stop x => rw [advance_stop hf hi hq hm] at ht; cases x <;> cases ht
      | next e r =>
        rw [advance_step hf hi hq hm] at ht; cases ht
        have hown := ((ownOnly_ops st.cur).command hi st.eng.params f.args).replay f.log
        rw [hq] at hown
        generalize hst : st.eng.standing st.cur = at_ at hg
        cases hg with
        | step _ _ _ _ _ inv rest =>
          refine h.setOwn (hown.of_step.othersKept hm) (inv _ e r h.eng hst hm) ⟨cmd, hi, ?_⟩ hs
          rw [Program.replay_append, hq]
          exact (Program.replay_nil _).symm ▸ rest _ e r h.eng hst hm

/-! ### The moves of the other agents -/

theorem State.Inv.masterWrite {t : State} {a : Nat} {b : Byte}
    (ht : masterWrite a b st = .next t) : t.Inv := by
  unfold Machine.masterWrite at ht
  split at ht
  · next ha => cases ht; exact h.setEng rfl (h.eng.write b ha) fun _ => rfl
  · cases ht

theorem State.Inv.hostRead {t : State} {reg : Nat} (ht : hostRead reg st = .next t) : t.Inv := by
  unfold Machine.hostRead at ht
  split at ht
  · split at ht
    · cases ht
    · cases ht; exact h.setRead _ _
  · cases ht

end

/-- A word written to `CMD` at issue. -/
theorem State.Inv.postCommand {st t : State} (h : st.Inv) {w : BitVec 32}
    (ht : postCommand w st = .next t) : t.Inv := by
  cases hw : decodeCmd w with
  | ok i =>
    obtain ⟨cmd, hi⟩ := exists_command_of_decodeCmd hw
    exact h.startCommand hi (postCommand_ok hw hi ▸ ht)
  | error x => exact h.refuseWord (postCommand_error hw ▸ ht)

/-- A host's write runs a command, refuses an illegal word, sets an argument or is ignored. -/
theorem State.Inv.hostWrite {st t : State} (h : st.Inv) {reg : Nat} {v : W64}
    {rest : List BusEvent} (hb : st.bus = .hostWrite reg v :: rest) (ht : step st = .next t) :
    t.Inv := by
  have hfetch := fetch_event h.pendingOp hb
  have other : ∀ {o}, fetchHostWrite reg v { st with bus := rest } = .other o → o = .next t :=
    fun ho => (step_of_fetch_other (hfetch.trans ho)).symm.trans ht
  cases hr : registerOf st.eng.params.nSessions reg with
  | none => cases other (fetchHostWrite_none (st := { st with bus := rest }) hr)
  | some r =>
    cases hbusy : r.busy { st with bus := rest } with
    | true => cases other (fetchHostWrite_busy (st := { st with bus := rest }) hr hbusy)
    | false =>
      cases r with
      | cmd s =>
        cases hw : decodeCmd (v.setWidth 32) with
        | ok i =>
          obtain ⟨cmd, hi⟩ := exists_command_of_decodeCmd hw
          rw [step_of_fetch_instr (hfetch.trans (fetchHostWrite_cmd hr hbusy hw)),
            exec_command hi] at ht
          exact (h.move rest s).runCommand hi ht
        | error x =>
          exact (h.move rest s).refuseWord (other (fetchHostWrite_illegal hr hbusy hw))
      | arg s i =>
        cases other (fetchHostWrite_arg hr hbusy)
        exact (h.move rest st.cur).setMailbox s (h.mailbox_statusOk s)
      | status s | outLen s | cap | arb =>
        cases other (fetchHostWrite_ignored hr hbusy nofun nofun)
        exact h.move rest st.cur

/-- Settles O54, by the kind of the next move: of a session's command, whose micro-steps keep to its
guarded sections; of another agent; or a reset. -/
theorem invKept : Obligations.InvKept := by
  intro st t h ht
  have hp := h.pendingOp
  cases hb : st.bus with
  | nil => rw [step_nil hp hb] at ht; cases ht; exact h
  | cons ev rest =>
    cases ev with
    | hostWrite reg v => exact h.hostWrite hb ht
    | hostRead reg => exact (h.move rest st.cur).hostRead (step_hostRead hp hb ▸ ht)
    | cmdStart s w => exact (h.move rest s).postCommand (step_cmdStart hp hb ▸ ht)
    | microStep s => exact (h.move rest s).advance (step_microStep hp hb ▸ ht)
    | masterWrite a b => exact (h.move rest st.cur).masterWrite (step_masterWrite hp hb ▸ ht)
    | reset =>
      rw [step_reset hp hb] at ht; cases ht
      exact (h.move rest st.cur).resetMachine

end Sys2Proof.Machine
end

section
/-! The views `CAP` and `ARB`, field by field (10_state.md R14). -/

namespace Sys2Proof.Machine

/-- A field of `n` bits placed at bit `off` of a register. -/
theorem getLsbD_field {n : Nat} (x : BitVec n) {off : Nat} (h : off + n ≤ 64) (k : Nat) :
    (x.setWidth 64 <<< off).getLsbD k = (decide (off ≤ k) && x.getLsbD (k - off)) := by
  rw [BitVec.getLsbD_shiftLeft, BitVec.getLsbD_setWidth]
  by_cases hk : k - off < n
  · by_cases ho : off ≤ k
    · simp [ho, show k < 64 by omega, show k - off < 64 by omega, Nat.not_lt.2 ho]
    · simp [ho, Nat.lt_of_not_le ho]
  · simp [BitVec.getLsbD_of_ge x _ (Nat.le_of_not_lt hk)]

theorem getLsbD_bitValue_shiftLeft (b : Bool) {off : Nat} (h : off < 64) (k : Nat) :
    (bitValue b <<< off).getLsbD k = (b && decide (k = off)) := by
  have hb : bitValue b = (BitVec.ofBool b).setWidth 64 := by cases b <;> rfl
  rw [hb, getLsbD_field _ (by omega), BitVec.getLsbD_ofBool]
  by_cases hk : k = off
  · simp [hk]
  · simp only [hk, decide_false, Bool.and_false, Bool.and_eq_false_iff, decide_eq_false_iff_not]
    omega

/-- A field of eight bits at `off` has no bit below or above it. -/
theorem getLsbD_byte_outside (x : BitVec 8) {off k : Nat} (h : k < off ∨ off + 8 ≤ k) :
    (decide (off ≤ k) && x.getLsbD (k - off)) = false := by
  rcases h with h | h
  · rw [decide_eq_false (Nat.not_le.2 h), Bool.false_and]
  · rw [BitVec.getLsbD_of_ge _ _ (by omega), Bool.and_false]

/-- Each bit of `CAP` (R14): `strategy`, `has_hw_key`, the eight of `n_sessions`. -/
theorem getLsbD_capValue (p : Params) (k : Nat) :
    (capValue p).getLsbD k =
      ((p.strategy == .b && decide (k = 0)) || (p.hasHwKey && decide (k = 1)) ||
        (decide (8 ≤ k) && (BitVec.ofNat 8 p.nSessions).getLsbD (k - 8))) := by
  have h0 := getLsbD_bitValue_shiftLeft (p.strategy == .b) (off := 0) (by decide) k
  rw [BitVec.shiftLeft_zero] at h0
  rw [capValue, BitVec.getLsbD_or, BitVec.getLsbD_or, h0,
    getLsbD_bitValue_shiftLeft _ (by decide), getLsbD_field _ (by decide)]

/-- Each bit of `ARB` (R14): the eight of `refcount`, `mutex_exists`, `held`, the eight of
`holder`. -/
theorem getLsbD_arbValue (a : Arbiter) (free : BitVec 8) (k : Nat) :
    (arbValue a free).getLsbD k =
      ((BitVec.ofNat 8 a.refcount).getLsbD k || (a.mutexExists && decide (k = 8)) ||
        (a.holder.isSome && decide (k = 9)) ||
        (decide (16 ≤ k) && (a.holder.elim free (BitVec.ofNat 8 ·)).getLsbD (k - 16))) := by
  have h0 := getLsbD_field (BitVec.ofNat 8 a.refcount) (off := 0) (by decide) k
  rw [BitVec.shiftLeft_zero, decide_eq_true (Nat.zero_le k), Bool.true_and, Nat.sub_zero] at h0
  rw [arbValue, BitVec.getLsbD_or, BitVec.getLsbD_or, BitVec.getLsbD_or, h0,
    getLsbD_bitValue_shiftLeft _ (by decide), getLsbD_bitValue_shiftLeft _ (by decide),
    getLsbD_field _ (by decide)]

/-- The field of eight bits at `off` is `x` when its bits are. -/
theorem extract_byte_eq {v : W64} {off : Nat} {x : BitVec 8}
    (h : ∀ k, k < 8 → v.getLsbD (off + k) = x.getLsbD k) : v.extractLsb' off 8 = x := by
  refine BitVec.eq_of_getLsbD_eq fun k hk => ?_
  rw [BitVec.getLsbD_extractLsb', h k hk, decide_eq_true hk, Bool.true_and]

theorem toNat_ofNat_byte {n : Nat} (h : n < 256) : (BitVec.ofNat 8 n).toNat = n := by
  rw [BitVec.toNat_ofNat, Nat.mod_eq_of_lt h]

theorem extract_capValue_nSessions (p : Params) :
    (capValue p).extractLsb' 8 8 = BitVec.ofNat 8 p.nSessions := by
  refine extract_byte_eq fun k _ => ?_
  rw [getLsbD_capValue]
  simp [show ¬ 8 + k = 1 by omega]

theorem extract_arbValue_refcount (a : Arbiter) (free : BitVec 8) :
    (arbValue a free).extractLsb' 0 8 = BitVec.ofNat 8 a.refcount := by
  refine extract_byte_eq fun k hk => ?_
  rw [getLsbD_arbValue]
  simp [show k ≠ 8 by omega, show k ≠ 9 by omega, show k < 16 by omega]

theorem extract_arbValue_holder (a : Arbiter) (free : BitVec 8) :
    (arbValue a free).extractLsb' 16 8 = a.holder.elim free (BitVec.ofNat 8 ·) := by
  refine extract_byte_eq fun k _ => ?_
  rw [getLsbD_arbValue, BitVec.getLsbD_of_ge (BitVec.ofNat 8 a.refcount) _ (by omega)]
  simp [show ¬ 16 + k = 8 by omega, show ¬ 16 + k = 9 by omega]

/-- Settles O9: each field by the bits of the register, and no field has any other bit. -/
theorem capArbFields : Obligations.CapArbFields := by
  refine ⟨fun p hv => ⟨?_, ?_, ?_, fun k h2 hk => ?_⟩,
    fun a free hr => ⟨?_, ?_, ?_, fun s hs hlt => ?_, fun hs => ?_, fun k h10 hk => ?_⟩⟩
  · rw [getLsbD_capValue]; simp
  · rw [getLsbD_capValue]; simp
  · obtain ⟨-, hN, -⟩ := hv
    rw [extract_capValue_nSessions, toNat_ofNat_byte (by omega)]
  · rw [getLsbD_capValue, getLsbD_byte_outside _ hk]
    simp [show k ≠ 0 by omega, show k ≠ 1 by omega]
  · rw [extract_arbValue_refcount, toNat_ofNat_byte hr]
  · rw [getLsbD_arbValue]; simp
  · rw [getLsbD_arbValue]; simp
  · rw [extract_arbValue_holder, hs]
    exact toNat_ofNat_byte hlt
  · rw [extract_arbValue_holder, hs]
    rfl
  · rw [getLsbD_arbValue, getLsbD_byte_outside _ hk, BitVec.getLsbD_of_ge _ _ (by omega)]
    simp [show k ≠ 8 by omega, show k ≠ 9 by omega]

end Sys2Proof.Machine
end

section
/-! Who changes what is shared (10_state.md R17; R20, R88): the count of sessions, the table of a
context and memory, by a permission for each of the three that an instruction has or lacks. -/

namespace Sys2Proof.Machine

/-! ### What an instruction may write -/

/-- Which of the count of sessions, the session's own table and memory may be written. -/
structure Writable where
  count : Bool
  table : Bool
  mem : Bool

/-- What each instruction may write (R17, R88). -/
def writableBy : Instr → Writable
  | .init => ⟨true, true, false⟩
  | .free => ⟨true, true, false⟩
  | .setkey => ⟨false, true, false⟩
  | .update => ⟨false, false, true⟩
  | .finish => ⟨false, false, true⟩
  | .cryptAndTag _ => ⟨false, false, true⟩
  | .authDecrypt => ⟨false, false, true⟩
  | .starts _ | .updateAd | .configure | .encrypt | .decrypt | .deinitialize | .suspend | .resume
  | .gcmBegin | .gcmHeader | .gcmPayload | .gcmTag | .mutexCreate | .mutexDestroy | .acquire
  | .release | .ghashBuild | .ghashMult | .inc32 | .closeAad | .tagVerify | .guard =>
    ⟨false, false, false⟩

/-- From one engine to another, for session `s`, only what is writable has changed. -/
structure Engine.WroteOnly (w : Writable) (s : Nat) (e e' : Engine) : Prop where
  count : w.count = false → e'.arb.refcount = e.arb.refcount
  table : w.table = false → (e'.ctx s).table = (e.ctx s).table
  mem : w.mem = false → e'.mem = e.mem

section
variable {w : Writable} {s : Nat} {e e' e'' : Engine}

theorem Engine.WroteOnly.refl : e.WroteOnly w s e := ⟨fun _ => rfl, fun _ => rfl, fun _ => rfl⟩

theorem Engine.WroteOnly.trans (h : e.WroteOnly w s e') (h' : e'.WroteOnly w s e'') :
    e.WroteOnly w s e'' :=
  ⟨fun hw => (h'.count hw).trans (h.count hw), fun hw => (h'.table hw).trans (h.table hw),
    fun hw => (h'.mem hw).trans (h.mem hw)⟩

theorem Engine.WroteOnly.of_eq (hc : e'.arb.refcount = e.arb.refcount) (hx : e'.ctxs = e.ctxs)
    (hm : e'.mem = e.mem) : e.WroteOnly w s e' :=
  ⟨fun _ => hc, fun _ => by rw [Engine.ctx, hx]; rfl, fun _ => hm⟩

/-- Setting the context with its table kept keeps the table, whether or not the session exists. -/
theorem Engine.table_setCtx {x : Ctx} (h : x.table = (e.ctx s).table) :
    ((e.setCtx s x).ctx s).table = (e.ctx s).table := by
  by_cases hs : s < e.ctxs.length
  · rw [Engine.ctx_setCtx_self _ _ _ hs, h]
  · rw [Engine.setCtx, List.set_eq_of_length_le (Nat.le_of_not_lt hs)]

theorem Engine.WroteOnly.setCtx {x : Ctx} (h : w.table = false → x.table = (e.ctx s).table) :
    e.WroteOnly w s (e.setCtx s x) :=
  ⟨fun _ => rfl, fun hw => Engine.table_setCtx (h hw), fun _ => rfl⟩

end

/-- A micro-step of session `s` that writes only what is writable. -/
def WritesOnly (w : Writable) (s : Nat) (m : Engine → Micro) : Prop :=
  ∀ e e' r, m e = .next e' r → e.WroteOnly w s e'

/-! ### The micro-steps -/

section
variable {w : Writable} {s : Nat}

theorem writesOnly_updateCtx {f : Ctx → Ctx} (hf : w.table = false → ∀ x, (f x).table = x.table) :
    WritesOnly w s (updateCtxOp s f) := by
  intro e e' r h
  cases h
  exact .setCtx fun hw => hf hw _

theorem writesOnly_updateCtx_record {f : Ctx → Ctx} {g : Engine → Engine}
    (hg : ∀ e, (g e).arb = e.arb ∧ (g e).ctxs = e.ctxs ∧ (g e).mem = e.mem)
    (hf : w.table = false → ∀ x, (f x).table = x.table) :
    WritesOnly w s fun e => updateCtxOp s f (g e) := by
  intro e e' r h
  obtain ⟨ha, hc, hm⟩ := hg e
  exact .trans (.of_eq (by rw [ha]) hc hm) (writesOnly_updateCtx hf (g e) e' r h)

theorem writesOnly_readByte (a : Nat) : WritesOnly w s (readByteOp a) :=
  fun _ _ _ h => readByteOp_eq_next h ▸ .refl

theorem writesOnly_writeByte (hw : w.mem = true) (a : Nat) (b : Byte) :
    WritesOnly w s (writeByteOp a b) := by
  intro e e' r h
  rw [writeByteOp_eq_next h]
  exact ⟨fun _ => rfl, fun _ => rfl, fun h => by rw [hw] at h; cases h⟩

theorem writesOnly_acquire : WritesOnly w s (acquireOp s) := by
  intro e e' r h
  obtain ⟨-, -, rfl, -⟩ := acquireOp_next h
  exact .of_eq rfl rfl rfl

theorem writesOnly_release : WritesOnly w s (releaseOp s) := by
  intro e e' r h
  obtain ⟨-, rfl, -⟩ := releaseOp_next h
  exact .of_eq rfl rfl rfl

/-- An adapter operation writes none of the three (R45). -/
theorem writesOnly_of_same {m : Engine → Micro}
    (h : ∀ e e' r, m e = .next e' r →
      e'.params = e.params ∧ e'.ctxs = e.ctxs ∧ e'.arb = e.arb ∧ e'.mem = e.mem) :
    WritesOnly w s m := by
  intro e e' r hm
  obtain ⟨-, hc, ha, hmem⟩ := h e e' r hm
  exact .of_eq (by rw [ha]) hc hmem

theorem writesOnly_deinitialize : WritesOnly w s (deinitializeOp s) :=
  fun _ _ _ h => deinitializeOp_eq_next h ▸ .of_eq rfl rfl rfl

theorem writesOnly_multBuf : WritesOnly w s (multBufOp s) :=
  writesOnly_updateCtx_record (g := fun e => e.record s 0x31) (fun _ => ⟨rfl, rfl, rfl⟩)
    fun _ _ => rfl

theorem writesOnly_incY (n : Nat) : WritesOnly w s (incYOp s n) :=
  writesOnly_updateCtx_record
    (g := fun e => { e with history := List.replicate n ⟨s, 0x32⟩ ++ e.history })
    (fun _ => ⟨rfl, rfl, rfl⟩) fun _ _ => rfl

theorem writesOnly_buildTable (hw : w.table = true) (b : Block) :
    WritesOnly w s (buildTableOp s b) :=
  writesOnly_updateCtx_record (g := fun e => e.record s 0x30) (fun _ => ⟨rfl, rfl, rfl⟩)
    fun h => by rw [hw] at h; cases h

theorem writesOnly_closeAad : WritesOnly w s (closeAadOp s) := by
  intro e e' r h
  rcases closeAadOp_eq_next h with rfl | rfl
  · exact .trans (e' := (e.record s 0x33).record s 0x31) (.of_eq rfl rfl rfl) (.setCtx fun _ => rfl)
  · exact .of_eq rfl rfl rfl

theorem writesOnly_record (code : BitVec 8) (r : Reply) :
    WritesOnly w s fun e => .next (e.record s code) r :=
  fun _ _ _ h => by cases h; exact .of_eq rfl rfl rfl

/-! ### The parts of the commands -/

theorem getCtx_writesOnly : (getCtx s).All (WritesOnly w s) :=
  .step _ _ (fun _ _ _ h => by cases h; exact .refl) fun _ => .ret _

theorem setCtx_writesOnly {f : Ctx → Ctx}
    (hf : w.table = false → ∀ x, (f x).table = x.table := by exact fun _ _ => rfl) :
    (setCtx s f).All (WritesOnly w s) := .do_ (writesOnly_updateCtx hf)

theorem memRead_writesOnly (a n : Nat) : (memRead a n).All (WritesOnly w s) := by
  induction n generalizing a with
  | zero => exact .ret _
  | succ n ih => exact .step _ _ (writesOnly_readByte a) fun _ => .bind (ih (a + 1)) fun _ => .ret _

theorem memWrite_writesOnly (hw : w.mem = true) (a : Nat) (l : List Byte) :
    (memWrite a l).All (WritesOnly w s) := by
  induction l generalizing a with
  | nil => exact .ret _
  | cons b rest ih => exact .step _ _ (writesOnly_writeByte hw a b) fun _ => ih (a + 1)

theorem guardFail_writesOnly {α : Type} (c : Cause) :
    (guardFail s c : Program α).All (WritesOnly w s) :=
  .step _ _ writesOnly_release fun _ => .raise c

theorem guardClose_writesOnly (r : List Byte) : (guardClose s r).All (WritesOnly w s) := by
  refine .step _ _ (writesOnly_of_same fun _ _ _ => suspendOp_same) fun rep => ?_
  split
  · exact guardFail_writesOnly _
  · exact .step _ _ (writesOnly_updateCtx fun _ _ => rfl) fun _ =>
      .step _ _ writesOnly_release fun _ => .ret _

theorem guardBody_writesOnly (body : List PortCall) (r : List Byte) :
    (guardBody s (guardClose s) body r).All (WritesOnly w s) := by
  induction body generalizing r with
  | nil => exact guardClose_writesOnly r
  | cons c rest ih =>
    refine .step _ _ (writesOnly_of_same fun _ _ _ => portCallOp_same) fun rep => ?_
    split
    · exact guardFail_writesOnly _
    · exact ih _

theorem guardSection_writesOnly (body : List PortCall) :
    (guardSection s body).All (WritesOnly w s) := by
  refine .step _ _ (fun e e' r h => ?_) fun _ =>
    .step _ _ (writesOnly_of_same fun _ _ _ => resumeOwnOp_same) fun rep => ?_
  · exact .trans (e' := e.record s 0x35) (.of_eq rfl rfl rfl) (writesOnly_acquire _ e' r h)
  · split
    · exact guardFail_writesOnly _
    · exact guardBody_writesOnly body []

theorem multBufIf_writesOnly (c : Bool) : (multBufIf s c).All (WritesOnly w s) := by
  cases c
  · exact .ret _
  · exact .do_ writesOnly_multBuf

theorem hwPass_writesOnly (c : PortCall) : (hwPass s c).All (WritesOnly w s) := by
  refine getCtx_writesOnly.bind fun x => ?_
  split
  · exact (memRead_writesOnly _ _).bind fun _ => (guardSection_writesOnly _).bind fun _ =>
      .bind setCtx_writesOnly fun _ => .ret _
  · exact guardSection_writesOnly _

/-- `SETKEY` writes the table (R63). -/
theorem setkeyPart_writesOnly (hw : w.table = true) (p : Params) (o : SetkeyOperands) :
    (setkeyPart p s o).All (WritesOnly w s) := by
  unfold setkeyPart
  split
  · exact (memRead_writesOnly _ _).bind fun _ => .bind setCtx_writesOnly fun _ =>
      (guardSection_writesOnly _).bind fun _ => setCtx_writesOnly
  · exact (memRead_writesOnly _ _).bind fun _ =>
      (setCtx_writesOnly fun h => by rw [hw] at h; cases h).bind fun _ =>
      (guardSection_writesOnly _).bind fun _ =>
      (Program.All.do_ (writesOnly_buildTable hw _)).bind fun _ => setCtx_writesOnly

theorem startsPart_writesOnly (p : Params) (dir : Direction) (iv : W64) :
    (startsPart p s dir iv).All (WritesOnly w s) := by
  unfold startsPart
  split
  · exact (memRead_writesOnly _ _).bind fun _ => .bind setCtx_writesOnly fun _ =>
      getCtx_writesOnly.bind fun _ => (guardSection_writesOnly _).bind fun _ => .ret _
  · exact (memRead_writesOnly _ _).bind fun _ => .bind setCtx_writesOnly fun _ =>
      getCtx_writesOnly.bind fun _ => (guardSection_writesOnly _).bind fun _ => setCtx_writesOnly

theorem updateAdPart_writesOnly (p : Params) (aad n : W64) :
    (updateAdPart p s aad n).All (WritesOnly w s) := by
  unfold updateAdPart
  split
  · refine setCtx_writesOnly fun _ x => ?_
    dsimp only
    split <;> rfl
  · exact .bind setCtx_writesOnly fun _ => getCtx_writesOnly.bind fun _ => .forEach fun _ _ =>
      (memRead_writesOnly _ _).bind fun _ => .bind setCtx_writesOnly fun _ =>
      multBufIf_writesOnly _

/-- `UPDATE` writes memory (R68, R78). -/
theorem updatePart_writesOnly (hw : w.mem = true) (p : Params) (input n output : W64) :
    (updatePart p s input n output).All (WritesOnly w s) := by
  unfold updatePart
  split
  · refine .bind setCtx_writesOnly fun _ => .bind ?_ fun _ => ?_
    · split
      · exact .ret _
      · exact (memRead_writesOnly _ _).bind fun _ => (hwPass_writesOnly _).bind fun _ =>
          (memWrite_writesOnly hw _ _).bind fun _ =>
          (Program.All.do_ (writesOnly_incY _)).bind fun _ => setCtx_writesOnly
    · split
      · exact .ret _
      · exact (memRead_writesOnly _ _).bind fun _ => (hwPass_writesOnly _).bind fun _ =>
          (memWrite_writesOnly hw _ _).bind fun _ =>
          (Program.All.do_ (writesOnly_incY _)).bind fun _ => setCtx_writesOnly
  · refine getCtx_writesOnly.bind fun x => .bind ?_ fun _ => .forEach fun q _ =>
      .bind ?_ fun _ => ?_
    · split
      · exact .ret _
      · exact (Program.All.do_ writesOnly_closeAad).bind fun _ => setCtx_writesOnly
    · split
      · exact .do_ (writesOnly_incY _)
      · exact .ret _
    · exact getCtx_writesOnly.bind fun _ => (guardSection_writesOnly _).bind fun _ =>
        (memRead_writesOnly _ _).bind fun _ => .bind setCtx_writesOnly fun _ =>
        (memWrite_writesOnly hw _ _).bind fun _ => .bind setCtx_writesOnly fun _ =>
        multBufIf_writesOnly _

theorem finishTag_writesOnly (p : Params) : (finishTag p s).All (WritesOnly w s) := by
  unfold finishTag
  split
  · exact getCtx_writesOnly.bind fun _ => hwPass_writesOnly _
  · refine getCtx_writesOnly.bind fun x => .bind ?_ fun _ => .bind setCtx_writesOnly fun _ =>
      (Program.All.do_ writesOnly_multBuf).bind fun _ => getCtx_writesOnly.bind fun _ => .ret _
    split
    · exact multBufIf_writesOnly _
    · exact .do_ writesOnly_closeAad

/-- `FINISH` writes memory (R69, R79). -/
theorem finishPart_writesOnly (hw : w.mem = true) (p : Params) (tagOut tagLen : W64) :
    (finishPart p s tagOut tagLen).All (WritesOnly w s) :=
  (finishTag_writesOnly p).bind fun _ => (memWrite_writesOnly hw _ _).bind fun _ =>
    setCtx_writesOnly

/-- `INIT` writes the count and its context (R61, R88). -/
theorem writesOnly_init (hc : w.count = true) (ht : w.table = true) :
    WritesOnly w s (initOp s) := by
  intro e e' r h
  refine ⟨fun hw => ?_, fun hw => ?_, fun _ => ?_⟩
  · rw [hc] at hw; cases hw
  · rw [ht] at hw; cases hw
  · rcases initOp_eq_next h with ⟨-, rfl⟩ | rfl <;> rfl

/-- `FREE` takes one from the count or changes nothing, and writes no memory (R62, R88). -/
theorem freeOp_shared {e e' : Engine} {r : Reply} (h : freeOp s e = .next e' r) :
    e'.mem = e.mem ∧
      (e'.arb.refcount = e.arb.refcount ∨ e'.arb.refcount = e.arb.refcount - 1) := by
  unfold freeOp mutexDestroyOp at h
  dsimp only at h
  split at h
  · cases h; exact ⟨rfl, .inl rfl⟩
  split at h
  · split at h
    · cases h; exact ⟨rfl, .inr rfl⟩
    · cases h
  · cases h; exact ⟨rfl, .inr rfl⟩

theorem writesOnly_free (hc : w.count = true) (ht : w.table = true) :
    WritesOnly w s (freeOp s) := by
  intro e e' r h
  refine ⟨fun hw => ?_, fun hw => ?_, fun _ => (freeOp_shared h).1⟩
  · rw [hc] at hw; cases hw
  · rw [ht] at hw; cases hw

theorem freeBody_writesOnly (hc : w.count = true) (ht : w.table = true) :
    (freeBody s).All (WritesOnly w s) := by
  refine getCtx_writesOnly.bind fun x => ?_
  split
  · exact .ret _
  · split
    · exact .step _ _ writesOnly_acquire fun _ => .step _ _ writesOnly_deinitialize fun _ =>
        .step _ _ writesOnly_release fun _ => .do_ (writesOnly_free hc ht)
    · exact .do_ (writesOnly_free hc ht)

/-- Every micro-step of a command writes only what its instruction may write. -/
theorem command_writesOnly {i : Instr} {cmd : Command} (hi : commandOf i = some cmd) (p : Params)
    (a : Args) : (cmd.body p s a).All (WritesOnly (writableBy i) s) := by
  cases i <;> simp only [commandOf, Option.some.injEq, reduceCtorEq] at hi <;> subst hi
  case init => exact .bind (.do_ (writesOnly_init rfl rfl)) fun _ => .ret _
  case free => exact (freeBody_writesOnly rfl rfl).bind fun _ => .ret _
  case setkey => exact (setkeyPart_writesOnly rfl _ _).bind fun _ => .ret _
  case starts => exact (startsPart_writesOnly _ _ _).bind fun _ => .ret _
  case updateAd => exact (updateAdPart_writesOnly _ _ _).bind fun _ => .ret _
  case update => exact (updatePart_writesOnly rfl _ _ _ _).bind fun _ => .ret _
  case finish => exact (finishPart_writesOnly rfl _ _ _).bind fun _ => .ret _
  case cryptAndTag =>
    exact (startsPart_writesOnly _ _ _).bind fun _ => (updateAdPart_writesOnly _ _ _).bind fun _ =>
      (updatePart_writesOnly rfl _ _ _ _).bind fun _ => (finishPart_writesOnly rfl _ _ _).bind
        fun _ => .ret _
  case authDecrypt =>
    have hz : (zeroOutput (authDecryptOperands a)).All
        (WritesOnly (writableBy .authDecrypt) s) := memWrite_writesOnly rfl _ _
    refine (startsPart_writesOnly _ _ _).bind fun _ => (updateAdPart_writesOnly _ _ _).bind fun _ =>
      .bind (.onRaise ((updatePart_writesOnly rfl _ _ _ _).bind fun _ => finishTag_writesOnly _) hz)
        fun _ => .bind setCtx_writesOnly fun _ => (memRead_writesOnly _ _).bind fun _ =>
        .step _ _ (writesOnly_record _ _) fun r => ?_
    split
    · exact .ret _
    · exact hz.bind fun _ => .raise _

end

/-! ### How often the count changes -/

/-- The count of sessions after an instruction that changes it (R88). -/
def countAfter : Instr → Nat → Nat
  | .init, n => n + 1
  | .free, n => n - 1
  | _, n => n

/-- A micro-step that leaves the count as it is, or changes it as `g` does. -/
def CountsBy (g : Nat → Nat) (m : Engine → Micro) : Prop :=
  ∀ e e' r, m e = .next e' r →
    e'.arb.refcount = e.arb.refcount ∨ e'.arb.refcount = g e.arb.refcount

/-- A micro-step that leaves the count as it is. -/
def KeepsCount (m : Engine → Micro) : Prop :=
  ∀ e e' r, m e = .next e' r → e'.arb.refcount = e.arb.refcount

theorem WritesOnly.keepsCount {w : Writable} {s : Nat} {m : Engine → Micro}
    (h : WritesOnly w s m) (hw : w.count = false) : KeepsCount m :=
  fun e e' r hm => (h e e' r hm).count hw

/-- A program in which at most one micro-step changes the count, as `g` does. -/
inductive Program.CountsOnce {α : Type} (g : Nat → Nat) : Program α → Prop
  | keep (q : Program α) (h : q.All KeepsCount) : Program.CountsOnce g q
  | step (m : Engine → Micro) (k : Reply → Program α) (hm : KeepsCount m)
      (hk : ∀ r, Program.CountsOnce g (k r)) : Program.CountsOnce g (.step m k)
  | once (m : Engine → Micro) (k : Reply → Program α) (hm : CountsBy g m)
      (hk : ∀ r, (k r).All KeepsCount) : Program.CountsOnce g (.step m k)

section
variable {α β : Type} {g : Nat → Nat} {q : Program α}

theorem Program.CountsOnce.thenRet (h : q.CountsOnce g) (b : β) :
    (q.bind fun _ => Program.ret b).CountsOnce g := by
  induction h with
  | keep q h => exact .keep _ (h.bind fun _ => .ret _)
  | step m k hm _ ih => exact .step m _ hm ih
  | once m k hm hk => exact .once m _ hm fun r => (hk r).bind fun _ => .ret _

theorem Program.CountsOnce.all (h : q.CountsOnce g) : q.All (CountsBy g) := by
  have weaken : ∀ m, KeepsCount m → CountsBy g m := fun m hm e e' r h => .inl (hm e e' r h)
  induction h with
  | keep q h => exact h.mono weaken
  | step m k hm _ ih => exact .step m k (weaken m hm) ih
  | once m k hm hk => exact .step m k hm fun r => (hk r).mono weaken

theorem Program.eval_count {log : List Reply} {e e' : Engine} (h : q.All KeepsCount)
    (he : (q.eval log e).engine? = some e') : e'.arb.refcount = e.arb.refcount :=
  Program.All.eval (R := fun a b => b.arb.refcount = a.arb.refcount) h (fun _ => rfl)
    (fun _ _ _ hab hbc => hbc.trans hab) log he

/-- The engine after a run whose first micro-step is given: the one before it if it waits. -/
theorem Program.engine?_eval_step {m : Engine → Micro} {k : Reply → Program α} {log : List Reply}
    {e e' : Engine} (h : ((Program.step m k).eval log e).engine? = some e') :
    e' = e ∨ ∃ e1 r, m e = .next e1 r ∧ ((k r).eval (log ++ [r]) e1).engine? = some e' := by
  cases hm : m e with
  | next e1 r =>
    rw [Program.eval_step_next hm] at h
    exact .inr ⟨e1, r, rfl, h⟩
  | wait =>
    rw [Program.eval_step_wait hm] at h
    exact .inl (Option.some.inj h).symm
  | stop x =>
    rw [Program.eval_step_stop hm] at h
    cases h

theorem Program.CountsOnce.eval (h : q.CountsOnce g) {log : List Reply} {e e' : Engine}
    (he : (q.eval log e).engine? = some e') :
    e'.arb.refcount = e.arb.refcount ∨ e'.arb.refcount = g e.arb.refcount := by
  induction h generalizing log e with
  | keep q h => exact .inl (Program.eval_count h he)
  | step m k hm _ ih =>
    rcases Program.engine?_eval_step he with rfl | ⟨e1, r, hme, hk⟩
    · exact .inl rfl
    · rw [← hm e e1 r hme]
      exact ih r hk
  | once m k hm hk =>
    rcases Program.engine?_eval_step he with rfl | ⟨e1, r, hme, he⟩
    · exact .inl rfl
    · rw [Program.eval_count (hk r) he]
      exact hm e e1 r hme

end

theorem initBody_countsOnce (s : Nat) : (initBody s).CountsOnce (countAfter .init) :=
  .once _ _ (fun e e' r h => by rcases initOp_eq_next h with ⟨-, rfl⟩ | rfl <;> exact .inr rfl)
    fun _ => .ret _

theorem freeBody_countsOnce (s : Nat) : (freeBody s).CountsOnce (countAfter .free) := by
  have hfree : (Program.do_ (freeOp s)).CountsOnce (countAfter .free) :=
    .once _ _ (fun _ _ _ h => (freeOp_shared h).2) fun _ => .ret _
  have keep {m} (h : WritesOnly ⟨false, false, false⟩ s m) : KeepsCount m := h.keepsCount rfl
  refine .step _ _ (fun _ _ _ h => by cases h; rfl) fun rep => ?_
  show Program.CountsOnce _ (if (replyCtx rep).phase = .uninit then _ else _)
  split
  · exact .keep _ (.ret _)
  · split
    · exact .step _ _ (keep writesOnly_acquire) fun _ =>
        .step _ _ (keep writesOnly_deinitialize) fun _ =>
        .step _ _ (keep writesOnly_release) fun _ => hfree
    · exact hfree

theorem command_countsOnce {i : Instr} {cmd : Command} (hi : commandOf i = some cmd) (p : Params)
    (s : Nat) (a : Args) : (cmd.body p s a).CountsOnce (countAfter i) := by
  have keep (hw : (writableBy i).count = false) : (cmd.body p s a).CountsOnce (countAfter i) :=
    .keep _ ((command_writesOnly hi p a).mono fun _ hm => hm.keepsCount hw)
  cases i with
  | init => cases hi; exact (initBody_countsOnce s).thenRet _
  | free => cases hi; exact (freeBody_countsOnce s).thenRet _
  | _ => exact keep rfl

/-! ### What a move writes -/

/-- What instruction `i` of session `s`, or one micro-step of it, has written. -/
structure Engine.Wrote (i : Instr) (s : Nat) (e e' : Engine) : Prop where
  only : e.WroteOnly (writableBy i) s e'
  count : e'.arb.refcount = e.arb.refcount ∨ e'.arb.refcount = countAfter i e.arb.refcount

section
variable {i : Instr} {s : Nat} {e e' e'' : Engine}

theorem Engine.Wrote.refl : e.Wrote i s e := ⟨.refl, .inl rfl⟩

theorem Engine.Wrote.of_bare (hw : (writableBy i).count = false)
    (h : e.WroteOnly (writableBy i) s e') : e.Wrote i s e' := ⟨h, .inl (h.count hw)⟩

theorem Engine.Wrote.sharedWrites (h : e.Wrote i s e') : SharedWrites i e e' := by
  obtain ⟨⟨hc, -, hm⟩, hcount⟩ := h
  refine ⟨?_, ?_, fun h1 h2 => ?_, fun h1 h2 h3 h4 => ?_⟩
  · rintro rfl; exact hcount
  · rintro rfl; exact hcount
  · cases i with
    | init => exact absurd rfl h1
    | free => exact absurd rfl h2
    | _ => exact hc rfl
  · cases i with
    | update => exact absurd rfl h1
    | finish => exact absurd rfl h2
    | cryptAndTag dir => exact absurd rfl (h3 dir)
    | authDecrypt => exact absurd rfl h4
    | _ => exact hm rfl

theorem Engine.Wrote.table (h : e.Wrote i s e') (h1 : i ≠ .init) (h2 : i ≠ .free)
    (h3 : i ≠ .setkey) : (e'.ctx s).table = (e.ctx s).table := by
  refine h.only.table ?_
  cases i with
  | init => exact absurd rfl h1
  | free => exact absurd rfl h2
  | setkey => exact absurd rfl h3
  | _ => rfl

theorem SharedWrites.congr (h : SharedWrites i e e') (ha : e''.arb = e'.arb)
    (hm : e''.mem = e'.mem) : SharedWrites i e e'' := by
  obtain ⟨h1, h2, h3, h4⟩ := h
  exact ⟨ha ▸ h1, ha ▸ h2, ha ▸ h3, hm ▸ h4⟩

end

theorem State.raise_shared (st : State) (i : Instr) (x : Ctx) (c : Cause) :
    (st.raise i x c).eng.arb = st.eng.arb ∧ (st.raise i x c).eng.mem = st.eng.mem := by
  rw [State.raise_eng]
  split <;> exact ⟨rfl, rfl⟩

/-- A raise of a command other than `SETKEY` leaves the table or puts it back (R98). -/
theorem State.raise_table (st : State) {i : Instr} (x : Ctx) (c : Cause) (hi : i ≠ .setkey) :
    ((st.raise i x c).eng.ctx st.cur).table = st.own.table ∨
      ((st.raise i x c).eng.ctx st.cur).table = x.table := by
  rw [State.raise_eng]
  split
  · have hx : (hardwareFailureCtx i x st.own).table = x.table := by
      simp [hardwareFailureCtx, hi]
    by_cases hs : st.cur < st.eng.ctxs.length
    · refine .inr (Eq.trans (congrArg Ctx.table ?_) hx)
      exact Engine.ctx_setCtx_self st.eng st.cur _ hs
    · refine .inl (congrArg Ctx.table ?_)
      simp [Engine.setCtx, Engine.ctx, State.own, List.set_eq_of_length_le (Nat.le_of_not_lt hs)]
  · exact .inl rfl

/-- What a move of the current session's command `i` may change: what is shared, and the table of
its context, which a raise puts back to that of the context `x`. -/
structure State.MoveWrote (i : Instr) (x : Ctx) (st t : State) : Prop where
  shared : SharedWrites i st.eng t.eng
  table : i ≠ .init → i ≠ .free → i ≠ .setkey →
    (t.eng.ctx st.cur).table = st.own.table ∨ (t.eng.ctx st.cur).table = x.table

section
variable {i : Instr} {x : Ctx} {st t : State} {e : Engine}

theorem State.moveWrote_of_eng (h : st.eng.Wrote i st.cur e) (ht : t.eng = e) :
    st.MoveWrote i x t := by
  subst ht
  exact ⟨h.sharedWrites, fun h1 h2 h3 => .inl (h.table h1 h2 h3)⟩

theorem State.moveWrote_raise (h : st.eng.Wrote i st.cur e) (c : Cause) :
    st.MoveWrote i x (({ st with eng := e } : State).raise i x c) := by
  obtain ⟨ha, hm⟩ := State.raise_shared { st with eng := e } i x c
  refine ⟨h.sharedWrites.congr ha hm, fun h1 h2 h3 => ?_⟩
  exact (State.raise_table { st with eng := e } x c h3).imp_left
    fun hr => hr.trans (h.table h1 h2 h3)

end

theorem runCommand_wrote {i : Instr} {cmd : Command} (hi : commandOf i = some cmd) {st t : State}
    (h : runCommand i cmd st = .next t) : st.MoveWrote i st.own t := by
  have hrun : ∀ {e}, ((cmd.body st.eng.params st.cur st.args).eval [] st.eng).engine? = some e →
      st.eng.Wrote i st.cur e := fun he =>
    ⟨Program.All.eval (command_writesOnly hi _ _) (fun _ => .refl) (fun _ _ _ => .trans) [] he,
      (command_countsOnce hi _ _ _).eval he⟩
  obtain ⟨-, -, ⟨c, -, rfl⟩ | ⟨-, ⟨out, e, he, rfl⟩ | ⟨c, e, he, rfl⟩ | ⟨l, e, he, rfl⟩⟩⟩ :=
    runCommand_next h
  · exact State.moveWrote_raise .refl c
  · exact State.moveWrote_of_eng (hrun (by rw [he]; rfl)) rfl
  · exact State.moveWrote_raise (hrun (by rw [he]; rfl)) c
  · exact State.moveWrote_of_eng (hrun (by rw [he]; rfl)) rfl

theorem advance_wrote {st t : State} {f : InFlight} (hf : st.inFlight st.cur = some f)
    (h : advance st = .next t) : st.MoveWrote f.instr f.before t := by
  cases hi : commandOf f.instr with
  | none => simp only [advance, hf, hi] at h; cases h
  | some cmd =>
    cases hq : (cmd.body st.eng.params st.cur f.args).replay f.log with
    | ret out =>
      rw [advance_ret hf hi hq] at h; cases h
      exact State.moveWrote_of_eng .refl rfl
    | raise c =>
      rw [advance_raise hf hi hq] at h; cases h
      exact State.moveWrote_raise .refl c
    | step m k =>
      have honly := (command_writesOnly (s := st.cur) hi st.eng.params f.args).replay f.log
      have hcount := (command_countsOnce hi st.eng.params st.cur f.args).all.replay f.log
      rw [hq] at honly hcount
      cases hm : m st.eng with
      | next e r =>
        rw [advance_step hf hi hq hm] at h; cases h
        exact State.moveWrote_of_eng ⟨honly.of_step _ e r hm, hcount.of_step _ e r hm⟩ rfl
      | wait =>
        rw [advance_wait hf hi hq hm] at h; cases h
        exact State.moveWrote_of_eng .refl rfl
      | stop x => rw [advance_stop hf hi hq hm] at h; cases x <;> cases h

/-! ### Bare operations (log 14) -/

theorem writesOnly_resume {w : Writable} {s : Nat} (img : Image) :
    WritesOnly w s (resumeOp s img) :=
  writesOnly_of_same fun _ _ _ => adapterOp_same fun _ => ⟨rfl, rfl, rfl, rfl⟩

theorem writesOnly_mutexCreate {w : Writable} {s : Nat} : WritesOnly w s (mutexCreateOp s) := by
  intro e e' r h
  unfold mutexCreateOp at h
  split at h <;> cases h
  exact .of_eq rfl rfl rfl

theorem writesOnly_mutexDestroy {w : Writable} {s : Nat} : WritesOnly w s (mutexDestroyOp s) := by
  intro e e' r h
  unfold mutexDestroyOp at h
  split at h <;> cases h
  exact .of_eq rfl rfl rfl

/-- An instruction that is no host command performs one operation, or a guarded section, that writes
nothing that is shared. -/
theorem exec_bare_writesOnly {i : Instr} (hi : commandOf i = none) (w : Writable) (st : State) :
    (∃ code m, WritesOnly w st.cur m ∧ exec i st = bareOp code m st) ∨
      exec i st = bareGuard 0x35 (guardSection st.cur st.opnd.body) st := by
  cases hc : st.portCall i with
  | some c =>
    exact .inl ⟨_, _, writesOnly_of_same fun _ _ _ => portCallOp_same, exec_portCall hc⟩
  | none =>
    cases i <;> simp only [commandOf, State.portCall, reduceCtorEq] at hi hc
    case deinitialize => exact .inl ⟨_, _, writesOnly_deinitialize, rfl⟩
    case suspend => exact .inl ⟨_, _, writesOnly_of_same fun _ _ _ => suspendOp_same, rfl⟩
    case resume => exact .inl ⟨_, _, writesOnly_resume _, rfl⟩
    case mutexCreate => exact .inl ⟨_, _, writesOnly_mutexCreate, rfl⟩
    case mutexDestroy => exact .inl ⟨_, _, writesOnly_mutexDestroy, rfl⟩
    case acquire => exact .inl ⟨_, _, writesOnly_acquire, rfl⟩
    case release => exact .inl ⟨_, _, writesOnly_release, rfl⟩
    case ghashBuild => exact .inl ⟨0x30, _, writesOnly_record _ _, rfl⟩
    case ghashMult => exact .inl ⟨0x31, _, writesOnly_record _ _, rfl⟩
    case inc32 => exact .inl ⟨0x32, _, writesOnly_record _ _, rfl⟩
    case closeAad => exact .inl ⟨_, _, writesOnly_closeAad, rfl⟩
    case tagVerify =>
      refine .inl ⟨_, _, ?_, rfl⟩
      split
      · exact writesOnly_record _ _
      · exact fun _ _ _ h => nomatch h
    case guard => exact .inr rfl

theorem bareOp_wroteOnly {w : Writable} {code : BitVec 8} {m : Engine → Micro} {st t : State}
    (hm : WritesOnly w st.cur m) (h : bareOp code m st = .next t) :
    st.eng.WroteOnly w st.cur t.eng := by
  unfold bareOp at h
  split at h
  · split at h
    · next e r he => cases h; exact hm _ e r he
    · cases h; exact .refl
    · next x _ => cases x <;> cases h
  · cases h

theorem bareGuard_wroteOnly {w : Writable} {code : BitVec 8} {body : List PortCall} {st t : State}
    (h : bareGuard code (guardSection st.cur body) st = .next t) :
    st.eng.WroteOnly w st.cur t.eng := by
  have hrun : ∀ {e}, ((guardSection st.cur body).eval [] st.eng).engine? = some e →
      st.eng.WroteOnly w st.cur e :=
    Program.All.eval (guardSection_writesOnly body) (fun _ => .refl) (fun _ _ _ => .trans) []
  unfold bareGuard at h
  split at h
  · split at h
    · next b e he => cases h; exact hrun (by rw [he]; rfl)
    · next c e he => cases h; exact hrun (by rw [he]; rfl)
    · cases h; exact .refl
    · next x _ => cases x <;> cases h
  · cases h

theorem exec_wrote {i : Instr} {st t : State} (h : exec i st = .next t) :
    st.MoveWrote i st.own t := by
  cases hi : commandOf i with
  | some cmd => exact runCommand_wrote hi (exec_command hi st ▸ h)
  | none =>
    have hw : (writableBy i).count = false := by
      cases i with
      | init | free => cases hi
      | _ => rfl
    have honly : st.eng.WroteOnly (writableBy i) st.cur t.eng := by
      rcases exec_bare_writesOnly hi (writableBy i) st with ⟨code, m, hm, he⟩ | he
      · exact bareOp_wroteOnly hm (he ▸ h)
      · exact bareGuard_wroteOnly (he ▸ h)
    exact State.moveWrote_of_eng (.of_bare hw honly) rfl

/-! ### The issue of a command -/

/-- A failed check or an illegal word touches of the engine the counter of free values only (R34,
R97). -/
theorem postCommand_eng {st t : State} {w : BitVec 32} (h : postCommand w st = .next t) :
    t.eng = { st.eng with fresh := t.eng.fresh } := by
  cases hw : decodeCmd w with
  | error x =>
    rw [postCommand_error hw] at h
    rw [refuseWord_of_admitted (notAdmitted_of_refuseWord h)] at h
    cases h; rfl
  | ok i =>
    obtain ⟨cmd, hi⟩ := exists_command_of_decodeCmd hw
    rw [postCommand_ok hw hi] at h
    have hn := notAdmitted_of_startCommand h
    cases hc : cmd.check st.eng.params st.own st.args with
    | none => rw [startCommand_of_checks_pass hn hc] at h; cases h; rfl
    | some c =>
      rw [startCommand_of_check hn hc] at h
      cases h
      obtain ⟨-, -, hcl⟩ := statusWord_of_check hi hc
      rw [State.raise_eng, if_neg hcl]

/-- Settles O57: an instruction and a micro-step write what their permissions allow, and the issue
of a command nothing of it. -/
theorem whoWritesWhat : Obligations.WhoWritesWhat := by
  refine ⟨fun i st t h => ?_, fun s f st t rest hp hb hf h => ?_, fun s w st t rest hp hb h => ?_⟩
  · obtain ⟨hshared, htable⟩ := exec_wrote h
    refine ⟨hshared, fun h1 h2 h3 => ?_⟩
    rw [State.own, (exec_othersKept h).cur]
    exact (htable h1 h2 h3).elim id id
  · obtain ⟨hshared, htable⟩ :=
      advance_wrote (st := { st with bus := rest, cur := s }) hf (step_microStep hp hb ▸ h)
    exact ⟨hshared, htable⟩
  · exact postCommand_eng (st := { st with bus := rest, cur := s }) (step_cmdStart hp hb ▸ h)

end Sys2Proof.Machine
end

section
/-! What another session left in the accelerator never shows (10_state.md R16; R86, R87): two runs
of a command that differ in the live image only go alike, for before a command uses the live image
it has put one of its own there. -/

namespace Sys2Proof.Machine

/-! ### The live image put in -/

/-- The engine with another live image. -/
def Engine.setLive (e : Engine) (l : Image) : Engine := { e with live := l }

/-- The outcome of a micro-step with another live image. -/
def Micro.setLive (l : Image) : Micro → Micro
  | .next e r => .next (e.setLive l) r
  | .wait => .wait
  | .stop x => .stop x

/-- The end of a run with another live image. -/
def Run.setLive {α : Type} (l : Image) : Run α → Run α
  | .done a e => .done a (e.setLive l)
  | .raised c e => .raised c (e.setLive l)
  | .blocked log e => .blocked log (e.setLive l)
  | .stopped x => .stopped x

section
variable (e : Engine) (l : Image)

@[simp] theorem Engine.setLive_ctx (s : Nat) : (e.setLive l).ctx s = e.ctx s := rfl
@[simp] theorem Engine.setLive_arb : (e.setLive l).arb = e.arb := rfl
@[simp] theorem Engine.setLive_params : (e.setLive l).params = e.params := rfl
@[simp] theorem Engine.setLive_answer : (e.setLive l).answer = e.answer := rfl

end

/-- Any end of a run has its own live image. -/
theorem Run.exists_setLive {α : Type} (r : Run α) : ∃ l, r = r.setLive l := by
  cases r with
  | done a e | raised c e | blocked log e => exact ⟨e.live, rfl⟩
  | stopped x => exact ⟨Image.blank, rfl⟩

/-! ### Micro-steps and the live image -/

/-- A micro-step that neither uses the live image nor changes it, where the context of session `s`
satisfies `P`. -/
def LiveBlind (s : Nat) (P : Ctx → Prop) (m : Engine → Micro) : Prop :=
  ∀ e l, P (e.ctx s) → m (e.setLive l) = (m e).setLive l

/-- A micro-step after which the live image is the same whatever it was before, where the context of
session `s` satisfies `P`. -/
def LiveSet (s : Nat) (P : Ctx → Prop) (m : Engine → Micro) : Prop :=
  ∀ e l, P (e.ctx s) → m (e.setLive l) = m e

/-- A part of a command of session `s`, run where the session's context satisfies `P`: it uses no
live image before it has set one; where it is done without having set one, its result `a` and the
context satisfy `Q a`. -/
inductive Program.Hides {α : Type} (s : Nat) (Q : α → Ctx → Prop) :
    (Ctx → Prop) → Program α → Prop
  | ret (P : Ctx → Prop) (a : α) (h : ∀ x, P x → Q a x) : Program.Hides s Q P (.ret a)
  | raise (P : Ctx → Prop) (c : Cause) : Program.Hides s Q P (.raise c)
  | blind (P : Ctx → Prop) (m : Engine → Micro) (k : Reply → Program α) (P' : Reply → Ctx → Prop)
      (hm : LiveBlind s P m)
      (hP : ∀ e e' r, s < e.ctxs.length → P (e.ctx s) → m e = .next e' r →
        s < e'.ctxs.length ∧ P' r (e'.ctx s))
      (hk : ∀ r, Program.Hides s Q (P' r) (k r)) : Program.Hides s Q P (.step m k)
  | set (P : Ctx → Prop) (m : Engine → Micro) (k : Reply → Program α) (hm : LiveSet s P m) :
      Program.Hides s Q P (.step m k)

section
variable {α β : Type} {s : Nat} {P P' : Ctx → Prop} {Q : α → Ctx → Prop}

/-- Two runs that differ in the live image only end alike, in engines that differ in it only. -/
theorem Program.Hides.eval {q : Program α} (h : q.Hides s Q P) {e : Engine}
    (hl : s < e.ctxs.length) (hx : P (e.ctx s)) (log : List Reply) (l : Image) :
    ∃ l', q.eval log (e.setLive l) = (q.eval log e).setLive l' := by
  induction h generalizing e log with
  | ret P a h => exact ⟨l, rfl⟩
  | raise P c => exact ⟨l, rfl⟩
  | blind P m k P₁ hm hP _ ih =>
    have hml := hm e l hx
    cases hme : m e with
    | next e' r =>
      rw [hme] at hml
      rw [Program.eval_step_next hml, Program.eval_step_next hme]
      obtain ⟨hl', hx'⟩ := hP e e' r hl hx hme
      exact ih r hl' hx' _
    | wait =>
      rw [hme] at hml
      rw [Program.eval_step_wait hml, Program.eval_step_wait hme]
      exact ⟨l, rfl⟩
    | stop y =>
      rw [hme] at hml
      rw [Program.eval_step_stop hml, Program.eval_step_stop hme]
      exact ⟨l, rfl⟩
  | set P m k hm =>
    have hml := hm e l hx
    cases hme : m e with
    | next e' r =>
      rw [hme] at hml
      rw [Program.eval_step_next hml, Program.eval_step_next hme]
      exact Run.exists_setLive _
    | wait =>
      rw [hme] at hml
      rw [Program.eval_step_wait hml, Program.eval_step_wait hme]
      exact ⟨l, rfl⟩
    | stop y =>
      rw [hme] at hml
      rw [Program.eval_step_stop hml, Program.eval_step_stop hme]
      exact ⟨l, rfl⟩

theorem Program.Hides.pre {q : Program α} (h : q.Hides s Q P) (hP : ∀ x, P' x → P x) :
    q.Hides s Q P' := by
  cases h with
  | ret _ a h => exact .ret _ a fun x hx => h x (hP x hx)
  | raise _ c => exact .raise _ c
  | blind _ m k P₁ hm hP₁ hk =>
    exact .blind _ m k P₁ (fun e l hx => hm e l (hP _ hx))
      (fun e e' r hl hx => hP₁ e e' r hl (hP _ hx)) hk
  | set _ m k hm => exact .set _ m k fun e l hx => hm e l (hP _ hx)

theorem Program.Hides.retSame {a : α} : (Program.ret a).Hides s (fun _ => P) P :=
  .ret P a fun _ hx => hx

theorem Program.Hides.bind {R : β → Ctx → Prop} {q : Program α} {f : α → Program β}
    (h : q.Hides s Q P) (hf : ∀ a, (f a).Hides s R (Q a)) : (q.bind f).Hides s R P := by
  induction h with
  | ret P a h => exact (hf a).pre h
  | raise P c => exact .raise P c
  | blind P m k P₁ hm hP _ ih => exact .blind P m _ P₁ hm hP ih
  | set P m k hm => exact .set P m _ hm

theorem Program.Hides.forEach {f : β → Program Unit} {l : List β}
    (h : ∀ b ∈ l, (f b).Hides s (fun _ => P) P) :
    (Program.forEach f l).Hides s (fun _ => P) P := by
  induction l with
  | nil => exact .retSame
  | cons b rest ih => exact (h b (by simp)).bind fun _ => ih fun c hc => h c (by simp [hc])

/-- Where no run comes that has not set the live image, there is nothing to show. -/
theorem Program.Hides.of_false (q : Program α) : q.Hides s Q fun _ => False := by
  cases q with
  | ret a => exact .ret _ a fun _ hx => hx.elim
  | raise c => exact .raise _ c
  | step m k => exact .set _ m k fun _ _ hx => hx.elim

/-- What follows a part that sets the live image. -/
theorem Program.Hides.thenAny {q : Program α} (h : q.Hides s (fun _ _ => False) P)
    (f : α → Program β) {R : β → Ctx → Prop} : (q.bind f).Hides s R P :=
  h.bind fun a => .of_false (f a)

/-! ### The micro-steps -/

/-- A micro-step that changes no context. -/
theorem Program.Hides.same {m : Engine → Micro} {k : Reply → Program α} (hm : LiveBlind s P m)
    (hc : ∀ e e' r, m e = .next e' r → e'.ctxs = e.ctxs) (hk : ∀ r, (k r).Hides s Q P) :
    (Program.step m k).Hides s Q P :=
  .blind P m k (fun _ => P) hm (fun e e' r hl hx he => by
    have hctxs := hc e e' r he
    exact ⟨hctxs ▸ hl, by rw [Engine.ctx, hctxs]; exact hx⟩) hk

/-- A micro-step that sets the session's own context by `f`. -/
theorem Program.Hides.update {m : Engine → Micro} {k : Reply → Program α} {f : Ctx → Ctx}
    (hm : LiveBlind s P m) (hc : ∀ e e' r, m e = .next e' r → e'.ctxs = e.ctxs.set s (f (e.ctx s)))
    (hf : ∀ x, P x → P' (f x)) (hk : ∀ r, (k r).Hides s Q P') :
    (Program.step m k).Hides s Q P :=
  .blind P m k (fun _ => P') hm (fun e e' r hl hx he => by
    have hctxs := hc e e' r he
    refine ⟨by rw [hctxs, List.length_set]; exact hl, ?_⟩
    have hself : e'.ctx s = f (e.ctx s) := by
      rw [Engine.ctx, hctxs]; exact Engine.ctx_setCtx_self e s _ hl
    exact hself ▸ hf _ hx) hk

theorem liveBlind_readByte (a : Nat) : LiveBlind s P (readByteOp a) := by
  intro e l _
  unfold readByteOp
  rw [Engine.setLive_params]
  split <;> rfl

theorem liveBlind_writeByte (a : Nat) (b : Byte) : LiveBlind s P (writeByteOp a b) := by
  intro e l _
  unfold writeByteOp
  rw [Engine.setLive_params]
  split <;> rfl

theorem liveBlind_acquire : LiveBlind s P (acquireOp s) := by
  intro e l _
  unfold acquireOp
  rw [Engine.setLive_arb]
  split <;> rfl

theorem liveBlind_guardOpen : LiveBlind s P (guardOpenOp s) :=
  fun e l hx => liveBlind_acquire (P := P) (e.record s 0x35) l hx

theorem liveBlind_release : LiveBlind s P (releaseOp s) := by
  intro e l _
  unfold releaseOp
  rw [Engine.setLive_arb]
  split <;> rfl

theorem liveBlind_mutexCreate : LiveBlind s P (mutexCreateOp s) := by
  intro e l _
  unfold mutexCreateOp
  rw [Engine.setLive_arb]
  split <;> rfl

theorem liveBlind_mutexDestroy : LiveBlind s P (mutexDestroyOp s) := by
  intro e l _
  unfold mutexDestroyOp
  rw [Engine.setLive_arb]
  split <;> rfl

theorem liveBlind_closeAad : LiveBlind s P (closeAadOp s) := by
  intro e l _
  unfold closeAadOp
  rw [Engine.setLive_params, Engine.setLive_ctx]
  dsimp only
  split <;> rfl

theorem liveBlind_init : LiveBlind s P (initOp s) := by
  intro e l _
  have hm := liveBlind_mutexCreate (s := s) (P := fun _ => True)
    (e.setCtx s (clearedCtx .unkeyed)) l trivial
  have he : (e.setLive l).setCtx s (clearedCtx .unkeyed) =
      (e.setCtx s (clearedCtx .unkeyed)).setLive l := rfl
  unfold initOp
  dsimp only
  rw [he, Engine.setLive_arb, hm]
  by_cases h0 : (e.setCtx s (clearedCtx .unkeyed)).arb.refcount = 0
  · simp only [h0, if_true]
    cases mutexCreateOp s (e.setCtx s (clearedCtx .unkeyed)) <;> rfl
  · simp only [h0, if_false]
    rfl

theorem liveBlind_free : LiveBlind s P (freeOp s) := by
  intro e l _
  by_cases hu : (e.ctx s).phase = .uninit
  · simp only [freeOp, Engine.setLive_ctx, hu, if_true]
    rfl
  · simp only [freeOp, Engine.setLive_ctx, hu, if_false]
    rw [apply_ite (Micro.setLive l), ← liveBlind_mutexDestroy (P := fun _ => True) _ l trivial]
    rfl

/-- An adapter operation that puts its own image there, or fails, which leaves any image (R45). -/
theorem liveSet_adapterOp {code : BitVec 8} {ready : Bool} {failure : Answer → Cause}
    {run : Engine → Engine × Reply} (hrun : ∀ e l, run (e.setLive l) = run e) :
    LiveSet s P (adapterOp s code ready failure run) := by
  intro e l _
  unfold adapterOp
  have hrun' : run ((e.setLive l).record s code).dropAnswer = run (e.record s code).dropAnswer :=
    hrun (e.record s code).dropAnswer l
  simp only [Engine.setLive_arb, Engine.setLive_answer, hrun']
  rfl

/-- `RESUME` leaves the image it is given (R47). -/
theorem liveSet_resume (img : Image) : LiveSet s P (resumeOp s img) := by
  refine liveSet_adapterOp ?_
  exact fun _ _ => rfl

/-- `DEINITIALIZE` leaves the blank image (R44). -/
theorem liveSet_deinitialize : LiveSet s P (deinitializeOp s) := by
  intro e l _
  rfl

/-- `CONFIGURE` leaves the image it is given (R41). -/
theorem liveSet_configure (key : List Byte) (keyBits : BitVec 9) (mode : CipherMode) :
    LiveSet s P (portCallOp s (.configure key keyBits mode)) := by
  unfold portCallOp
  split
  · refine liveSet_adapterOp ?_
    exact fun _ _ => rfl
  · exact fun _ _ _ => rfl

/-- Opening a section of a session with a saved image restores that image (R86). -/
theorem liveSet_resumeOwn : LiveSet s (fun x => x.imageValid = true) (resumeOwnOp s) := by
  intro e l hx
  unfold resumeOwnOp
  rw [Engine.setLive_ctx, if_pos hx, if_pos hx]
  exact liveSet_resume (P := fun _ => True) (e.ctx s).image e l trivial

/-! ### The parts of the commands -/

theorem getCtx_bind_hides {f : Ctx → Program α} (hf : ∀ c, (f c).Hides s Q P) :
    ((getCtx s).bind f).Hides s Q P :=
  .same (fun _ _ _ => rfl) (fun e e' r he => by cases he; rfl) fun r => hf (replyCtx r)

theorem setCtx_hides {f : Ctx → Ctx} (hf : ∀ x, P x → P' (f x)) :
    (setCtx s f).Hides s (fun _ => P') P :=
  .update (fun _ _ _ => rfl) (fun e e' r he => by cases he; rfl) hf fun _ => .retSame

theorem memRead_hides (a n : Nat) : (memRead a n).Hides s (fun _ => P) P := by
  induction n generalizing a with
  | zero => exact .retSame
  | succ n ih =>
    exact .same (liveBlind_readByte a) (fun _ _ _ h => by rw [readByteOp_eq_next h]) fun _ =>
      (ih (a + 1)).bind fun _ => .retSame

theorem memWrite_hides (a : Nat) (b : List Byte) : (memWrite a b).Hides s (fun _ => P) P := by
  induction b generalizing a with
  | nil => exact .retSame
  | cons b rest ih =>
    exact .same (liveBlind_writeByte a b) (fun _ _ _ h => by rw [writeByteOp_eq_next h]) fun _ =>
      ih (a + 1)

theorem guardFail_hides (c : Cause) : (guardFail s c : Program α).Hides s Q P :=
  .same liveBlind_release (fun _ _ _ => releaseOp_ctxs) fun _ => .raise _ c

/-- A section of a session with a saved image runs on that image (R86). -/
theorem guardSection_hides {Q : List Byte → Ctx → Prop} (body : List PortCall) :
    (guardSection s body).Hides s Q fun x => x.imageValid = true :=
  .same liveBlind_guardOpen
    (fun e _ _ h => acquireOp_ctxs (e := e.record s 0x35) h) fun _ => .set _ _ _ liveSet_resumeOwn

/-- A section that begins with `CONFIGURE` runs on the image it configures, where the session has no
saved image (R63, R74). -/
theorem guardSection_configure_hides (key : List Byte) (keyBits : BitVec 9) (mode : CipherMode)
    (rest : List PortCall) :
    (guardSection s (.configure key keyBits mode :: rest)).Hides s (fun _ _ => False)
      fun x => x.imageValid = false := by
  refine .same liveBlind_guardOpen
    (fun e _ _ h => acquireOp_ctxs (e := e.record s 0x35) h) fun _ => ?_
  refine .same (fun e l hx => ?_) (fun _ _ _ h => (resumeOwnOp_same h).2.1) fun rep => ?_
  · rw [resumeOwnOp_none hx, resumeOwnOp_none (by exact hx)]
    rfl
  · split
    · exact guardFail_hides _
    · exact .set _ _ _ (liveSet_configure key keyBits mode)


/-- A part that keeps the saved image until it sets the live one. -/
abbrev Program.HidesSaved (s : Nat) (q : Program α) : Prop :=
  q.Hides s (fun _ x => x.imageValid = true) fun x => x.imageValid = true

/-- A change of the context that keeps `image_valid`. -/
theorem setCtx_hidesSaved {f : Ctx → Ctx}
    (hf : ∀ x, (f x).imageValid = x.imageValid := by exact fun _ => rfl) :
    (setCtx s f).HidesSaved s := setCtx_hides fun x hx => (hf x).trans hx

theorem multBuf_hidesSaved : (Program.do_ (multBufOp s)).HidesSaved s :=
  .update (P' := fun x => x.imageValid = true)
    (f := fun x => { x with buf := ghashMult x.table x.buf }) (fun _ _ _ => rfl)
    (fun _ _ _ he => by cases he; rfl) (fun _ hx => hx) fun _ => .retSame

theorem incY_hidesSaved (n : Nat) : (Program.do_ (incYOp s n)).HidesSaved s :=
  .update (P' := fun x => x.imageValid = true) (f := fun x => { x with y := inc32^[n] x.y })
    (fun _ _ _ => rfl) (fun _ _ _ he => by cases he; rfl) (fun _ hx => hx) fun _ => .retSame

theorem closeAad_hidesSaved : (Program.do_ (closeAadOp s)).HidesSaved s := by
  refine .blind _ _ _ (fun _ x => x.imageValid = true) liveBlind_closeAad
    (fun e e' r hl hx he => ?_) fun _ => .retSame
  rcases closeAadOp_eq_next he with rfl | rfl
  · refine ⟨by simpa using hl, ?_⟩
    rw [Engine.ctx_setCtx_self ((e.record s 0x33).record s 0x31) _ _ hl]
    exact hx
  · exact ⟨hl, hx⟩

theorem multBufIf_hidesSaved (c : Bool) : (multBufIf s c).HidesSaved s := by
  cases c
  · exact .retSame
  · exact multBuf_hidesSaved

theorem hwPass_hides {Q : List Byte → Ctx → Prop} (c : PortCall) :
    (hwPass s c).Hides s Q fun x => x.imageValid = true := by
  refine getCtx_bind_hides fun x => ?_
  split
  · exact (memRead_hides _ _).bind fun _ => (guardSection_hides _).thenAny _
  · exact guardSection_hides _

/-- `SETKEY` takes its session's image away and configures another (R63, R74). -/
theorem setkeyPart_hides (p : Params) (o : SetkeyOperands) {R : Unit → Ctx → Prop} :
    (setkeyPart p s o).Hides s R P := by
  unfold setkeyPart
  split
  · exact (memRead_hides (P := P) _ _).bind fun _ =>
      (setCtx_hides (P' := fun x => x.imageValid = false) fun _ _ => rfl).bind fun _ =>
      (guardSection_configure_hides _ _ _ _).thenAny _
  · exact (memRead_hides (P := P) _ _).bind fun _ =>
      (setCtx_hides (P' := fun x => x.imageValid = false) fun _ _ => rfl).bind fun _ =>
      (guardSection_configure_hides _ _ _ _).thenAny _

/-- `STARTS` opens a section on the session's image (R64, R75). -/
theorem startsPart_hides (p : Params) (dir : Direction) (iv : W64) :
    (startsPart p s dir iv).Hides s (fun _ _ => False) fun x => x.imageValid = true := by
  unfold startsPart
  split
  · exact (memRead_hides _ _).bind fun _ => .bind setCtx_hidesSaved fun _ =>
      getCtx_bind_hides fun _ => (guardSection_hides _).thenAny _
  · exact (memRead_hides _ _).bind fun _ => .bind setCtx_hidesSaved fun _ =>
      getCtx_bind_hides fun _ => (guardSection_hides _).thenAny _

theorem updateAdPart_hidesSaved (p : Params) (aad n : W64) :
    (updateAdPart p s aad n).HidesSaved s := by
  unfold updateAdPart
  split
  · refine setCtx_hidesSaved fun x => ?_
    dsimp only
    split <;> rfl
  · exact .bind setCtx_hidesSaved fun _ => getCtx_bind_hides fun _ => .forEach fun _ _ =>
      (memRead_hides _ _).bind fun _ => .bind setCtx_hidesSaved fun _ => multBufIf_hidesSaved _

theorem updatePart_hidesSaved (p : Params) (input n output : W64) :
    (updatePart p s input n output).HidesSaved s := by
  unfold updatePart
  split
  · refine .bind setCtx_hidesSaved fun _ =>
      .bind (Q := fun _ x => x.imageValid = true) ?_ fun _ => ?_
    · split
      · exact .retSame
      · exact (memRead_hides _ _).bind fun _ => (hwPass_hides _).thenAny _
    · split
      · exact .retSame
      · exact (memRead_hides _ _).bind fun _ => (hwPass_hides _).thenAny _
  · refine getCtx_bind_hides fun x => .bind (Q := fun _ x => x.imageValid = true) ?_ fun _ =>
      .forEach fun q _ => .bind (Q := fun _ x => x.imageValid = true) ?_ fun _ =>
      getCtx_bind_hides fun _ => (guardSection_hides _).thenAny _
    · split
      · exact .retSame
      · exact closeAad_hidesSaved.bind fun _ => setCtx_hidesSaved
    · split
      · exact incY_hidesSaved 1
      · exact .retSame

theorem finishTag_hidesSaved (p : Params) : (finishTag p s).HidesSaved s := by
  unfold finishTag
  split
  · exact getCtx_bind_hides fun _ => hwPass_hides _
  · refine getCtx_bind_hides fun x => .bind (Q := fun _ x => x.imageValid = true) ?_ fun _ =>
      .bind setCtx_hidesSaved fun _ => multBuf_hidesSaved.bind fun _ =>
      getCtx_bind_hides fun _ => .retSame
    split
    · exact multBufIf_hidesSaved _
    · exact closeAad_hidesSaved

theorem finishPart_hidesSaved (p : Params) (tagOut tagLen : W64) :
    (finishPart p s tagOut tagLen).HidesSaved s :=
  (finishTag_hidesSaved p).bind fun _ => (memWrite_hides _ _).bind fun _ => setCtx_hidesSaved

theorem initBody_hides : (initBody s).Hides s (fun _ _ => True) P :=
  .update (f := fun _ => clearedCtx .unkeyed) liveBlind_init (fun _ _ _ => initOp_ctxs)
    (fun _ _ => trivial) fun _ => .retSame

/-- `FREE` of a session with an image wipes the accelerator (R62). -/
theorem freeBody_hides : (freeBody s).Hides s (fun _ _ => True) P := by
  have hfree : (Program.do_ (freeOp s)).Hides s (fun _ _ => True) P :=
    .update (f := fun x => if x.phase = .uninit then x else clearedCtx .uninit) liveBlind_free
      (fun _ _ _ => freeOp_ctxs) (fun _ _ => trivial) fun _ => .retSame
  refine getCtx_bind_hides fun c => ?_
  split
  · exact .ret _ _ fun _ _ => trivial
  · split
    · exact .same liveBlind_acquire (fun _ _ _ => acquireOp_ctxs) fun _ =>
        .set _ _ _ liveSet_deinitialize
    · exact hfree

end

/-! ### The commands -/

/-- A command other than `INIT`, `FREE` and `SETKEY` whose checks pass is one of a session that has
had a key bound (R60). -/
theorem keyed_of_checks_pass {i : Instr} {cmd : Command} (hi : commandOf i = some cmd) {p : Params}
    {x : Ctx} {a : Args} (hc : cmd.check p x a = none) :
    i = .init ∨ i = .free ∨ i = .setkey ∨ (x.phase ≠ .uninit ∧ x.phase ≠ .unkeyed) := by
  cases i <;> simp only [commandOf, Option.some.injEq, reduceCtorEq] at hi <;> subst hi
  case init => exact .inl rfl
  case free => exact .inr (.inl rfl)
  case setkey => exact .inr (.inr (.inl rfl))
  all_goals
    have hchecks := firstCause_eq_none.1 hc
    obtain ⟨haccepts, -⟩ := List.forall_mem_cons.1 hchecks
    refine .inr (.inr (.inr ?_))
    cases hp : x.phase <;> simp [acceptsPhase, hp] at haccepts ⊢

/-- No command whose checks pass uses a live image it has not set, its session having a saved image
once a key is bound. -/
theorem command_hides {i : Instr} {cmd : Command} (hi : commandOf i = some cmd) {p : Params}
    {s : Nat} {x : Ctx} {a : Args} (hc : cmd.check p x a = none)
    (hv : x.phase ≠ .uninit → x.phase ≠ .unkeyed → x.imageValid = true) :
    (cmd.body p s a).Hides s (fun _ _ => True) (fun y => y = x) := by
  have saved (h : x.phase ≠ .uninit ∧ x.phase ≠ .unkeyed) {q : Program (Option W64)}
      {Q : Option W64 → Ctx → Prop} (hq : q.Hides s Q fun y => y.imageValid = true) :
      q.Hides s Q fun y => y = x :=
    hq.pre fun y hy => hy ▸ hv h.1 h.2
  have keyed := keyed_of_checks_pass hi hc
  cases i <;> simp only [commandOf, Option.some.injEq, reduceCtorEq] at hi <;> subst hi
  case init => exact initBody_hides.bind fun _ => .retSame
  case free => exact freeBody_hides.bind fun _ => .retSame
  case setkey => exact (setkeyPart_hides _ _).bind fun _ => .retSame
  all_goals
    refine saved (by simpa using keyed) ?_
  case starts => exact (startsPart_hides _ _ _).thenAny _
  case updateAd => exact (updateAdPart_hidesSaved _ _ _).bind fun _ => .ret _ _ fun _ _ => trivial
  case update => exact (updatePart_hidesSaved _ _ _ _).bind fun _ => .ret _ _ fun _ _ => trivial
  case finish => exact (finishPart_hidesSaved _ _ _).bind fun _ => .ret _ _ fun _ _ => trivial
  case cryptAndTag => exact (startsPart_hides _ _ _).thenAny _
  case authDecrypt => exact (startsPart_hides _ _ _).thenAny _

/-! ### The commands' ends -/

/-- The state with another live image. -/
def State.setLive (st : State) (l : Image) : State := { st with eng := st.eng.setLive l }

theorem State.raise_setLive (st : State) (l : Image) (i : Instr) (x : Ctx) (c : Cause) :
    (st.setLive l).raise i x c = (st.raise i x c).setLive l := by
  unfold State.raise
  dsimp only
  split <;> split <;> rfl

theorem State.afterRun_setLive (st : State) (l : Image) (f : InFlight) {r : Run (Option W64)}
    {t : State} (h : st.afterRun f r = .next t) (l' : Image) :
    (st.setLive l).afterRun f (r.setLive l') = .next (t.setLive l') := by
  cases r with
  | done out e => cases h; rfl
  | raised c e =>
    cases h
    exact congrArg _ (State.raise_setLive { st with eng := e } l' f.instr f.before c)
  | blocked log e => cases h; rfl
  | stopped x => cases x <;> cases h

/-- Settles O59: what the live image was does not matter to the checks, and a command whose checks
pass uses no live image it has not set. -/
theorem liveImageHidden : Obligations.LiveImageHidden := by
  intro i cmd st t live hi hidle hv h
  show ∃ l', exec i (st.setLive live) = .next (t.setLive l')
  have hn := State.notAdmitted_idle hidle
  rw [exec_command hi] at h ⊢
  cases hc : cmd.check st.eng.params st.own st.args with
  | some c =>
    rw [runCommand_of_check hn hc] at h
    cases h
    rw [runCommand_of_check (st := st.setLive live) hn hc]
    exact ⟨live, congrArg _ (State.raise_setLive st live i st.own c)⟩
  | none =>
    rw [runCommand_of_checks_pass hn hc] at h
    rw [runCommand_of_checks_pass (st := st.setLive live) hn hc]
    obtain ⟨l', hl'⟩ := (command_hides (s := st.cur) hi hc hv).eval
      (by rw [hidle.shaped.ctxs]; exact hidle.exists_) rfl [] live
    refine ⟨l', ?_⟩
    show (st.setLive live).afterRun (st.latch i)
      ((cmd.body st.eng.params st.cur st.args).eval [] (st.eng.setLive live)) = _
    rw [hl']
    exact State.afterRun_setLive st live (st.latch i) h l'

end Sys2Proof.Machine
end

section
/-! The buffer memory (20_memory.md R20, R21), from its laws in Sys2Proof/Laws/Memory.lean. -/

namespace Sys2Proof.Machine

/-- Settles O10: a write keeps the canonical form, and the form's sorted addresses make the written
cell the only one a read at its address finds. -/
theorem memoryReadAfterWrite : Obligations.MemoryReadAfterWrite := fun m a v hm =>
  ⟨Memory.wf_write m hm a v, Memory.read_write m hm a v⟩

/-- Settles O11: the frame is that of the byte writes one after another; reading the string back is
reading it byte by byte; and the canonical form has one list for each function of the addresses. -/
theorem memoryStrings : Obligations.MemoryStrings := by
  constructor
  · intro m a l hm
    have hback := Memory.readBytes_writeBytes_self m hm a l
    have hframe := Memory.read_writeBytes_outside m hm a l
    exact ⟨Memory.wf_writeBytes m hm a l, hback, hframe⟩
  · exact Memory.ext_of_wf

end Sys2Proof.Machine
end

section
/-! The command words and the operation codes (30_encoding.md R30, R33 to R36): what the decoder
accepts and the encoding of what it accepts, an illegal word, and the step that runs what is
decoded. -/

namespace Sys2Proof.Machine

/-! ### The fields of a command word -/

theorem CmdWord.opcode_toNat (w : BitVec 32) : (CmdWord.opcode w).toNat = w.toNat % 256 := by
  simp [CmdWord.opcode]

theorem getLsbD_dirField (d : Direction) (k : Nat) :
    (dirField d).getLsbD k = (decide (k = 8) && d == .dec) := by
  cases d with
  | enc => simp [dirField]
  | dec =>
    rw [show dirField .dec = BitVec.twoPow 32 8 by decide, BitVec.getLsbD_twoPow]
    grind

/-- A word whose reserved bits are 0 is its opcode and its direction (R30). -/
theorem CmdWord.eq_of_reserved_eq_zero {w : BitVec 32} (h : CmdWord.reserved w = 0) :
    w = BitVec.ofNat 32 (CmdWord.opcode w).toNat ||| dirField (CmdWord.dir w) := by
  have hdir : (CmdWord.dir w == .dec) = w.getLsbD 8 := by
    unfold CmdWord.dir
    cases w.getLsbD 8 <;> rfl
  refine BitVec.eq_of_getLsbD_eq fun k hk => ?_
  rw [BitVec.getLsbD_or, getLsbD_dirField, hdir, BitVec.ofNat_toNat, BitVec.getLsbD_setWidth,
    CmdWord.opcode, BitVec.getLsbD_extractLsb']
  rcases Nat.lt_trichotomy k 8 with hlt | rfl | hgt
  · simp [hlt, hk, hlt.ne]
  · simp
  · have hbit : (CmdWord.reserved w).getLsbD (k - 9) = w.getLsbD k := by
      rw [CmdWord.reserved, BitVec.getLsbD_extractLsb', Nat.add_sub_cancel' hgt]
      simp [show k - 9 < 23 by omega]
    rw [← hbit, h]
    simp [hgt.le, hgt.ne']

/-! ### The decoder -/

/-- Which opcodes are commands does not depend on the direction (R33). -/
theorem hostCommand_eq_none_iff {n : Nat} {dir : Direction} :
    hostCommand n dir = none ↔ n = 0 ∨ 10 ≤ n := by
  unfold hostCommand
  split
  case h_10 => simp only [true_iff]; grind
  all_goals simp

section
variable {w : BitVec 32}

theorem decodeCmd_of_no_command
    (h : hostCommand (CmdWord.opcode w).toNat (CmdWord.dir w) = none) :
    decodeCmd w = .error .opcode := by
  simp only [decodeCmd, h]

theorem decodeCmd_of_command {j : Instr}
    (h : hostCommand (CmdWord.opcode w).toNat (CmdWord.dir w) = some j) :
    decodeCmd w =
      if CmdWord.reserved w = 0 ∧
          (CmdWord.dir w = .dec → opcodeUsesDir (CmdWord.opcode w).toNat = true)
        then .ok j else .error .reservedBits := by
  simp only [decodeCmd, h, bne_iff_ne, Bool.and_eq_true, beq_iff_eq, Bool.not_eq_true']
  split_ifs <;> grind

/-- A word decodes when its opcode is a command's, its reserved bits are 0, and its direction is 0
unless the command uses it (R30, R33). -/
theorem decodeCmd_eq_ok_iff {i : Instr} :
    decodeCmd w = .ok i ↔ hostCommand (CmdWord.opcode w).toNat (CmdWord.dir w) = some i ∧
      CmdWord.reserved w = 0 ∧
      (CmdWord.dir w = .dec → opcodeUsesDir (CmdWord.opcode w).toNat = true) := by
  cases hc : hostCommand (CmdWord.opcode w).toNat (CmdWord.dir w) with
  | none => simp [decodeCmd_of_no_command hc]
  | some j =>
    rw [decodeCmd_of_command hc, ite_eq_iff]
    simp [and_comm]

/-- The cause of a refusal is fixed by the opcode, which is tested first (R34). -/
theorem decodeCmd_error_cause {x : DecodeError} (h : decodeCmd w = .error x) :
    x = if w.toNat % 256 = 0 ∨ 10 ≤ w.toNat % 256 then .opcode else .reservedBits := by
  rw [← CmdWord.opcode_toNat]
  cases hc : hostCommand (CmdWord.opcode w).toNat (CmdWord.dir w) with
  | none =>
    rw [decodeCmd_of_no_command hc] at h
    rw [if_pos (hostCommand_eq_none_iff.1 hc)]
    cases h; rfl
  | some j =>
    have hlegal := (not_congr hostCommand_eq_none_iff).1 (hc ▸ Option.some_ne_none j)
    rw [decodeCmd_of_command hc] at h
    rw [if_neg hlegal]
    split at h <;> cases h
    rfl

end

/-! ### Decoder and encoder -/

/-- The encoding decodes, and as a command word it matches a row of R33. -/
theorem encode_roundTrip (i : Instr) : Laws.EncodeRoundTrip.Statement i := by
  cases i with
  | init => exact Laws.EncodeRoundTrip.init
  | free => exact Laws.EncodeRoundTrip.free
  | setkey => exact Laws.EncodeRoundTrip.setkey
  | starts dir => exact Laws.EncodeRoundTrip.starts dir
  | updateAd => exact Laws.EncodeRoundTrip.updateAd
  | update => exact Laws.EncodeRoundTrip.update
  | finish => exact Laws.EncodeRoundTrip.finish
  | cryptAndTag dir => exact Laws.EncodeRoundTrip.cryptAndTag dir
  | authDecrypt => exact Laws.EncodeRoundTrip.authDecrypt
  | configure => exact Laws.EncodeRoundTrip.configure
  | encrypt => exact Laws.EncodeRoundTrip.encrypt
  | decrypt => exact Laws.EncodeRoundTrip.decrypt
  | deinitialize => exact Laws.EncodeRoundTrip.deinitialize
  | suspend => exact Laws.EncodeRoundTrip.suspend
  | resume => exact Laws.EncodeRoundTrip.resume
  | gcmBegin => exact Laws.EncodeRoundTrip.gcmBegin
  | gcmHeader => exact Laws.EncodeRoundTrip.gcmHeader
  | gcmPayload => exact Laws.EncodeRoundTrip.gcmPayload
  | gcmTag => exact Laws.EncodeRoundTrip.gcmTag
  | mutexCreate => exact Laws.EncodeRoundTrip.mutexCreate
  | mutexDestroy => exact Laws.EncodeRoundTrip.mutexDestroy
  | acquire => exact Laws.EncodeRoundTrip.acquire
  | release => exact Laws.EncodeRoundTrip.release
  | ghashBuild => exact Laws.EncodeRoundTrip.ghashBuild
  | ghashMult => exact Laws.EncodeRoundTrip.ghashMult
  | inc32 => exact Laws.EncodeRoundTrip.inc32
  | closeAad => exact Laws.EncodeRoundTrip.closeAad
  | tagVerify => exact Laws.EncodeRoundTrip.tagVerify
  | guard => exact Laws.EncodeRoundTrip.guard

theorem decode_encode (i : Instr) : decode (encode i) = .ok i := (encode_roundTrip i).1

theorem wellFormed_of_encode {i : Instr} {w : BitVec 32} (h : encode i = .cmd w) :
    CmdWord.wellFormed w = true := (encode_roundTrip i).2 w h

/-- A command's word is its opcode and its direction (R30, R33). -/
theorem encode_hostCommand {n : Nat} {dir : Direction} {i : Instr}
    (h : hostCommand n dir = some i) (hdir : dir = .dec → opcodeUsesDir n = true) :
    encode i = .cmd (BitVec.ofNat 32 n ||| dirField dir) := by
  unfold hostCommand at h
  cases dir with
  | enc => split at h <;> cases h <;> rfl
  | dec =>
    have huses := hdir rfl
    split at h <;> cases h
    case h_4 | h_8 => rfl
    all_goals cases huses

theorem encode_of_decodeCmd {w : BitVec 32} {i : Instr} (h : decodeCmd w = .ok i) :
    encode i = .cmd w := by
  obtain ⟨hcommand, hreserved, hdir⟩ := decodeCmd_eq_ok_iff.1 h
  rw [encode_hostCommand hcommand hdir, ← CmdWord.eq_of_reserved_eq_zero hreserved]

theorem encode_of_decodeOp {code : BitVec 8} {i : Instr} (h : decodeOp code = .ok i) :
    encode i = .op code := by
  unfold decodeOp at h
  split at h
  case h_21 => cases h
  all_goals
    next hcode =>
      cases h
      exact congrArg Encoding.op (BitVec.eq_of_toNat_eq hcode.symm)

/-- Settles O2: an accepted word is put together again from the fields the decoder read, and every
instruction's encoding decodes to it. -/
theorem decodeEncodeAgree : Obligations.DecodeEncodeAgree := by
  intro i w _
  constructor
  · intro h
    cases w with
    | cmd w => exact encode_of_decodeCmd h
    | op code => exact encode_of_decodeOp h
  · rintro rfl
    exact decode_encode i

/-- Settles O1: each word is the encoding of its instruction. -/
theorem decodeSpecWords : Obligations.DecodeSpecWords :=
  ⟨decode_encode .init, decode_encode .setkey, decode_encode (.starts .enc),
    decode_encode (.starts .dec), decode_encode (.cryptAndTag .dec), decode_encode .authDecrypt,
    decode_encode .configure, decode_encode .gcmTag, decode_encode .acquire,
    decode_encode .ghashMult, decode_encode .guard⟩

/-! ### The step that runs or refuses what is decoded -/

/-- An operation code is performed before the script is looked at (log 14, log 32). -/
theorem fetch_pendingOp {st : State} {code : BitVec 8} {i : Instr} (hp : st.pendingOp = some code)
    (hi : decodeOp code = .ok i) : fetch st = .instr i { st with pendingOp := none } := by
  unfold fetch
  rw [hp]
  simp only [hi]

/-- A session whose command is in execution takes no other (R7; log 18). -/
theorem runCommand_busy {i : Instr} {cmd : Command} {st : State}
    (hs : st.cur < st.eng.params.nSessions) (hbusy : (st.inFlight st.cur).isSome = true) :
    runCommand i cmd st = .refused .secondOwner := by
  have hn : st.notAdmitted = some (.refused .secondOwner) := by
    simp only [State.notAdmitted, hs, hbusy, if_true]
  simp only [runCommand, hn, Stop.outcome]

/-- A legal word written to `CMD` is its command executed on the mailbox's session: of a busy
session both are refused (R31; log 18). -/
theorem step_hostWrite_cmd {st : State} {s : Nat} {v : W64} {rest : List BusEvent} {i : Instr}
    (hp : st.pendingOp = none) (hb : st.bus = .hostWrite (0x100 * s) v :: rest)
    (hs : s < st.eng.params.nSessions) (hN : st.eng.params.nSessions ≤ 255)
    (hw : decodeCmd (v.setWidth 32) = .ok i) :
    step st = exec i { st with bus := rest, cur := s } := by
  have hfetch := fetch_event hp hb
  have hr := registerOf_cmd hs hN
  cases hbusy : (Register.cmd s).busy { st with bus := rest } with
  | false => exact step_of_fetch_instr (hfetch.trans (fetchHostWrite_cmd hr hbusy hw))
  | true =>
    obtain ⟨cmd, hi⟩ := exists_command_of_decodeCmd hw
    rw [step_of_fetch_other (hfetch.trans (fetchHostWrite_busy hr hbusy)), exec_command hi]
    exact (runCommand_busy (st := { st with bus := rest, cur := s }) hs hbusy).symm

/-- Settles O4: the write of a command word and the pending operation code are each fetched as the
instruction they decode to. -/
theorem stepRunsDecoded : Obligations.StepRunsDecoded := by
  constructor
  · intro st s v rest i hp hb hs ⟨_, hN, _⟩ hw
    exact step_hostWrite_cmd hp hb hs hN hw
  · intro st code i hp hi
    exact step_of_fetch_instr (fetch_pendingOp hp hi)

/-- The two status words of R34. -/
theorem statusWord_of_decodeCmd_error {w : BitVec 32} {x : DecodeError}
    (h : decodeCmd w = .error x) : statusWord (causeOfDecodeError x) =
      if w.toNat % 256 = 0 ∨ 10 ≤ w.toNat % 256 then 0x011 else 0x0A1 := by
  rw [decodeCmd_error_cause h]
  split <;> rfl

/-- Settles O3: a word that matches no row of R33 is no encoding, so it does not decode; the opcode
fixes the cause, and refusing the word writes `STATUS` alone. -/
theorem illegalWordChangesStatusOnly : Obligations.IllegalWordChangesStatusOnly := by
  intro st s w rest hill hp hb hs ⟨_, hN, _⟩ hidle
  have hlow : (w.setWidth 64).setWidth 32 = w := BitVec.setWidth_setWidth_of_le w (by decide)
  cases hw : decodeCmd w with
  | ok i =>
    rw [wellFormed_of_encode (encode_of_decodeCmd hw)] at hill
    cases hill
  | error x =>
    have hadm : State.notAdmitted { st with bus := rest, cur := s } = none :=
      State.notAdmitted_eq_none.2 ⟨hs, hidle⟩
    have hfetch := fetchHostWrite_illegal (st := { st with bus := rest }) (registerOf_cmd hs hN)
      (Register.cmd_busy.2 hidle) (hlow.symm ▸ hw)
    rw [step_of_fetch_other ((fetch_event hp hb).trans hfetch), refuseWord_of_admitted hadm,
      statusWord_of_decodeCmd_error hw]
    rfl

end Sys2Proof.Machine
end

section
/-! The port operations performed by themselves (40_adapter.md R40 to R52; log 14): what the holder
of the mutex gets of each, done or failed, and what stops the model. -/

namespace Sys2Proof.Machine

/-! ### A port operation of the holder -/

/-- An adapter operation within its domain that the accelerator performs (R41 to R43, R48 to R51). -/
theorem exec_portCall_done {st : State} {rest : List Answer} {i : Instr} {c : PortCall}
    (hs : st.cur < st.eng.params.nSessions) (hh : st.eng.arb.holder = some st.cur)
    (hc : st.portCall i = some c) (hw : c.wellFormed = true)
    (hr : callReady st.eng.live c = true) (ha : st.eng.answers = .done :: rest) :
    exec i st = .next (st.operated
      { st.eng with
        live := (callEffect st.eng.live c).1
        answers := rest
        history := ⟨st.cur, callCode c⟩ :: st.eng.history } (.bytes (callEffect st.eng.live c).2)) := by
  rw [exec_portCall hc]
  exact bareOp_next hs (portCallOp_done hh hw hr ha)

/-- An adapter operation that fails: the live image is any image and nothing else changes (R45). -/
theorem bareOp_failed {code : BitVec 8} {m : Engine → Micro} {st : State} {a : Answer}
    {rest : List Answer} {c : Cause} (hs : st.cur < st.eng.params.nSessions)
    (ha : st.eng.answers = a :: rest)
    (hm : m st.eng = .next (st.eng.record st.cur code).dropAnswer.scrambleLive (.failed c)) :
    bareOp code m st = .next (st.operated
      { st.eng with
        live := Config.anyImage st.eng.fresh
        fresh := st.eng.fresh + 1
        answers := rest
        history := ⟨st.cur, code⟩ :: st.eng.history } (.failed c)) := by
  rw [bareOp_next hs hm]
  simp [Engine.record, Engine.dropAnswer, Engine.scrambleLive, ha]

theorem Engine.answer_cons {e : Engine} {a : Answer} {rest : List Answer}
    (h : e.answers = a :: rest) : e.answer = a := by
  simp [Engine.answer, h]

/-! ### The block operations -/

@[simp] theorem length_mapBlocks (f : Block → Block) (n : Nat) (b : List Byte) :
    (mapBlocks f n b).length = 16 * n := by
  induction n generalizing b with
  | zero => rfl
  | succ n ih => simp only [mapBlocks, List.length_append, length_bytesOfBlock, ih]; omega

/-- Block `k` of the result is the function of block `k` of the operand (R42). -/
theorem mapBlocks_block (f : Block → Block) {n k : Nat} (hk : k < n) (b : List Byte) :
    ((mapBlocks f n b).drop (16 * k)).take 16 =
      bytesOfBlock (f (blockOfBytes ((b.drop (16 * k)).take 16))) := by
  induction n generalizing k b with
  | zero => omega
  | succ n ih =>
    cases k with
    | zero =>
      rw [Nat.mul_zero, List.drop_zero, List.drop_zero, mapBlocks]
      exact List.take_left' (length_bytesOfBlock _)
    | succ k =>
      have hdrop : (mapBlocks f (n + 1) b).drop (16 * (k + 1)) =
          (mapBlocks f n (b.drop 16)).drop (16 * k) := by
        rw [Nat.mul_succ, Nat.add_comm, ← List.drop_drop, mapBlocks,
          List.drop_left' (length_bytesOfBlock _)]
      rw [hdrop, ih (by omega), List.drop_drop, Nat.mul_succ, Nat.add_comm]

/-- A function of each block is undone by its inverse (R5). -/
theorem mapBlocks_leftInverse {f g : Block → Block} (h : Function.LeftInverse g f) {n : Nat}
    {b : List Byte} (hb : b.length = 16 * n) : mapBlocks g n (mapBlocks f n b) = b := by
  induction n generalizing b with
  | zero => exact (List.length_eq_zero_iff.1 hb).symm
  | succ n ih =>
    rw [mapBlocks, mapBlocks, List.take_left' (length_bytesOfBlock _),
      List.drop_left' (length_bytesOfBlock _), blockOfBytes_bytesOfBlock, h,
      bytesOfBlock_blockOfBytes _ (by simp; omega), ih (by simp; omega), List.take_append_drop]

theorem cipherD_leftInverse (key : List Byte) :
    Function.LeftInverse (cipherD key) (cipherE key) := (Config.cipher key).symm_apply_apply

theorem wholeBlocks_iff {b : List Byte} :
    wholeBlocks b = true ↔ b.length ≠ 0 ∧ b.length % 16 = 0 := by
  simp [wholeBlocks]

/-! ### What stops the model -/

theorem exec_noSuchSession {i : Instr} {st : State}
    (hs : st.eng.params.nSessions ≤ st.cur) : exec i st = .fault .noSuchSession := by
  have hs' : ¬ st.cur < st.eng.params.nSessions := by omega
  cases hi : commandOf i with
  | some cmd =>
    rw [exec_command hi]
    simp only [runCommand, State.notAdmitted, hs', if_false, Stop.outcome]
  | none =>
    rcases exec_bare hi st with ⟨code, m, -, he⟩ | he
    · rw [he, bareOp, if_neg hs']
    · rw [he, bareGuard, if_neg hs']

theorem adapterOp_notHolder {s : Nat} {code : BitVec 8} {ready : Bool} {failure : Answer → Cause}
    {run : Engine → Engine × Reply} {e : Engine} (hh : e.arb.holder ≠ some s) :
    adapterOp s code ready failure run e = .stop (.refused .notHolder) := by
  simp [adapterOp, hh]

theorem deinitializeOp_notHolder {s : Nat} {e : Engine} (hh : e.arb.holder ≠ some s) :
    deinitializeOp s e = .stop (.refused .notHolder) := by
  simp [deinitializeOp, hh]

/-! ### The obligations on the port operations -/

/-- Settles O35: each of the four sets the live image or copies it. -/
theorem imageOperations : Obligations.ImageOperations := by
  intro st rest hs hh
  refine ⟨?_, fun ha => ⟨fun hbits hlen => ?_, ?_, ?_⟩⟩
  · have hm : deinitializeOp st.cur st.eng =
        .next { st.eng.record st.cur 0x13 with live := Image.blank } .unit := by
      simp [deinitializeOp, hh]
    exact bareOp_next hs hm
  · have hw : (PortCall.configure st.opnd.key st.opnd.keyBits st.opnd.mode).wellFormed = true := by
      rcases hbits with h | h | h | h <;> simp [PortCall.wellFormed, hlen, h]
    exact exec_portCall_done (i := .configure) hs hh rfl hw rfl ha
  · refine (bareOp_next hs (adapterOp_done hh ha rfl)).trans ?_
    simp [Engine.record, Engine.dropAnswer, ha]
  · refine (bareOp_next hs (adapterOp_done hh ha rfl)).trans ?_
    simp [Engine.record, Engine.dropAnswer, ha]

/-- Settles O36: both operations map the blocks of the operand, and `D` undoes `E`. -/
theorem encryptDecryptBlocks : Obligations.EncryptDecryptBlocks := by
  intro st rest hs hh ha hconf hmode h0 h16
  have hlen : st.opnd.data.length = 16 * (st.opnd.data.length / 16) := by omega
  have hw : wholeBlocks st.opnd.data = true := wholeBlocks_iff.2 ⟨h0, h16⟩
  have hr : ecbReady st.eng.live = true := by simp [ecbReady, hconf, hmode]
  obtain ⟨r, hrd⟩ : ∃ r, r = mapBlocks (cipherE (imageKey st.eng.live))
    (st.opnd.data.length / 16) st.opnd.data := ⟨_, rfl⟩
  have hrlen : r.length = st.opnd.data.length := by rw [hrd, length_mapBlocks, ← hlen]
  have hback : mapBlocks (cipherD (imageKey st.eng.live)) (r.length / 16) r = st.opnd.data := by
    rw [hrlen, hrd]
    exact mapBlocks_leftInverse (cipherD_leftInverse _) hlen
  have hwr : wholeBlocks r = true := wholeBlocks_iff.2 (hrlen ▸ ⟨h0, h16⟩)
  refine ⟨r, _, ?_, exec_portCall_done (i := .decrypt) hs hh rfl hw hr ha, hrlen,
    (length_mapBlocks _ _ _).trans hlen.symm, fun k hk => ⟨?_, ?_⟩, ?_⟩
  · rw [hrd]
    exact exec_portCall_done (i := .encrypt) hs hh rfl hw hr ha
  · rw [hrd, mapBlocks_block _ hk, blockOfBytes_bytesOfBlock]
  · exact (congrArg blockOfBytes (mapBlocks_block _ hk _)).trans (blockOfBytes_bytesOfBlock _)
  · have := exec_portCall_done (i := .decrypt)
      (st := { st with opnd := { st.opnd with data := r } }) hs hh rfl hwr hr ha
    rw [this]
    simp only [callEffect, hback, callCode]

/-- A configured image in mode GCM is one that the operations of section 5 use. -/
theorem gcmReady_of {img : Image} (hc : img.configured = true) (hm : img.mode = .gcm) :
    gcmReady img = true := by
  simp [gcmReady, hc, hm]

/-- Settles O37: the effects of the two operations, of which the tag absorbs one block. -/
theorem gcmBeginTag : Obligations.GcmBeginTag := by
  intro st rest hs hh ha hconf hmode
  have hr := gcmReady_of hconf hmode
  refine ⟨exec_portCall_done (i := .gcmBegin) hs hh rfl rfl hr ha, fun hact => ⟨_, rfl, ?_⟩⟩
  exact exec_portCall_done (i := .gcmTag) hs hh rfl rfl (by simp [callReady, hr, hact]) ha

/-- Settles O38: the loop over the chunks is GHASH of the padded blocks (`headerAcc_eq`). -/
theorem gcmHeaderAbsorbs : Obligations.GcmHeaderAbsorbs := by
  intro st rest hs hh ha hconf hmode hact hd
  have hw : (PortCall.gcmHeader st.opnd.data).wellFormed = true := by
    simpa [PortCall.wellFormed] using hd
  exact exec_portCall_done (i := .gcmHeader) hs hh rfl hw
    (by simp [callReady, gcmReady_of hconf hmode, hact]) ha

/-- Settles O39: the loop over the blocks is counter mode and GHASH of the ciphertext
(`payloadBlocks_eq`). -/
theorem gcmPayloadProcesses : Obligations.GcmPayloadProcesses := by
  intro st rest o n m hs hh ha hconf hmode hact hn h0 h16 hm ho
  subst hn hm ho
  have := exec_portCall_done (i := .gcmPayload) hs hh rfl (wholeBlocks_iff.2 ⟨h0, h16⟩)
    (by simp [callReady, gcmReady_of hconf hmode, hact]) ha
  rw [this]
  simp only [callEffect, callCode, counterAfter_blocks _ _ h16, imageSubkey]

/-- Settles O40: a call that fails, or `SUSPEND` or `RESUME`, which fail by the answer alone. -/
theorem portFailure : Obligations.PortFailure := by
  intro i st c code a rest hs hh ha hfail
  have hans := Engine.answer_cons ha
  rcases hfail with ⟨call, hc, hw, hf, rfl, rfl⟩ | ⟨rfl, hne, rfl, rfl⟩ | ⟨rfl, hne, rfl, rfl⟩
  · rw [exec_portCall hc]
    refine bareOp_failed hs ha ?_
    rw [portCallOp_failed hh hw (hans.symm ▸ hf), hans]
  · exact bareOp_failed hs ha (adapterOp_failed hh (.inl (hans.symm ▸ hne)))
  · exact bareOp_failed hs ha (adapterOp_failed hh (.inl (hans.symm ▸ hne)))

/-- Settles O41: each stop is that of the operation or of the command's issue. -/
theorem stopsByName : Obligations.StopsByName := by
  intro i st
  refine ⟨fun hs => ⟨fun hh hop => ?_, fun ⟨call, hc, hw⟩ => ?_, fun hi hbusy => ?_⟩,
    exec_noSuchSession⟩
  · rcases hop with rfl | rfl | rfl | ⟨call, hc, hw⟩
    · exact bareOp_stop hs (deinitializeOp_notHolder hh)
    · exact bareOp_stop hs (adapterOp_notHolder hh)
    · exact bareOp_stop hs (adapterOp_notHolder hh)
    · rw [exec_portCall hc]
      exact bareOp_stop hs (portCallOp_notHolder hw hh)
  · rw [exec_portCall hc]
    exact bareOp_stop hs (portCallOp_shape hw)
  · obtain ⟨cmd, hcmd⟩ := Option.isSome_iff_exists.1 hi
    rw [exec_command hcmd]
    exact runCommand_busy hs (Option.isSome_iff_ne_none.2 hbusy)

end Sys2Proof.Machine
end

section
/-! What a command leaves when a port operation of it has failed (60_exceptions.md R96, R98; R86):
the arbiter as before the command, and of the contexts the session's own alone changed. -/

namespace Sys2Proof.Machine

/-! ### Programs made of guarded sections

A guarded section takes the mutex that nobody holds and gives it back before the program goes on or
raises; nothing else in a command but the steps of `INIT` and `FREE` touches the arbiter. -/

/-- A micro-step that leaves the arbiter as it is. -/
def SameArb (m : Engine → Micro) : Prop := ∀ e e' r, m e = .next e' r → e'.arb = e.arb

/-- What is left of a program of session `s` at a point where the session holds the mutex for a
guarded section, or does not: it takes and gives back the mutex in turn, ends without it, and leaves
the arbiter otherwise as it is. -/
inductive Program.Sectioned {α : Type} (s : Nat) : Bool → Program α → Prop
  | ret (a : α) : Program.Sectioned s false (.ret a)
  | raise (c : Cause) : Program.Sectioned s false (.raise c)
  | plain (held : Bool) (m : Engine → Micro) (k : Reply → Program α) (hm : SameArb m)
      (hk : ∀ r, Program.Sectioned s held (k r)) : Program.Sectioned s held (.step m k)
  | acquire (k : Reply → Program α) (hk : ∀ r, Program.Sectioned s true (k r)) :
      Program.Sectioned s false (.step (guardOpenOp s) k)
  | release (k : Reply → Program α) (hk : ∀ r, Program.Sectioned s false (k r)) :
      Program.Sectioned s true (.step (releaseOp s) k)

section
variable {α β : Type} {s : Nat} {held : Bool}

theorem Program.Sectioned.bind {q : Program α} {f : α → Program β} (h : q.Sectioned s held)
    (hf : ∀ a, (f a).Sectioned s false) : (q.bind f).Sectioned s held := by
  induction h with
  | ret a => exact hf a
  | raise c => exact .raise c
  | plain held m k hm _ ih => exact .plain held m _ hm ih
  | acquire k _ ih => exact .acquire _ ih
  | release k _ ih => exact .release _ ih

theorem Program.Sectioned.onRaise {q : Program α} {h : Program Unit} (hq : q.Sectioned s held)
    (hh : h.Sectioned s false) : (Program.onRaise h q).Sectioned s held := by
  induction hq with
  | ret a => exact .ret a
  | raise c => exact hh.bind fun _ => .raise c
  | plain held m k hm _ ih => exact .plain held m _ hm ih
  | acquire k _ ih => exact .acquire _ ih
  | release k _ ih => exact .release _ ih

theorem Program.Sectioned.forEach {f : β → Program Unit} (hf : ∀ b, (f b).Sectioned s false)
    (l : List β) : (Program.forEach f l).Sectioned s false := by
  induction l with
  | nil => exact .ret _
  | cons b rest ih => exact (hf b).bind fun _ => ih

/-- A program of guarded sections that raises leaves the arbiter as before it, or, when it began
inside a section, as before that with the mutex free. -/
theorem Program.Sectioned.arb_of_raised {q : Program α} (h : q.Sectioned s held) {e e' : Engine}
    {c : Cause} (he : q.eval [] e = .raised c e') :
    e'.arb = if held then { e.arb with holder := none } else e.arb := by
  induction h generalizing e with
  | ret a => cases he
  | raise c => cases he; rfl
  | plain held m k hm _ ih =>
    obtain ⟨e1, r, h1, h2⟩ := Program.eval_step_eq_raised.1 he
    rw [ih r h2, hm e e1 r h1]
  | acquire k _ ih =>
    obtain ⟨e1, r, h1, h2⟩ := Program.eval_step_eq_raised.1 he
    obtain ⟨-, hfree, rfl, -⟩ := acquireOp_next (e := e.record s 0x35) h1
    have hfree' : e.arb.holder = none := hfree
    rw [ih r h2]
    simp [← hfree']
  | release k _ ih =>
    obtain ⟨e1, r, h1, h2⟩ := Program.eval_step_eq_raised.1 he
    obtain ⟨-, rfl, -⟩ := releaseOp_next h1
    rw [ih r h2]; rfl

/-! ### The parts of the commands -/

/-- A single micro-step that leaves the arbiter as it is. -/
theorem Program.Sectioned.do_ {m : Engine → Micro} (hm : SameArb m) :
    (Program.do_ m).Sectioned s false := .plain _ _ _ hm fun _ => .ret _

theorem sameArb_updateCtx (f : Ctx → Ctx) : SameArb (updateCtxOp s f) :=
  fun _ _ _ h => by cases h; rfl

theorem sameArb_multBuf : SameArb (multBufOp s) := fun _ _ _ h => by cases h; rfl

theorem sameArb_incY (n : Nat) : SameArb (incYOp s n) := fun _ _ _ h => by cases h; rfl

theorem sameArb_buildTable (b : Block) : SameArb (buildTableOp s b) := fun _ _ _ h => by cases h; rfl

theorem sameArb_closeAad : SameArb (closeAadOp s) := fun _ _ _ h => by
  rcases closeAadOp_eq_next h with rfl | rfl <;> rfl

theorem sameArb_tagVerify (a b : List Byte) (n : Nat) : SameArb (tagVerifyOp s a b n) :=
  fun _ _ _ h => by cases h; rfl

theorem getCtx_sectioned : (getCtx s).Sectioned s false :=
  .plain _ _ _ (fun _ _ _ h => by cases h; rfl) fun _ => .ret _

theorem setCtx_sectioned (f : Ctx → Ctx) : (setCtx s f).Sectioned s false :=
  .do_ (sameArb_updateCtx f)

theorem memRead_sectioned (a n : Nat) : (memRead a n).Sectioned s false := by
  induction n generalizing a with
  | zero => exact .ret _
  | succ n ih =>
    exact .plain _ _ _ (fun _ _ _ h => by rw [readByteOp_eq_next h]) fun _ =>
      (ih (a + 1)).bind fun _ => .ret _

theorem memWrite_sectioned (a : Nat) (l : List Byte) : (memWrite a l).Sectioned s false := by
  induction l generalizing a with
  | nil => exact .ret _
  | cons b rest ih =>
    exact .plain _ _ _ (fun _ _ _ h => by rw [writeByteOp_eq_next h]) fun _ => ih (a + 1)

theorem multBufIf_sectioned (c : Bool) : (multBufIf s c).Sectioned s false := by
  cases c
  · exact .ret _
  · exact .do_ sameArb_multBuf

theorem guardFail_sectioned (c : Cause) : (guardFail s c : Program α).Sectioned s true :=
  .release _ fun _ => .raise c

theorem guardClose_sectioned (r : List Byte) : (guardClose s r).Sectioned s true := by
  refine .plain _ _ _ (fun e e' r h => ?_) fun rep => ?_
  · obtain ⟨-, -, ha, -⟩ := suspendOp_same h; exact ha
  · split
    · exact guardFail_sectioned _
    · exact .plain _ _ _ (sameArb_updateCtx _) fun _ => .release _ fun _ => .ret _

theorem guardBody_sectioned (body : List PortCall) (r : List Byte) :
    (guardBody s (guardClose s) body r).Sectioned s true := by
  induction body generalizing r with
  | nil => exact guardClose_sectioned r
  | cons c rest ih =>
    refine .plain _ _ _ (fun e e' r h => ?_) fun rep => ?_
    · obtain ⟨-, -, ha, -⟩ := portCallOp_same h; exact ha
    · split
      · exact guardFail_sectioned _
      · exact ih _

theorem guardSection_sectioned (body : List PortCall) : (guardSection s body).Sectioned s false := by
  refine .acquire _ fun _ => .plain _ _ _ (fun e e' r h => ?_) fun rep => ?_
  · obtain ⟨-, -, ha, -⟩ := resumeOwnOp_same h; exact ha
  · split
    · exact guardFail_sectioned _
    · exact guardBody_sectioned body []

theorem setkeyPart_sectioned (p : Params) (o : SetkeyOperands) :
    (setkeyPart p s o).Sectioned s false := by
  unfold setkeyPart
  split
  · exact (memRead_sectioned _ _).bind fun _ => (setCtx_sectioned _).bind fun _ =>
      (guardSection_sectioned _).bind fun _ => setCtx_sectioned _
  · exact (memRead_sectioned _ _).bind fun _ => (setCtx_sectioned _).bind fun _ =>
      (guardSection_sectioned _).bind fun _ => .bind (.do_ (sameArb_buildTable _)) fun _ =>
      setCtx_sectioned _

theorem startsPart_sectioned (p : Params) (dir : Direction) (iv : W64) :
    (startsPart p s dir iv).Sectioned s false := by
  unfold startsPart
  split
  · exact (memRead_sectioned _ _).bind fun _ => (setCtx_sectioned _).bind fun _ =>
      getCtx_sectioned.bind fun _ => (guardSection_sectioned _).bind fun _ => .ret _
  · exact (memRead_sectioned _ _).bind fun _ => (setCtx_sectioned _).bind fun _ =>
      getCtx_sectioned.bind fun _ => (guardSection_sectioned _).bind fun _ => setCtx_sectioned _

theorem updateAdPart_sectioned (p : Params) (aad n : W64) :
    (updateAdPart p s aad n).Sectioned s false := by
  unfold updateAdPart
  split
  · exact setCtx_sectioned _
  · exact (setCtx_sectioned _).bind fun _ => getCtx_sectioned.bind fun _ => .forEach (fun q =>
      (memRead_sectioned _ _).bind fun _ => (setCtx_sectioned _).bind fun _ =>
      multBufIf_sectioned _) _

theorem hwPass_sectioned (c : PortCall) : (hwPass s c).Sectioned s false := by
  refine getCtx_sectioned.bind fun x => ?_
  split
  · exact (memRead_sectioned _ _).bind fun _ => (guardSection_sectioned _).bind fun _ =>
      (setCtx_sectioned _).bind fun _ => .ret _
  · exact guardSection_sectioned _

theorem updatePart_sectioned (p : Params) (input n output : W64) :
    (updatePart p s input n output).Sectioned s false := by
  unfold updatePart
  split
  · refine (setCtx_sectioned _).bind fun _ => .bind ?_ fun _ => ?_
    · split
      · exact .ret _
      · exact (memRead_sectioned _ _).bind fun _ => (hwPass_sectioned _).bind fun _ =>
          (memWrite_sectioned _ _).bind fun _ => .bind (.do_ (sameArb_incY _)) fun _ =>
          setCtx_sectioned _
    · split
      · exact .ret _
      · exact (memRead_sectioned _ _).bind fun _ => (hwPass_sectioned _).bind fun _ =>
          (memWrite_sectioned _ _).bind fun _ => .bind (.do_ (sameArb_incY _)) fun _ =>
          setCtx_sectioned _
  · refine getCtx_sectioned.bind fun x => .bind ?_ fun _ => .forEach (fun q => .bind ?_ fun _ =>
      getCtx_sectioned.bind fun _ => (guardSection_sectioned _).bind fun _ =>
      (memRead_sectioned _ _).bind fun _ => (setCtx_sectioned _).bind fun _ =>
      (memWrite_sectioned _ _).bind fun _ => (setCtx_sectioned _).bind fun _ =>
      multBufIf_sectioned _) _
    · split
      · exact .ret _
      · exact .bind (.do_ sameArb_closeAad) fun _ => setCtx_sectioned _
    · split
      · exact .do_ (sameArb_incY _)
      · exact .ret _

theorem finishTag_sectioned (p : Params) : (finishTag p s).Sectioned s false := by
  unfold finishTag
  split
  · exact getCtx_sectioned.bind fun _ => hwPass_sectioned _
  · refine getCtx_sectioned.bind fun x => .bind ?_ fun _ => (setCtx_sectioned _).bind fun _ =>
      .bind (.do_ sameArb_multBuf) fun _ => getCtx_sectioned.bind fun _ => .ret _
    split
    · exact multBufIf_sectioned _
    · exact .do_ sameArb_closeAad

theorem finishPart_sectioned (p : Params) (tagOut tagLen : W64) :
    (finishPart p s tagOut tagLen).Sectioned s false :=
  (finishTag_sectioned p).bind fun _ => (memWrite_sectioned _ _).bind fun _ => setCtx_sectioned _

end

/-! ### The commands -/

/-- Every command but `INIT` and `FREE` is made of guarded sections. -/
theorem command_sectioned {i : Instr} {cmd : Command} (hi : commandOf i = some cmd)
    (h1 : i ≠ .init) (h2 : i ≠ .free) (p : Params) (s : Nat) (a : Args) :
    (cmd.body p s a).Sectioned s false := by
  cases i <;> simp only [commandOf, Option.some.injEq, reduceCtorEq] at hi <;> subst hi
  case init => exact absurd rfl h1
  case free => exact absurd rfl h2
  case setkey => exact (setkeyPart_sectioned _ _).bind fun _ => .ret _
  case starts => exact (startsPart_sectioned _ _ _).bind fun _ => .ret _
  case updateAd => exact (updateAdPart_sectioned _ _ _).bind fun _ => .ret _
  case update => exact (updatePart_sectioned _ _ _ _).bind fun _ => .ret _
  case finish => exact (finishPart_sectioned _ _ _).bind fun _ => .ret _
  case cryptAndTag =>
    exact (startsPart_sectioned _ _ _).bind fun _ => (updateAdPart_sectioned _ _ _).bind fun _ =>
      (updatePart_sectioned _ _ _ _).bind fun _ => (finishPart_sectioned _ _ _).bind fun _ => .ret _
  case authDecrypt =>
    refine (startsPart_sectioned _ _ _).bind fun _ => (updateAdPart_sectioned _ _ _).bind fun _ =>
      .bind (.onRaise ((updatePart_sectioned _ _ _ _).bind fun _ => finishTag_sectioned _)
        (memWrite_sectioned _ _)) fun _ => (setCtx_sectioned _).bind fun _ =>
      (memRead_sectioned _ _).bind fun _ => .plain _ _ _ (sameArb_tagVerify _ _ _) fun r => ?_
    split
    · exact .ret _
    · exact (memWrite_sectioned _ _).bind fun _ => .raise _

/-- `INIT` and `FREE` have no operation that can fail (R44, R61, R62). -/
theorem initBody_not_raised {s : Nat} {e e' : Engine} {c : Cause} :
    (initBody s).eval [] e ≠ .raised c e' := by
  intro h
  obtain ⟨_, _, -, h⟩ := Program.eval_step_eq_raised.1 h
  cases h

theorem freeBody_not_raised {s : Nat} {e e' : Engine} {c : Cause} :
    (freeBody s).eval [] e ≠ .raised c e' := by
  have hfree : ∀ e, (Program.do_ (freeOp s)).eval [] e ≠ .raised c e' := fun e h => by
    obtain ⟨_, _, -, h⟩ := Program.eval_step_eq_raised.1 h
    cases h
  intro h
  rcases Program.eval_bind_eq_raised.1 h with h | ⟨x, e1, -, h⟩
  · cases h
  · split at h
    · cases h
    · split at h
      · obtain ⟨_, _, -, h⟩ := Program.eval_step_eq_raised.1 h
        obtain ⟨_, _, -, h⟩ := Program.eval_step_eq_raised.1 h
        obtain ⟨e4, _, -, h⟩ := Program.eval_step_eq_raised.1 h
        exact hfree e4 h
      · exact hfree e1 h

/-- A command whose micro-steps raise leaves the arbiter as before it (R86). -/
theorem command_arb_of_raised {i : Instr} {cmd : Command} (hi : commandOf i = some cmd) {p : Params}
    {s : Nat} {a : Args} {e e' : Engine} {c : Cause}
    (h : (cmd.body p s a).eval [] e = .raised c e') : e'.arb = e.arb := by
  by_cases h1 : i = .init
  · subst h1; cases hi
    rcases Program.eval_bind_eq_raised.1 h with h | ⟨_, _, -, h⟩
    · exact absurd h initBody_not_raised
    · cases h
  by_cases h2 : i = .free
  · subst h2; cases hi
    rcases Program.eval_bind_eq_raised.1 h with h | ⟨_, _, -, h⟩
    · exact absurd h freeBody_not_raised
    · cases h
  exact (command_sectioned hi h1 h2 p s a).arb_of_raised h

/-! ### How such a command ends -/

/-- The class field of a status word tells a hardware failure (R93). -/
theorem causeClass_of_statusWord {c : Cause} (h : statusWord c &&& 0xF = 3) :
    causeClass c = .hardwareFailure := by
  cases c <;> revert h <;> decide

theorem State.completeOk_status {st : State} (out : Option W64) (hl : st.cur < st.mbox.length) :
    ((st.completeOk out).mailbox st.cur).status = 0 := by
  rw [State.mailbox, State.completeOk_mbox]
  simp [hl, statusOk]

/-- The number of contexts does not change (R10). -/
theorem command_ctxs_length {i : Instr} {cmd : Command} (hi : commandOf i = some cmd) {p : Params}
    {s : Nat} {a : Args} {log : List Reply} {e e' : Engine}
    (h : ((cmd.body p s a).eval log e).engine? = some e') : e'.ctxs.length = e.ctxs.length :=
  Program.All.eval (R := fun a b => b.ctxs.length = a.ctxs.length)
    (((ownOnly_ops s).command hi p a).mono fun m hm e1 e2 r hr => by
      obtain ⟨-, hl, -⟩ := hm e1 e2 r hr
      exact hl)
    (fun _ => rfl) (fun _ _ _ hab hbc => hbc.trans hab) log h

/-- A command that has ended with the class `HardwareFailure` is one whose micro-steps have raised a
cause of that class. -/
theorem runCommand_hardwareFailure {i : Instr} {cmd : Command} (hi : commandOf i = some cmd)
    {st t : State} (hidle : st.Idle) (h : runCommand i cmd st = .next t)
    (hdone : t.inFlight st.cur = none) (hstatus : (t.mailbox st.cur).status &&& 0xF = 3) :
    ∃ c e, causeClass c = .hardwareFailure ∧
      (cmd.body st.eng.params st.cur st.args).eval [] st.eng = .raised c e ∧
      t = ({ st with eng := e } : State).raise i st.own c := by
  have hmbox : st.cur < st.mbox.length := by rw [hidle.shaped.mbox]; exact hidle.exists_
  have hrun : st.cur < st.run.length := by rw [hidle.shaped.run]; exact hidle.exists_
  obtain ⟨-, -, ⟨c, hc, rfl⟩ | ⟨-, ⟨out, e, -, rfl⟩ | ⟨c, e, he, rfl⟩ | ⟨l, e, -, rfl⟩⟩⟩ :=
    runCommand_next h
  · rw [State.raise_status i st.own c hmbox] at hstatus
    obtain ⟨-, -, hcl⟩ := statusWord_of_check hi hc
    exact absurd (causeClass_of_statusWord hstatus) hcl
  · rw [State.completeOk_status (st := { st with eng := e }) out hmbox] at hstatus
    cases hstatus
  · rw [State.raise_status (st := { st with eng := e }) i st.own c hmbox] at hstatus
    exact ⟨c, e, causeClass_of_statusWord hstatus, he, rfl⟩
  · rw [State.inFlight_setRun_self { st with eng := e } _ _ hrun] at hdone
    cases hdone

/-- What a hardware failure leaves of the session's own context (R98). -/
theorem State.raise_own_hardwareFailure {st : State} {i : Instr} {x : Ctx} {c : Cause}
    (hl : st.cur < st.eng.ctxs.length) (hc : causeClass c = .hardwareFailure) :
    (st.raise i x c).own = hardwareFailureCtx i x st.own := by
  rw [State.own, State.raise_cur, State.raise_eng, if_pos hc]
  exact Engine.ctx_setCtx_self st.eng _ _ hl

theorem State.raise_arb (st : State) (i : Instr) (x : Ctx) (c : Cause) :
    (st.raise i x c).eng.arb = st.eng.arb := by
  rw [State.raise_eng]; split <;> rfl

/-- What a command that has ended with the class `HardwareFailure` leaves (R98). -/
theorem exec_hardwareFailure_leaves {i : Instr} {cmd : Command} {st t : State}
    (hi : commandOf i = some cmd) (hidle : st.Idle) (h : exec i st = .next t)
    (hdone : t.inFlight st.cur = none) (hstatus : (t.mailbox st.cur).status &&& 0xF = 3) :
    t.eng.arb = st.eng.arb ∧ (∀ s, s ≠ st.cur → t.eng.ctx s = st.eng.ctx s) ∧
      ∃ now, t.own = hardwareFailureCtx i st.own now := by
  have hothers := (exec_othersKept h).eng.ctx
  rw [exec_command hi] at h
  obtain ⟨c, e, hc, he, rfl⟩ := runCommand_hardwareFailure hi hidle h hdone hstatus
  have hl : st.cur < e.ctxs.length := by
    rw [command_ctxs_length hi (by rw [he]; rfl), hidle.shaped.ctxs]; exact hidle.exists_
  exact ⟨(State.raise_arb _ _ _ _).trans (command_arb_of_raised hi he), hothers, _,
    State.raise_own_hardwareFailure (st := { st with eng := e }) hl hc⟩

end Sys2Proof.Machine
end

section
/-! The port operations a command performs, in order, and how it ends when one of them fails
(40_adapter.md R45; R86, R96). -/

namespace Sys2Proof.Machine

/-! ### Where the first failure falls -/

/-- Where the accelerator answers a program's first `k` port operations, whose codes are those of a
list, and not the next, the program raises the cause of that operation and answer, and no further
operation has taken an answer. -/
def Program.FailsAt {α : Type} (codes : List (BitVec 8)) (q : Program α) (e : Engine) : Prop :=
  ∀ k c, codes[k]? = some c → (∀ j < k, e.answers.getD j .timedOut = .done) →
    e.answers.getD k .timedOut ≠ .done →
    ∃ cause e', q.eval [] e = .raised cause e' ∧
      statusWord cause = failureStatus c (e.answers.getD k .timedOut) ∧
      e'.answers = e.answers.drop (k + 1) ∧ e'.params = e.params

theorem Engine.answers_eq_cons {e : Engine} (h : e.answer = .done) :
    e.answers = .done :: e.answers.tail := by
  cases ha : e.answers with
  | nil => simp [Engine.answer, ha] at h
  | cons a rest => simpa [Engine.answer, ha] using h

theorem Engine.answers_getD_zero (e : Engine) : e.answers.getD 0 .timedOut = e.answer := by
  cases ha : e.answers <;> simp [Engine.answer, ha]

/-- The next `n` answers are all `done`. -/
theorem answers_eq_replicate {l : List Answer} {n : Nat}
    (h : ∀ j < n, l.getD j .timedOut = .done) : l = List.replicate n .done ++ l.drop n := by
  induction n generalizing l with
  | zero => rfl
  | succ n ih =>
    cases l with
    | nil => exact absurd (h 0 (Nat.succ_pos n)) (by simp)
    | cons a rest =>
      have h0 : a = .done := h 0 (Nat.succ_pos n)
      have hrest := ih (l := rest) fun j hj => h (j + 1) (by omega)
      rw [List.replicate_succ, List.drop_succ_cons, List.cons_append, ← hrest, h0]

section
variable {α β : Type} {codes : List (BitVec 8)} {e : Engine}

theorem Program.FailsAt.nil (q : Program α) (e : Engine) : q.FailsAt [] e := by
  intro k c h
  cases h

theorem Program.FailsAt.bind {q : Program α} {f : α → Program β} (h : q.FailsAt codes e) :
    (q.bind f).FailsAt codes e := by
  intro k c hc hj hk
  obtain ⟨cause, e', he, hrest⟩ := h k c hc hj hk
  exact ⟨cause, e', Program.eval_bind_raised he, hrest⟩

/-- A handler that takes no answer runs before the failure goes on (R92). -/
theorem Program.FailsAt.onRaise {q : Program α} {h : Program Unit} (hq : q.FailsAt codes e)
    (hh : ∀ e1, e1.params = e.params → ∃ e2, h.eval [] e1 = .done () e2 ∧
      e2.answers = e1.answers ∧ e2.params = e1.params) :
    (Program.onRaise h q).FailsAt codes e := by
  intro k c hc hj hk
  obtain ⟨cause, e1, he, hs, ha, hp⟩ := hq k c hc hj hk
  obtain ⟨e2, he2, ha2, hp2⟩ := hh e1 hp
  exact ⟨cause, e2, Program.eval_onRaise_raised he he2, hs, ha2.trans ha, hp2.trans hp⟩

/-- A micro-step that takes no answer. -/
theorem Program.FailsAt.next {m : Engine → Micro} {k : Reply → Program α} {e' : Engine} {r : Reply}
    (hm : m e = .next e' r) (ha : e'.answers = e.answers) (hp : e'.params = e.params)
    (hk : (k r).FailsAt codes e') : (Program.step m k).FailsAt codes e := by
  intro j c hc hj hj'
  rw [← ha] at hj hj' ⊢
  obtain ⟨cause, e2, he, hs, ha2, hp2⟩ := hk j c hc hj hj'
  exact ⟨cause, e2, Program.eval_step_raised hm he, hs, ha2, hp2.trans hp⟩

/-- An adapter operation inside a guarded section: it fails and the section ends, or it is done and
the rest follows (R45, R86). -/
theorem Program.FailsAt.adapter {s : Nat} {m : Engine → Micro} {k : Reply → Program α}
    {code : BitVec 8} {failure : Answer → Cause} (hh : e.arb.holder = some s)
    (hm : e.answer ≠ .done →
      m e = .next (e.record s code).dropAnswer.scrambleLive (.failed (failure e.answer)))
    (hk : ∀ c, k (.failed c) = guardFail s c)
    (hs : ∀ a, a ≠ .done → statusWord (failure a) = failureStatus code a)
    (hdone : e.answers = .done :: e.answers.tail → ∃ e' r, m e = .next e' r ∧
      e'.answers = e.answers.tail ∧ e'.params = e.params ∧ (k r).FailsAt codes e') :
    (Program.step m k).FailsAt (code :: codes) e := by
  intro j c hc hj hj'
  cases j with
  | zero =>
    cases hc
    rw [Engine.answers_getD_zero] at hj' ⊢
    have hfail : (k (.failed (failure e.answer))).eval []
        (e.record s code).dropAnswer.scrambleLive = _ :=
      (congrArg (Program.eval · [] _) (hk _)).trans (guardFail_eval [] hh)
    exact ⟨_, _, Program.eval_step_raised (hm hj') hfail, hs _ hj', by simp, rfl⟩
  | succ j =>
    have h0 := hj 0 (Nat.succ_pos j)
    rw [Engine.answers_getD_zero] at h0
    obtain ⟨e', r, he, ha, hp, hrest⟩ := hdone (Engine.answers_eq_cons h0)
    have hget : ∀ n, e.answers.getD (n + 1) .timedOut = e'.answers.getD n .timedOut := by
      intro n
      rw [Engine.answers_eq_cons h0, ha]; rfl
    rw [hget] at hj' ⊢
    obtain ⟨cause, e2, he2, hs2, ha2, hp2⟩ := hrest j c hc (fun n hn => by
      rw [← hget]; exact hj (n + 1) (by omega)) hj'
    refine ⟨cause, e2, Program.eval_step_raised he he2, hs2, ?_, hp2.trans hp⟩
    rw [ha2, ha, List.drop_tail]

end

/-! ### The guarded section (R86) -/

/-- The status of a failed operation of a section's body (R42, R45). -/
theorem statusWord_dataFailure (c : PortCall) {a : Answer} (ha : a ≠ .done) :
    statusWord (dataFailure a) = failureStatus (callCode c) a := by
  cases a with
  | done => exact absurd rfl ha
  | timedOut => cases c <;> rfl
  | error => cases c <;> rfl

section
variable {s : Nat}

theorem guardClose_failsAt {e : Engine} (hh : e.arb.holder = some s) (r : List Byte) :
    (guardClose s r).FailsAt [0x14] e :=
  .adapter hh (failure := fun _ => .suspendFail) (fun ha => adapterOp_failed hh (.inl ha))
    (fun _ => rfl) (fun _ _ => rfl)
    fun ha => ⟨_, _, adapterOp_done hh ha rfl, rfl, rfl, .nil _ _⟩

theorem guardBody_failsAt {l : List PortCall} {e : Engine} {r0 : List Byte}
    {end_ : Image × List Byte} (hh : e.arb.holder = some s)
    (hl : runCalls e.live l r0 = some end_) :
    (guardBody s (guardClose s) l r0).FailsAt (l.map callCode ++ [0x14]) e := by
  induction l generalizing e r0 with
  | nil => exact guardClose_failsAt hh r0
  | cons c l ih =>
    unfold runCalls at hl
    split at hl
    · next hc =>
      simp only [Bool.and_eq_true] at hc
      obtain ⟨hw, hr⟩ := hc
      exact .adapter hh (failure := dataFailure) (fun ha => portCallOp_failed hh hw (.inl ha))
        (fun _ => rfl) (fun _ => statusWord_dataFailure c)
        fun ha => ⟨_, _, portCallOp_done hh hw hr ha, rfl, rfl, ih hh hl⟩
    · cases hl

end

/-- Between the guarded sections of a command of session `s`: nobody holds the mutex, and `x` is the
session's context. -/
structure Engine.At (e : Engine) (p : Params) (s : Nat) (x : Ctx) : Prop where
  params : e.params = p
  lt : s < e.ctxs.length
  mutex : e.arb.mutexExists = true
  free : e.arb.holder = none
  ctx : e.ctx s = x

section
variable {p : Params} {s : Nat} {x : Ctx} {e : Engine}

theorem Engine.At.congr {e' : Engine} (h : e.At p s x) (hp : e'.params = e.params)
    (hc : e'.ctxs = e.ctxs) (ha : e'.arb = e.arb) : e'.At p s x where
  params := hp.trans h.params
  lt := hc ▸ h.lt
  mutex := ha ▸ h.mutex
  free := ha ▸ h.free
  ctx := by rw [← h.ctx, Engine.ctx, Engine.ctx, hc]

theorem Engine.At.setCtx (h : e.At p s x) (y : Ctx) : (e.setCtx s y).At p s y where
  params := h.params
  lt := by simpa using h.lt
  mutex := h.mutex
  free := h.free
  ctx := Engine.ctx_setCtx_self e s y h.lt

/-- The codes of a section are those of `RESUME`, if the session has an image, of its body and of
`SUSPEND` (R86). -/
theorem guardSection_failsAt {body : List PortCall} {end_ : Image × List Byte} (h : e.At p s x)
    (hb : runCalls (if x.imageValid then x.image else e.live) body [] = some end_) :
    (guardSection s body).FailsAt
      ((if x.imageValid then [0x15] else []) ++ body.map callCode ++ [0x14]) e := by
  refine .next (guardOpenOp_free h.mutex h.free) rfl rfl ?_
  obtain ⟨e1, he1⟩ : ∃ e1 : Engine, e1 = { e with
    arb := { e.arb with holder := some s }
    history := ⟨s, 0x22⟩ :: ⟨s, 0x35⟩ :: e.history } := ⟨_, rfl⟩
  have hh : e1.arb.holder = some s := by rw [he1]
  have hx : e1.ctx s = x := by rw [← h.ctx, he1]; rfl
  rw [← he1]
  cases hv : x.imageValid with
  | true =>
    rw [hv, if_pos rfl] at hb
    have hop : resumeOwnOp s e1 = resumeOp s x.image e1 := by
      rw [resumeOwnOp, hx, if_pos hv]
    exact .adapter hh (failure := fun _ => .resumeFail)
      (fun ha => hop.trans (adapterOp_failed hh (.inl ha))) (fun _ => rfl) (fun _ _ => rfl)
      fun ha => ⟨_, _, hop.trans (adapterOp_done hh ha rfl), rfl, rfl, guardBody_failsAt hh hb⟩
  | false =>
    rw [hv] at hb
    exact .next (resumeOwnOp_none (by rw [hx, hv])) rfl rfl
      (guardBody_failsAt hh (show runCalls e1.live body [] = _ by rw [he1]; exact hb))

end

/-! ### The operations a part of a command performs -/

/-- A part of a command of session `s`, run from the session's context `x` with the mutex free,
performs the operations of these codes. When they all succeed it is done, the mutex free again, its
result `a` and the session's context satisfying `Q a`; when one fails, the part fails there. -/
structure Program.Performs {α : Type} (p : Params) (s : Nat) (codes : List (BitVec 8)) (x : Ctx)
    (q : Program α) (Q : α → Ctx → Prop) : Prop where
  done : ∀ e : Engine, e.At p s x →
    (∀ j < codes.length, e.answers.getD j .timedOut = .done) →
    ∃ a y e', q.eval [] e = .done a e' ∧ Engine.At e' p s y ∧ Q a y ∧
      e'.answers = e.answers.drop codes.length
  fails : ∀ e : Engine, e.At p s x → q.FailsAt codes e

section
variable {α β : Type} {p : Params} {s : Nat} {codes codes' : List (BitVec 8)} {x : Ctx}
  {Q : α → Ctx → Prop} {R : β → Ctx → Prop}

/-- A failure in the first part, or in the second after the first is done. -/
theorem Program.Performs.failsAt_bind {q : Program α} {f : α → Program β}
    (hq : q.Performs p s codes x Q)
    (hf : ∀ a y, Q a y → ∀ e : Engine, e.At p s y → (f a).FailsAt codes' e) {e : Engine}
    (he : e.At p s x) : (q.bind f).FailsAt (codes ++ codes') e := by
  intro k c hc hj hk
  by_cases hlt : k < codes.length
  · rw [List.getElem?_append_left hlt] at hc
    exact (hq.fails e he).bind k c hc hj hk
  · rw [List.getElem?_append_right (by omega)] at hc
    obtain ⟨a, y, e1, he1, hat, hQ, ha⟩ := hq.done e he fun j hj' => hj j (by omega)
    have hget : ∀ n, e1.answers.getD n .timedOut = e.answers.getD (codes.length + n) .timedOut := by
      intro n
      simp [ha, List.getD_eq_getElem?_getD]
    have hkk : codes.length + (k - codes.length) = k := by omega
    obtain ⟨cause, e2, he2, hs, ha2, hp2⟩ := hf a y hQ e1 hat (k - codes.length) c hc
      (fun n hn => by rw [hget]; exact hj _ (by omega)) (by rw [hget, hkk]; exact hk)
    refine ⟨cause, e2, Program.eval_bind_done_raised he1 he2, ?_, ?_, ?_⟩
    · rw [hs, hget, hkk]
    · rw [ha2, ha, List.drop_drop]
      congr 1
      omega
    · rw [hp2, hat.params, he.params]

theorem Program.Performs.bind {q : Program α} {f : α → Program β} (hq : q.Performs p s codes x Q)
    (hf : ∀ a y, Q a y → (f a).Performs p s codes' y R) :
    (q.bind f).Performs p s (codes ++ codes') x R where
  done e he hj := by
    rw [List.length_append] at hj
    obtain ⟨a, y, e1, he1, hat, hQ, ha⟩ := hq.done e he fun j hj' => hj j (by omega)
    obtain ⟨b, z, e2, he2, hat2, hR, ha2⟩ := (hf a y hQ).done e1 hat fun j hj' => by
      rw [ha, List.getD_eq_getElem?_getD, List.getElem?_drop, ← List.getD_eq_getElem?_getD]
      exact hj _ (by omega)
    refine ⟨b, z, e2, Program.eval_bind_done he1 he2, hat2, hR, ?_⟩
    rw [ha2, ha, List.drop_drop, List.length_append]
  fails _ he := hq.failsAt_bind (fun a y hQ => (hf a y hQ).fails) he

/-- A part without a port operation before another. -/
theorem Program.Performs.seq {q : Program α} {f : α → Program β} (hq : q.Performs p s [] x Q)
    (hf : ∀ a y, Q a y → (f a).Performs p s codes y R) : (q.bind f).Performs p s codes x R :=
  hq.bind hf

/-- A part without a port operation after another. -/
theorem Program.Performs.andThen {q : Program α} {f : α → Program β}
    (hq : q.Performs p s codes x Q) (hf : ∀ a y, Q a y → (f a).Performs p s [] y R) :
    (q.bind f).Performs p s codes x R := by
  have h := hq.bind hf
  rwa [List.append_nil] at h

theorem Program.Performs.mono {q : Program α} {Q' : α → Ctx → Prop}
    (hq : q.Performs p s codes x Q) (h : ∀ a y, Q a y → Q' a y) : q.Performs p s codes x Q' where
  done e he hj := by
    obtain ⟨a, y, e1, he1, hat, hQ, ha⟩ := hq.done e he hj
    exact ⟨a, y, e1, he1, hat, h a y hQ, ha⟩
  fails := hq.fails

/-- A part that takes no answer. -/
theorem Program.Performs.of_done {q : Program α}
    (h : ∀ e : Engine, e.At p s x → ∃ a y e', q.eval [] e = .done a e' ∧ Engine.At e' p s y ∧
      Q a y ∧ e'.answers = e.answers) : q.Performs p s [] x Q where
  done e he _ := h e he
  fails e _ := .nil q e

theorem Program.Performs.ret {a : α} (h : Q a x) : (Program.ret a).Performs p s [] x Q :=
  .of_done fun e he => ⟨a, x, e, rfl, he, h, rfl⟩

/-- A part that changes the session's context, as the memory has it, and the history, in the form of
the lemmas of Laws/Session.lean. -/
theorem Program.Performs.of_put {q : Program α} {a : α} (y : Memory → Ctx)
    (h : ∀ (e : Engine) m l an hi, s < e.ctxs.length → e.params = p →
      ∃ k, q.eval [] (e.put s x m l an hi) = .done a (e.put s (y m) m l an (k ++ hi)))
    (hQ : ∀ m, Q a (y m)) : q.Performs p s [] x Q := by
  refine .of_done fun e he => ?_
  obtain ⟨k, hk⟩ := h e e.mem e.live e.answers e.history he.lt he.params
  rw [← he.ctx, Engine.put_self] at hk
  exact ⟨a, y e.mem, _, hk, (he.setCtx _).congr rfl rfl rfl, hQ _, rfl⟩

theorem Program.Performs.getCtx_seq {f : Ctx → Program β} (h : (f x).Performs p s codes x R) :
    ((getCtx s).bind f).Performs p s codes x R :=
  .seq (Q := fun c y => c = x ∧ y = x)
    (.of_done fun e he => ⟨_, x, e, getCtx_eval s e, he, ⟨he.ctx, rfl⟩, rfl⟩)
    fun _ _ hy => by obtain ⟨rfl, rfl⟩ := hy; exact h

theorem Program.Performs.setCtx {g : Ctx → Ctx} {Q : Unit → Ctx → Prop} (h : Q () (g x)) :
    (setCtx s g).Performs p s [] x Q :=
  .of_done fun e he =>
    ⟨(), g x, _, by rw [setCtx_eval, he.ctx], he.setCtx _, h, rfl⟩

theorem Program.Performs.setCtx_seq {g : Ctx → Ctx} {f : Unit → Program β}
    (h : (f ()).Performs p s codes (g x) R) :
    ((Machine.setCtx s g).bind f).Performs p s codes x R :=
  (Program.Performs.setCtx (Q := fun _ y => y = g x) rfl).seq fun _ _ hy => hy ▸ h

theorem Program.Performs.memRead_seq {ad n : Nat} {f : List Byte → Program β} (hf : fits p ad n)
    (h : ∀ b : List Byte, b.length = n → (f b).Performs p s codes x R) :
    ((memRead ad n).bind f).Performs p s codes x R :=
  .seq (Q := fun b y => b.length = n ∧ y = x)
    (.of_done fun e he => ⟨_, x, e, memRead_eval ad n e (he.params.symm ▸ hf), he,
      ⟨Memory.length_readBytes _ _ _, rfl⟩, rfl⟩)
    fun b y hy => by obtain ⟨hl, rfl⟩ := hy; exact h b hl

theorem Program.Performs.memWrite_seq {ad : Nat} {b : List Byte} {f : Unit → Program β}
    (hf : fits p ad b.length) (h : (f ()).Performs p s codes x R) :
    ((memWrite ad b).bind f).Performs p s codes x R :=
  .seq (Q := fun _ y => y = x)
    (.of_done fun e he => ⟨_, x, _, memWrite_eval ad b e (he.params.symm ▸ hf),
      he.congr rfl rfl rfl, rfl, rfl⟩)
    fun _ _ hy => hy ▸ h

/-- Parts that perform the same operations, one after another. -/
theorem Program.Performs.forEach {f : β → Program Unit} {l : List β} {I : Ctx → Prop}
    (hf : ∀ b ∈ l, ∀ y, I y → (f b).Performs p s codes y fun _ => I) (hx : I x) :
    (Program.forEach f l).Performs p s (List.replicate l.length codes).flatten x fun _ => I := by
  induction l generalizing x with
  | nil => exact .ret hx
  | cons b rest ih =>
    rw [List.length_cons, List.replicate_succ, List.flatten_cons]
    exact (hf b (by simp) x hx).bind fun _ y hy => ih (fun c hc => hf c (by simp [hc])) hy

/-- A guarded section whose operations can all be performed, on the session's own image or, if it has
none, on whatever image is live (R86). -/
theorem guardSection_performs {body : List PortCall} {Q : List Byte → Ctx → Prop}
    (h : ∀ l, (x.imageValid = true → l = x.image) → ∃ img r, runCalls l body [] = some (img, r) ∧
      Q r { x with image := img, imageValid := true }) :
    (guardSection s body).Performs p s
      ((if x.imageValid then [0x15] else []) ++ body.map callCode ++ [0x14]) x Q where
  done e he hj := by
    obtain ⟨img, r, hrun, hQ⟩ := h (if x.imageValid then x.image else e.live) fun hv => if_pos hv
    obtain ⟨n, hn⟩ : ∃ n, n = ((if x.imageValid then [0x15] else []) ++ body.map callCode ++
      [0x14] : List (BitVec 8)).length := ⟨_, rfl⟩
    have hlen : n = (if x.imageValid then 1 else 0) + body.length + 1 := by
      rw [hn]; cases x.imageValid <;> simp; omega
    rw [← hn] at hj ⊢
    have hrun' := hrun
    have ha := answers_eq_replicate hj
    rw [hlen] at ha
    rw [← he.ctx] at hrun' ha
    obtain ⟨k, hk⟩ := guardSection_eval he.mutex he.free hrun' ha
    rw [he.ctx] at hk
    rw [← hlen] at hk
    exact ⟨r, _, _, hk, (he.setCtx _).congr rfl rfl rfl, hQ, rfl⟩
  fails e he := by
    obtain ⟨img, r, hrun, -⟩ := h (if x.imageValid then x.image else e.live) fun hv => if_pos hv
    exact guardSection_failsAt he hrun

/-- A guarded section of a session with a saved image (R86). -/
theorem guardSection_saved_performs {body : List PortCall} {img : Image} {r : List Byte}
    {Q : List Byte → Ctx → Prop} (hv : x.imageValid = true)
    (hrun : runCalls x.image body [] = some (img, r))
    (hQ : Q r { x with image := img, imageValid := true }) :
    (guardSection s body).Performs p s (sectionCodes (body.map callCode)) x Q := by
  have hcodes : sectionCodes (body.map callCode) =
      (if x.imageValid then [0x15] else []) ++ body.map callCode ++ [0x14] := by
    rw [if_pos hv]; rfl
  rw [hcodes]
  exact guardSection_performs fun l hl => ⟨img, r, by rw [hl hv]; exact hrun, hQ⟩

end

end Sys2Proof.Machine
end

section
/-! The port operations of the parts of the commands (42_session_mode_b.md, 43_session_mode_a.md). -/

namespace Sys2Proof.Machine

/-- A context with a saved image that can encrypt (R41, R42). -/
def Ctx.Encrypts (x : Ctx) : Prop := x.imageValid = true ∧ ecbReady x.image = true

/-- A context whose saved image is in a message in mode GCM, with a staged header, in range, or
without one (R75 to R77). -/
def Ctx.Streams (p : Params) (header : Bool) (x : Ctx) : Prop :=
  x.imageValid = true ∧ streaming x.image = true ∧ x.headerOk p ∧ x.hdrPending = header

/-- A context in a message: under A it streams, under B it can encrypt and the next payload byte is
`off` bytes inside a block. -/
def Ctx.Ready (p : Params) (header : Bool) (off : Nat) (x : Ctx) : Prop :=
  match p.strategy with
  | .a => x.Streams p header
  | .b => x.Encrypts ∧ openOffset p.policy x.len.toNat = off

section
variable {p : Params} {s : Nat} {x : Ctx} {header : Bool} {off : Nat}

theorem Ctx.ready_a (h : p.strategy = .a) : x.Ready p header off ↔ x.Streams p header := by
  simp only [Ctx.Ready, h]

theorem Ctx.ready_b (h : p.strategy = .b) :
    x.Ready p header off ↔ x.Encrypts ∧ openOffset p.policy x.len.toNat = off := by
  simp only [Ctx.Ready, h]

theorem Ctx.Bound.encrypts (hx : x.Bound p) (h : p.strategy = .b) : x.Encrypts := by
  have hm := hx.mode
  rw [h] at hm
  exact ⟨hx.valid, by simp [ecbReady, hx.configured, hm]⟩

theorem Ctx.Bound.gcmReady (hx : x.Bound p) (h : p.strategy = .a) : gcmReady x.image = true := by
  have hm := hx.mode
  rw [h] at hm
  simp [Machine.gcmReady, hx.configured, hm]

/-! ### Sections -/

theorem runCalls_one {img : Image} {c : PortCall} (hw : c.wellFormed = true)
    (hr : callReady img c = true) (r : List Byte) : runCalls img [c] r = some (callEffect img c) := by
  simp only [runCalls, hw, hr, Bool.and_self, if_true]

theorem runCalls_two {img : Image} {c d : PortCall} (hw : c.wellFormed = true)
    (hr : callReady img c = true) (hw' : d.wellFormed = true)
    (hr' : callReady (callEffect img c).1 d = true) (r : List Byte) :
    runCalls img [c, d] r = some (callEffect (callEffect img c).1 d) := by
  simp only [runCalls, hw, hr, hw', hr', Bool.and_self, if_true]

/-- A guarded section of a session without a saved image (R63, R74). -/
theorem guardSection_new_performs {body : List PortCall} {Q : List Byte → Ctx → Prop}
    (hv : x.imageValid = false)
    (h : ∀ l, ∃ img r, runCalls l body [] = some (img, r) ∧
      Q r { x with image := img, imageValid := true }) :
    (guardSection s body).Performs p s (body.map callCode ++ [0x14]) x Q := by
  have hp := guardSection_performs (p := p) (s := s) fun l (_ : x.imageValid = true → _) => h l
  rwa [hv] at hp

/-- A guarded section of one operation on the saved image. -/
theorem guardSection_one_performs {c : PortCall} {Q : List Byte → Ctx → Prop}
    (hv : x.imageValid = true) (hw : c.wellFormed = true) (hr : callReady x.image c = true)
    (hQ : Q (callEffect x.image c).2
      { x with image := (callEffect x.image c).1, imageValid := true }) :
    (guardSection s [c]).Performs p s (sectionCodes [callCode c]) x Q :=
  guardSection_saved_performs hv (runCalls_one hw hr []) hQ

/-- One encryption in a section of its own (R64, R68). -/
theorem encryptSection_performs (hx : x.Encrypts) (b : Block) :
    (guardSection s [.encrypt (bytesOfBlock b)]).Performs p s (sectionCodes [0x11]) x
      fun _ y => y = x := by
  obtain ⟨hv, hr⟩ := hx
  refine guardSection_one_performs hv (encrypt_wellFormed b) hr ?_
  rw [← hv]
  rfl

/-- `CONFIGURE` with a key of an admitted size (R41). -/
theorem configure_wellFormed {n : W64} (hn : n = 0 ∨ n = 128 ∨ n = 192 ∨ n = 256) {k : List Byte}
    (hk : k.length = n.toNat / 8) (md : CipherMode) :
    (PortCall.configure k (n.setWidth 9) md).wellFormed = true := by
  rcases hn with h | h | h | h <;> rw [h] at hk ⊢ <;> simpa [PortCall.wellFormed] using hk

/-! ### Strategy B -/

theorem multBufIf_performs (c : Bool) {Q : Unit → Ctx → Prop}
    (hQ : Q () { x with buf := if c then ghashMult x.table x.buf else x.buf }) :
    (multBufIf s c).Performs p s [] x Q :=
  .of_put _ (fun _ _ _ _ _ hs _ => multBufIf_put hs c) fun _ => hQ

theorem incY_performs (n : Nat) {Q : Unit → Ctx → Prop} (hQ : Q () { x with y := inc32^[n] x.y }) :
    (Program.do_ (incYOp s n)).Performs p s [] x Q :=
  .of_put _ (fun _ _ _ _ _ hs _ => ⟨_, incY_put hs n⟩) fun _ => hQ

theorem closeAad_performs {Q : Unit → Ctx → Prop}
    (hQ : Q () { x with buf := closePhase p.policy x.table x.addLen.toNat x.buf }) :
    (Program.do_ (closeAadOp s)).Performs p s [] x Q :=
  .of_put _ (fun _ _ _ _ _ hs hp => hp ▸ closeAad_put hs) fun _ => hQ

theorem setkeyPartB_performs {o : SetkeyOperands}
    (hk : o.keyBits = 0 ∨ o.keyBits = 128 ∨ o.keyBits = 192 ∨ o.keyBits = 256)
    (hf : fits p o.key.toNat (o.keyBits.toNat / 8)) :
    (setkeyPartB s o).Performs p s [0x10, 0x11, 0x14] x fun _ _ => True := by
  refine .memRead_seq hf fun k hl => .setCtx_seq ?_
  refine Program.Performs.andThen (codes := [0x10, 0x11, 0x14]) (Q := fun _ _ => True)
    (guardSection_new_performs
      (body := [.configure k (o.keyBits.setWidth 9) .ecb, .encrypt (bytesOfBlock 0)]) rfl
      fun l => ?_) fun h y _ => ?_
  · exact ⟨_, _, runCalls_two (configure_wellFormed hk hl .ecb) rfl (encrypt_wellFormed 0) rfl [],
      trivial⟩
  · exact .seq (Q := fun _ _ => True)
      (.of_put _ (fun _ _ _ _ _ hs _ => ⟨[⟨s, 0x30⟩], buildTable_put hs _⟩) fun _ => trivial)
      fun _ _ _ => .setCtx trivial

theorem startsPartB_performs {dir : Direction} {iv : W64} (hf : fits p iv.toNat 12)
    (hx : x.Encrypts) :
    (startsPartB s dir iv).Performs p s (sectionCodes [0x11]) x fun _ y => y.Encrypts ∧ y.len = 0 :=
  .memRead_seq hf fun _ _ => .setCtx_seq <| .getCtx_seq <|
    (encryptSection_performs (by exact hx) _).andThen fun _ _ hy => .setCtx (hy ▸ ⟨hx, rfl⟩)

theorem payloadPieceB_performs {policy : PartialPolicy} {input output : Nat} {q : Piece}
    (hfi : fits p (input + q.p) q.use) (hfo : fits p (output + q.p) q.use) (hx : x.Encrypts) :
    (payloadPieceB policy s input output q).Performs p s (sectionCodes [0x11]) x
      fun _ y => y.Encrypts := by
  refine .seq (Q := fun _ y => y.Encrypts) ?_ fun _ y hy => .getCtx_seq <|
    (encryptSection_performs hy _).andThen fun ks z hz => ?_
  · split
    · exact incY_performs 1 hx
    · exact .ret hx
  · subst hz
    refine .memRead_seq hfi fun d hd => .setCtx_seq <| .memWrite_seq ?_ <| .setCtx_seq <|
      multBufIf_performs _ hy
    rw [length_xorBytes, hd]
    rcases hfo with h | h
    · exact .inl (by rw [h, Nat.zero_min])
    · exact .inr (by omega)

theorem updatePartB_performs {input n output : W64} (hfi : fits p input.toNat n.toNat)
    (hfo : fits p output.toNat n.toNat) (hx : x.Encrypts) :
    (updatePartB p.policy s input n output).Performs p s
      (List.replicate (pieces p.policy x.len.toNat n.toNat).length (sectionCodes [0x11])).flatten x
      fun _ y => y.Encrypts := by
  refine .getCtx_seq <| .seq (Q := fun _ y => y.Encrypts) ?_ fun _ y hy =>
    .forEach (I := Ctx.Encrypts) (fun q hq z hz => ?_) hy
  · split
    · exact .ret hx
    · exact (closeAad_performs (Q := fun _ y => y.Encrypts) hx).seq fun _ _ hy => .setCtx hy
  · exact payloadPieceB_performs ((pieces_chain _ _ _).fits hfi q hq)
      ((pieces_chain _ _ _).fits hfo q hq) hz

theorem finishTagB_performs :
    (finishTagB p.policy s).Performs p s [] x fun t _ => t.length = 16 :=
  .of_put _ (fun _ _ _ _ _ hl hp => finishTagB_put p.policy hl (by rw [hp]) _ rfl)
    fun _ => length_bytesOfBlock _

theorem length_pieces_eq (policy : PartialPolicy) (done n : Nat) :
    (pieces policy done n).length = if n = 0 then 0 else (openOffset policy done + n + 15) / 16 := by
  have h := length_pieces policy done n
  unfold updateDrawsB at h
  split at h <;> simp_all

/-! ### Strategy A -/

theorem setkeyPartA_performs {o : SetkeyOperands}
    (hk : o.keyBits = 0 ∨ o.keyBits = 128 ∨ o.keyBits = 192 ∨ o.keyBits = 256)
    (hf : fits p o.key.toNat (o.keyBits.toNat / 8)) :
    (setkeyPartA s o).Performs p s [0x10, 0x14] x fun _ _ => True :=
  .memRead_seq hf fun _ hl => .setCtx_seq <|
    Program.Performs.andThen (codes := [0x10, 0x14]) (Q := fun _ _ => True)
      (guardSection_new_performs rfl fun _ =>
        ⟨_, _, runCalls_one (configure_wellFormed hk hl .gcm) rfl [], trivial⟩)
      fun _ _ _ => .setCtx trivial

theorem startsPartA_performs {dir : Direction} {iv : W64} (hf : fits p iv.toNat 12)
    (hv : x.imageValid = true) (hr : gcmReady x.image = true) :
    (startsPartA s dir iv).Performs p s (sectionCodes [0x16]) x fun _ y => y.Streams p false :=
  .memRead_seq hf fun iv _ => .setCtx_seq <| .getCtx_seq <|
    (guardSection_one_performs (c := .gcmBegin dir (preCounter iv))
      (Q := fun _ y => y.Streams p false) (by exact hv) rfl (by exact hr)
      ⟨rfl, by
        have hr' : gcmReady (callEffect x.image (.gcmBegin dir (preCounter iv))).1 = true := hr
        rw [streaming, hr']; rfl, fun h => absurd h Bool.false_ne_true, rfl⟩).andThen
      fun _ _ hy => .ret hy

/-- A staged header is not read by `UPDATE_AD` and no operation is performed (R76). -/
theorem updateAdPartA_performs {aad n : W64} (hf : fits p aad.toNat n.toNat)
    (hx : x.Streams p false) :
    (updateAdPartA p s aad n).Performs p s [] x fun _ y =>
      y.Streams p (decide (n.toNat ≠ 0)) := by
  obtain ⟨hv, hr, hh, hp⟩ := hx
  refine .setCtx ?_
  by_cases hn : n = 0
  · subst hn
    exact ⟨hv, hr, hh, hp⟩
  · have hn' : n.toNat ≠ 0 := fun h => hn (BitVec.eq_of_toNat_eq h)
    have hfit := hf.resolve_left hn'
    have hmod : aad.toNat % 2 ^ p.addrBits = aad.toNat := Nat.mod_eq_of_lt (by omega)
    simp only [hn, if_false, hn', hmod, ne_eq, not_false_eq_true, decide_true]
    exact ⟨hv, hr, fun _ => ⟨hn, hfit⟩, rfl⟩

/-- The codes of a pass whose operation has the code `c` (R77). -/
def passCodes (header : Bool) (c : BitVec 8) : List (BitVec 8) :=
  sectionCodes ((if header = true then [0x17] else []) ++ [c])

/-- One pass over the accelerator, a staged header riding on it (R77): afterwards none is staged and
the image is what the pass leaves of one in the same message. -/
theorem hwPass_performs {c : PortCall} {Q : List Byte → Ctx → Prop} (hw : c.wellFormed = true)
    (hc : ∀ img, callReady img c = streaming img) (hx : x.Streams p header)
    (hQ : ∀ img, streaming img = true → Q (callEffect img c).2
      { x with image := (callEffect img c).1, imageValid := true, hdrPending := false }) :
    (hwPass s c).Performs p s (passCodes header (callCode c)) x Q := by
  obtain ⟨hv, hr, hh, hpend⟩ := hx
  subst hpend
  refine .getCtx_seq ?_
  cases hp : x.hdrPending with
  | true =>
    obtain ⟨hl, hfit⟩ := hh hp
    refine .memRead_seq (.inr hfit) fun d hd => ?_
    have hwd : (PortCall.gcmHeader d).wellFormed = true := by
      simpa [PortCall.wellFormed, ← List.length_eq_zero_iff, hd] using
        fun h0 => hl (BitVec.eq_of_toNat_eq h0)
    have hr' : streaming (callEffect x.image (.gcmHeader d)).1 = true := hr
    exact (guardSection_saved_performs
      (Q := fun r y => Q r { y with hdrPending := false }) hv
      (runCalls_two hwd hr hw ((hc _).trans hr') []) (hQ _ hr')).andThen
      fun r y hy => .setCtx_seq (.ret hy)
  | false =>
    refine guardSection_one_performs hv hw ((hc _).trans hr) ?_
    have := hQ x.image hr
    rwa [← hp] at this

/-- A pass over payload leaves the message open, and no header staged (R50, R77). -/
theorem payloadPass_performs {d : List Byte} (v : BitVec 4) (hd : d.length ≠ 0)
    (h16 : d.length % 16 = 0) (hx : x.Streams p header) :
    (hwPass s (.gcmPayload d v)).Performs p s (passCodes header 0x18) x
      fun o y => o.length = d.length ∧ y.Streams p false :=
  hwPass_performs (c := .gcmPayload d v) (wholeBlocks_iff.2 ⟨hd, h16⟩) (fun _ => rfl) hx
    fun img hr => ⟨length_callEffect_payload img d v, rfl, hr, fun h => absurd h Bool.false_ne_true,
      rfl⟩

/-- What follows a pass over payload: the output, the counter and the length (R78). -/
theorem payloadClose_performs {ad c n : Nat} {o : List Byte} (hf : fits p ad o.length)
    (hx : x.Streams p header) :
    ((memWrite ad o).bind fun _ => (Program.do_ (incYOp s c)).bind fun _ =>
      setCtx s fun x => { x with len := x.len + BitVec.ofNat 64 n }).Performs p s [] x
      fun _ y => y.Streams p header :=
  .memWrite_seq hf <| (incY_performs c (Q := fun _ y => y.Streams p header) hx).seq
    fun _ _ hy => .setCtx hy

theorem updateAlignedA_performs {input output n : Nat} (hn : n ≠ 0) (h16 : n % 16 = 0)
    (hfi : fits p input n) (hfo : fits p output n) (hx : x.Streams p header) :
    (updateAlignedA s input output n).Performs p s (passCodes header 0x18) x
      fun _ y => y.Streams p false :=
  .memRead_seq hfi fun d hd => (payloadPass_performs 0 (by omega) (by omega) hx).andThen
    fun o y ⟨ho, hy⟩ => payloadClose_performs (by rw [ho, hd]; exact hfo) hy

theorem updateRemainderA_performs {input output n : Nat} (h16 : n < 16)
    (hfi : fits p input n) (hfo : fits p output n) (hx : x.Streams p header) :
    (updateRemainderA s input output n).Performs p s (passCodes header 0x18) x
      fun _ y => y.Streams p false := by
  refine .memRead_seq hfi fun d hd => ?_
  have hl : (d ++ List.replicate (16 - n) 0).length = 16 := by simp [hd]; omega
  refine (payloadPass_performs (BitVec.ofNat 4 n) (by omega) (by omega) hx).andThen
    fun o y ⟨ho, hy⟩ => payloadClose_performs ?_ hy
  rw [List.length_take, ho, hl, min_eq_left (by omega)]
  exact hfo

/-- A part that is performed when a length is not 0. -/
theorem Program.Performs.skip {n : Nat} {codes : List (BitVec 8)} {q : Program Unit}
    (hx : x.Streams p header)
    (hq : n ≠ 0 → q.Performs p s codes x fun _ y => y.Streams p false) :
    (if n = 0 then .ret () else q).Performs p s (if n = 0 then [] else codes) x
      fun _ y => y.Streams p (header && decide (n = 0)) := by
  by_cases hn : n = 0
  · simp only [hn, if_true, decide_true, Bool.and_true]
    exact .ret hx
  · simpa only [hn, if_false, decide_false, Bool.and_false] using hq hn

theorem updatePartA_performs {input n output : W64} (hfi : fits p input.toNat n.toNat)
    (hfo : fits p output.toNat n.toNat) (hx : x.Streams p header) :
    (updatePartA s input n output).Performs p s
      ((if n.toNat - n.toNat % 16 = 0 then [] else passCodes header 0x18) ++
        if n.toNat % 16 = 0 then []
        else passCodes (header && decide (n.toNat - n.toNat % 16 = 0)) 0x18) x
      fun _ y => y.Streams p (header && decide (n.toNat = 0)) := by
  refine .setCtx_seq ?_
  have hend : (header && decide (n.toNat = 0)) = ((header && decide
      (n.toNat - n.toNat % 16 = 0)) && decide (n.toNat % 16 = 0)) := by
    rw [Bool.and_assoc, ← Bool.decide_and]
    congr 2
    exact propext (by omega)
  rw [hend]
  refine .bind (.skip hx fun h0 => ?_) fun _ y hy => .skip hy fun h0 => ?_
  · have hi := hfi.resolve_left (by omega)
    have ho := hfo.resolve_left (by omega)
    exact updateAlignedA_performs h0 (by omega) (.inr (by omega)) (.inr (by omega)) hx
  · have hi := hfi.resolve_left (by omega)
    have ho := hfo.resolve_left (by omega)
    exact updateRemainderA_performs (by omega) (.inr (by omega)) (.inr (by omega)) hy

theorem updateCodes_a (h : p.strategy = .a) (header : Bool) (off n : Nat) :
    updateCodes p header off n = (if n - n % 16 = 0 then [] else passCodes header 0x18) ++
      if n % 16 = 0 then [] else passCodes (header && decide (n - n % 16 = 0)) 0x18 := by
  unfold updateCodes passCodes
  rw [h]
  simp only [show n - n % 16 = 0 ↔ ¬ 16 ≤ n by omega]
  by_cases h16 : 16 ≤ n <;> by_cases hr : n % 16 = 0 <;> simp [h16, hr, List.range_succ]

theorem finishTagA_performs (hx : x.Streams p header) :
    (finishTagA s).Performs p s (passCodes header 0x19) x fun t _ => t.length = 16 :=
  .getCtx_seq <| hwPass_performs (c := .gcmTag (8 * x.addLen) (8 * x.len)) rfl (fun _ => rfl) hx
    fun _ _ => length_bytesOfBlock _

/-! ### Under both strategies -/

/-- The codes of `SETKEY`, which opens its section without a saved image (R63, R74). -/
def setkeyCodes (p : Params) : List (BitVec 8) :=
  match p.strategy with
  | .a => [0x10, 0x14]
  | .b => [0x10, 0x11, 0x14]

theorem setkeyPart_performs {o : SetkeyOperands}
    (hk : o.keyBits = 0 ∨ o.keyBits = 128 ∨ o.keyBits = 192 ∨ o.keyBits = 256)
    (hf : fits p o.key.toNat (o.keyBits.toNat / 8)) :
    (setkeyPart p s o).Performs p s (setkeyCodes p) x fun _ _ => True := by
  unfold setkeyPart setkeyCodes
  cases p.strategy with
  | a => exact setkeyPartA_performs hk hf
  | b => exact setkeyPartB_performs hk hf

theorem startsPart_performs {dir : Direction} {iv : W64} (hf : fits p iv.toNat 12)
    (hx : x.Bound p) :
    (startsPart p s dir iv).Performs p s (startsCodes p) x fun _ y => y.Ready p false 0 := by
  unfold startsPart startsCodes
  cases hs : p.strategy with
  | a =>
    simp only [Ctx.ready_a hs]
    exact startsPartA_performs hf hx.valid (hx.gcmReady hs)
  | b =>
    simp only [Ctx.ready_b hs]
    refine (startsPartB_performs hf (hx.encrypts hs)).mono fun _ y ⟨hy, hl⟩ => ⟨hy, ?_⟩
    rw [hl]
    cases p.policy <;> rfl

theorem updateAdPart_performs {aad n : W64} (hf : fits p aad.toNat n.toNat)
    (hx : x.Ready p false off) :
    (updateAdPart p s aad n).Performs p s [] x fun _ y =>
      y.Ready p (decide (n.toNat ≠ 0)) off := by
  unfold updateAdPart
  cases hs : p.strategy with
  | a =>
    rw [Ctx.ready_a hs] at hx
    simp only [Ctx.ready_a hs]
    exact updateAdPartA_performs hf hx
  | b =>
    rw [Ctx.ready_b hs] at hx
    simp only [Ctx.ready_b hs]
    exact .of_put _ (fun _ _ _ _ _ hl hp => updateAdPartB_put p.policy aad n hl (hp ▸ hf))
      fun _ => hx

theorem updatePart_performs {input n output : W64} (hfi : fits p input.toNat n.toNat)
    (hfo : fits p output.toNat n.toNat) (hx : x.Ready p header off) :
    (updatePart p s input n output).Performs p s (updateCodes p header off n.toNat) x
      fun _ y => ∃ off', y.Ready p (header && decide (n.toNat = 0)) off' := by
  unfold updatePart
  cases hs : p.strategy with
  | a =>
    rw [Ctx.ready_a hs] at hx
    simp only [Ctx.ready_a hs, exists_const, updateCodes_a hs]
    exact updatePartA_performs hfi hfo hx
  | b =>
    obtain ⟨he, rfl⟩ := (Ctx.ready_b hs).1 hx
    simp only [Ctx.ready_b hs, updateCodes, hs, ← length_pieces_eq]
    exact (updatePartB_performs hfi hfo he).mono fun _ y hy => ⟨_, hy, rfl⟩

theorem finishTag_performs (hx : x.Ready p header off) :
    (finishTag p s).Performs p s (finishCodes p header) x fun t _ => t.length = 16 := by
  unfold finishTag finishCodes
  cases hs : p.strategy with
  | a => exact finishTagA_performs ((Ctx.ready_a hs).1 hx)
  | b => exact finishTagB_performs

end

end Sys2Proof.Machine
end

section
/-! The port operations of the commands, and a hardware failure (60_exceptions.md R96, R98). -/

namespace Sys2Proof.Machine

section
variable {p : Params} {s : Nat} {x : Ctx} {header : Bool} {off : Nat} {e : Engine}

/-- The payload and the tag of a message (R91, R92). -/
theorem payloadTag_performs {input n output : W64} (hfi : fits p input.toNat n.toNat)
    (hfo : fits p output.toNat n.toNat) (hx : x.Ready p header off) :
    ((updatePart p s input n output).bind fun _ => finishTag p s).Performs p s
      (updateCodes p header off n.toNat ++ finishCodes p (header && decide (n.toNat = 0))) x
      fun t _ => t.length = 16 :=
  (updatePart_performs hfi hfo hx).bind fun _ _ ⟨_, hy⟩ => finishTag_performs hy

/-- A composite begins with `STARTS` and `UPDATE_AD` and goes on from a context in a message. -/
theorem composite_failsAt {α : Type} {dir : Direction} {iv aad n : W64} {codes : List (BitVec 8)}
    {f : Unit → Program α} (hfi : fits p iv.toNat 12) (hfa : fits p aad.toNat n.toNat)
    (hx : x.Bound p) (he : e.At p s x)
    (hf : ∀ y, y.Ready p (decide (n.toNat ≠ 0)) 0 → ∀ e1 : Engine, e1.At p s y →
      (f ()).FailsAt codes e1) :
    ((startsPart p s dir iv).bind fun _ => (updateAdPart p s aad n).bind f).FailsAt
      (startsCodes p ++ codes) e :=
  (startsPart_performs hfi hx).failsAt_bind (fun _ _ hy _ he1 =>
    (updateAdPart_performs hfa hy).failsAt_bind (codes' := codes)
      (fun _ y hy e2 he2 => hf y hy e2 he2) he1) he

theorem compositeCodes_eq (p : Params) (a n : Nat) :
    compositeCodes p a n = startsCodes p ++ (updateCodes p (decide (a ≠ 0)) 0 n ++
      finishCodes p (decide (a ≠ 0) && decide (n = 0))) := by
  rw [compositeCodes, List.append_assoc, Bool.decide_and]

end

/-- The context of the current session between commands. -/
theorem State.Idle.engineAt {st : State} (h : st.Idle) (hf : st.MutexFree) :
    st.eng.At st.eng.params st.cur st.own where
  params := rfl
  lt := by rw [h.shaped.ctxs]; exact h.exists_
  mutex := hf.1
  free := hf.2
  ctx := rfl

/-- A bound context that is in a message of its own (R64, R75). -/
theorem Ctx.Bound.ready {p : Params} {x : Ctx} (hx : x.Bound p)
    (ha : p.strategy = .a → x.image.gActive = true ∧ x.headerOk p) :
    x.Ready p x.hdrPending (openOffset p.policy x.len.toNat) := by
  cases hs : p.strategy with
  | a =>
    obtain ⟨hact, hh⟩ := ha hs
    exact (Ctx.ready_a hs).2 ⟨hx.valid, by simp [streaming, hx.gcmReady hs, hact], hh, rfl⟩
  | b => exact (Ctx.ready_b hs).2 ⟨hx.encrypts hs, rfl⟩

/-- A command whose checks pass, with the mutex free and, where it uses one, a key bound, fails at
the first of its port operations that the accelerator does not answer `done`. -/
theorem command_failsAt {i : Instr} {cmd : Command} (hi : commandOf i = some cmd) {st : State}
    (hidle : st.Idle) (hfree : st.MutexFree)
    (hc : cmd.check st.eng.params st.own st.args = none)
    (hb : i ≠ .setkey → st.own.Bound st.eng.params)
    (ha : i = .update ∨ i = .finish → st.eng.params.strategy = .a →
      st.own.image.gActive = true ∧ st.own.headerOk st.eng.params) :
    (cmd.body st.eng.params st.cur st.args).FailsAt (st.portCodes i) st.eng := by
  have he := hidle.engineAt hfree
  cases i <;> simp only [commandOf, Option.some.injEq, reduceCtorEq] at hi <;> subst hi
  case init => exact .nil _ _
  case free => exact .nil _ _
  case updateAd => exact .nil _ _
  case cryptAndTag dir =>
    obtain ⟨-, -, -, -, -, -, -, f1, f2, f3, f4, -⟩ := prevalidate_none hc
    rw [State.portCodes, compositeCodes_eq]
    refine composite_failsAt f1 f2 (hb Instr.noConfusion) he fun y hy e1 he1 => ?_
    exact (updatePart_performs f3 f4 hy).failsAt_bind (fun _ _ ⟨_, hz⟩ e2 he2 =>
      (((finishTag_performs hz).fails e2 he2).bind).bind) he1
  case authDecrypt =>
    obtain ⟨-, -, -, -, -, -, -, f1, f2, f3, f4, -⟩ := prevalidate_none hc
    rw [State.portCodes, compositeCodes_eq]
    refine composite_failsAt f1 f2 (hb Instr.noConfusion) he fun y hy e1 he1 => ?_
    refine (((payloadTag_performs f3 f4 hy).fails e1 he1).onRaise fun e2 hp => ?_).bind
    refine ⟨_, memWrite_eval _ _ e2 ?_, rfl, rfl⟩
    rw [hp, he1.params, List.length_replicate]
    exact f4
  all_goals
    have h := firstCause_eq_none.1 hc
    simp only [List.forall_mem_cons, Bool.not_eq_false', rangeOk_iff, bne_eq_false_iff_eq,
      Bool.and_eq_false_iff] at h
  case setkey =>
    obtain ⟨-, -, -, hk, hf, -⟩ := h
    exact ((setkeyPart_performs (by tauto) hf).fails _ he).bind
  case starts =>
    obtain ⟨-, -, hf, -⟩ := h
    exact ((startsPart_performs hf (hb Instr.noConfusion)).fails _ he).bind
  case update =>
    obtain ⟨-, -, -, -, -, hfi, hfo, -⟩ := h
    have hx := (hb Instr.noConfusion).ready (ha (.inl rfl))
    exact ((updatePart_performs hfi hfo hx).fails _ he).bind
  case finish =>
    have hx := (hb Instr.noConfusion).ready (ha (.inr rfl))
    exact (((finishTag_performs hx).fails _ he).bind).bind

/-- Settles O34: `command_failsAt` says where a command raises and `exec_hardwareFailure_leaves` what
a command leaves that has ended with the class `HardwareFailure`. -/
theorem hardwareFailureEffect : Obligations.HardwareFailureEffect := by
  unfold Obligations.HardwareFailureEffect
  refine ⟨fun i cmd st k c hi hidle hfree hc hb ha hk hj hfail => ?_,
    fun i cmd st t hi hidle h hdone hstatus => ?_⟩
  · obtain ⟨cause, e, he, hs, hans, -⟩ := command_failsAt hi hidle hfree hc hb ha k c hk hj hfail
    have hmbox : st.cur < st.mbox.length := by rw [hidle.shaped.mbox]; exact hidle.exists_
    have hrun : st.cur < st.run.length := by rw [hidle.shaped.run]; exact hidle.exists_
    refine ⟨_, (exec_command hi st).trans (runCommand_raised hidle hc he), ?_, ?_, ?_⟩
    · simp [State.inFlight, hrun]
    · rw [State.raise_status (st := { st with eng := e }) i st.own cause hmbox, hs]
    · rw [← hans, State.raise_eng]
      split <;> rfl
  · obtain ⟨harb, hothers, now, hown⟩ := exec_hardwareFailure_leaves hi hidle h hdone hstatus
    refine ⟨harb, hothers, fun hkey => ?_, fun hkey => ?_⟩
    · rw [hown, hkey]; rfl
    · have hne : (i == .setkey) = false := by simpa using hkey
      rw [hown, hardwareFailureCtx, hne]
      exact ⟨rfl, rfl, rfl, rfl⟩

end Sys2Proof.Machine
end

section
/-! The product in GF(2^128) (41_ghash.md R53). A map of blocks that keeps sums and products by `t`
is determined by what it makes of the element 1 (`FieldLinear.eq_of_one`), and the product is such a
map in each of its factors; commutativity, associativity and the rest follow from that. -/

namespace Sys2Proof.Machine

/-! ### Sums -/

theorem xor_xor_xor_comm {w : Nat} (a b c d : BitVec w) :
    (a ^^^ b) ^^^ (c ^^^ d) = (a ^^^ c) ^^^ (b ^^^ d) := by ac_rfl

theorem ite_xor_bit (a b : Bool) (v : Block) :
    (if (a ^^ b) = true then v else 0) = (if a then v else 0) ^^^ (if b then v else 0) := by
  cases a <;> cases b <;> simp

/-! ### Multiplication by `t` -/

/-- The field element 1: `80 00^15` (R53). -/
def fieldOne : Block := 0x80#128 <<< 120

theorem mulT_eq (v : Block) :
    mulT v = (v >>> 1) ^^^ (if v.getLsbD 0 then 0xE1#128 <<< 120 else 0) := by
  unfold mulT
  split <;> simp

theorem mulT_xor (x y : Block) : mulT (x ^^^ y) = mulT x ^^^ mulT y := by
  simp only [mulT_eq, BitVec.ushiftRight_xor_distrib, BitVec.getLsbD_xor, ite_xor_bit,
    xor_xor_xor_comm (x >>> 1)]

theorem mulT_zero : mulT 0 = 0 := by decide

theorem iterate_mulT_xor (n : Nat) (x y : Block) :
    mulT^[n] (x ^^^ y) = mulT^[n] x ^^^ mulT^[n] y := by
  induction n generalizing x y with
  | zero => rfl
  | succ n ih => simp only [Function.iterate_succ_apply, mulT_xor, ih]

/-- A block is its coefficient of `t^0` and `t` times the block of the others. -/
theorem eq_msb_xor_mulT (x : Block) :
    x = (if x.getLsbD 127 then fieldOne else 0) ^^^ mulT (x <<< 1) := by
  have hlow : (x <<< 1).getLsbD 0 = false := by simp
  rw [mulT_eq, hlow]
  refine BitVec.eq_of_getLsbD_eq fun i hi => ?_
  have hone : fieldOne.getLsbD i = decide (i = 127) := by
    revert i; decide
  by_cases h : i = 127
  · subst h
    cases x.getLsbD 127 <;> simp [hone]
  · have h1 : 1 + i < 128 := by omega
    have hzero : fieldOne.getLsbD i = false := by simpa [h] using hone
    cases x.getLsbD 127 <;> simp [BitVec.getLsbD_xor, hzero, h1, -BitVec.getLsbD_eq_getElem]

/-! ### Maps determined by their value at 1 -/

/-- A map of blocks that keeps sums and products by `t`. -/
structure FieldLinear (f : Block → Block) : Prop where
  map_xor : ∀ x y, f (x ^^^ y) = f x ^^^ f y
  map_mulT : ∀ x, f (mulT x) = mulT (f x)

theorem FieldLinear.map_zero {f : Block → Block} (hf : FieldLinear f) : f 0 = 0 := by
  simpa using hf.map_xor 0 0

theorem FieldLinear.map_iterate_mulT {f : Block → Block} (hf : FieldLinear f) (n : Nat)
    (x : Block) : f (mulT^[n] x) = mulT^[n] (f x) :=
  (show Function.Semiconj f mulT mulT from hf.map_mulT).iterate_right n x

theorem FieldLinear.map_ite {f : Block → Block} (hf : FieldLinear f) (c : Bool) (v : Block) :
    f (if c then v else 0) = if c then f v else 0 := by
  cases c
  · exact hf.map_zero
  · rfl

theorem fieldLinear_id : FieldLinear id := ⟨fun _ _ => rfl, fun _ => rfl⟩

theorem fieldLinear_iterate_mulT (n : Nat) : FieldLinear mulT^[n] :=
  ⟨iterate_mulT_xor n, fun x => (Function.iterate_succ_apply mulT n x).symm.trans
    (Function.iterate_succ_apply' mulT n x)⟩

theorem FieldLinear.comp {f g : Block → Block} (hf : FieldLinear f) (hg : FieldLinear g) :
    FieldLinear fun x => f (g x) :=
  ⟨fun x y => by rw [hg.map_xor, hf.map_xor], fun x => by rw [hg.map_mulT, hf.map_mulT]⟩

theorem FieldLinear.add {f g : Block → Block} (hf : FieldLinear f) (hg : FieldLinear g) :
    FieldLinear fun x => f x ^^^ g x :=
  ⟨fun x y => by rw [hf.map_xor, hg.map_xor, xor_xor_xor_comm], fun x => by
    rw [hf.map_mulT, hg.map_mulT, mulT_xor]⟩

/-- Two such maps that agree at 1 agree on a block with coefficients of `t^0` to `t^(n-1)` only. -/
theorem FieldLinear.eq_of_shiftLeft_eq_zero {f g : Block → Block} (hf : FieldLinear f)
    (hg : FieldLinear g) (h1 : f fieldOne = g fieldOne) {n : Nat} {x : Block} (hx : x <<< n = 0) :
    f x = g x := by
  induction n generalizing x with
  | zero => rw [show x = 0 by simpa using hx, hf.map_zero, hg.map_zero]
  | succ n ih =>
    have hrest : f (x <<< 1) = g (x <<< 1) :=
      ih (by rw [← BitVec.shiftLeft_add, Nat.add_comm, hx])
    rw [eq_msb_xor_mulT x, hf.map_xor, hg.map_xor, hf.map_ite, hg.map_ite, h1, hf.map_mulT,
      hg.map_mulT, hrest]

theorem FieldLinear.eq_of_one {f g : Block → Block} (hf : FieldLinear f) (hg : FieldLinear g)
    (h1 : f fieldOne = g fieldOne) (x : Block) : f x = g x :=
  hf.eq_of_shiftLeft_eq_zero hg h1 (BitVec.shiftLeft_eq_zero (Nat.le_refl 128))

/-! ### The field product -/

/-- The sum of `t^i` times `y` over the first `n` coefficients of `x`: the accumulator of `GF_MULT`
after `n` rounds (R53). -/
def partialProduct (x y : Block) : Nat → Block
  | 0 => 0
  | n + 1 => partialProduct x y n ^^^ (if x.getLsbD (127 - n) then mulT^[n] y else 0)

theorem foldl_gfRound (x y : Block) (n : Nat) :
    (List.range n).foldl (gfRound x) (0, y) = (partialProduct x y n, mulT^[n] y) := by
  induction n with
  | zero => rfl
  | succ n ih =>
    rw [List.range_succ, List.foldl_append, ih]
    simp only [List.foldl_cons, List.foldl_nil, gfRound, partialProduct,
      Function.iterate_succ_apply']
    split <;> simp

theorem gfMult_eq_partialProduct (x y : Block) : gfMult x y = partialProduct x y 128 := by
  rw [gfMult, foldl_gfRound]

theorem partialProduct_xor_left (x y z : Block) (n : Nat) :
    partialProduct (x ^^^ y) z n = partialProduct x z n ^^^ partialProduct y z n := by
  induction n with
  | zero => simp [partialProduct]
  | succ n ih =>
    simp only [partialProduct, ih, BitVec.getLsbD_xor, ite_xor_bit,
      xor_xor_xor_comm (partialProduct x z n)]

theorem fieldLinear_partialProduct (x : Block) (n : Nat) :
    FieldLinear fun y => partialProduct x y n := by
  induction n with
  | zero => exact ⟨fun _ _ => by simp [partialProduct], fun _ => mulT_zero.symm⟩
  | succ n ih =>
    have ht := fieldLinear_iterate_mulT n
    cases hx : x.getLsbD (127 - n) with
    | false => simpa [partialProduct, hx] using ih
    | true =>
      simp only [partialProduct, hx, if_true]
      exact ih.add ht

/-- Shifting `x` moves each coefficient to the next power of `t`. -/
theorem partialProduct_ushiftRight (x y : Block) {n : Nat} (hn : n ≤ 127) :
    partialProduct (x >>> 1) y (n + 1) = partialProduct x (mulT y) n := by
  induction n with
  | zero => simp [partialProduct]
  | succ n ih =>
    have hbit : (x >>> 1).getLsbD (127 - (n + 1)) = x.getLsbD (127 - n) := by
      rw [BitVec.getLsbD_ushiftRight]
      congr 1
      omega
    rw [partialProduct, ih (by omega), hbit, partialProduct, Function.iterate_succ_apply]

theorem gfMult_xor_left (x y z : Block) : gfMult (x ^^^ y) z = gfMult x z ^^^ gfMult y z := by
  simp only [gfMult_eq_partialProduct, partialProduct_xor_left]

theorem fieldLinear_gfMult_right (x : Block) : FieldLinear (gfMult x) := by
  have h := fieldLinear_partialProduct x 128
  simp only [← gfMult_eq_partialProduct] at h
  exact h

theorem gfMult_one_left (y : Block) : gfMult fieldOne y = y :=
  (fieldLinear_gfMult_right fieldOne).eq_of_one fieldLinear_id (by decide +kernel) y

/-- The reduction: `t^128` is `E1 00^15` (R53). -/
theorem gfMult_reduction (y : Block) : gfMult (0xE1#128 <<< 120) y = mulT^[128] y :=
  (fieldLinear_gfMult_right _).eq_of_one (fieldLinear_iterate_mulT 128) (by decide +kernel) y

/-- `x >>> 1` uses the first 127 coefficients of `x`; the last one is reduced, and `t` moves over to
`y`. -/
theorem gfMult_mulT_left (x y : Block) : gfMult (mulT x) y = mulT (gfMult x y) := by
  have hlast : (if x.getLsbD 0 then mulT^[128] y else 0) =
      gfMult (if x.getLsbD 0 then 0xE1#128 <<< 120 else 0) y := by
    split
    · exact (gfMult_reduction y).symm
    · simpa using (gfMult_xor_left 0 0 y).symm
  calc gfMult (mulT x) y
      = partialProduct x (mulT y) 127 ^^^ (if x.getLsbD 0 then mulT^[127] (mulT y) else 0) := by
        rw [mulT_eq, gfMult_xor_left, ← hlast, gfMult_eq_partialProduct (x >>> 1),
          partialProduct_ushiftRight x y (Nat.le_refl 127), Function.iterate_succ_apply mulT 127]
    _ = gfMult x (mulT y) := (gfMult_eq_partialProduct x (mulT y)).symm
    _ = mulT (gfMult x y) := (fieldLinear_gfMult_right x).map_mulT y

theorem fieldLinear_gfMult_left (y : Block) : FieldLinear fun x => gfMult x y :=
  ⟨fun x z => gfMult_xor_left x z y, fun x => gfMult_mulT_left x y⟩

theorem gfMult_one_right (x : Block) : gfMult x fieldOne = x :=
  (fieldLinear_gfMult_left fieldOne).eq_of_one fieldLinear_id (gfMult_one_left fieldOne) x

theorem gfMult_comm (x y : Block) : gfMult x y = gfMult y x :=
  (fieldLinear_gfMult_left y).eq_of_one (fieldLinear_gfMult_right y)
    ((gfMult_one_left y).trans (gfMult_one_right y).symm) x

theorem gfMult_assoc (x y z : Block) : gfMult (gfMult x y) z = gfMult x (gfMult y z) :=
  ((fieldLinear_gfMult_left z).comp (fieldLinear_gfMult_left y)).eq_of_one
    (fieldLinear_gfMult_left (gfMult y z))
    (by rw [gfMult_one_left, gfMult_one_left]) x

/-- Settles O48: the product is additive in each factor, and `FieldLinear.eq_of_one` gives the laws
that are not sums. -/
theorem fieldLaws : Obligations.FieldLaws := by
  have ht : (0x40#128 <<< 120 : Block) = mulT fieldOne := by decide
  refine ⟨gfMult_comm, gfMult_assoc, gfMult_xor_left, fun x => (fieldLinear_gfMult_right x).map_xor,
    gfMult_one_left, fun y => (fieldLinear_gfMult_left y).map_zero, fun y => ?_⟩
  rw [ht, gfMult_mulT_left, gfMult_one_left, mulT]

end Sys2Proof.Machine
end

section
/-! The table engine (41_ghash.md R54 to R58): the table holds the multiples of `H`, `LAST4` reduces
a shift by four bits, and `GHASH_MULT` is Horner's rule with `t^4`, so it is the field product. -/

namespace Sys2Proof.Machine

/-! ### The two halves of a block -/

theorem blockOfHalves_xor (a b c d : W64) :
    blockOfHalves a b ^^^ blockOfHalves c d = blockOfHalves (a ^^^ c) (b ^^^ d) :=
  BitVec.xor_append

theorem blockOfHalves_halves (b : Block) : blockOfHalves (highHalf b) (lowHalf b) = b := by
  refine BitVec.eq_of_getLsbD_eq fun i hi => ?_
  rw [blockOfHalves, BitVec.getLsbD_append]
  split
  · simp_all [lowHalf]
  · have h : i - 64 < 64 := by omega
    simp [highHalf, h, show 64 + (i - 64) = i by omega]

theorem blockOfHalves_ushiftRight (hi lo : W64) {k : Nat} (hk : k ≤ 64) :
    blockOfHalves hi lo >>> k = blockOfHalves (hi >>> k) (hi <<< (64 - k) ||| lo >>> k) := by
  refine BitVec.eq_of_getLsbD_eq fun i _ => ?_
  simp only [blockOfHalves, BitVec.getLsbD_ushiftRight, BitVec.getLsbD_append,
    BitVec.getLsbD_or, BitVec.getLsbD_shiftLeft]
  by_cases h : i < 64
  · by_cases hlo : k + i < 64
    · simp [h, hlo, show i < 64 - k by omega]
    · have hout : lo.getLsbD (k + i) = false := BitVec.getLsbD_of_ge _ _ (by omega)
      simp [h, hlo, hout, show ¬ i < 64 - k by omega, show k + i - 64 = i - (64 - k) by omega]
  · simp [h, show ¬ k + i < 64 by omega, show k + i - 64 = k + (i - 64) by omega]

/-- The block of an entry of the table (R54). -/
def entryBlock (v : W64 × W64) : Block := blockOfHalves v.1 v.2

theorem entryBlock_xorEntry (a b : W64 × W64) :
    entryBlock (xorEntry a b) = entryBlock a ^^^ entryBlock b :=
  (blockOfHalves_xor _ _ _ _).symm

theorem getLsbD_blockOfHalves_of_lt (hi lo : W64) {i : Nat} (h : i < 64) :
    (blockOfHalves hi lo).getLsbD i = lo.getLsbD i := by
  rw [blockOfHalves, BitVec.getLsbD_append, if_pos h]

/-- Halving an entry multiplies its block by `t` (R55). -/
theorem entryBlock_halve (v : W64 × W64) : entryBlock (halve v) = mulT (entryBlock v) := by
  have hbit : v.2 &&& 1 = 1 ↔ v.2.getLsbD 0 = true := by
    rw [show v.2 &&& 1 = _ from BitVec.and_one_eq_setWidth_ofBool_getLsbD]
    cases v.2.getLsbD 0 <;> decide
  have hred : (0xE1#128 <<< 120 : Block) = blockOfHalves 0xE100000000000000 0 := by decide
  simp only [entryBlock, mulT_eq, blockOfHalves_ushiftRight _ _ (show 1 ≤ 64 by omega),
    getLsbD_blockOfHalves_of_lt _ _ (show 0 < 64 by omega), halve, hbit]
  cases v.2.getLsbD 0 <;> simp [hred, blockOfHalves_xor]

/-! ### The table -/

/-- The field element a nibble stands for: bit 3 is the coefficient of `t^0` (R54). -/
def nibbleElement (i : Fin 16) : Block := BitVec.ofNat 128 i <<< 124

theorem nibbleElement_eq (i : Fin 16) :
    nibbleElement i =
      (if i.val.testBit 3 then fieldOne else 0) ^^^
      (if i.val.testBit 2 then mulT fieldOne else 0) ^^^
      (if i.val.testBit 1 then mulT (mulT fieldOne) else 0) ^^^
      (if i.val.testBit 0 then mulT (mulT (mulT fieldOne)) else 0) := by
  revert i
  decide

theorem gfMult_nibbleElement (i : Fin 16) (h : Block) :
    gfMult (nibbleElement i) h =
      (if i.val.testBit 3 then h else 0) ^^^
      (if i.val.testBit 2 then mulT h else 0) ^^^
      (if i.val.testBit 1 then mulT (mulT h) else 0) ^^^
      (if i.val.testBit 0 then mulT (mulT (mulT h)) else 0) := by
  have hl := fieldLinear_gfMult_left h
  simp only [nibbleElement_eq, hl.map_xor, hl.map_ite, hl.map_mulT, gfMult_one_left]

/-- The entries the halvings and the sums of R55 fill, from entry 8. -/
theorem entryBlock_tableEntries (t8 : W64 × W64) (i : Fin 16) :
    entryBlock (tableEntries t8)[i] =
      (if i.val.testBit 3 then entryBlock t8 else 0) ^^^
      (if i.val.testBit 2 then mulT (entryBlock t8) else 0) ^^^
      (if i.val.testBit 1 then mulT (mulT (entryBlock t8)) else 0) ^^^
      (if i.val.testBit 0 then mulT (mulT (mulT (entryBlock t8))) else 0) := by
  have hzero : entryBlock (0#64, 0#64) = 0#128 := by decide
  fin_cases i <;>
    simp [tableEntries, entryBlock_xorEntry, entryBlock_halve, hzero, Nat.testBit, BitVec.xor_assoc]

/-- Entry `i` of the table of `h` is the element `i` times `h` (R54). -/
theorem ghashBuild_entry (h : Block) (i : Fin 16) :
    blockOfHalves (ghashBuild h).hh[i] (ghashBuild h).hl[i] = gfMult (nibbleElement i) h := by
  have he := entryBlock_tableEntries (highHalf h, lowHalf h) i
  rw [show entryBlock (highHalf h, lowHalf h) = h from blockOfHalves_halves h,
    ← gfMult_nibbleElement] at he
  simpa [ghashBuild, entryBlock] using he

theorem exec_ghashBuild (st : State) : exec .ghashBuild st =
    bareOp 0x30 (fun e => .next (e.record st.cur 0x30) (.table (ghashBuild st.opnd.block))) st :=
  rfl

/-- Settles O46: the table is built by halving from entry 8 and by sums (`ghashBuild_entry`). -/
theorem ghashBuildTable : Obligations.GhashBuildTable := fun st hs =>
  ⟨ghashBuild st.opnd.block, (exec_ghashBuild st).trans (bareOp_next hs rfl),
    ghashBuild_entry st.opnd.block⟩

/-! ### `LAST4` and the shift by four bits -/

/-- Settles O49: the formula gives the constant at each of the sixteen indices. -/
theorem last4Entries : Obligations.Last4Entries := ⟨by decide, rfl⟩

/-- Nothing is reduced when the bits shifted out are zero. -/
theorem iterate_mulT_of_low_zero {n : Nat} {v : Block} (hv : ∀ i < n, v.getLsbD i = false) :
    mulT^[n] v = v >>> n := by
  induction n generalizing v with
  | zero => simp
  | succ n ih =>
    have hstep : mulT v = v >>> 1 := by rw [mulT, hv 0 (by omega)]; rfl
    have hrest : ∀ i < n, (v >>> 1).getLsbD i = false := fun i hi => by
      rw [BitVec.getLsbD_ushiftRight]
      exact hv _ (by omega)
    rw [Function.iterate_succ_apply, hstep, ih hrest, ← BitVec.shiftRight_add, Nat.add_comm]

/-- `LAST4[r]` is the nibble `r` times `t^4` when it is the last of a block (R56). -/
theorem iterate_mulT_nibble (r : BitVec 4) :
    mulT^[4] (r.setWidth 128) = blockOfHalves ((last4[r.toFin]).setWidth 64 <<< 48) 0#64 := by
  revert r
  decide

/-- The shift by four bits with its correction multiplies by `t^4` (R56, R57). -/
theorem iterate_mulT_four {z : Block} {r : BitVec 4} (hr : z.extractLsb' 0 4 = r) :
    mulT^[4] z = z >>> 4 ^^^ blockOfHalves ((last4[r.toFin]).setWidth 64 <<< 48) 0#64 := by
  obtain ⟨low, hlow⟩ : ∃ low : Block, low = r.setWidth 128 := ⟨_, rfl⟩
  have hzero : ∀ i < 4, (z ^^^ low).getLsbD i = false := fun i hi => by
    simp [hlow, ← hr, hi, show i < 128 by omega]
  have hout : low >>> 4 = 0#128 := by
    refine BitVec.eq_of_getLsbD_eq fun i _ => ?_
    simp [hlow]
  calc mulT^[4] z
      = mulT^[4] (z ^^^ low) ^^^ mulT^[4] low := by
        rw [← iterate_mulT_xor, BitVec.xor_assoc, BitVec.xor_self, BitVec.xor_zero]
    _ = _ := by
        rw [iterate_mulT_of_low_zero hzero, BitVec.ushiftRight_xor_distrib, hout,
          BitVec.xor_zero, hlow, iterate_mulT_nibble]

/-! ### `GHASH_MULT` -/

/-- A round of `GHASH_MULT` multiplies by `t^4` and adds the entry of the next nibble (R57). -/
theorem entryBlock_multRound (t : Table) (x : Block) (z : W64 × W64) (m : Nat) :
    entryBlock (multRound t x z m) =
      mulT^[4] (entryBlock z) ^^^ blockOfHalves t.hh[nibble x m] t.hl[nibble x m] := by
  have hrem : (entryBlock z).extractLsb' 0 4 = z.2.extractLsb' 0 4 := by
    refine BitVec.eq_of_getLsbD_eq fun i hi => ?_
    simp only [BitVec.getLsbD_extractLsb', entryBlock,
      getLsbD_blockOfHalves_of_lt _ _ (show 0 + i < 64 by omega)]
  rw [iterate_mulT_four hrem, entryBlock, entryBlock,
    blockOfHalves_ushiftRight z.1 z.2 (show 4 ≤ 64 by omega), blockOfHalves_xor, blockOfHalves_xor,
    BitVec.xor_zero]
  rfl

theorem getLsbD_nibbleElement (x : Block) (m : Nat) {i : Nat} (hi : i < 128) :
    (nibbleElement (nibble x m)).getLsbD i =
      (!decide (i < 124) && x.getLsbD (4 * m + (i - 124))) := by
  have hel : nibbleElement (nibble x m) = (x.extractLsb' (4 * m) 4).setWidth 128 <<< 124 := by
    rw [nibbleElement, nibble, BitVec.val_toFin, BitVec.ofNat_toNat]
  rw [hel, BitVec.getLsbD_shiftLeft, BitVec.getLsbD_setWidth, BitVec.getLsbD_extractLsb']
  simp [hi, show i - 124 < 128 by omega, show i - 124 < 4 by omega]

/-- The nibbles of `x` up to nibble `m + 1`, moved to the top of the block, from those up to nibble
`m` (R57). -/
theorem shiftLeft_eq_mulT_xor_nibble (x : Block) {m : Nat} (hm : m < 31) :
    x <<< (124 - 4 * (m + 1)) =
      mulT^[4] (x <<< (124 - 4 * m)) ^^^ nibbleElement (nibble x (m + 1)) := by
  rw [iterate_mulT_of_low_zero fun i hi => by
    simp [show i < 124 - 4 * m by omega]]
  refine BitVec.eq_of_getLsbD_eq fun i hi => ?_
  simp only [BitVec.getLsbD_xor, BitVec.getLsbD_ushiftRight, BitVec.getLsbD_shiftLeft,
    getLsbD_nibbleElement x _ hi]
  by_cases h : i < 124
  · simp [h, hi, show 4 + i < 128 by omega,
      show 4 + i - (124 - 4 * m) = i - (124 - 4 * (m + 1)) by omega,
      show 4 + i < 124 - 4 * m ↔ i < 124 - 4 * (m + 1) by omega]
  · simp [h, hi, show ¬ 4 + i < 128 by omega, show ¬ i < 124 - 4 * (m + 1) by omega,
      show i - (124 - 4 * (m + 1)) = 4 * (m + 1) + (i - 124) by omega]

/-- Horner's rule: after nibble `m` the accumulator is the product of the nibbles of `x` so far. -/
theorem foldl_multRound (h x : Block) {m : Nat} (hm : m ≤ 31) :
    entryBlock ((List.range' 1 m).foldl (multRound (ghashBuild h) x)
      ((ghashBuild h).hh[nibble x 0], (ghashBuild h).hl[nibble x 0])) =
    gfMult (x <<< (124 - 4 * m)) h := by
  induction m with
  | zero =>
    have hfirst : x <<< 124 = nibbleElement (nibble x 0) := by
      refine BitVec.eq_of_getLsbD_eq fun i hi => ?_
      rw [getLsbD_nibbleElement x 0 hi, BitVec.getLsbD_shiftLeft]
      simp only [hi, decide_true, Bool.true_and, Nat.mul_zero, Nat.zero_add]
    rw [Nat.mul_zero, Nat.sub_zero, hfirst]
    exact ghashBuild_entry h _
  | succ m ih =>
    have hl := fieldLinear_gfMult_left h
    rw [List.range'_1_concat, List.foldl_append, List.foldl_cons, List.foldl_nil, Nat.add_comm 1 m]
    calc entryBlock (multRound _ _ _ (m + 1))
        = mulT^[4] (gfMult (x <<< (124 - 4 * m)) h) ^^^
            gfMult (nibbleElement (nibble x (m + 1))) h := by
          rw [entryBlock_multRound, ih (by omega), ghashBuild_entry]
      _ = gfMult (mulT^[4] (x <<< (124 - 4 * m)) ^^^ nibbleElement (nibble x (m + 1))) h := by
          rw [hl.map_xor, hl.map_iterate_mulT]
      _ = gfMult (x <<< (124 - 4 * (m + 1))) h := by
          rw [← shiftLeft_eq_mulT_xor_nibble x (by omega)]

/-- The correctness requirement of the table engine (R58). -/
theorem ghashMult_ghashBuild (h x : Block) : ghashMult (ghashBuild h) x = gfMult x h := by
  have hx : x <<< (124 - 4 * 31) = x := BitVec.shiftLeft_zero x
  exact (foldl_multRound h x (Nat.le_refl 31)).trans (by rw [hx])

theorem exec_ghashMult (st : State) : exec .ghashMult st =
    bareOp 0x31 (fun e => .next (e.record st.cur 0x31)
      (.bytes (bytesOfBlock (ghashMult st.opnd.table st.opnd.block)))) st :=
  rfl

/-- Settles O47: Horner's rule over the nibbles (`foldl_multRound`). -/
theorem ghashMultIsProduct : Obligations.GhashMultIsProduct := fun st hs =>
  ⟨ghashMult st.opnd.table st.opnd.block, (exec_ghashMult st).trans (bareOp_next hs rfl),
    fun h ht => by rw [ht, ghashMult_ghashBuild]⟩

end Sys2Proof.Machine
end

section
/-! The commands of a session under strategy B, run to their end (42_session_mode_b.md R61 to R70),
from what their parts compute (Sys2Proof/Laws/ModeB.lean); and the two micro-operations on counter
and accumulator (R66, R67). -/

namespace Sys2Proof.Machine

/-! ### When the checks pass -/

theorem State.Idle.lt_ctxs {st : State} (h : st.Idle) : st.cur < st.eng.ctxs.length := by
  rw [h.shaped.ctxs]; exact h.exists_

/-- A list of checks of which none fails, check by check. -/
theorem firstCause_cons_eq_none {b : Bool} {c : Cause} {l : List (Bool × Cause)} (hb : b = false)
    (hl : firstCause l = none) : firstCause ((b, c) :: l) = none := by
  rw [firstCause, hb, hl]; rfl

theorem not_rangeOk_eq_false {p : Params} {a : W64} {n : Nat} (h : fits p a.toNat n) :
    (!rangeOk p a n) = false := by
  rw [(rangeOk_iff p a n).2 h]; rfl

theorem overlaps_eq_false {input output n : W64}
    (h : ¬ (input.toNat < output.toNat ∧ output.toNat - input.toNat < n.toNat)) :
    overlaps input output n = false :=
  Bool.eq_false_iff.2 (mt (overlaps_iff _ _ _).1 h)

section
variable {p : Params} {x : Ctx} {a : Args}

theorem checkSetkey_eq_none_of_b (hst : p.strategy = .b) (hph : x.phase ≠ .uninit)
    (hid : a[0] = 1)
    (hbits : a[2] = 128 ∨ a[2] = 192 ∨ a[2] = 256 ∨ a[2] = 0 ∧ p.hasHwKey = true)
    (hf : fits p a[1].toNat (a[2].toNat / 8)) : checkSetkey p x a = none := by
  refine firstCause_cons_eq_none (by simp [acceptsPhase, hph])
    (firstCause_cons_eq_none (by simp [setkeyOperands, hid]) (firstCause_cons_eq_none ?_
      (firstCause_cons_eq_none ?_ (firstCause_cons_eq_none (not_rangeOk_eq_false hf) rfl))))
  · rcases hbits with h | h | h | ⟨h, hw⟩
    case inr.inr.inr => simp [setkeyOperands, hwKeyUnsupported, hst, hw]
    all_goals simp [setkeyOperands, hwKeyUnsupported, h]
  · rcases hbits with h | h | h | ⟨h, -⟩ <;> simp [setkeyOperands, h]

theorem checkStarts_eq_none (hu : x.phase ≠ .uninit) (hk : x.phase ≠ .unkeyed) (hl : a[1] = 12)
    (hf : fits p a[0].toNat 12) : checkStarts p x a = none :=
  firstCause_cons_eq_none (by simp [acceptsPhase, hu, hk])
    (firstCause_cons_eq_none (by simp [startsOperands, hl])
      (firstCause_cons_eq_none (not_rangeOk_eq_false hf) rfl))

theorem checkUpdateAd_eq_none_of_b (hst : p.strategy = .b)
    (hph : x.phase = .started ∨ x.phase = .absorbingAAD)
    (hb : x.addLen.toNat + a[1].toNat < 2 ^ 61) (hf : fits p a[0].toNat a[1].toNat) :
    checkUpdateAd p x a = none :=
  firstCause_cons_eq_none (by simpa [acceptsPhase, or_iff_not_imp_left] using hph)
    (firstCause_cons_eq_none (decide_eq_false (not_le.2 hb))
      (firstCause_cons_eq_none (by simp [hst])
        (firstCause_cons_eq_none (not_rangeOk_eq_false hf) rfl)))

theorem checkUpdate_eq_none_of_b (hst : p.strategy = .b)
    (hph : x.phase = .started ∨ x.phase = .absorbingAAD ∨ x.phase = .absorbingPayload)
    (hal : ¬ (a[0].toNat < a[2].toNat ∧ a[2].toNat - a[0].toNat < a[1].toNat))
    (hb : x.len.toNat + a[1].toNat ≤ 2 ^ 36 - 32) (hcap : a[1].toNat ≤ a[3].toNat)
    (hfi : fits p a[0].toNat a[1].toNat) (hfo : fits p a[2].toNat a[1].toNat) :
    checkUpdate p x a = none :=
  firstCause_cons_eq_none (by simpa [acceptsPhase, or_iff_not_imp_left] using hph)
    (firstCause_cons_eq_none (overlaps_eq_false hal)
      (firstCause_cons_eq_none (decide_eq_false (not_lt.2 hb))
        (firstCause_cons_eq_none (decide_eq_false (not_lt.2 hcap))
          (firstCause_cons_eq_none (by simp [hst])
            (firstCause_cons_eq_none (not_rangeOk_eq_false hfi)
              (firstCause_cons_eq_none (not_rangeOk_eq_false hfo) rfl))))))

theorem checkFinish_eq_none_of_b (hst : p.strategy = .b)
    (hph : x.phase = .started ∨ x.phase = .absorbingAAD ∨ x.phase = .absorbingPayload)
    (h4 : 4 ≤ a[3].toNat) (h16 : a[3].toNat ≤ 16) (hf : fits p a[2].toNat a[3].toNat) :
    checkFinish p x a = none :=
  firstCause_cons_eq_none (by simpa [acceptsPhase, or_iff_not_imp_left] using hph)
    (firstCause_cons_eq_none (by simp [finishOperands, tagLenOk, hst, h4, h16])
      (firstCause_cons_eq_none (not_rangeOk_eq_false hf) rfl))

end

/-! ### `INIT` and `FREE` -/

/-- `INIT`'s step where the mutex exists as R15 says (R61, R88). -/
theorem initOp_of_mutex {s : Nat} {e : Engine}
    (hm : e.arb.mutexExists = decide (0 < e.arb.refcount)) :
    initOp s e = .next { e with
      ctxs := e.ctxs.set s (clearedCtx .unkeyed)
      arb :=
        { refcount := e.arb.refcount + 1
          mutexExists := true
          holder := if e.arb.refcount = 0 then none else e.arb.holder }
      history := (if e.arb.refcount = 0 then [⟨s, 0x20⟩] else []) ++ e.history } .unit := by
  by_cases h0 : e.arb.refcount = 0
  · have hfalse : e.arb.mutexExists = false := by rw [hm, h0]; rfl
    simp [initOp, mutexCreateOp, h0, hfalse, Engine.setCtx, Engine.record]
  · have htrue : e.arb.mutexExists = true := by rw [hm, decide_eq_true (Nat.pos_of_ne_zero h0)]
    simp [initOp, h0, ← htrue, Engine.setCtx]

/-- Settles O12: `INIT` is one atomic step, after the check of the phase. -/
theorem initCompletes : Obligations.InitCompletes := by
  refine fun st hidle => ⟨fun hph hm => ?_, fun hph => ?_⟩
  · have hcheck : initCommand.check st.eng.params st.own st.args = none :=
      firstCause_eq_none.2 (by simp [acceptsPhase, hph])
    exact (exec_command (cmd := initCommand) rfl st).trans
      (runCommand_done hidle hcheck
        (Program.eval_bind_done (do_eval (initOp_of_mutex hm)) rfl))
  · have hcheck : initCommand.check st.eng.params st.own st.args = some .sequence := by
      simp [initCommand, checkInit, firstCause, acceptsPhase, hph]
    exact (exec_command (cmd := initCommand) rfl st).trans
      (runCommand_rejected hidle hcheck (by decide))

/-- `FREE`'s last step on a context in use: the mutex is needed only to be destroyed (R62, R83). -/
theorem freeOp_inUse {s : Nat} {e : Engine} (hph : (e.ctx s).phase ≠ .uninit)
    (hm : e.arb.refcount ≤ 1 → e.arb.mutexExists = true ∧ e.arb.holder = none) :
    ∃ h, freeOp s e = .next { e with
      ctxs := e.ctxs.set s Ctx.zero
      arb :=
        { refcount := e.arb.refcount - 1
          mutexExists := e.arb.mutexExists && decide (1 < e.arb.refcount)
          holder := e.arb.holder }
      history := h ++ e.history } .unit := by
  by_cases h1 : e.arb.refcount ≤ 1
  · obtain ⟨hex, hfree⟩ := hm h1
    have h0 : e.arb.refcount - 1 = 0 := by omega
    refine ⟨[⟨s, 0x21⟩], ?_⟩
    simp [freeOp, hph, h0, mutexDestroyOp, hex, hfree, Engine.record, not_lt.2 h1, Engine.setCtx,
      clearedCtx, Ctx.zero]
  · have h0 : e.arb.refcount - 1 ≠ 0 := by omega
    refine ⟨[], ?_⟩
    simp [freeOp, hph, h0, not_le.1 h1, Engine.setCtx, clearedCtx, Ctx.zero]

/-- The steps of `FREE` on a context in use (R62): `ACQUIRE`, `DEINITIALIZE`, `RELEASE` where the
session has an image, then the last step. -/
theorem freeBody_inUse {s : Nat} {e : Engine} (hph : (e.ctx s).phase ≠ .uninit)
    (hi : (e.ctx s).imageValid = true → e.arb.mutexExists = true ∧ e.arb.holder = none)
    (hm : e.arb.refcount ≤ 1 → e.arb.mutexExists = true ∧ e.arb.holder = none) :
    ∃ h, (freeBody s).eval [] e = .done () { e with
      ctxs := e.ctxs.set s Ctx.zero
      arb :=
        { refcount := e.arb.refcount - 1
          mutexExists := e.arb.mutexExists && decide (1 < e.arb.refcount)
          holder := e.arb.holder }
      live := if (e.ctx s).imageValid then Image.blank else e.live
      history := h ++ e.history } := by
  unfold freeBody
  by_cases hv : (e.ctx s).imageValid = true
  · obtain ⟨hex, hfree⟩ := hi hv
    obtain ⟨h, hlast⟩ := freeOp_inUse (s := s) (e := { e with
      live := Image.blank, history := ⟨s, 0x23⟩ :: ⟨s, 0x13⟩ :: ⟨s, 0x22⟩ :: e.history }) hph hm
    have hblank : deinitializeOp s { e.record s 0x22 with arb := { e.arb with holder := some s } } =
        .next { e with
          arb := { e.arb with holder := some s }
          live := Image.blank
          history := ⟨s, 0x13⟩ :: ⟨s, 0x22⟩ :: e.history } .unit := by
      simp [deinitializeOp, Engine.record]
    have hrelease : releaseOp s { e with
          arb := { e.arb with holder := some s }
          live := Image.blank
          history := ⟨s, 0x13⟩ :: ⟨s, 0x22⟩ :: e.history } =
        .next { e with
          live := Image.blank
          history := ⟨s, 0x23⟩ :: ⟨s, 0x13⟩ :: ⟨s, 0x22⟩ :: e.history } .unit := by
      rw [releaseOp_held rfl, ← hfree]; rfl
    refine ⟨h ++ [⟨s, 0x23⟩, ⟨s, 0x13⟩, ⟨s, 0x22⟩], Program.eval_bind_done (getCtx_eval s e) ?_⟩
    rw [if_neg hph, if_pos hv]
    refine Program.eval_step_done (acquireOp_free hex hfree) (Program.eval_step_done hblank
      (Program.eval_step_done hrelease ((do_eval hlast).trans ?_)))
    simp [hv]
  · obtain ⟨h, hlast⟩ := freeOp_inUse hph hm
    refine ⟨h, Program.eval_bind_done (getCtx_eval s e) ?_⟩
    rw [if_neg hph, if_neg hv, if_neg hv]
    exact do_eval hlast

/-- Settles O13, by whether the context is in use. -/
theorem freeCompletes : Obligations.FreeCompletes := by
  refine fun st hidle => ⟨fun hph => ?_, fun hph hi hm => ?_⟩
  · have hbody : (freeBody st.cur).eval [] st.eng = .done () st.eng :=
      Program.eval_bind_done (getCtx_eval _ _)
        ((congrArg (Program.eval · [] st.eng) (if_pos hph)).trans rfl)
    exact (exec_command (cmd := freeCommand) rfl st).trans
      (runCommand_done hidle rfl (Program.eval_bind_done hbody rfl))
  · obtain ⟨h, hbody⟩ := freeBody_inUse hph hi hm
    exact ⟨h, (exec_command (cmd := freeCommand) rfl st).trans
      (runCommand_done hidle rfl (Program.eval_bind_done hbody rfl))⟩

/-! ### The commands of a message -/

section
variable {p : Params} {s : Nat} (h : p.strategy = .b)
include h

theorem setkeyPart_of_b (o : SetkeyOperands) : setkeyPart p s o = setkeyPartB s o := by
  rw [setkeyPart, h]

theorem startsPart_of_b (dir : Direction) (iv : W64) :
    startsPart p s dir iv = startsPartB s dir iv := by
  rw [startsPart, h]

theorem updateAdPart_of_b (aad n : W64) :
    updateAdPart p s aad n = updateAdPartB p.policy s aad n := by
  rw [updateAdPart, h]

theorem updatePart_of_b (input n output : W64) :
    updatePart p s input n output = updatePartB p.policy s input n output := by
  rw [updatePart, h]

theorem finishTag_of_b : finishTag p s = finishTagB p.policy s := by
  rw [finishTag, h]

end

/-- Settles O14: what the part computes (`setkeyPartB_put`), once the checks pass. -/
theorem setkeyCompletesB : Obligations.SetkeyCompletesB := by
  intro st rest hidle hst hph hid hbits hf hfree ha
  obtain ⟨k, hk⟩ := setkeyPartB_put (x := st.own) (m := st.eng.mem) (l := st.eng.live)
    (h := st.eng.history) (setkeyOperands st.args) hidle.lt_ctxs
    (by rcases hbits with h | h | h | ⟨h, -⟩ <;> simp [setkeyOperands, h]) hf hfree.1 hfree.2 ha
    _ rfl
  rw [← setkeyPart_of_b hst] at hk
  exact ⟨k, _, rfl, exec_done (cmd := setkeyCommand) rfl hidle
    (checkSetkey_eq_none_of_b hst hph hid hbits hf) (Program.eval_bind_done hk rfl)⟩

/-- Settles O16: what the part computes (`startsPartB_put`), once the checks pass. -/
theorem startsCompletesB : Obligations.StartsCompletesB := by
  intro dir st rest hidle hst hu hk hl hf hfree hv hconf hmode ha
  obtain ⟨k, hpart⟩ := startsPartB_put (x := st.own) (m := st.eng.mem) (l := st.eng.live)
    (h := st.eng.history) dir (startsOperands st.args).iv hidle.lt_ctxs hf hfree.1 hfree.2 hv
    (by simp [ecbReady, hconf, hmode]) ha _ rfl
  rw [← startsPart_of_b hst] at hpart
  exact ⟨k, _, rfl, exec_done (cmd := startsCommand dir) rfl hidle
    (checkStarts_eq_none hu hk hl hf) (Program.eval_bind_done hpart rfl)⟩

/-- Settles O18: what the part computes (`updateAdPartB_put`), once the checks pass. -/
theorem updateAdCompletesB : Obligations.UpdateAdCompletesB := by
  intro st hidle hst hph hb hf
  obtain ⟨k, hk⟩ := updateAdPartB_put (x := st.own) (m := st.eng.mem) (l := st.eng.live)
    (a := st.eng.answers) (h := st.eng.history) st.eng.params.policy st.args[0] st.args[1]
    hidle.lt_ctxs hf
  rw [← updateAdPart_of_b hst] at hk
  exact ⟨k, exec_done (cmd := updateAdCommand) rfl hidle
    (checkUpdateAd_eq_none_of_b hst hph hb hf) (Program.eval_bind_done hk rfl)⟩

/-- Settles O20: what the part computes (`updatePartB_put`), once the checks pass. -/
theorem updateCompletesB : Obligations.UpdateCompletesB := by
  intro st rest x o off n hidle hst hph hal hb hcap hfi hfo hfree hv hconf hmode hw hn hoff ha hx ho
  subst hn
  obtain ⟨k, hk⟩ := updatePartB_put (x := st.own) (l := st.eng.live) (h := st.eng.history)
    st.eng.params.policy st.args[0] st.args[1] st.args[2] hidle.lt_ctxs rfl hfi hfo hal hw hfree hv
    (by simp [ecbReady, hconf, hmode]) rest off hoff ha x o hx ho
  rw [← updatePart_of_b hst] at hk
  exact ⟨k, exec_done (cmd := updateCommand) rfl hidle
    (checkUpdate_eq_none_of_b hst hph hal hb hcap hfi hfo) (Program.eval_bind_done hk rfl)⟩

/-- `FINISH` after its tag: the first `tag_len` bytes are written and the context is `Finished` (R69,
R79). -/
theorem finishPart_put {p : Params} {s : Nat} {e e0 : Engine} {c : Ctx} {m : Memory} {l : Image}
    {a : List Answer} {h : List HistoryEntry} {t : List Byte} {tagOut tagLen : W64}
    (hs : s < e.ctxs.length)
    (ht : (finishTag p s).eval [] e0 = .done t (e.put s c m l a h))
    (hlen : tagLen.toNat ≤ t.length) (hf : fits e.params tagOut.toNat tagLen.toNat) :
    (finishPart p s tagOut tagLen).eval [] e0 = .done () (e.put s { c with
      tagLen := tagLen.setWidth 5, phase := .finished }
      (m.writeBytes tagOut.toNat (t.take tagLen.toNat)) l a h) :=
  Program.eval_bind_done ht (Program.eval_bind_done
    (memWrite_put _ _ (by rw [List.length_take, min_eq_left hlen]; exact hf)) (setCtx_put hs _))

/-- Settles O22: the tag (`finishTagB_put`), then its bytes and the phase (`finishPart_put`). -/
theorem finishCompletesB : Obligations.FinishCompletesB := by
  intro st g hidle hst hph h4 h16 hf hg
  obtain ⟨k, hk⟩ := finishTagB_put (x := st.own) (m := st.eng.mem) (l := st.eng.live)
    (a := st.eng.answers) (h := st.eng.history) st.eng.params.policy hidle.lt_ctxs rfl g hg
  rw [← finishTag_of_b hst] at hk
  have hfin := finishPart_put hidle.lt_ctxs hk (h16.trans (length_bytesOfBlock _).ge) hf
  exact ⟨k, exec_done (cmd := finishCommand) rfl hidle
    (checkFinish_eq_none_of_b hst hph h4 h16 hf) (Program.eval_bind_done hfin rfl)⟩

/-! ### `INC32` and `CLOSE_AAD` -/

/-- The last four bytes of a block are its low word, big-endian (R21, R66). -/
theorem lastWord_bytesOfBlock (b : Block) :
    lastWord (bytesOfBlock b) = (b.extractLsb' 0 32).toNat := by
  have hdrop : (bytesOfBlock b).drop 12 =
      [b.extractLsb' 24 8, b.extractLsb' 16 8, b.extractLsb' 8 8, b.extractLsb' 0 8] := rfl
  rw [lastWord, hdrop]
  simp only [List.foldl_cons, List.foldl_nil, BitVec.extractLsb'_toNat, Nat.shiftRight_eq_div_pow]
  omega

/-- The first twelve bytes of a block are those of its upper 96 bits (R21). -/
theorem take_bytesOfBlock_congr {b c : Block} (h : b.extractLsb' 32 96 = c.extractLsb' 32 96) :
    (bytesOfBlock b).take 12 = (bytesOfBlock c).take 12 := by
  have hbyte : ∀ (y : Block) (i : Nat), i < 12 →
      y.extractLsb' (120 - 8 * i) 8 = (y.extractLsb' 32 96).extractLsb' (88 - 8 * i) 8 := by
    intro y i hi
    apply BitVec.eq_of_getLsbD_eq
    intro j hj
    simp [hj, show 88 - 8 * i + j < 96 by omega,
      show 32 + (88 - 8 * i + j) = 120 - 8 * i + j by omega]
  apply List.ext_getElem
  · simp
  · intro i h1 h2
    have hi : i < 12 := by simp at h1; omega
    rw [List.getElem_take, List.getElem_take, getElem_bytesOfBlock, getElem_bytesOfBlock,
      hbyte b i hi, hbyte c i hi, h]

theorem exec_inc32 (st : State) : exec .inc32 st =
    bareOp 0x32 (fun e => .next (e.record st.cur 0x32)
      (.bytes (bytesOfBlock (inc32 st.opnd.block)))) st := rfl

/-- Settles O50: the upper 96 bits stay (`extract_inc32_high`) and the low word grows by 1
(`extract_inc32_low`). -/
theorem inc32Counts : Obligations.Inc32Counts := fun st hs =>
  ⟨bytesOfBlock (inc32 st.opnd.block), (exec_inc32 st).trans (bareOp_next hs rfl),
    length_bytesOfBlock _, take_bytesOfBlock_congr (extract_inc32_high _), by
      rw [lastWord_bytesOfBlock, lastWord_bytesOfBlock, extract_inc32_low, BitVec.toNat_add]
      rfl⟩

theorem exec_closeAad (st : State) : exec .closeAad st = bareOp 0x33 (closeAadOp st.cur) st := rfl

/-- `CLOSE_AAD` as one micro-step: an open block is multiplied under `CARRY` (R67, R70). -/
theorem closeAadOp_next (s : Nat) (e : Engine) : ∃ k, closeAadOp s e = .next { e with
    ctxs := e.ctxs.set s { e.ctx s with
      buf := closePhase e.params.policy (e.ctx s).table (e.ctx s).addLen.toNat (e.ctx s).buf }
    history := k ++ e.history } .unit := by
  by_cases hc : e.params.policy = .carry ∧ (e.ctx s).addLen.toNat % 16 ≠ 0
  · refine ⟨[⟨s, 0x31⟩, ⟨s, 0x33⟩], ?_⟩
    have hb : (e.params.policy == .carry && (e.ctx s).addLen.toNat % 16 != 0) = true := by
      simpa using hc
    rw [closeAadOp, if_pos hb, closePhase, if_pos hc]
    rfl
  · refine ⟨[⟨s, 0x33⟩], ?_⟩
    have hb : ¬ (e.params.policy == .carry && (e.ctx s).addLen.toNat % 16 != 0) = true := by
      simpa using hc
    rw [closeAadOp, if_neg hb, closePhase, if_neg hc]
    exact congrArg (Micro.next · .unit) (Engine.setCtx_ctx (e.record s 0x33) s).symm

/-- Settles O51: `CLOSE_AAD` is one micro-step (`closeAadOp_next`), performed by itself. -/
theorem closeAadMultiplies : Obligations.CloseAadMultiplies := by
  intro st hs _
  obtain ⟨k, hk⟩ := closeAadOp_next st.cur st.eng
  exact ⟨k, (exec_closeAad st).trans (bareOp_next hs hk)⟩

end Sys2Proof.Machine
end

section
/-! The checks of the session commands and the status of the first that fails (60_exceptions.md R94,
R95, R97, R101). -/

namespace Sys2Proof.Machine

/-- A command whose list of checks ends in a status other than `OK` is rejected with it (R97). -/
theorem exec_rejected {i : Instr} {cmd : Command} {st : State} {l : List (Bool × Cause)}
    {status : BitVec 32} (hi : commandOf i = some cmd) (hidle : st.Idle)
    (hl : cmd.check st.eng.params st.own st.args = firstCause l) (hs : checksStatus l = status)
    (hne : status ≠ 0) : exec i st = .next (st.rejected i status) := by
  obtain ⟨c, hc, hw⟩ := exists_of_checksStatus (hs ▸ hne)
  rw [exec_command hi, ← hs, hw]
  exact runCommand_rejected hidle (hl.trans hc) (statusWord_of_check hi (hl.trans hc)).2.2

/-- The check of a tag length reports `TAG_LEN` under strategy B and `TAG_LEN_A` under A (R69, R79). -/
theorem checksStatus_tagLen {p : Params} {n : W64} {l : List (Bool × Cause)} {r : BitVec 32}
    (hr : checksStatus l = r) :
    checksStatus ((!tagLenOk p n, tagLenCause p) :: l) =
      if p.strategy = .b ∧ (n.toNat < 4 ∨ 16 < n.toNat) then 0x051
      else if p.strategy = .a ∧ n ≠ 16 then 0x212 else r := by
  cases hst : p.strategy with
  | a =>
    have h16 : n.toNat = 16 ↔ n = 16 := ⟨fun h => BitVec.eq_of_toNat_eq h, fun h => by rw [h]; rfl⟩
    simp only [reduceCtorEq, false_and, if_false, true_and]
    exact checksStatus_cons (by simp [tagLenOk, hst, h16]) (by rw [tagLenCause, hst]; rfl) hr
  | b =>
    simp only [reduceCtorEq, false_and, if_false, true_and]
    exact checksStatus_cons (by simp [tagLenOk, hst, or_iff_not_imp_left])
      (by rw [tagLenCause, hst]; rfl) hr

/-- The last check, of one buffer's range (R20, R101). -/
theorem checksStatus_range (p : Params) (a : W64) (n : Nat) :
    checksStatus [(!rangeOk p a n, .addrRange)] = if ¬ fits p a.toNat n then 0x0B1 else 0 :=
  checksStatus_cons (not_rangeOk_iff p a n) rfl checksStatus_nil

/-- Settles O30: each check of the list is one condition of the chain (`checksStatus_cons`). -/
theorem setkeyStartsRejections : Obligations.SetkeyStartsRejections := by
  refine ⟨fun st status hidle hs hne => ?_, fun dir st status hidle hs hne => ?_⟩
  · refine exec_rejected (cmd := setkeyCommand) rfl hidle rfl (Eq.trans ?_ hs.symm) hne
    refine checksStatus_cons (by simp [acceptsPhase]) rfl (checksStatus_cons
      (by simp [setkeyOperands]) rfl (checksStatus_cons
        (by simp [setkeyOperands, hwKeyUnsupported]) rfl (checksStatus_cons
          (by simp [setkeyOperands, and_assoc]) rfl (checksStatus_range _ _ _))))
  · refine exec_rejected (cmd := startsCommand dir) rfl hidle rfl (Eq.trans ?_ hs.symm) hne
    refine checksStatus_cons (by simp [acceptsPhase, or_iff_not_imp_left]) rfl (checksStatus_cons
      (by simp [startsOperands]) rfl (checksStatus_range _ _ _))

/-- Settles O31: each check of the list is one condition of the chain, that of the tag length one for
each strategy (`checksStatus_tagLen`). -/
theorem updateAdFinishRejections : Obligations.UpdateAdFinishRejections := by
  refine ⟨fun st status hidle hs hne => ?_, fun st status hidle hs hne => ?_⟩
  · refine exec_rejected (cmd := updateAdCommand) rfl hidle rfl (Eq.trans ?_ hs.symm) hne
    exact checksStatus_cons (by simp [acceptsPhase]) rfl (checksStatus_cons decide_eq_true_iff rfl
      (checksStatus_cons (by simp [updateAdOperands, and_assoc]) rfl (checksStatus_range _ _ _)))
  · refine exec_rejected (cmd := finishCommand) rfl hidle rfl (Eq.trans ?_ hs.symm) hne
    exact checksStatus_cons (by simp [acceptsPhase, and_assoc]) rfl
      (checksStatus_tagLen (checksStatus_range _ _ _))

/-- Settles O32: each check of the list is one condition of the chain; the two ranges share a status
(`ite_ite_same`). -/
theorem updateRejections : Obligations.UpdateRejections := by
  intro st status hidle hs hne
  rw [← ite_ite_same] at hs
  refine exec_rejected (cmd := updateCommand) rfl hidle rfl (Eq.trans ?_ hs.symm) hne
  exact checksStatus_cons (by simp [acceptsPhase, and_assoc]) rfl (checksStatus_cons
    (overlaps_iff _ _ _) rfl (checksStatus_cons decide_eq_true_iff rfl (checksStatus_cons
      decide_eq_true_iff rfl (checksStatus_cons (by simp [updateOperands, and_assoc]) rfl
        (checksStatus_cons (not_rangeOk_iff _ _ _) rfl (checksStatus_range _ _ _))))))

end Sys2Proof.Machine
end

section
/-! The composites compute GCM (42_session_mode_b.md R71; 45_verify_and_composites.md R90 to R92), from
what a whole message computes (`message_put`) and the correctness of the table engine
(`ghashMult_ghashBuild`). -/

namespace Sys2Proof.Machine

/-! ### The checks and the context of a composite -/

theorem prevalidate_eq_none {p : Params} {x : Ctx} {o : CompositeOperands}
    (hu : x.phase ≠ .uninit) (hk : x.phase ≠ .unkeyed) (hl : o.ivLen = 12)
    (hA : o.aadLen.toNat < 2 ^ 61)
    (hal : ¬ (o.input.toNat < o.output.toNat ∧ o.output.toNat - o.input.toNat < o.length.toNat))
    (hP : o.length.toNat ≤ 2 ^ 36 - 32) (ht : tagLenOk p o.tagLen = true)
    (hfv : fits p o.iv.toNat 12) (hfa : fits p o.aad.toNat o.aadLen.toNat)
    (hfi : fits p o.input.toNat o.length.toNat) (hfo : fits p o.output.toNat o.length.toNat)
    (hft : fits p o.tag.toNat o.tagLen.toNat) : prevalidate p x o = none :=
  firstCause_cons_eq_none (by simp [acceptsPhase, hu, hk]) (firstCause_cons_eq_none (by simp [hl])
    (firstCause_cons_eq_none (decide_eq_false (not_le.2 hA))
      (firstCause_cons_eq_none (overlaps_eq_false hal)
        (firstCause_cons_eq_none (decide_eq_false (not_lt.2 hP))
          (firstCause_cons_eq_none (by rw [ht]; rfl)
            (firstCause_cons_eq_none (not_rangeOk_eq_false hfv)
              (firstCause_cons_eq_none (not_rangeOk_eq_false hfa)
                (firstCause_cons_eq_none (not_rangeOk_eq_false hfi)
                  (firstCause_cons_eq_none (not_rangeOk_eq_false hfo)
                    (firstCause_cons_eq_none (not_rangeOk_eq_false hft) rfl))))))))))

theorem messageReady_of_prevalidate {st : State} {o : CompositeOperands}
    (hc : prevalidate st.eng.params st.own o = none) (hfree : st.MutexFree)
    (hb : st.own.Bound st.eng.params) (hw : st.eng.mem.wf = true) :
    MessageReady st.eng st.own st.eng.mem o := by
  obtain ⟨-, -, -, -, hal, -, -, hfv, hfa, hfi, hfo, -⟩ := prevalidate_none hc
  exact ⟨hfree.1, hfree.2, hb, hw, hal, hfv, hfa, hfi, hfo⟩

theorem tagLen_le_of_tagLenOk {p : Params} {n : W64} (h : tagLenOk p n = true) :
    n.toNat ≤ 16 := by
  cases hst : p.strategy <;> simp [tagLenOk, hst] at h <;> omega

/-- A context at the end of its message (R69, R92). -/
def Ctx.close (c : Ctx) (tagLen : W64) : Ctx :=
  { c with tagLen := tagLen.setWidth 5, phase := .finished }

theorem finishClose_put {s : Nat} {e : Engine} {c : Ctx} {m : Memory} {l : Image} {a : List Answer}
    {h : List HistoryEntry} (hs : s < e.ctxs.length) (tagLen : W64) :
    (finishClose s tagLen).eval [] (e.put s c m l a h) =
      .done () (e.put s (c.close tagLen) m l a h) := setCtx_put hs _

theorem Ctx.Bound.close {p : Params} {c : Ctx} (h : c.Bound p) (tagLen : W64) :
    (c.close tagLen).Bound p := ⟨h.valid, h.configured, h.mode, h.table⟩

/-- Settles O24: the message (`message_put`), then the tag's bytes and the phase
(`finishPart_put`). -/
theorem cryptAndTagIsGcm : Obligations.CryptAndTagIsGcm := by
  intro dir st rest key a x o y0 n hidle hu hk hb hl hA hal hP ht hfv hfa hfi hfo hft hfree hw hn
    ha hkey hy0 haad hx ho
  subst hn
  have hcheck : prevalidate st.eng.params st.own (cryptAndTagOperands st.args) = none :=
    prevalidate_eq_none hu hk hl hA hal hP ht hfv hfa hfi hfo hft
  obtain ⟨e1, e2, e3, c, l', k, hrun, hc⟩ := message_put ghashMult_ghashBuild (l := st.eng.live)
    (h := st.eng.history) hidle.lt_ctxs dir (cryptAndTagOperands st.args) rest
    (messageReady_of_prevalidate hcheck hfree hb hw) ha key a x o y0 hkey hy0 haad hx ho
  have hfin := finishPart_put hidle.lt_ctxs hrun.finish
    ((tagLen_le_of_tagLenOk ht).trans (length_bytesOfBlock _).ge) hft
  exact ⟨k, c.close st.args[7], l', exec_done (cmd := cryptAndTagCommand dir) rfl hidle hcheck
    (Program.eval_bind_done hrun.starts (Program.eval_bind_done hrun.updateAd
      (Program.eval_bind_done hrun.update (Program.eval_bind_done hfin rfl)))),
    rfl, hc.direction, hc.len, hc.addLen, rfl, hc.y, hc.bound.close _, hc.key, hc.hdrPending⟩

/-! ### The comparison of tags (R89) -/

/-- No difference bit is set when the bytes compared are equal (R89). -/
theorem tagDiff_eq_zero_iff (a b : List Byte) (n : Nat) :
    tagDiff a b n = 0 ↔ ∀ i < n, a.getD i 0 = b.getD i 0 := by
  induction n with
  | zero => simp [tagDiff]
  | succ n ih =>
    have hsucc : tagDiff a b (n + 1) = tagDiff a b n ||| (a.getD n 0 ^^^ b.getD n 0) := by
      simp [tagDiff, List.range_succ]
    rw [hsucc, Nat.forall_lt_succ_right, ← ih]
    exact BitVec.or_eq_zero_iff.trans (and_congr_right fun _ => BitVec.xor_eq_zero_iff)

/-- `TAG_VERIFY` passes when the first `n` bytes are equal (R89). -/
theorem tagVerify_eq_decide {a b : List Byte} {n : Nat} (ha : n ≤ a.length) (hb : n ≤ b.length) :
    tagVerify a b n = decide (a.take n = b.take n) := by
  rw [tagVerify, Bool.eq_iff_iff, beq_iff_eq, decide_eq_true_iff]
  refine (tagDiff_eq_zero_iff a b n).trans ⟨fun h => ?_, fun h i hi => ?_⟩
  · refine List.ext_getElem (by simp; omega) fun i h1 h2 => ?_
    have hi : i < n := by simp at h1; omega
    have := h i hi
    rwa [List.getD_eq_getElem _ _ (by omega), List.getD_eq_getElem _ _ (by omega),
      ← List.getElem_take (h := h1), ← List.getElem_take (h := h2)] at this
  · have h0 := congrArg (List.getD · i 0) h
    simpa [List.getD_eq_getElem?_getD, List.getElem?_take, hi] using h0

/-! ### `AUTH_DECRYPT` -/

/-- A wrong tag (R93, R99): the status and a free `OUT_LEN`; the engine stays as the command has left
it, up to the counter of free values. -/
theorem State.raise_tagMismatch {st : State} (hidle : st.Idle) (e : Engine) (x : Ctx)
    (hfresh : e.fresh = st.eng.fresh) :
    ({ st with eng := e } : State).raise .authDecrypt x .tagMismatch = { st with
      eng := { e with fresh := st.eng.fresh + 1 }
      mbox := st.mbox.set st.cur { st.mailbox st.cur with
        status := 0x604, outLen := Config.anyWord st.eng.fresh } } := by
  have hrun : st.run.set st.cur none = st.run := State.set_inFlight_none st st.cur hidle.idle
  have hstatus : statusWord .tagMismatch = 0x604 := by decide
  rw [← hfresh, ← hstatus]
  simp [State.raise, causeClass, hasOutLen, State.setMailbox, State.setRun, hrun, State.mailbox]

/-- A program whose first part is done completes or raises as the rest does. -/
theorem Program.eval_bind_done_ite {α β : Type} {p : Program α} {f : α → Program β}
    {e e' e1 e2 : Engine} {a : α} {b : β} {c : Cause} {pass : Bool} (h : p.eval [] e = .done a e')
    (hf : (f a).eval [] e' = if pass then .done b e1 else .raised c e2) :
    (p.bind f).eval [] e = if pass then .done b e1 else .raised c e2 := by
  cases pass with
  | true => exact Program.eval_bind_done h hf
  | false => exact Program.eval_bind_done_raised h hf

/-- The end of `AUTH_DECRYPT` (R92): `OK`, or the output zeroed before the mismatch is raised. -/
theorem verifyEnd_put {s : Nat} {e : Engine} {c : Ctx} {m : Memory} {l : Image} {a : List Answer}
    {h : List HistoryEntry} {O T E : List Byte} {n : Nat} (o : CompositeOperands)
    (hw : m.wf = true) (hf : fits e.params o.output.toNat o.length.toNat)
    (hO : O.length = o.length.toNat) :
    (Program.step (tagVerifyOp s T E n) fun r =>
      if replyVerdict r then Program.ret (some o.length)
      else (zeroOutput o).bind fun _ => .raise .tagMismatch).eval []
        (e.put s c (m.writeBytes o.output.toNat O) l a h) =
      if tagVerify T E n then
        .done (some o.length) (e.put s c (m.writeBytes o.output.toNat O) l a (⟨s, 0x34⟩ :: h))
      else
        .raised .tagMismatch (e.put s c
          (m.writeBytes o.output.toNat (List.replicate o.length.toNat 0)) l a (⟨s, 0x34⟩ :: h)) := by
  by_cases hv : tagVerify T E n = true
  · rw [if_pos hv]
    exact Program.eval_step_done rfl (congrArg (Program.eval · [] _) (if_pos hv))
  · rw [if_neg hv]
    have hzero := memWrite_put (e := e) (s := s) (x := c) (m := m.writeBytes o.output.toNat O)
      (l := l) (a := a) (h := ⟨s, 0x34⟩ :: h) o.output.toNat (List.replicate o.length.toNat 0)
      (by rw [List.length_replicate]; exact hf)
    rw [Memory.writeBytes_writeBytes_self m hw _ _ _ (by rw [hO, List.length_replicate])] at hzero
    exact Program.eval_step_raised rfl ((congrArg (Program.eval · [] _) (if_neg hv)).trans
      (Program.eval_bind_done_raised hzero rfl))

/-- `AUTH_DECRYPT` after a whole message that gives the tag `T` (R92). -/
theorem authDecryptBody_put {p : Params} {s : Nat} {e e0 e1 e2 e3 : Engine} {c : Ctx} {m : Memory}
    {l : Image} {a : List Answer} {h : List HistoryEntry} {O T E : List Byte} {args : Args}
    {o : CompositeOperands} (ho : o = authDecryptOperands args) (hs : s < e.ctxs.length)
    (hrun : MessageRun p s .dec o e0 e1 e2 e3
      (e.put s c (m.writeBytes o.output.toNat O) l a h) T)
    (hw : m.wf = true) (hfo : fits e.params o.output.toNat o.length.toNat)
    (hft : fits e.params o.tag.toNat o.tagLen.toNat) (hO : O.length = o.length.toNat)
    (hE : E = (m.writeBytes o.output.toNat O).readBytes o.tag.toNat o.tagLen.toNat) :
    (authDecryptCommand.body p s args).eval [] e0 =
      if tagVerify T E o.tagLen.toNat then
        .done (some o.length)
          (e.put s (c.close o.tagLen) (m.writeBytes o.output.toNat O) l a (⟨s, 0x34⟩ :: h))
      else
        .raised .tagMismatch (e.put s (c.close o.tagLen)
          (m.writeBytes o.output.toNat (List.replicate o.length.toNat 0)) l a
          (⟨s, 0x34⟩ :: h)) := by
  subst ho hE
  exact Program.eval_bind_done_ite hrun.starts (Program.eval_bind_done_ite hrun.updateAd
    (Program.eval_bind_done_ite
      (Program.eval_onRaise_done (Program.eval_bind_done hrun.update hrun.finish))
      (Program.eval_bind_done_ite (finishClose_put hs _)
        (Program.eval_bind_done_ite (memRead_put _ _ hft) (verifyEnd_put _ hw hfo hO)))))

/-- Settles O25: the message (`message_put`), then the comparison of the tags
(`authDecryptBody_put`, `tagVerify_eq_decide`). -/
theorem authDecryptVerifies : Obligations.AuthDecryptVerifies := by
  intro st rest key a x o tag expected y0 n hidle hu hk hb hl hA hal hP ht hfv hfa hft hfi hfo hfree
    hw hn ha hkey hy0 haad hx ho htag hexp
  subst hn
  have hcheck : prevalidate st.eng.params st.own (authDecryptOperands st.args) = none :=
    prevalidate_eq_none hu hk hl hA hal hP ht hfv hfa hfi hfo hft
  obtain ⟨e1, e2, e3, c, l', k, hrun, hc⟩ := message_put ghashMult_ghashBuild (l := st.eng.live)
    (h := st.eng.history) hidle.lt_ctxs .dec (authDecryptOperands st.args) rest
    (messageReady_of_prevalidate hcheck hfree hb hw) ha key a x o y0 hkey hy0 haad hx ho
  have hverdict : tagVerify (bytesOfBlock (gcmTag key y0 a (ciphertext .dec x o))) expected
      (authDecryptOperands st.args).tagLen.toNat = decide (tag = expected) := by
    change tagVerify (bytesOfBlock (gcmTag key y0 a x)) expected st.args[6].toNat = _
    have hlen : expected.length = st.args[6].toNat := by rw [hexp, Memory.length_readBytes]
    rw [tagVerify_eq_decide ((tagLen_le_of_tagLenOk ht).trans (length_bytesOfBlock _).ge) hlen.ge,
      ← htag, List.take_of_length_le hlen.le]
  have hbody := authDecryptBody_put rfl hidle.lt_ctxs hrun hw hfo hft
    (by rw [ho, length_cryptBytes, hx, Memory.length_readBytes]; rfl) hexp
  rw [hverdict] at hbody
  refine ⟨⟨st.cur, 0x34⟩ :: k, c.close st.args[6], l', _, rfl, rfl, hc.direction, hc.len, hc.addLen,
    rfl, hc.bound.close _, hc.key, ?_⟩
  by_cases hmatch : tag = expected
  · rw [if_pos hmatch]
    rw [decide_eq_true hmatch, if_pos rfl] at hbody
    exact exec_done (cmd := authDecryptCommand) rfl hidle hcheck hbody
  · rw [if_neg hmatch]
    rw [decide_eq_false hmatch, if_neg Bool.false_ne_true, show st.own = st.eng.ctx st.cur from rfl,
      Engine.put_self] at hbody
    exact (exec_command (cmd := authDecryptCommand) rfl st).trans
      ((runCommand_raised hidle hcheck hbody).trans
        (congrArg _ (State.raise_tagMismatch hidle _ _ (Engine.put_fresh ..))))

end Sys2Proof.Machine
end

section
/-! Two commands one after the other, and the round trip (42_session_mode_b.md R71): what
`CRYPT_AND_TAG` encrypts `AUTH_DECRYPT` gives back. -/

namespace Sys2Proof.Machine

/-! ### The next command of a session -/

/-- The engine `e'` that a command of a session has left, with the memory `m` and the answers `a`: the
session can go on with its next command as it could with this one. -/
structure Engine.Next (e e' : Engine) (m : Memory) (a : List Answer) : Prop where
  params : e'.params = e.params
  length : e'.ctxs.length = e.ctxs.length
  arb : e'.arb = e.arb
  mem : e'.mem = m
  answers : e'.answers = a

theorem Engine.put_next (e : Engine) (s : Nat) (x : Ctx) (m : Memory) (l : Image)
    (a : List Answer) (h : List HistoryEntry) : e.Next (e.put s x m l a h) m a :=
  ⟨rfl, Engine.put_length .., rfl, rfl, rfl⟩

/-- The state in which the host has written the argument registers of the next command. -/
def State.withArgs (st : State) (a : Args) : State :=
  st.setMailbox st.cur { st.mailbox st.cur with args := a }

section
variable {st : State} (h : st.Idle)
include h

theorem State.Idle.lt_mbox : st.cur < st.mbox.length := by rw [h.shaped.mbox]; exact h.exists_

theorem State.Idle.withArgs (a : Args) : (st.withArgs a).Idle where
  shaped := ⟨h.shaped.ctxs, (List.length_set ..).trans h.shaped.mbox, h.shaped.run⟩
  exists_ := h.exists_
  idle := h.idle

theorem State.Idle.args_withArgs (a : Args) : (st.withArgs a).args = a :=
  congrArg Mailbox.args (State.mailbox_setMailbox_self st st.cur _ h.lt_mbox)

theorem State.Idle.okAfter_status (e : Engine) (out : Option W64) :
    ((st.okAfter e out).mailbox st.cur).status = 0 := by
  simp [State.mailbox, State.okAfter, h.lt_mbox]

theorem State.Idle.okAfter {e : Engine} {m : Memory} {ans : List Answer}
    (hn : st.eng.Next e m ans) (out : Option W64) : (st.okAfter e out).Idle where
  shaped :=
    { ctxs := (hn.length.trans h.shaped.ctxs).trans (congrArg Params.nSessions hn.params.symm)
      mbox := ((List.length_set ..).trans h.shaped.mbox).trans
        (congrArg Params.nSessions hn.params.symm)
      run := h.shaped.run.trans (congrArg Params.nSessions hn.params.symm) }
  exists_ := lt_of_lt_of_eq h.exists_ (congrArg Params.nSessions hn.params.symm)
  idle := h.idle

end

/-! ### Buffers that have no byte in common -/

theorem apart_comm {a m b n : Nat} (h : apart a m b n) : apart b n a m := by
  unfold apart at *; omega

/-- A buffer that has no byte in common with the bytes written is read as before. -/
theorem Memory.readBytes_writeBytes_apart {m : Memory} (hw : m.wf = true) {a b n : Nat}
    {l : List Byte} (h : apart a l.length b n) :
    (m.writeBytes a l).readBytes b n = m.readBytes b n := by
  rcases h with h | h | h | h
  · rw [List.length_eq_zero_iff.1 h]; rfl
  · rw [h]; rfl
  · exact Memory.readBytes_writeBytes_disjoint m hw _ _ _ _ (.inr h)
  · exact Memory.readBytes_writeBytes_disjoint m hw _ _ _ _ (.inl h)

/-- Answers that are all `done`, the first `n` of them apart. -/
theorem replicate_done_split {n k : Nat} (h : n ≤ k) :
    List.replicate k Answer.done = List.replicate n .done ++ List.replicate (k - n) .done := by
  rw [← List.replicate_add, Nat.add_sub_cancel' h]

/-! ### The round trip -/

/-- The current session can run a composite with the operands `op` to its end: the checks pass, a key
is bound, the mutex is free and the accelerator does not fail (R90); `rest` is the answers left. -/
structure State.Composes (st : State) (op : CompositeOperands) (rest : List Answer) : Prop where
  idle : st.Idle
  checks : prevalidate st.eng.params st.own op = none
  bound : st.own.Bound st.eng.params
  free : st.MutexFree
  wf : st.eng.mem.wf = true
  answers : st.eng.answers =
    List.replicate (compositeDraws st.eng.params op.aadLen.toNat op.length.toNat) .done ++ rest

/-- The message in memory: its pre-counter block, AAD and input, and the output under `key` (R71). -/
structure MessageBytes (m : Memory) (op : CompositeOperands) (key : List Byte) (y0 : Block)
    (a x o : List Byte) : Prop where
  counter : y0 = preCounter (m.readBytes op.iv.toNat 12)
  aad : a = m.readBytes op.aad.toNat op.aadLen.toNat
  input : x = m.readBytes op.input.toNat op.length.toNat
  output : o = cryptBytes key 0 y0 x

section
variable {st : State} {rest : List Answer} {a x o : List Byte} {y0 : Block}
  {op : CompositeOperands} (h : st.Composes op rest)
  (hm : MessageBytes st.eng.mem op (imageKey st.own.image) y0 a x o)
include h hm

/-- `CRYPT_AND_TAG` of a session that can run it (`cryptAndTagIsGcm`). -/
theorem exec_cryptAndTag_next {dir : Direction} (hop : op = cryptAndTagOperands st.args) :
    ∃ e : Engine, exec (.cryptAndTag dir) st = .next (st.okAfter e (some op.length)) ∧
      st.eng.Next e ((st.eng.mem.writeBytes op.output.toNat o).writeBytes op.tag.toNat
        ((bytesOfBlock (gcmTag (imageKey st.own.image) y0 a (ciphertext dir x o))).take
          op.tagLen.toNat)) rest ∧
      (e.ctx st.cur).phase = .finished ∧ (e.ctx st.cur).Bound e.params ∧
      imageKey (e.ctx st.cur).image = imageKey st.own.image := by
  subst hop
  obtain ⟨hu, hk, hl, hA, hal, hP, ht, hfv, hfa, hfi, hfo, hft⟩ := prevalidate_none h.checks
  obtain ⟨hist, c, live, hrun, hph, -, -, -, -, -, hcb, hck, -⟩ := cryptAndTagIsGcm dir st rest _ a x
    o y0 _ h.idle hu hk h.bound hl hA hal hP ht hfv hfa hfi hfo hft h.free h.wf rfl h.answers rfl
    hm.counter hm.aad hm.input hm.output
  have hown (m a hist) : (st.eng.put st.cur c m live a hist).ctx st.cur = c :=
    Engine.put_ctx _ _ _ _ _ _ _ h.idle.lt_ctxs
  exact ⟨_, hrun, Engine.put_next _ _ _ _ _ _ (hist ++ st.eng.history), (hown ..).symm ▸ hph,
    (hown ..).symm ▸ hcb, (hown ..).symm ▸ hck⟩

/-- `AUTH_DECRYPT` of a session that can run it, with the right tag (`authDecryptVerifies`). -/
theorem exec_authDecrypt_accepts (hop : op = authDecryptOperands st.args)
    (htag : (bytesOfBlock (gcmTag (imageKey st.own.image) y0 a x)).take op.tagLen.toNat =
      (st.eng.mem.writeBytes op.output.toNat o).readBytes op.tag.toNat op.tagLen.toNat) :
    ∃ u : State, exec .authDecrypt st = .next u ∧ (u.mailbox st.cur).status = 0 ∧
      u.eng.mem = st.eng.mem.writeBytes op.output.toNat o := by
  subst hop
  obtain ⟨hu, hk, hl, hA, hal, hP, ht, hfv, hfa, hfi, hfo, hft⟩ := prevalidate_none h.checks
  obtain ⟨hist, c, live, e, -, -, -, -, -, -, -, -, hrun⟩ := authDecryptVerifies st rest _ a x o _ _
    y0 _ h.idle hu hk h.bound hl hA hal hP ht hfv hfa hft hfi hfo h.free h.wf rfl h.answers rfl
    hm.counter hm.aad hm.input hm.output rfl rfl
  exact ⟨_, hrun.trans (congrArg _ (if_pos htag)), h.idle.okAfter_status _ _, rfl⟩

end

/-- What `CRYPT_AND_TAG` leaves in memory: its output, its tag, and every buffer that neither meets. -/
theorem Memory.readBytes_after_message {m : Memory} (hw : m.wf = true) {ob n tb tn : Nat}
    {o T : List Byte} (ho : o.length = n) (hT : T.length = tn) (hot : apart ob n tb tn) :
    ((m.writeBytes ob o).writeBytes tb T).readBytes ob n = o ∧
      ((m.writeBytes ob o).writeBytes tb T).readBytes tb tn = T ∧
      ∀ b l, apart ob n b l → apart tb tn b l →
        ((m.writeBytes ob o).writeBytes tb T).readBytes b l = m.readBytes b l := by
  subst ho hT
  have hw1 := Memory.wf_writeBytes m hw ob o
  refine ⟨?_, Memory.readBytes_writeBytes_self _ hw1 _ _, fun b l h1 h2 => ?_⟩
  · rw [Memory.readBytes_writeBytes_apart hw1 (apart_comm hot)]
    exact Memory.readBytes_writeBytes_self _ hw _ _
  · rw [Memory.readBytes_writeBytes_apart hw1 h2, Memory.readBytes_writeBytes_apart hw h1]

/-- The buffers of a round trip: the IV, the AAD and the ciphertext are not overwritten by
`CRYPT_AND_TAG`, and the output `out` of `AUTH_DECRYPT` fits, is one that R24 admits for the ciphertext
and does not overlap the tag. -/
structure CompositeOperands.Recoverable (op : CompositeOperands) (p : Params) (out : W64) :
    Prop where
  iv : apart op.output.toNat op.length.toNat op.iv.toNat 12 ∧
    apart op.tag.toNat op.tagLen.toNat op.iv.toNat 12
  aad : apart op.output.toNat op.length.toNat op.aad.toNat op.aadLen.toNat ∧
    apart op.tag.toNat op.tagLen.toNat op.aad.toNat op.aadLen.toNat
  outputTag : apart op.output.toNat op.length.toNat op.tag.toNat op.tagLen.toNat
  outFits : fits p out.toNat op.length.toNat
  outTag : apart out.toNat op.length.toNat op.tag.toNat op.tagLen.toNat
  outOrder : ¬ (op.output.toNat < out.toNat ∧ out.toNat - op.output.toNat < op.length.toNat)

/-- The operands of the `AUTH_DECRYPT` of a composite's output into `out`. -/
def CompositeOperands.over (op : CompositeOperands) (out : W64) : CompositeOperands :=
  { op with input := op.output, output := out }

/-- The checks of a composite over the output of another, from a context at the end of its message
(R90). -/
theorem prevalidate_over {p : Params} {x c : Ctx} {op : CompositeOperands} {out : W64}
    (h : prevalidate p x op = none) (hc : c.phase = .finished) (hr : op.Recoverable p out) :
    prevalidate p c (op.over out) = none := by
  obtain ⟨-, -, hl, hA, -, hP, ht, hfv, hfa, -, hfo, hft⟩ := prevalidate_none h
  exact prevalidate_eq_none (by rw [hc]; decide) (by rw [hc]; decide) hl hA hr.outOrder hP ht hfv hfa
    hfo hr.outFits hft

/-- `CRYPT_AND_TAG`, and after it an `AUTH_DECRYPT` of its output and its tag into `out`, which
accepts: it reads the IV, the AAD and the ciphertext that `CRYPT_AND_TAG` read and wrote, computes the
same tag, and counter mode is its own inverse (`cryptBytes_cryptBytes`). -/
theorem exec_authDecrypt_of_cryptAndTag {st : State} {op : CompositeOperands} {k : Nat} {out : W64}
    {x : List Byte} (hop : op = cryptAndTagOperands st.args)
    (h : st.Composes op (List.replicate k .done))
    (hk : compositeDraws st.eng.params op.aadLen.toNat op.length.toNat ≤ k)
    (hx : x = st.eng.mem.readBytes op.input.toNat op.length.toNat)
    (hr : op.Recoverable st.eng.params out) :
    ∃ e, exec (.cryptAndTag .enc) st = .next (st.okAfter e (some op.length)) ∧
      ∀ a : Args, op.over out = authDecryptOperands a →
        ∃ u, exec .authDecrypt ((st.okAfter e (some op.length)).withArgs a) = .next u ∧
          (u.mailbox st.cur).status = 0 ∧ u.eng.mem.readBytes out.toNat op.length.toNat = x := by
  obtain ⟨y0, hy0⟩ : ∃ y0, y0 = preCounter (st.eng.mem.readBytes op.iv.toNat 12) := ⟨_, rfl⟩
  obtain ⟨A, hA⟩ : ∃ A, A = st.eng.mem.readBytes op.aad.toNat op.aadLen.toNat := ⟨_, rfl⟩
  obtain ⟨o, ho⟩ : ∃ o, o = cryptBytes (imageKey st.own.image) 0 y0 x := ⟨_, rfl⟩
  obtain ⟨T, hT⟩ : ∃ T, T = (bytesOfBlock (gcmTag (imageKey st.own.image) y0 A o)).take
    op.tagLen.toNat := ⟨_, rfl⟩
  obtain ⟨e, hrun, hnext, hph, hcb, hkey⟩ :=
    exec_cryptAndTag_next (dir := .enc) h ⟨hy0, hA, hx, ho⟩ hop
  refine ⟨e, hrun, fun a ha => ?_⟩
  have hxl : x.length = op.length.toNat := by rw [hx, Memory.length_readBytes]
  have hTl : T.length = op.tagLen.toNat := by
    obtain ⟨-, -, -, -, -, -, ht, -⟩ := prevalidate_none h.checks
    rw [hT, List.length_take, length_bytesOfBlock, min_eq_left (tagLen_le_of_tagLenOk ht)]
  obtain ⟨hmo, hmT, hkept⟩ := Memory.readBytes_after_message h.wf
    (show o.length = op.length.toNat by rw [ho, length_cryptBytes, hxl]) hTl hr.outputTag
  have hmem : e.mem = (st.eng.mem.writeBytes op.output.toNat o).writeBytes op.tag.toNat T := by
    rw [hnext.mem, hT]; rfl
  rw [← hmem] at hmo hmT hkept
  have hmw : e.mem.wf = true :=
    hmem ▸ Memory.wf_writeBytes _ (Memory.wf_writeBytes _ h.wf _ _) _ _
  have hidle := h.idle.okAfter hnext (some op.length)
  have hready : ((st.okAfter e (some op.length)).withArgs a).Composes (op.over out)
      (List.replicate (k - compositeDraws e.params op.aadLen.toNat op.length.toNat) .done) :=
    { idle := hidle.withArgs a
      checks := prevalidate_over (hnext.params.symm ▸ h.checks) hph (hnext.params.symm ▸ hr)
      bound := hcb
      free := by rw [State.MutexFree]; exact hnext.arb.symm ▸ h.free
      wf := hmw
      answers := hnext.answers.trans (replicate_done_split (hnext.params.symm ▸ hk)) }
  have hbytes : MessageBytes e.mem (op.over out) (imageKey (e.ctx st.cur).image) y0 A o x :=
    { counter := hy0.trans (congrArg preCounter (hkept _ _ hr.iv.1 hr.iv.2).symm)
      aad := hA.trans (hkept _ _ hr.aad.1 hr.aad.2).symm
      input := hmo.symm
      output := by rw [hkey, ho, cryptBytes_cryptBytes] }
  obtain ⟨u, hu, hs, hm⟩ := exec_authDecrypt_accepts hready hbytes
    (ha.trans (congrArg authDecryptOperands (hidle.args_withArgs a).symm))
    ((congrArg (fun key => (bytesOfBlock (gcmTag key y0 A o)).take op.tagLen.toNat) hkey).trans
      (hT.symm.trans (hmT.symm.trans
        (Memory.readBytes_writeBytes_apart hmw (hxl.symm ▸ hr.outTag)).symm)))
  refine ⟨u, hu, hs, ?_⟩
  rw [hm, ← hxl]
  exact Memory.readBytes_writeBytes_self _ hmw _ _

/-- Settles O27 (`exec_authDecrypt_of_cryptAndTag`): the operands of the two commands are the same up
to input and output. -/
theorem decryptOfEncrypt : Obligations.DecryptOfEncrypt := by
  intro st t x n k out hidle _ _ hb hfree hw hn hc hans hk hx hover hot hfout haout hal hexec
  subst hn
  obtain ⟨hiv6, haad6⟩ := hover _ _ (.inl ⟨rfl, rfl⟩)
  obtain ⟨hiv8, haad8⟩ := hover _ _ (.inr ⟨rfl, rfl⟩)
  have hdraws : compositeDraws st.eng.params st.args[4].toNat st.args[0].toNat ≤
      k - compositeDraws st.eng.params st.args[4].toNat st.args[0].toNat := by omega
  obtain ⟨e, hrun, hnext⟩ := exec_authDecrypt_of_cryptAndTag rfl
    ⟨hidle, hc, hb, hfree, hw, hans.trans (replicate_done_split (hdraws.trans (Nat.sub_le ..)))⟩
    hdraws hx ⟨⟨hiv6, hiv8⟩, ⟨haad6, haad8⟩, hot, hfout, haout, hal⟩
  obtain rfl := Host.Outcome.next.inj (hexec.symm.trans hrun)
  exact hnext _ rfl

end Sys2Proof.Machine
end

section
/-! Streaming under strategy B and `CARRY` (42_session_mode_b.md R68, R71): an `UPDATE` as a function of
the context and the input bytes, which an append of inputs takes to the composition. -/

namespace Sys2Proof.Machine

/-! ### An `UPDATE` as a function of its input -/

/-- The output of an `UPDATE` of the bytes `z` (R68). -/
def Ctx.crypt (x : Ctx) (z : List Byte) : List Byte :=
  cryptBytes (imageKey x.image) (x.len.toNat % 16) x.y z

/-- The accumulator an `UPDATE` goes on from: the first one of a message closes the AAD phase (R67,
R68). -/
def Ctx.opened (x : Ctx) : Block :=
  if x.phase = .absorbingPayload then x.buf else closePhase .carry x.table x.addLen.toNat x.buf

/-- The context after an `UPDATE` of the bytes `z` under `CARRY` (R68). -/
def Ctx.updated (x : Ctx) (z : List Byte) : Ctx :=
  { x with
    phase := .absorbingPayload
    y := counterAfter (x.len.toNat % 16) x.y z.length
    len := x.len + BitVec.ofNat 64 z.length
    buf := absorbBytes x.table x.len.toNat (ciphertext x.direction z (x.crypt z)) x.opened }

section
variable {x : Ctx} {z w : List Byte}

@[simp] theorem Ctx.length_crypt (x : Ctx) (z : List Byte) : (x.crypt z).length = z.length :=
  length_cryptBytes ..

theorem Ctx.opened_updated : (x.updated z).opened = (x.updated z).buf := if_pos rfl

section
variable (h : x.len.toNat + z.length < 2 ^ 64)
include h

theorem Ctx.len_updated : (x.updated z).len.toNat = x.len.toNat + z.length := by
  simp only [Ctx.updated, BitVec.toNat_add, BitVec.toNat_ofNat]
  omega

theorem Ctx.crypt_append : x.crypt (z ++ w) = x.crypt z ++ (x.updated z).crypt w := by
  rw [Ctx.crypt, cryptBytes_append _ _ (Nat.mod_lt _ (by decide)), Nat.mod_add_mod,
    ← Ctx.len_updated h]
  rfl

/-- Two calls, one after the other, are one of their joined input. -/
theorem Ctx.updated_append : x.updated (z ++ w) = (x.updated z).updated w := by
  have hcl : (ciphertext x.direction z (x.crypt z)).length = z.length :=
    length_ciphertext _ _ _ (Ctx.length_crypt x z)
  have hy : counterAfter (x.len.toNat % 16) x.y (z ++ w).length =
      counterAfter ((x.updated z).len.toNat % 16) (x.updated z).y w.length := by
    rw [List.length_append, counterAfter_add _ (Nat.mod_lt _ (by decide)), Nat.mod_add_mod,
      ← Ctx.len_updated h]
    rfl
  have hl : x.len + BitVec.ofNat 64 (z ++ w).length =
      (x.updated z).len + BitVec.ofNat 64 w.length := by
    rw [List.length_append, BitVec.ofNat_add, ← BitVec.add_assoc]
    rfl
  have hb : absorbBytes x.table x.len.toNat (ciphertext x.direction (z ++ w) (x.crypt (z ++ w)))
      x.opened = absorbBytes x.table (x.updated z).len.toNat
        (ciphertext x.direction w ((x.updated z).crypt w)) (x.updated z).opened := by
    rw [Ctx.crypt_append h, ciphertext_append, absorbBytes_append, hcl, ← Ctx.len_updated h,
      Ctx.opened_updated]
    rfl
  rw [Ctx.updated, hy, hl, hb]
  rfl

end
end

/-- A second part takes no more operations than it would as a call of its own (R118). -/
theorem updateDrawsB_add_le (n a b : Nat) : updateDrawsB (n % 16) (a + b) ≤
    updateDrawsB (n % 16) a + updateDrawsB ((n + a) % 16) b := by
  unfold updateDrawsB
  by_cases ha : a = 0
  · simp [ha]
  · by_cases hb : b = 0
    · simp [hb]
    · rw [if_neg ha, if_neg hb, if_neg (by omega)]
      omega

/-! ### The command -/

/-- The current session can stream `n` bytes from `i` to `o`, with `k` answers to come, none of them a
failure (R68, R71). -/
structure State.Streams (st : State) (i o n k : Nat) : Prop where
  idle : st.Idle
  strategy : st.eng.params.strategy = .b
  policy : st.eng.params.policy = .carry
  phase : st.own.phase = .started ∨ st.own.phase = .absorbingAAD ∨
    st.own.phase = .absorbingPayload
  valid : st.own.imageValid = true
  configured : st.own.image.configured = true
  mode : st.own.image.mode = .ecb
  free : st.MutexFree
  wf : st.eng.mem.wf = true
  answers : st.eng.answers = List.replicate k .done
  len : st.own.len.toNat + n ≤ 2 ^ 36 - 32
  input : i + n ≤ 2 ^ st.eng.params.addrBits
  output : o + n ≤ 2 ^ st.eng.params.addrBits
  apart : o ≤ i ∨ i + n ≤ o

section
variable {st : State} {k : Nat}

theorem State.Streams.le {i o n m : Nat} (h : st.Streams i o n k) (hm : m ≤ n) :
    st.Streams i o m k where
  __ := h
  len := by have := h.len; omega
  input := by have := h.input; omega
  output := by have := h.output; omega
  apart := by have := h.apart; omega

theorem State.Streams.withArgs {i o n : Nat} (h : st.Streams i o n k) (a : Args) :
    (st.withArgs a).Streams i o n k :=
  { h with idle := h.idle.withArgs a }

/-- `UPDATE` of a session that can stream its input (`updateCompletesB`). -/
theorem State.Streams.exec_update {i o n : W64} (h : st.Streams i.toNat o.toNat n.toNat k)
    (ha : st.args = #v[i, n, o, n, 0, 0, 0, 0, 0])
    (hk : updateDrawsB (st.own.len.toNat % 16) n.toNat ≤ k) (z : List Byte)
    (hz : z = st.eng.mem.readBytes i.toNat n.toNat) :
    ∃ e, exec .update st = .next (st.okAfter e (some n)) ∧
      st.eng.Next e (st.eng.mem.writeBytes o.toNat (st.own.crypt z))
        (List.replicate (k - updateDrawsB (st.own.len.toNat % 16) n.toNat) .done) ∧
      e.ctx st.cur = st.own.updated z := by
  have h0 : st.args[0] = i := by rw [ha]; rfl
  have h1 : st.args[1] = n := by rw [ha]; rfl
  have h2 : st.args[2] = o := by rw [ha]; rfl
  have h3 : st.args[3] = n := by rw [ha]; rfl
  have hzl : z.length = n.toNat := by rw [hz, Memory.length_readBytes]
  have hrun := updateCompletesB st
    (List.replicate (k - updateDrawsB (st.own.len.toNat % 16) n.toNat) .done) z (st.own.crypt z)
    (st.own.len.toNat % 16) n.toNat h.idle h.strategy h.phase
  rw [h0, h1, h2, h3, h.policy] at hrun
  obtain ⟨hist, hrun⟩ := hrun (by have := h.apart; omega) h.len le_rfl (.inr h.input) (.inr h.output)
    (.inr h.free) h.valid h.configured h.mode h.wf rfl rfl
    (h.answers.trans (replicate_done_split hk)) hz rfl
  refine ⟨_, hrun, ⟨rfl, List.length_set .., rfl, rfl, rfl⟩, ?_⟩
  have hn : BitVec.ofNat 64 z.length = n := by rw [hzl, BitVec.ofNat_toNat, BitVec.setWidth_eq]
  rw [Ctx.updated, hn, hzl]
  simp only [Engine.ctx, List.getD_eq_getElem?_getD, List.getElem?_set_self h.idle.lt_ctxs,
    Option.getD_some]
  rfl

/-- After an `UPDATE` of the first `n1` bytes the session can stream the others. -/
theorem State.Streams.next {i o n1 n2 k' : Nat} (h : st.Streams i o (n1 + n2) k) {e : Engine}
    {z out : List Byte} (hz : z.length = n1)
    (hn : st.eng.Next e (st.eng.mem.writeBytes o out) (List.replicate k' .done))
    (hc : e.ctx st.cur = st.own.updated z) (w : Option W64) :
    (st.okAfter e w).Streams (i + n1) (o + n1) n2 k' := by
  have hlen := h.len
  have hown : (st.okAfter e w).own = st.own.updated z := hc
  have hp : (st.okAfter e w).eng.params = st.eng.params := hn.params
  exact
    { idle := h.idle.okAfter hn w
      strategy := hp ▸ h.strategy
      policy := hp ▸ h.policy
      phase := hown ▸ .inr (.inr rfl)
      valid := hown ▸ h.valid
      configured := hown ▸ h.configured
      mode := hown ▸ h.mode
      free := by
        have harb : (st.okAfter e w).eng.arb = st.eng.arb := hn.arb
        rw [State.MutexFree, harb]
        exact h.free
      wf := hn.mem.symm ▸ Memory.wf_writeBytes _ h.wf _ _
      answers := hn.answers
      len := by rw [hown, Ctx.len_updated (by omega), hz]; omega
      input := by rw [hp, Nat.add_assoc]; exact h.input
      output := by rw [hp, Nat.add_assoc]; exact h.output
      apart := by have := h.apart; omega }

end

/-- Settles O28: the two calls are run one after the other (`State.Streams.next`), the one call is run
on the joined input, and `Ctx.updated_append` and `Ctx.crypt_append` say that they agree. -/
theorem streamingUpdate : Obligations.StreamingUpdate := by
  intro st t u w i o a b k hidle hst hpol hph hv hconf hmode hfree hw hans hlen hin hout hi ho hap hk
    ha ht hu hw'
  have hab : (a + b).toNat = a.toNat + b.toNat := BitVec.toNat_add_of_lt (by omega)
  have hia : (i + a).toNat = i.toNat + a.toNat := BitVec.toNat_add_of_lt hi
  have hoa : (o + a).toNat = o.toNat + a.toNat := BitVec.toNat_add_of_lt ho
  have hs : st.Streams i.toNat o.toNat (a.toNat + b.toNat) k :=
    ⟨hidle, hst, hpol, hph, hv, hconf, hmode, hfree, hw, hans, by omega, by omega, by omega,
      by omega⟩
  obtain ⟨z1, hz1⟩ : ∃ z, z = st.eng.mem.readBytes i.toNat a.toNat := ⟨_, rfl⟩
  obtain ⟨z2, hz2⟩ : ∃ z, z = st.eng.mem.readBytes (i.toNat + a.toNat) b.toNat := ⟨_, rfl⟩
  have hl1 : z1.length = a.toNat := by rw [hz1, Memory.length_readBytes]
  have hbound : st.own.len.toNat + z1.length < 2 ^ 64 := by omega
  have hdraws := updateDrawsB_add_le st.own.len.toNat a.toNat b.toNat
  -- the first call
  obtain ⟨e1, hrun1, hn1, hc1⟩ := (hs.le (Nat.le_add_right _ _)).exec_update ha (by omega) z1 hz1
  obtain rfl := Host.Outcome.next.inj (ht.symm.trans hrun1)
  have hs1 := hs.next hl1 hn1 hc1 (some a)
  have hz2' : z2 = e1.mem.readBytes (i + a).toNat b.toNat := by
    rw [hz2, hia, hn1.mem]
    exact (Memory.readBytes_writeBytes_disjoint _ hw _ _ _ _
      (by rw [Ctx.length_crypt, hl1]; omega)).symm
  -- the second call
  have hlen1 : (st.okAfter e1 (some a)).own.len.toNat = st.own.len.toNat + a.toNat := by
    change (e1.ctx st.cur).len.toNat = _
    rw [hc1, Ctx.len_updated hbound, hl1]
  rw [← hia, ← hoa] at hs1
  obtain ⟨e2, hrun2, hn2, hc2⟩ := (hs1.withArgs _).exec_update (hs1.idle.args_withArgs _)
    (by
      change updateDrawsB ((st.okAfter e1 (some a)).own.len.toNat % 16) _ ≤ _
      rw [hlen1]; omega) z2 hz2'
  obtain rfl := Host.Outcome.next.inj (hu.symm.trans hrun2)
  -- the one call
  rw [← hab] at hs hdraws
  obtain ⟨e3, hrun3, hn3, hc3⟩ := (hs.withArgs _).exec_update (hs.idle.args_withArgs _)
    (by change updateDrawsB (st.own.len.toNat % 16) _ ≤ _; omega) (z1 ++ z2)
    (by rw [hz1, hz2, hab, ← Memory.readBytes_add]; rfl)
  obtain rfl := Host.Outcome.next.inj (hw'.symm.trans hrun3)
  refine ⟨(hs1.withArgs _).idle.okAfter_status _ _, (hs.withArgs _).idle.okAfter_status _ _,
    ?_, ?_⟩
  · have hown : (e1.ctx st.cur).updated z2 = st.own.updated (z1 ++ z2) := by
      rw [hc1, Ctx.updated_append hbound]
    exact hc2.trans (hown.trans hc3.symm)
  · have hmem : e1.mem.writeBytes (o + a).toNat ((e1.ctx st.cur).crypt z2) =
        st.eng.mem.writeBytes o.toNat (st.own.crypt (z1 ++ z2)) := by
      rw [hn1.mem, hc1, hoa, Ctx.crypt_append hbound, Memory.writeBytes_append, Ctx.length_crypt,
        hl1]
    exact hn2.mem.trans (hmem.trans hn3.mem.symm)

end Sys2Proof.Machine
end

section
/-! The commands of a message under strategy A, run to their end (43_session_mode_a.md R74 to R79), from
what their parts compute (Sys2Proof/Laws/ModeA.lean). -/

namespace Sys2Proof.Machine

/-! ### When the checks pass -/

/-- A configured image in mode GCM is one the accelerator's message operations accept (R48). -/
theorem gcmReady_of_configured {img : Image} (hc : img.configured = true) (hm : img.mode = .gcm) :
    gcmReady img = true := by
  rw [gcmReady, hc, hm]; rfl

/-- With a message begun on it, the image is one that header, payload and tag can be performed on. -/
theorem streaming_of_active {img : Image} (hc : img.configured = true) (hm : img.mode = .gcm)
    (ha : img.gActive = true) : streaming img = true := by
  rw [streaming, gcmReady_of_configured hc hm, ha]; rfl

/-- An address of a non-empty buffer that fits has no bit above `ADDR_BITS` (R20). -/
theorem lt_of_fits {p : Params} {ad n : Nat} (hf : fits p ad n) (hn : n ≠ 0) :
    ad < 2 ^ p.addrBits := by
  have := hf.resolve_left hn
  omega

section
variable {p : Params} {x : Ctx} {a : Args}

/-- A key read from memory, not the hardware key (`key_bits` 0, which strategy A rejects, R74). -/
theorem checkSetkey_eq_none_of_memKey (hph : x.phase ≠ .uninit) (hid : a[0] = 1)
    (hbits : a[2] = 128 ∨ a[2] = 192 ∨ a[2] = 256)
    (hf : fits p a[1].toNat (a[2].toNat / 8)) : checkSetkey p x a = none :=
  firstCause_cons_eq_none (by simp [acceptsPhase, hph])
    (firstCause_cons_eq_none (by simp [setkeyOperands, hid])
      (firstCause_cons_eq_none
        (by rcases hbits with h | h | h <;> simp [setkeyOperands, hwKeyUnsupported, h])
        (firstCause_cons_eq_none
          (by rcases hbits with h | h | h <;> simp [setkeyOperands, h])
          (firstCause_cons_eq_none (not_rangeOk_eq_false hf) rfl))))

/-- The AAD is empty or no header is staged, so that the check of R76 passes under strategy A too. -/
theorem checkUpdateAd_eq_none (hph : x.phase = .started ∨ x.phase = .absorbingAAD)
    (hb : x.addLen.toNat + a[1].toNat < 2 ^ 61) (hh : a[1] = 0 ∨ x.hdrPending = false)
    (hf : fits p a[0].toNat a[1].toNat) : checkUpdateAd p x a = none :=
  firstCause_cons_eq_none (by simpa [acceptsPhase, or_iff_not_imp_left] using hph)
    (firstCause_cons_eq_none (decide_eq_false (not_le.2 hb))
      (firstCause_cons_eq_none (by rcases hh with h | h <;> simp [updateAdOperands, h])
        (firstCause_cons_eq_none (not_rangeOk_eq_false hf) rfl)))

/-- The payload is empty or starts at a block's boundary, so that the check of R78 passes under
strategy A too. -/
theorem checkUpdate_eq_none
    (hph : x.phase = .started ∨ x.phase = .absorbingAAD ∨ x.phase = .absorbingPayload)
    (hal : ¬ (a[0].toNat < a[2].toNat ∧ a[2].toNat - a[0].toNat < a[1].toNat))
    (hb : x.len.toNat + a[1].toNat ≤ 2 ^ 36 - 32) (hcap : a[1].toNat ≤ a[3].toNat)
    (hpart : a[1] = 0 ∨ x.len.toNat % 16 = 0)
    (hfi : fits p a[0].toNat a[1].toNat) (hfo : fits p a[2].toNat a[1].toNat) :
    checkUpdate p x a = none :=
  firstCause_cons_eq_none (by simpa [acceptsPhase, or_iff_not_imp_left] using hph)
    (firstCause_cons_eq_none (overlaps_eq_false hal)
      (firstCause_cons_eq_none (decide_eq_false (not_lt.2 hb))
        (firstCause_cons_eq_none (decide_eq_false (not_lt.2 hcap))
          (firstCause_cons_eq_none (by rcases hpart with h | h <;> simp [updateOperands, h])
            (firstCause_cons_eq_none (not_rangeOk_eq_false hfi)
              (firstCause_cons_eq_none (not_rangeOk_eq_false hfo) rfl))))))

/-- The whole tag is a length that both strategies admit (R69, R79). -/
theorem checkFinish_eq_none_of_whole
    (hph : x.phase = .started ∨ x.phase = .absorbingAAD ∨ x.phase = .absorbingPayload)
    (hl : a[3] = 16) (hf : fits p a[2].toNat 16) : checkFinish p x a = none := by
  have hlen : a[3].toNat = 16 := by rw [hl]; rfl
  refine firstCause_cons_eq_none (by simpa [acceptsPhase, or_iff_not_imp_left] using hph)
    (firstCause_cons_eq_none ?_ (firstCause_cons_eq_none (not_rangeOk_eq_false ?_) rfl))
  · cases hst : p.strategy <;> simp [finishOperands, tagLenOk, hst, hlen]
  · rw [finishOperands, hlen]; exact hf

end

/-! ### The commands of a message -/

section
variable {p : Params} {s : Nat} (h : p.strategy = .a)
include h

theorem setkeyPart_of_a (o : SetkeyOperands) : setkeyPart p s o = setkeyPartA s o := by
  rw [setkeyPart, h]

theorem startsPart_of_a (dir : Direction) (iv : W64) :
    startsPart p s dir iv = startsPartA s dir iv := by
  rw [startsPart, h]

theorem updateAdPart_of_a (aad n : W64) : updateAdPart p s aad n = updateAdPartA p s aad n := by
  rw [updateAdPart, h]

theorem updatePart_of_a (input n output : W64) :
    updatePart p s input n output = updatePartA s input n output := by
  rw [updatePart, h]

theorem finishTag_of_a : finishTag p s = finishTagA s := by
  rw [finishTag, h]

end

/-- Settles O15: what the part computes (`setkeyPartA_put`), once the checks pass. -/
theorem setkeyCompletesA : Obligations.SetkeyCompletesA := by
  intro st rest hidle hst hph hid hbits hf hfree ha
  obtain ⟨k, hk⟩ := setkeyPartA_put (x := st.own) (m := st.eng.mem) (l := st.eng.live)
    (h := st.eng.history) (setkeyOperands st.args) hidle.lt_ctxs hbits hf hfree.1 hfree.2 rest ha
    _ rfl
  rw [← setkeyPart_of_a hst] at hk
  exact ⟨k, _, rfl, exec_done (cmd := setkeyCommand) rfl hidle
    (checkSetkey_eq_none_of_memKey hph hid hbits hf) (Program.eval_bind_done hk rfl)⟩

/-- Settles O17: what the part computes (`startsPartA_put`), once the checks pass. -/
theorem startsCompletesA : Obligations.StartsCompletesA := by
  intro dir st rest hidle hst hu hkeyed hl hf hfree hv hconf hmode ha
  obtain ⟨k, hk⟩ := startsPartA_put (x := st.own) (m := st.eng.mem) (l := st.eng.live)
    (h := st.eng.history) dir (startsOperands st.args).iv hidle.lt_ctxs hf hfree.1 hfree.2 hv
    (gcmReady_of_configured hconf hmode) rest ha _ rfl _ rfl
  rw [← startsPart_of_a hst] at hk
  exact ⟨k, _, _, rfl, rfl, exec_done (cmd := startsCommand dir) rfl hidle
    (checkStarts_eq_none hu hkeyed hl hf) (Program.eval_bind_done hk rfl)⟩

/-- Settles O19: what the part computes (`updateAdPartA_put`), once the checks pass; the address of a
non-empty AAD is staged whole, its range having been checked (`lt_of_fits`). -/
theorem updateAdCompletesA : Obligations.UpdateAdCompletesA := by
  intro st hidle hst hph hb hh hf
  have hk := updateAdPartA_put (x := st.own) (m := st.eng.mem) (l := st.eng.live)
    (a := st.eng.answers) (h := st.eng.history) st.args[0] st.args[1] hidle.lt_ctxs
  rw [← updateAdPart_of_a hst] at hk
  have haddr : (if st.args[1] = 0 then st.own.hdrAddr
      else st.args[0].toNat % 2 ^ st.eng.params.addrBits) =
      if st.args[1] = 0 then st.own.hdrAddr else st.args[0].toNat :=
    ite_congr rfl (fun _ => rfl) fun hne =>
      Nat.mod_eq_of_lt (lt_of_fits hf fun h0 => hne (BitVec.eq_of_toNat_eq h0))
  rw [haddr] at hk
  exact exec_done (cmd := updateAdCommand) rfl hidle (checkUpdateAd_eq_none hph hb hh hf)
    (Program.eval_bind_done hk rfl)

/-- Settles O21: what the part computes (`updatePartA_put`), once the checks pass. -/
theorem updateCompletesA : Obligations.UpdateCompletesA := by
  intro st rest x o a n hidle hst hph hal hb hcap hpart hfi hfo hfree hv hconf hmode hact hh hw hn ha
    hx ho hd
  subst hn hd
  obtain ⟨k, hk⟩ := updatePartA_put (x := st.own) (l := st.eng.live) (h := st.eng.history)
    st.args[0] st.args[1] st.args[2] hidle.lt_ctxs hfi hfo hal hw hfree hv
    (streaming_of_active hconf hmode hact) hh rest ha x o hx ho _ rfl
  rw [← updatePart_of_a hst] at hk
  exact ⟨k, _, rfl, exec_done (cmd := updateCommand) rfl hidle
    (checkUpdate_eq_none hph hal hb hcap hpart hfi hfo) (Program.eval_bind_done hk rfl)⟩

/-- Settles O23: the tag (`finishTagA_put`), then its bytes, all sixteen, and the phase
(`finishPart_put`). -/
theorem finishCompletesA : Obligations.FinishCompletesA := by
  intro st rest a g hidle hst hph hl hf hfree hv hconf hmode hact hh ha hd hg
  subst hd
  have hlen : st.args[3].toNat = 16 := by rw [hl]; rfl
  have htag : st.args[3].setWidth 5 = (16 : BitVec 5) := by rw [hl]; rfl
  obtain ⟨k, hk⟩ := finishTagA_put (x := st.own) (m := st.eng.mem) (l := st.eng.live)
    (h := st.eng.history) hidle.lt_ctxs hfree.1 hfree.2 hv (streaming_of_active hconf hmode hact) hh
    rest ha g hg _ rfl
  rw [← finishTag_of_a hst] at hk
  have hfin := finishPart_put (tagOut := st.args[2]) (tagLen := st.args[3]) hidle.lt_ctxs hk
    (by rw [length_bytesOfBlock, hlen]) (by rw [hlen]; exact hf)
  rw [hlen, List.take_of_length_le (length_bytesOfBlock _).le, htag] at hfin
  exact ⟨k, _, rfl, exec_done (cmd := finishCommand) rfl hidle
    (checkFinish_eq_none_of_whole hph hl hf) (Program.eval_bind_done hfin rfl)⟩

end Sys2Proof.Machine
end

section
/-! The mutex and the guarded section performed by themselves (44_arbiter.md R82 to R86): what each
operation does within its precondition, how it waits or stops outside it, and how a guarded section
ends at its first failure. -/

namespace Sys2Proof.Machine

/-! ### The operations of the mutex -/

theorem exec_mutexCreate (st : State) :
    exec .mutexCreate st = bareOp 0x20 (mutexCreateOp st.cur) st := rfl

theorem exec_mutexDestroy (st : State) :
    exec .mutexDestroy st = bareOp 0x21 (mutexDestroyOp st.cur) st := rfl

theorem exec_acquire (st : State) : exec .acquire st = bareOp 0x22 (acquireOp st.cur) st := rfl

theorem exec_release (st : State) : exec .release st = bareOp 0x23 (releaseOp st.cur) st := rfl

section
variable {s : Nat} {e : Engine}

theorem mutexCreateOp_absent (h : e.arb.mutexExists = false) :
    mutexCreateOp s e =
      .next { e.record s 0x20 with
        arb := { e.arb with mutexExists := true, holder := none } } .unit := by
  simp [mutexCreateOp, h]

/-- A mutex that exists is not created again (R82). -/
theorem mutexCreateOp_exists (h : e.arb.mutexExists = true) :
    mutexCreateOp s e = .stop (.refused .mutexPrecondition) := by
  simp [mutexCreateOp, h]

theorem mutexDestroyOp_free (h1 : e.arb.mutexExists = true) (h2 : e.arb.holder = none) :
    mutexDestroyOp s e =
      .next { e.record s 0x21 with arb := { e.arb with mutexExists := false } } .unit := by
  simp [mutexDestroyOp, h1, h2]

/-- Only a free mutex is destroyed (R83). -/
theorem mutexDestroyOp_notFree (h : ¬ (e.arb.mutexExists = true ∧ e.arb.holder = none)) :
    mutexDestroyOp s e = .stop (.refused .mutexPrecondition) := by
  unfold mutexDestroyOp
  rw [if_neg]
  simpa using h

/-- Only the holder releases the mutex (R85). -/
theorem releaseOp_notHolder (h : e.arb.holder ≠ some s) :
    releaseOp s e = .stop (.refused .mutexPrecondition) := by
  simp [releaseOp, h]

end

/-- Settles O42: each operation is taken within its precondition. -/
theorem mutexOperations : Obligations.MutexOperations := by
  refine fun st hs => ⟨fun hno => ?_, fun hex hfree => ⟨?_, ?_⟩, fun hheld => ?_⟩
  · exact (exec_mutexCreate st).trans (bareOp_next hs (mutexCreateOp_absent hno))
  · exact (exec_mutexDestroy st).trans (bareOp_next hs (mutexDestroyOp_free hex hfree))
  · exact (exec_acquire st).trans (bareOp_next hs (acquireOp_free hex hfree))
  · exact (exec_release st).trans (bareOp_next hs (releaseOp_held hheld))

/-! ### A guarded section performed by itself -/

theorem exec_guard (st : State) :
    exec .guard st = bareGuard 0x35 (guardSection st.cur st.opnd.body) st := rfl

section
variable {code : BitVec 8} {q : Program (List Byte)} {st : State}

theorem bareGuard_done {b : List Byte} {e : Engine} (hs : st.cur < st.eng.params.nSessions)
    (hq : q.eval [] st.eng = .done b e) :
    bareGuard code q st = .next (st.operated e (.bytes b)) := by
  simp only [bareGuard, if_pos hs, hq]
  rfl

theorem bareGuard_raised {c : Cause} {e : Engine} (hs : st.cur < st.eng.params.nSessions)
    (hq : q.eval [] st.eng = .raised c e) :
    bareGuard code q st = .next (st.operated e (.failed c)) := by
  simp only [bareGuard, if_pos hs, hq]
  rfl

theorem bareGuard_blocked {l : List Reply} {e : Engine} (hs : st.cur < st.eng.params.nSessions)
    (hq : q.eval [] st.eng = .blocked l e) :
    bareGuard code q st = .next { st with pendingOp := some code } := by
  simp only [bareGuard, if_pos hs, hq]

theorem bareGuard_stopped {x : Stop} (hs : st.cur < st.eng.params.nSessions)
    (hq : q.eval [] st.eng = .stopped x) : bareGuard code q st = x.outcome := by
  simp only [bareGuard, if_pos hs, hq]

end

/-- Settles O44: what a guarded section in which nothing fails computes (`guardSection_eval`). -/
theorem guardCompletes : Obligations.GuardCompletes := by
  intro st rest img r hs _ hfree hcalls ha
  obtain ⟨h, hrun⟩ := guardSection_eval (s := st.cur) hfree.1 hfree.2 hcalls ha
  exact ⟨h, (exec_guard st).trans (bareGuard_done hs hrun)⟩

/-! ### Waiting for the mutex (R84) -/

section
variable {s : Nat} {e : Engine}

/-- A guarded section waits before its first micro-step. -/
theorem guardSection_wait (h : ¬ (e.arb.mutexExists = true ∧ e.arb.holder = none))
    (body : List PortCall) : (guardSection s body).eval [] e = .blocked [] e :=
  Program.eval_step_wait (acquireOp_wait (e := e.record s 0x35) h)

/-- `FREE` of a session with a saved image waits once it has read its context (R62). -/
theorem freeBody_wait (hph : (e.ctx s).phase ≠ .uninit) (hv : (e.ctx s).imageValid = true)
    (h : ¬ (e.arb.mutexExists = true ∧ e.arb.holder = none)) :
    (freeBody s).eval [] e = .blocked [.ctx (e.ctx s)] e := by
  have hread : (freeBody s).eval [] e = _ := Program.eval_step_next (m := readCtxOp s) rfl
  rw [hread]
  simp only [Program.ret_bind, replyCtx, if_neg hph, if_pos hv]
  exact Program.eval_step_wait (acquireOp_wait h)

end

/-- A command whose checks pass and that has to wait stays in execution, its arguments latched
(R26, R31). -/
theorem runCommand_blocked {i : Instr} {cmd : Command} {st : State} {log : List Reply}
    (h : st.Idle) (hc : cmd.check st.eng.params st.own st.args = none)
    (he : (cmd.body st.eng.params st.cur st.args).eval [] st.eng = .blocked log st.eng) :
    runCommand i cmd st = .next { st with
      run := st.run.set st.cur (some
        { instr := i, args := st.args, before := st.own, log := log }) } := by
  rw [runCommand_of_checks_pass (State.notAdmitted_idle h) hc, he]
  rfl

/-- Settles O43: each of the operations has no step without a free mutex, or stops outside its
precondition. -/
theorem acquireWaits : Obligations.AcquireWaits := by
  refine fun st hs => ⟨fun hwait => ⟨?_, ?_, fun hidle hph hv => ?_, ?_⟩, fun hex => ?_,
    fun hheld => ?_⟩
  · exact (exec_acquire st).trans (bareOp_wait hs (acquireOp_wait hwait))
  · exact (exec_guard st).trans (bareGuard_blocked hs (guardSection_wait hwait _))
  · exact (exec_command (cmd := freeCommand) rfl st).trans
      (runCommand_blocked hidle rfl (Program.eval_bind_blocked (freeBody_wait hph hv hwait) []))
  · exact (exec_mutexDestroy st).trans (bareOp_stop hs (mutexDestroyOp_notFree hwait))
  · exact (exec_mutexCreate st).trans (bareOp_stop hs (mutexCreateOp_exists hex))
  · exact (exec_release st).trans (bareOp_stop hs (releaseOp_notHolder hheld))

/-! ### The engine along a guarded section -/

/-- The engine when session `s` has entered its guarded section (R86). -/
def Engine.entered (e : Engine) (s : Nat) : Engine :=
  { e with
    arb := { e.arb with holder := some s }
    history := ⟨s, 0x22⟩ :: ⟨s, 0x35⟩ :: e.history }

/-- The engine when session `s` has performed the adapter operations with these codes, in order,
each of which has taken an answer, and `img` is live (R45). -/
def Engine.performed (e : Engine) (s : Nat) (codes : List (BitVec 8)) (img : Image) : Engine :=
  { e with
    live := img
    answers := e.answers.drop codes.length
    history := (codes.reverse.map fun c => ⟨s, c⟩) ++ e.history }

/-- The engine when the last of these operations has failed and the guarded section has been left
(R86): any image is live and the mutex is free. -/
def Engine.sectionFailed (e : Engine) (s : Nat) (codes : List (BitVec 8)) : Engine :=
  { e with
    arb := { e.arb with holder := none }
    live := Config.anyImage e.fresh
    fresh := e.fresh + 1
    answers := e.answers.drop codes.length
    history := ⟨s, 0x23⟩ :: (codes.reverse.map fun c => ⟨s, c⟩) ++ e.history }

section
variable {s : Nat} {e : Engine}

@[simp] theorem Engine.performed_live (codes : List (BitVec 8)) (img : Image) :
    (e.performed s codes img).live = img := rfl

@[simp] theorem Engine.performed_arb (codes : List (BitVec 8)) (img : Image) :
    (e.performed s codes img).arb = e.arb := rfl

@[simp] theorem Engine.performed_answers (codes : List (BitVec 8)) (img : Image) :
    (e.performed s codes img).answers = e.answers.drop codes.length := rfl

theorem Engine.performed_performed (codes codes' : List (BitVec 8)) (img img' : Image) :
    (e.performed s codes img).performed s codes' img' = e.performed s (codes ++ codes') img' := by
  simp [Engine.performed]

theorem Engine.performed_sectionFailed (codes codes' : List (BitVec 8)) (img : Image) :
    (e.performed s codes img).sectionFailed s codes' = e.sectionFailed s (codes ++ codes') := by
  simp [Engine.performed, Engine.sectionFailed]

theorem Engine.entered_sectionFailed (hfree : e.arb.holder = none) (codes : List (BitVec 8)) :
    (e.entered s).sectionFailed s codes = { e with
      live := Config.anyImage e.fresh
      fresh := e.fresh + 1
      answers := e.answers.drop codes.length
      history := ⟨s, 0x23⟩ :: (codes.reverse.map fun c => ⟨s, c⟩) ++
        ⟨s, 0x22⟩ :: ⟨s, 0x35⟩ :: e.history } := by
  simp [Engine.entered, Engine.sectionFailed, ← hfree]

/-- A successful port call of the holder. -/
theorem portCallOp_performed {c : PortCall} (hh : e.arb.holder = some s)
    (hw : c.wellFormed = true) (hr : callReady e.live c = true) (ha : e.answer = .done) :
    portCallOp s c e =
      .next (e.performed s [callCode c] (callEffect e.live c).1)
        (.bytes (callEffect e.live c).2) := by
  rw [portCallOp_done hh hw hr (Engine.answers_eq_cons ha)]
  simp [Engine.performed]

/-- The session's own image restored (R86). -/
theorem resumeOwnOp_performed (hh : e.arb.holder = some s) (hv : (e.ctx s).imageValid = true)
    (ha : e.answer = .done) :
    resumeOwnOp s e = .next (e.performed s [0x15] (e.ctx s).image) .unit := by
  rw [resumeOwnOp_valid hv hh (Engine.answers_eq_cons ha)]
  simp [Engine.performed]

/-- The way out of a guarded section after the operation `code` has failed. -/
theorem guardFail_sectionFailed {α : Type} {code : BitVec 8} {c : Cause}
    (hh : e.arb.holder = some s) :
    (guardFail s c : Program α).eval [] (e.record s code).dropAnswer.scrambleLive =
      .raised c (e.sectionFailed s [code]) := by
  rw [guardFail_eval [] (e := (e.record s code).dropAnswer.scrambleLive) hh]
  simp [Engine.record, Engine.dropAnswer, Engine.scrambleLive, Engine.sectionFailed]

/-! ### Where a guarded section fails (R86) -/

/-- Of operations none of which fails, all are performed. -/
theorem length_callsPerformed {l : List PortCall} {img : Image} {a : List Answer}
    (h : callsFailure img l a = none) : (callsPerformed img l a).length = l.length := by
  induction l generalizing img a with
  | nil => rfl
  | cons c l ih =>
    unfold callsFailure at h
    unfold callsPerformed
    split at h
    · next hok => rw [if_pos hok, List.length_cons, List.length_cons, ih h]
    · cases h

/-- A body in which no operation fails, where what follows it raises whatever image it leaves and
whatever its result. -/
theorem guardBody_raised {k : List Byte → Program (List Byte)} {c : Cause} {e' : Engine}
    {l : List PortCall} {r0 : List Byte} (hh : e.arb.holder = some s)
    (hw : ∀ d ∈ l, d.wellFormed = true) (hf : callsFailure e.live l e.answers = none)
    (hk : ∀ r img, (k r).eval [] (e.performed s (callsPerformed e.live l e.answers) img) =
      .raised c e') :
    (guardBody s k l r0).eval [] e = .raised c e' := by
  induction l generalizing e r0 with
  | nil => exact hk r0 e.live
  | cons d l ih =>
    unfold callsFailure at hf
    unfold callsPerformed at hk
    split at hf
    · next hok =>
      rw [if_pos hok] at hk
      refine Program.eval_step_raised
        (portCallOp_performed hh (hw d List.mem_cons_self) hok.2 hok.1) ?_
      refine ih hh (fun d' hd' => hw d' (List.mem_cons_of_mem d hd')) ?_ fun r img => ?_
      · simpa using hf
      · rw [Engine.performed_performed]
        simpa using hk r img
    · cases hf

/-- A guarded section whose `SUSPEND` fails saves no image (R86). -/
theorem guardClose_fails (hh : e.arb.holder = some s) (ha : e.answer ≠ .done) (r : List Byte) :
    (guardClose s r).eval [] e = .raised .suspendFail (e.sectionFailed s [0x14]) :=
  Program.eval_step_raised (adapterOp_failed hh (.inl ha)) (guardFail_sectionFailed hh)

/-- A guarded section whose `RESUME` fails performs nothing of its body (R86). -/
theorem guardSection_resumeFails {body : List PortCall} (h1 : e.arb.mutexExists = true)
    (h2 : e.arb.holder = none) (hv : (e.ctx s).imageValid = true) (ha : e.answer ≠ .done) :
    (guardSection s body).eval [] e =
      .raised .resumeFail ((e.entered s).sectionFailed s [0x15]) := by
  have hresume : resumeOwnOp s (e.entered s) = _ :=
    (if_pos hv).trans (adapterOp_failed (s := s) rfl (.inl ha))
  exact Program.eval_step_raised (guardOpenOp_free h1 h2)
    (Program.eval_step_raised hresume (guardFail_sectionFailed rfl))

end

/-- The codes of the operations that open a guarded section of the current session (R86). -/
def State.openingCodes (st : State) : List (BitVec 8) := if st.own.imageValid then [0x15] else []

/-- The engine when a guarded section of the current session has been opened: its image, if it has
one, is live (R86). -/
def State.opened (st : State) : Engine :=
  (st.eng.entered st.cur).performed st.cur st.openingCodes
    (if st.own.imageValid then st.own.image else st.eng.live)

theorem State.opened_of_saved {st : State} (hv : st.own.imageValid = true) :
    st.opened = (st.eng.entered st.cur).performed st.cur [0x15] st.own.image := by
  simp [State.opened, State.openingCodes, hv]

theorem State.opened_of_unsaved {st : State} (hv : st.own.imageValid = false) :
    st.opened = st.eng.entered st.cur := by
  simp only [State.opened, State.openingCodes, hv, Bool.false_eq_true, if_false]
  rfl

@[simp] theorem State.opened_live (st : State) :
    st.opened.live = if st.own.imageValid then st.own.image else st.eng.live := rfl

@[simp] theorem State.opened_answers (st : State) :
    st.opened.answers = if st.own.imageValid then st.eng.answers.tail else st.eng.answers := by
  cases hv : st.own.imageValid with
  | true => rw [State.opened_of_saved hv, Engine.performed_answers]; exact List.drop_one
  | false => rw [State.opened_of_unsaved hv]; rfl

section
variable {st : State}

/-- The first failure of a guarded section that is opened: that of its body, or that of `SUSPEND`
(R86). -/
theorem State.sectionFailure_of_opened
    (hopen : ¬ (st.own.imageValid = true ∧ st.eng.answer ≠ .done)) :
    st.sectionFailure = (callsFailure st.opened.live st.opnd.body st.opened.answers).or
      (if (st.opened.answers.drop st.opnd.body.length).headD .timedOut ≠ .done
        then some .suspendFail else none) := by
  rw [State.opened_answers, State.opened_live]
  refine (if_neg hopen).trans ?_
  dsimp only
  cases callsFailure (if st.own.imageValid then st.own.image else st.eng.live) st.opnd.body
    (if st.own.imageValid then st.eng.answers.tail else st.eng.answers) <;> rfl

/-- What a guarded section that is opened performs: `SUSPEND` only after a body that has not failed
(R86). -/
theorem State.sectionPerformed_of_opened
    (hopen : ¬ (st.own.imageValid = true ∧ st.eng.answer ≠ .done)) :
    st.sectionPerformed = st.openingCodes ++
      (callsPerformed st.opened.live st.opnd.body st.opened.answers ++
        if (callsFailure st.opened.live st.opnd.body st.opened.answers).isSome then []
        else [0x14]) := by
  rw [State.opened_answers, State.opened_live, ← List.append_assoc]
  exact if_neg hopen

/-- After the section is opened, what fails there fails after the operations that opened it. -/
theorem State.opened_sectionFailed (codes : List (BitVec 8)) :
    st.opened.sectionFailed st.cur codes =
      (st.eng.entered st.cur).sectionFailed st.cur (st.openingCodes ++ codes) :=
  Engine.performed_sectionFailed _ _ _

/-- The session's own image is restored, if it has one, unless `RESUME` fails (R86). -/
theorem resumeOwnOp_opened (hopen : ¬ (st.own.imageValid = true ∧ st.eng.answer ≠ .done)) :
    resumeOwnOp st.cur (st.eng.entered st.cur) = .next st.opened .unit := by
  cases hv : st.own.imageValid with
  | true =>
    have ha : st.eng.answer = .done := of_not_not fun h => hopen ⟨hv, h⟩
    rw [State.opened_of_saved hv]
    exact resumeOwnOp_performed (e := st.eng.entered st.cur) rfl hv ha
  | false =>
    rw [State.opened_of_unsaved hv]
    exact resumeOwnOp_none (e := st.eng.entered st.cur) hv

/-- A guarded section that is opened raises what its body does. -/
theorem guardSection_raised {body : List PortCall} {c : Cause} {e' : Engine} (hfree : st.MutexFree)
    (hopen : ¬ (st.own.imageValid = true ∧ st.eng.answer ≠ .done))
    (hk : (guardBody st.cur (guardClose st.cur) body []).eval [] st.opened = .raised c e') :
    (guardSection st.cur body).eval [] st.eng = .raised c e' :=
  Program.eval_step_raised (guardOpenOp_free hfree.1 hfree.2)
    (Program.eval_step_raised (resumeOwnOp_opened hopen) hk)

/-- A guarded section that fails raises the cause of its first failure, and what it has performed up
to there is all it has performed (R86): `RESUME` alone, part of the body, or the body and
`SUSPEND`. -/
theorem guardSection_fails {c : Cause} (hfree : st.MutexFree)
    (hw : ∀ d ∈ st.opnd.body, d.wellFormed = true) (hf : st.sectionFailure = some c) :
    (guardSection st.cur st.opnd.body).eval [] st.eng =
      .raised c ((st.eng.entered st.cur).sectionFailed st.cur st.sectionPerformed) := by
  by_cases hopen : st.own.imageValid = true ∧ st.eng.answer ≠ .done
  · have hcause : st.sectionFailure = some .resumeFail := if_pos hopen
    have hcodes : st.sectionPerformed = [0x15] := if_pos hopen
    cases hcause.symm.trans hf
    rw [hcodes]
    exact guardSection_resumeFails hfree.1 hfree.2 hopen.1 hopen.2
  · rw [State.sectionFailure_of_opened hopen] at hf
    rw [State.sectionPerformed_of_opened hopen, ← State.opened_sectionFailed]
    refine guardSection_raised hfree hopen ?_
    cases hcalls : callsFailure st.opened.live st.opnd.body st.opened.answers with
    | some cause =>
      rw [hcalls] at hf
      cases hf
      rw [Option.isSome_some, if_pos rfl, List.append_nil]
      exact guardBody_fails st.opnd.body st.opened [] [] rfl hw hcalls
    | none =>
      rw [hcalls, Option.none_or] at hf
      split at hf
      · next ha =>
        cases hf
        refine guardBody_raised rfl hw hcalls fun r img => ?_
        rw [← length_callsPerformed hcalls] at ha
        rw [Option.isSome_none, if_neg Bool.false_ne_true, ← Engine.performed_sectionFailed]
        exact guardClose_fails (e := st.opened.performed st.cur
          (callsPerformed st.opened.live st.opnd.body st.opened.answers) img) rfl ha r
      · cases hf

/-- An operation outside its domain at the head of the body of a guarded section (log 17). -/
theorem guardSection_shape {c : PortCall} {l : List PortCall} (hfree : st.MutexFree)
    (hw : c.wellFormed = false) (hv : st.own.imageValid = false) :
    (guardSection st.cur (c :: l)).eval [] st.eng = .stopped (.refused .operandShape) := by
  have hopen : ¬ (st.own.imageValid = true ∧ st.eng.answer ≠ .done) :=
    fun h => Bool.false_ne_true (hv.symm.trans h.1)
  refine (Program.eval_step_next (guardOpenOp_free hfree.1 hfree.2)).trans ?_
  refine (Program.eval_step_next (resumeOwnOp_opened hopen)).trans ?_
  exact Program.eval_step_stop (portCallOp_shape hw)

end

/-- Settles O45: where the section fails (`guardSection_fails`), the mutex being free again; and an
operation that is refused (`guardSection_shape`). -/
theorem guardReportsFirstFailure : Obligations.GuardReportsFirstFailure := by
  refine fun st hs hfree => ⟨fun cause hw hf => ?_, fun c l hbody hw hv => ?_⟩
  · rw [← Engine.entered_sectionFailed hfree.2]
    exact (exec_guard st).trans (bareGuard_raised hs (guardSection_fails hfree hw hf))
  · have hstop := guardSection_shape (l := l) hfree hw hv
    rw [← hbody] at hstop
    exact (exec_guard st).trans (bareGuard_stopped hs hstop)

end Sys2Proof.Machine
end

section
/-! `PREVALIDATE` and `TAG_VERIFY` (45_verify_and_composites.md R89, R90): the status of the first check
of a composite that fails, and the comparison performed by itself. -/

namespace Sys2Proof.Machine

/-! ### `PREVALIDATE` -/

/-- One more buffer's range is checked before others, and all report `ADDR_RANGE` (R20, R101). -/
theorem checksStatus_range_cons (p : Params) (a : W64) (n : Nat) {l : List (Bool × Cause)}
    {P : Prop} [Decidable P] (hl : checksStatus l = if P then 0x0B1 else 0) :
    checksStatus ((!rangeOk p a n, .addrRange) :: l) =
      if ¬ fits p a.toNat n ∨ P then 0x0B1 else 0 :=
  (checksStatus_cons (not_rangeOk_iff p a n) rfl hl).trans (ite_ite_same ..)

/-- Both composites are checked by `PREVALIDATE` of their operands (R90 to R92). -/
theorem exists_command_check_eq_prevalidate {i : Instr} {args : Args} {o : CompositeOperands}
    (h : (∃ dir, i = .cryptAndTag dir) ∧ o = cryptAndTagOperands args ∨
      i = .authDecrypt ∧ o = authDecryptOperands args) (p : Params) (x : Ctx) :
    ∃ cmd, commandOf i = some cmd ∧ cmd.check p x args = prevalidate p x o := by
  rcases h with ⟨⟨dir, rfl⟩, rfl⟩ | ⟨rfl, rfl⟩
  · exact ⟨cryptAndTagCommand dir, rfl, rfl⟩
  · exact ⟨authDecryptCommand, rfl, rfl⟩

/-- Settles O33: each check of `PREVALIDATE` is one condition of the chain (`checksStatus_cons`), the
five ranges together one (`checksStatus_range_cons`). -/
theorem compositeRejections : Obligations.CompositeRejections := by
  intro i st o status hidle hi hs hne
  obtain ⟨cmd, hcmd, hcheck⟩ :=
    exists_command_check_eq_prevalidate hi st.eng.params st.own
  refine exec_rejected hcmd hidle hcheck (Eq.trans ?_ hs.symm) hne
  exact checksStatus_cons (by simp [acceptsPhase, or_iff_not_imp_left]) rfl <|
    checksStatus_cons (by simp) rfl <| checksStatus_cons decide_eq_true_iff rfl <|
    checksStatus_cons (overlaps_iff _ _ _) rfl <| checksStatus_cons decide_eq_true_iff rfl <|
    checksStatus_tagLen <| checksStatus_range_cons _ _ _ <| checksStatus_range_cons _ _ _ <|
    checksStatus_range_cons _ _ _ <| checksStatus_range_cons _ _ _ <| checksStatus_range _ _ _

/-! ### `TAG_VERIFY` performed by itself -/

theorem exec_tagVerify (st : State) : exec .tagVerify st =
    bareOp 0x34 (if st.opnd.n ≤ st.opnd.a.length ∧ st.opnd.n ≤ st.opnd.b.length
      then tagVerifyOp st.cur st.opnd.a st.opnd.b st.opnd.n
      else fun _ => .stop (.refused .operandShape)) st := rfl

/-- Settles O52: the difference bits are all clear when the bytes are equal
(`tagVerify_eq_decide`). -/
theorem tagVerifyIsEquality : Obligations.TagVerifyIsEquality := by
  refine fun st hs => ⟨fun ha hb => ?_, fun hshort => ?_⟩
  · rw [exec_tagVerify, if_pos ⟨ha, hb⟩, ← tagVerify_eq_decide ha hb]
    exact bareOp_next hs rfl
  · rw [exec_tagVerify, if_neg (by omega)]
    exact bareOp_stop (x := .refused .operandShape) hs rfl

end Sys2Proof.Machine
end

section
/-! No unauthenticated plaintext (45_verify_and_composites.md R92; 60_exceptions.md R97 to R99): an
`AUTH_DECRYPT` writes only in its output buffer, and zeroes it before it raises. -/

namespace Sys2Proof.Machine

/-! ### Memory that has changed in one buffer only -/

/-- Memory `m'` is in canonical form and reads as `m` does outside the `n` bytes from `b` on. -/
structure Memory.SameOutside (b n : Nat) (m m' : Memory) : Prop where
  wf : m'.wf = true
  read : ∀ x, x < b ∨ b + n ≤ x → m'.read x = m.read x

section
variable {b n : Nat} {m m' m'' : Memory}

theorem Memory.SameOutside.of_eq (h : m' = m) (hw : m.wf = true) : m.SameOutside b n m' :=
  ⟨h ▸ hw, fun _ _ => h ▸ rfl⟩

theorem Memory.SameOutside.trans (h : m.SameOutside b n m') (h' : m'.SameOutside b n m'') :
    m.SameOutside b n m'' :=
  ⟨h'.wf, fun x hx => (h'.read x hx).trans (h.read x hx)⟩

theorem Memory.sameOutside_write (hw : m.wf = true) {a : Nat} (hb : b ≤ a) (ha : a < b + n)
    (v : Byte) : m.SameOutside b n (m.write a v) :=
  ⟨Memory.wf_write m hw a v, fun x hx => by rw [Memory.read_write m hw, if_neg (by omega)]⟩

/-- Writing the whole buffer makes up for the change in it. -/
theorem Memory.SameOutside.writeBytes_eq (h : m.SameOutside b n m') (hw : m.wf = true)
    {l : List Byte} (hl : l.length = n) : m'.writeBytes b l = m.writeBytes b l := by
  refine Memory.ext_of_wf _ _ (Memory.wf_writeBytes m' h.wf b l) (Memory.wf_writeBytes m hw b l)
    fun x => ?_
  rw [Memory.read_writeBytes m' h.wf, Memory.read_writeBytes m hw]
  by_cases hx : b ≤ x ∧ x < b + l.length
  · rw [if_pos hx, if_pos hx]
  · rw [if_neg hx, if_neg hx, h.read x (by omega)]

end

/-! ### Programs that write in one buffer only -/

/-- A program that writes memory in the `n` bytes from `b` on only, and whose result, where it is
done, satisfies `Q`. -/
inductive Program.WritesIn {α : Type} (b n : Nat) (Q : α → Prop) : Program α → Prop
  | ret (a : α) (h : Q a) : Program.WritesIn b n Q (.ret a)
  | raise (c : Cause) : Program.WritesIn b n Q (.raise c)
  | step (m : Engine → Micro) (k : Reply → Program α) (P : Reply → Prop)
      (hm : ∀ e e' r, e.mem.wf = true → m e = .next e' r → e.mem.SameOutside b n e'.mem ∧ P r)
      (hk : ∀ r, P r → Program.WritesIn b n Q (k r)) : Program.WritesIn b n Q (.step m k)

/-- Everything but memory. -/
def Writable.notMem : Writable := ⟨true, true, false⟩

section
variable {α β : Type} {b n s : Nat} {Q : α → Prop}

theorem Program.WritesIn.bind {R : β → Prop} {q : Program α} {f : α → Program β}
    (h : q.WritesIn b n Q) (hf : ∀ a, Q a → (f a).WritesIn b n R) : (q.bind f).WritesIn b n R := by
  induction h with
  | ret a h => exact hf a h
  | raise c => exact .raise c
  | step m k P hm _ ih => exact .step m _ P hm ih

/-- A handler that itself writes in the buffer only. -/
theorem Program.WritesIn.onRaise {q : Program α} {h : Program Unit} (hq : q.WritesIn b n Q)
    (hh : h.WritesIn b n fun _ => True) : (Program.onRaise h q).WritesIn b n Q := by
  induction hq with
  | ret a h => exact .ret a h
  | raise c => exact hh.bind fun _ _ => .raise c
  | step m k P hm _ ih => exact .step m _ P hm ih

theorem Program.WritesIn.forEach {f : β → Program Unit} {l : List β}
    (h : ∀ x ∈ l, (f x).WritesIn b n fun _ => True) :
    (Program.forEach f l).WritesIn b n fun _ => True := by
  induction l with
  | nil => exact .ret _ trivial
  | cons x rest ih =>
    exact (h x (by simp)).bind fun _ _ => ih fun y hy => h y (by simp [hy])

/-- A micro-step that writes no memory, and whose reply is not used. -/
theorem Program.WritesIn.plain {m : Engine → Micro} {k : Reply → Program α}
    (hm : WritesOnly .notMem s m) (hk : ∀ r, (k r).WritesIn b n Q) :
    (Program.step m k).WritesIn b n Q :=
  .step m k (fun _ => True)
    (fun e e' r hw h => ⟨.of_eq ((hm e e' r h).mem rfl) hw, trivial⟩) fun r _ => hk r

/-- A program that writes no memory. -/
theorem Program.All.writesIn {q : Program α} (h : q.All (WritesOnly .notMem s)) :
    q.WritesIn b n fun _ => True := by
  induction h with
  | ret a => exact .ret a trivial
  | raise c => exact .raise c
  | step m k hm _ ih => exact .plain hm ih

/-- What such a program leaves of memory, wherever its run ends. -/
theorem Program.WritesIn.eval {q : Program α} (h : q.WritesIn b n Q) {log : List Reply}
    {e e' : Engine} (hw : e.mem.wf = true) (he : (q.eval log e).engine? = some e') :
    e.mem.SameOutside b n e'.mem := by
  induction h generalizing e log with
  | ret a h => cases he; exact .of_eq rfl hw
  | raise c => cases he; exact .of_eq rfl hw
  | step m k P hm _ ih =>
    cases hx : m e with
    | next e1 r =>
      rw [Program.eval_step_next hx] at he
      obtain ⟨h1, hr⟩ := hm e e1 r hw hx
      exact h1.trans (ih r hr h1.wf he)
    | wait =>
      rw [Program.eval_step_wait hx] at he
      cases he
      exact .of_eq rfl hw
    | stop x =>
      rw [Program.eval_step_stop hx] at he
      cases he

/-- A program that writes no memory leaves it as it was, wherever its run ends. -/
theorem Program.All.mem_eq {q : Program α} (h : q.All (WritesOnly .notMem s)) {log : List Reply}
    {e e' : Engine} (he : (q.eval log e).engine? = some e') : e'.mem = e.mem := by
  have hwrote : e.WroteOnly .notMem s e' :=
    h.eval (fun _ => .refl) (fun _ _ _ => .trans) log he
  exact hwrote.mem rfl

/-! ### Contexts and bytes of memory -/

theorem setCtx_writesIn (f : Ctx → Ctx) : (setCtx s f).WritesIn b n fun _ => True :=
  (setCtx_writesOnly (w := .notMem) nofun).writesIn

theorem length_replyBytes_of_readByteOp {a : Nat} {e e' : Engine} {r : Reply}
    (h : readByteOp a e = .next e' r) : (replyBytes r).length = 1 := by
  unfold readByteOp at h
  split at h <;> cases h
  rfl

theorem memRead_writesIn (a k : Nat) : (memRead a k).WritesIn b n fun l => l.length = k := by
  induction k generalizing a with
  | zero => exact .ret _ rfl
  | succ k ih =>
    refine .step _ _ (fun r => (replyBytes r).length = 1) (fun e e' r hw h => ?_) fun r hr =>
      (ih (a + 1)).bind fun l hl => .ret _ (by rw [List.length_append, hr, hl, Nat.add_comm])
    exact ⟨.of_eq (congrArg _ (readByteOp_eq_next h)) hw, length_replyBytes_of_readByteOp h⟩

theorem memWrite_writesIn {a : Nat} {l : List Byte} (hb : b ≤ a) (ha : a + l.length ≤ b + n) :
    (memWrite a l).WritesIn b n fun _ => True := by
  induction l generalizing a with
  | nil => exact .ret _ trivial
  | cons v rest ih =>
    rw [List.length_cons] at ha
    refine .step _ _ (fun _ => True) (fun e e' r hw h => ?_) fun _ _ => ih (by omega) (by omega)
    rw [writeByteOp_eq_next h]
    exact ⟨Memory.sameOutside_write hw hb (by omega) v, trivial⟩

/-- Reading memory never raises: an address outside it stops the model (R20). -/
theorem memRead_not_raised {a k : Nat} {e e' : Engine} {c : Cause} :
    (memRead a k).eval [] e ≠ .raised c e' := by
  induction k generalizing a e with
  | zero => exact nofun
  | succ k ih =>
    intro h
    obtain ⟨e1, r, -, h⟩ := Program.eval_step_eq_raised.1 h
    obtain h | ⟨l, e2, -, h⟩ := Program.eval_bind_eq_raised.1 h
    · exact ih h
    · cases h

/-- A raise after a string is written: the string is in memory. -/
theorem mem_of_memWrite_raise {a : Nat} {l : List Byte} {d c : Cause} {e e' : Engine}
    (h : ((memWrite a l).bind fun _ => (.raise d : Program α)).eval [] e = .raised c e') :
    e'.mem = e.mem.writeBytes a l := by
  induction l generalizing a e with
  | nil => cases h; rfl
  | cons v rest ih =>
    obtain ⟨e1, r, hm, h⟩ := Program.eval_step_eq_raised.1 h
    rw [ih h, writeByteOp_eq_next hm]
    rfl

/-! ### The result of a guarded section (R86) -/

/-- A port operation that does not fail gives the bytes of its closed form (R41 to R43, R48 to
R51). -/
theorem replyBytes_of_portCallOp {c : PortCall} {e e' : Engine} {r : Reply}
    (h : portCallOp s c e = .next e' r) (hr : replyFailure r = none) :
    replyBytes r = (callEffect e.live c).2 := by
  cases hw : c.wellFormed with
  | false => rw [portCallOp_shape hw] at h; cases h
  | true =>
    rw [portCallOp_eq hw] at h
    rcases adapterOp_cases s (callCode c) (callReady e.live c) dataFailure
      (fun _ => ({ (e.record s (callCode c)).dropAnswer with live := (callEffect e.live c).1 },
        .bytes (callEffect e.live c).2)) e with ⟨-, -, -, h'⟩ | ⟨-, -, h'⟩ | ⟨-, h'⟩ <;>
      rw [h'] at h <;> cases h
    · rfl
    · cases hr

variable {P : List Byte → Prop} {c : PortCall}

theorem guardFail_writesIn (c : Cause) : (guardFail s c : Program α).WritesIn b n Q :=
  .plain writesOnly_release fun _ => .raise c

theorem guardClose_writesIn {r : List Byte} (hr : P r) : (guardClose s r).WritesIn b n P := by
  refine .plain (s := s) (writesOnly_of_same fun _ _ _ => suspendOp_same) fun rep => ?_
  split
  · exact guardFail_writesIn _
  · exact .plain (writesOnly_updateCtx fun _ _ => rfl) fun _ =>
      .plain writesOnly_release fun _ => .ret r hr

/-- The last operation of the body gives the result. -/
theorem guardBody_writesIn (hP : ∀ img, P (callEffect img c).2) (body : List PortCall)
    (r : List Byte) : (guardBody s (guardClose s) (body ++ [c]) r).WritesIn b n P := by
  induction body generalizing r with
  | nil =>
    refine .step _ _ (fun rep => replyFailure rep = none → P (replyBytes rep))
      (fun e e' rep hw h => ?_) fun rep hrep => ?_
    · obtain ⟨-, -, -, hmem⟩ := portCallOp_same h
      exact ⟨.of_eq hmem hw, fun hr => replyBytes_of_portCallOp h hr ▸ hP _⟩
    · cases hf : replyFailure rep with
      | some cause => exact guardFail_writesIn _
      | none => exact guardClose_writesIn (hrep hf)
  | cons d rest ih =>
    refine .plain (s := s) (writesOnly_of_same fun _ _ _ => portCallOp_same) fun rep => ?_
    split
    · exact guardFail_writesIn _
    · exact ih _

theorem guardSection_writesIn (hP : ∀ img, P (callEffect img c).2) (body : List PortCall) :
    (guardSection s (body ++ [c])).WritesIn b n P := by
  refine .plain (s := s) (fun e e' r h => ?_) fun _ =>
    .plain (s := s) (writesOnly_of_same fun _ _ _ => resumeOwnOp_same) fun rep => ?_
  · exact .trans (e' := e.record s 0x35) (.of_eq rfl rfl rfl) (writesOnly_acquire _ e' r h)
  split
  · exact guardFail_writesIn _
  · exact guardBody_writesIn hP body []

/-- The result of a pass is that of its operation, whether or not a header rides on it (R77). -/
theorem hwPass_writesIn (hP : ∀ img, P (callEffect img c).2) : (hwPass s c).WritesIn b n P := by
  refine getCtx_writesOnly.writesIn.bind fun x _ => ?_
  split
  · exact (memRead_writesIn _ _).bind fun h _ =>
      (guardSection_writesIn hP [.gcmHeader h]).bind fun r hr =>
      (setCtx_writesIn _).bind fun _ _ => .ret r hr
  · exact guardSection_writesIn hP []

/-! ### `UPDATE` writes in its output buffer only (R68, R78) -/

/-- Each piece ends within the call (R23). -/
theorem PieceChain.end_le {off k p0 : Nat} {l : List Piece} (h : PieceChain off k p0 l) :
    ∀ q ∈ l, q.p + q.use ≤ k := by
  induction l generalizing p0 with
  | nil => exact nofun
  | cons q0 rest ih =>
    obtain ⟨hp, -, -, -, -, -, hrest⟩ := h
    refine List.forall_mem_cons.2 ⟨?_, ih hrest⟩
    rw [hp]
    exact hrest.le

theorem updateAlignedA_writesIn {input output k : Nat} (hb : b ≤ output)
    (hk : output + k ≤ b + n) :
    (updateAlignedA s input output k).WritesIn b n fun _ => True :=
  (memRead_writesIn input k).bind fun d hd =>
    (hwPass_writesIn (P := fun o => o.length = k) fun img =>
      (length_callEffect_payload img d 0).trans hd).bind fun o ho =>
    (memWrite_writesIn hb (by rw [ho]; exact hk)).bind fun _ _ =>
    (Program.All.do_ (writesOnly_incY (s := s) _)).writesIn.bind fun _ _ =>
    setCtx_writesIn _

theorem updateRemainderA_writesIn {input output k : Nat} (hb : b ≤ output)
    (hk : output + k ≤ b + n) :
    (updateRemainderA s input output k).WritesIn b n fun _ => True := by
  refine (memRead_writesIn input k).bind fun d _ =>
    (hwPass_writesIn (P := fun _ => True) fun _ => trivial).bind fun o _ =>
    (memWrite_writesIn hb ?_).bind fun _ _ =>
    (Program.All.do_ (writesOnly_incY (s := s) _)).writesIn.bind fun _ _ =>
    setCtx_writesIn _
  have htake := List.length_take_le k o
  omega

theorem payloadPieceB_writesIn (policy : PartialPolicy) {input output : Nat} {q : Piece}
    (hb : b ≤ output) (hq : output + (q.p + q.use) ≤ b + n) :
    (payloadPieceB policy s input output q).WritesIn b n fun _ => True := by
  refine .bind (Q := fun _ => True) ?_ fun _ _ => getCtx_writesOnly.writesIn.bind fun x _ =>
    (guardSection_writesOnly _).writesIn.bind fun ks _ =>
    (memRead_writesIn (input + q.p) q.use).bind fun d hd =>
    (setCtx_writesIn _).bind fun _ _ =>
    (memWrite_writesIn (by omega) ?_).bind fun _ _ =>
    (setCtx_writesIn _).bind fun _ _ => (multBufIf_writesOnly _).writesIn
  · split
    · exact (Program.All.do_ (writesOnly_incY (s := s) 1)).writesIn
    · exact .ret _ trivial
  · rw [length_xorBytes, hd]
    omega

theorem updatePart_writesIn (p : Params) (input k output : W64) :
    (updatePart p s input k output).WritesIn output.toNat k.toNat fun _ => True := by
  unfold updatePart
  split
  · refine (setCtx_writesIn _).bind fun _ _ => .bind (Q := fun _ => True) ?_ fun _ _ => ?_
    · split
      · exact .ret _ trivial
      · exact updateAlignedA_writesIn (Nat.le_refl _) (by omega)
    · split
      · exact .ret _ trivial
      · exact updateRemainderA_writesIn (by omega) (by omega)
  · refine getCtx_writesOnly.writesIn.bind fun x _ => .bind (Q := fun _ => True) ?_ fun _ _ =>
      .forEach fun q hq => payloadPieceB_writesIn _ (Nat.le_refl _)
        (Nat.add_le_add_left ((pieces_chain _ _ _).end_le q hq) _)
    split
    · exact .ret _ trivial
    · exact (Program.All.do_ writesOnly_closeAad).writesIn.bind fun _ _ =>
        setCtx_writesIn _

end

/-! ### An `AUTH_DECRYPT` that does not end with `OK` -/

/-- A raise that has been handled: the program has raised, and the handler has run (R92). -/
theorem Program.raised_of_onRaise {α : Type} {h : Program Unit} {q : Program α} {e e' : Engine}
    {c : Cause} (hr : (Program.onRaise h q).eval [] e = .raised c e') :
    ∃ d e1, q.eval [] e = .raised d e1 ∧
      (h.bind fun _ => (.raise d : Program α)).eval [] e1 = .raised c e' := by
  induction q generalizing e with
  | ret a => cases hr
  | raise d => exact ⟨d, e, rfl, hr⟩
  | step m k ih =>
    obtain ⟨e1, r, hm, hk⟩ := Program.eval_step_eq_raised.1 hr
    obtain ⟨d, e2, hq, hh⟩ := ih r hk
    exact ⟨d, e2, Program.eval_step_raised hm hq, hh⟩

/-- The part of `AUTH_DECRYPT` that writes the output and computes the tag (R92). -/
def decryptPart (p : Params) (s : Nat) (o : CompositeOperands) : Program (List Byte) :=
  (updatePart p s o.input o.length o.output).bind fun _ => finishTag p s

/-- The part of `AUTH_DECRYPT` that compares the tag it has computed with the one in memory (R92). -/
def verifyPart (s : Nat) (o : CompositeOperands) (t : List Byte) : Program (Option W64) :=
  (finishClose s o.tagLen).bind fun _ =>
  (memRead o.tag.toNat o.tagLen.toNat).bind fun expected =>
  .step (tagVerifyOp s t expected o.tagLen.toNat) fun r =>
    if replyVerdict r then .ret (some o.length)
    else (zeroOutput o).bind fun _ => .raise .tagMismatch

theorem authDecryptCommand_body (p : Params) (s : Nat) (args : Args) :
    authDecryptCommand.body p s args =
      let o := authDecryptOperands args
      (startsPart p s .dec o.iv).bind fun _ => (updateAdPart p s o.aad o.aadLen).bind fun _ =>
        (Program.onRaise (zeroOutput o) (decryptPart p s o)).bind (verifyPart s o) := rfl

section
variable {p : Params} {s : Nat} {e e' : Engine} {c : Cause} {o : CompositeOperands}

theorem decryptPart_writesIn :
    (decryptPart p s o).WritesIn o.output.toNat o.length.toNat fun _ => True :=
  (updatePart_writesIn p _ _ _).bind fun _ _ => (finishTag_writesOnly p).writesIn

theorem zeroOutput_writesIn :
    (zeroOutput o).WritesIn o.output.toNat o.length.toNat fun _ => True :=
  memWrite_writesIn (Nat.le_refl _) (by rw [List.length_replicate])

/-- A failure while the output is written and the tag is computed: the output has been zeroed
(R92, R98). -/
theorem mem_of_decryptPart_raised (hw : e.mem.wf = true)
    (h : (Program.onRaise (zeroOutput o) (decryptPart p s o)).eval [] e = .raised c e') :
    e'.mem = e.mem.writeBytes o.output.toNat (List.replicate o.length.toNat 0) := by
  obtain ⟨d, e1, hq, hzero⟩ := Program.raised_of_onRaise h
  have hsame := decryptPart_writesIn.eval hw (by rw [hq]; rfl)
  rw [mem_of_memWrite_raise hzero, hsame.writeBytes_eq hw List.length_replicate]

/-- A wrong tag: the output has been zeroed (R92, R99). -/
theorem mem_of_verifyPart_raised {t : List Byte}
    (h : (verifyPart s o t).eval [] e = .raised c e') :
    e'.mem = e.mem.writeBytes o.output.toNat (List.replicate o.length.toNat 0) := by
  obtain h | ⟨_, e1, hclose, h⟩ := Program.eval_bind_eq_raised.1 h
  · cases h
  obtain h | ⟨expected, e2, hread, h⟩ := Program.eval_bind_eq_raised.1 h
  · exact absurd h memRead_not_raised
  obtain ⟨e3, r, hverify, h⟩ := Program.eval_step_eq_raised.1 h
  have hmem : e3.mem = e.mem := by
    have hmem2 : e2.mem = e1.mem :=
      (memRead_writesOnly (s := s) _ _).mem_eq (log := []) (by rw [hread]; rfl)
    cases hclose
    cases hverify
    exact hmem2
  split at h
  · cases h
  · rw [mem_of_memWrite_raise h, hmem]

/-- An `AUTH_DECRYPT` whose micro-steps raise leaves memory as it was, before its output is written,
or with its output zeroed. -/
theorem mem_of_authDecrypt_raised {args : Args} (ho : o = authDecryptOperands args)
    (hw : e.mem.wf = true) (h : (authDecryptCommand.body p s args).eval [] e = .raised c e') :
    e'.mem = e.mem ∨
      e'.mem = e.mem.writeBytes o.output.toNat (List.replicate o.length.toNat 0) := by
  have hstart {e e' : Engine} {dir : Direction}
      (he : ((startsPart p s dir o.iv).eval [] e).engine? = some e') : e'.mem = e.mem :=
    (startsPart_writesOnly p dir o.iv).mem_eq he
  have haad {e e' : Engine}
      (he : ((updateAdPart p s o.aad o.aadLen).eval [] e).engine? = some e') : e'.mem = e.mem :=
    (updateAdPart_writesOnly p o.aad o.aadLen).mem_eq he
  rw [authDecryptCommand_body, ← ho] at h
  obtain h | ⟨_, e1, h1, h⟩ := Program.eval_bind_eq_raised.1 h
  · exact .inl (hstart (by rw [h]; rfl))
  have hmem1 : e1.mem = e.mem := hstart (by rw [h1]; rfl)
  obtain h | ⟨_, e2, h2, h⟩ := Program.eval_bind_eq_raised.1 h
  · exact .inl ((haad (by rw [h]; rfl)).trans hmem1)
  have hmem2 : e2.mem = e.mem := (haad (by rw [h2]; rfl)).trans hmem1
  rw [← hmem2] at hw ⊢
  obtain h | ⟨t, e3, h3, h⟩ := Program.eval_bind_eq_raised.1 h
  · exact .inr (mem_of_decryptPart_raised hw h)
  · have hsame := (decryptPart_writesIn.onRaise zeroOutput_writesIn).eval hw (by rw [h3]; rfl)
    rw [mem_of_verifyPart_raised h, hsame.writeBytes_eq hw List.length_replicate]
    exact .inr rfl

end

/-- Settles O26: a failed check and a failure before the output is written leave memory as it was; any
other raise has zeroed the output (`mem_of_authDecrypt_raised`). -/
theorem authDecryptReleasesNothing : Obligations.AuthDecryptReleasesNothing := by
  intro st t hidle hw h hdone hstatus
  have hmbox : st.cur < st.mbox.length := by rw [hidle.shaped.mbox]; exact hidle.exists_
  have hrun : st.cur < st.run.length := by rw [hidle.shaped.run]; exact hidle.exists_
  rw [exec_command (cmd := authDecryptCommand) rfl] at h
  obtain ⟨-, -, ⟨c, -, rfl⟩ | ⟨-, ⟨out, e, -, rfl⟩ | ⟨c, e, he, rfl⟩ | ⟨l, e, -, rfl⟩⟩⟩ :=
    runCommand_next h
  · exact .inl (State.raise_shared st _ _ c).2
  · exact absurd (State.completeOk_status (st := { st with eng := e }) out hmbox) hstatus
  · rw [(State.raise_shared { st with eng := e } _ _ c).2]
    exact mem_of_authDecrypt_raised rfl hw he
  · rw [State.inFlight_setRun_self { st with eng := e } _ _ hrun] at hdone
    cases hdone

end Sys2Proof.Machine
end

section
/-! `BadInput` and `UnsupportedFeature` (60_exceptions.md R97): a failed check changes `STATUS` and
`OUT_LEN` only, and the micro-steps of a command raise no cause of these two classes, whatever the
accelerator answers. -/

namespace Sys2Proof.Machine

/-! ### Failures of port operations (R45, R96) -/

/-- Where a micro-step replies with a failure, its cause is a hardware failure. -/
def FailsByHardware (m : Engine → Micro) : Prop :=
  ∀ e e' r c, m e = .next e' r → replyFailure r = some c → causeClass c = .hardwareFailure

section
variable {s : Nat}

theorem causeClass_dataFailure (a : Answer) : causeClass (dataFailure a) = .hardwareFailure := by
  cases a <;> rfl

theorem causeClass_of_adapterOp {code : BitVec 8} {ready : Bool} {failure : Answer → Cause}
    {run : Engine → Engine × Reply} {e e' : Engine} {r : Reply} {c : Cause}
    (hrun : ∀ e1, replyFailure (run e1).2 = none)
    (hfailure : ∀ a, causeClass (failure a) = .hardwareFailure)
    (h : adapterOp s code ready failure run e = .next e' r) (hr : replyFailure r = some c) :
    causeClass c = .hardwareFailure := by
  rcases adapterOp_cases s code ready failure run e with ⟨-, -, -, h'⟩ | ⟨-, -, h'⟩ | ⟨-, h'⟩ <;>
    rw [h'] at h <;> cases h
  · rw [hrun] at hr; cases hr
  · cases hr; exact hfailure _

theorem failsByHardware_portCall (call : PortCall) : FailsByHardware (portCallOp s call) := by
  intro e e' r c h
  cases hw : call.wellFormed with
  | false => rw [portCallOp_shape hw] at h; cases h
  | true =>
    rw [portCallOp_eq hw] at h
    exact causeClass_of_adapterOp (fun _ => rfl) causeClass_dataFailure h

theorem failsByHardware_suspend : FailsByHardware (suspendOp s) := fun _ _ _ _ =>
  causeClass_of_adapterOp (fun _ => rfl) fun _ => rfl

theorem failsByHardware_resumeOwn : FailsByHardware (resumeOwnOp s) := by
  intro e e' r c h hr
  unfold resumeOwnOp at h
  split at h
  · exact causeClass_of_adapterOp (fun _ => rfl) (fun _ => rfl) h hr
  · cases h; cases hr

end

/-! ### Programs that raise no cause of a check -/

/-- Whatever the engine is, a run of the program that raises does so with a hardware failure or a
failed authentication. -/
def Program.RaisesLate {α : Type} (q : Program α) : Prop :=
  ∀ e c e', q.eval [] e = .raised c e' →
    causeClass c = .hardwareFailure ∨ causeClass c = .authenticationFailed

section
variable {α β : Type}

theorem Program.RaisesLate.ret (a : α) : (Program.ret a).RaisesLate :=
  fun _ _ _ h => by cases h

theorem Program.RaisesLate.raise {c : Cause}
    (hc : causeClass c = .hardwareFailure ∨ causeClass c = .authenticationFailed) :
    (Program.raise c : Program α).RaisesLate := fun _ _ _ h => by cases h; exact hc

theorem Program.RaisesLate.step {m : Engine → Micro} {k : Reply → Program α}
    (hk : ∀ e e' r, m e = .next e' r → (k r).RaisesLate) : (Program.step m k).RaisesLate := by
  intro e c e' h
  obtain ⟨e1, r, hm, h⟩ := Program.eval_step_eq_raised.1 h
  exact hk e e1 r hm e1 c e' h

theorem Program.RaisesLate.bind {q : Program α} {f : α → Program β} (hq : q.RaisesLate)
    (hf : ∀ a, (f a).RaisesLate) : (q.bind f).RaisesLate := by
  intro e c e' h
  obtain h | ⟨a, e1, -, h⟩ := Program.eval_bind_eq_raised.1 h
  · exact hq e c e' h
  · exact hf a e1 c e' h

/-- The raise that goes on after the handler is the one that was handled (R92). -/
theorem Program.RaisesLate.onRaise {q : Program α} {h : Program Unit} (hq : q.RaisesLate)
    (hh : h.RaisesLate) : (Program.onRaise h q).RaisesLate := by
  intro e c e' hr
  obtain ⟨d, e1, hd, hr⟩ := Program.raised_of_onRaise hr
  exact hh.bind (fun _ => .raise (hq e d e1 hd)) e1 c e' hr

theorem Program.RaisesLate.do_ (m : Engine → Micro) : (Program.do_ m).RaisesLate :=
  .step fun _ _ _ _ => .ret ()

theorem Program.RaisesLate.forEach {f : β → Program Unit} (hf : ∀ b, (f b).RaisesLate)
    (l : List β) : (Program.forEach f l).RaisesLate := by
  induction l with
  | nil => exact .ret ()
  | cons b rest ih => exact (hf b).bind fun _ => ih

/-! ### The parts of the commands -/

variable {s : Nat}

theorem getCtx_raisesLate : (getCtx s).RaisesLate := .step fun _ _ _ _ => .ret _

theorem setCtx_raisesLate (f : Ctx → Ctx) : (setCtx s f).RaisesLate := .do_ _

theorem memRead_raisesLate (a n : Nat) : (memRead a n).RaisesLate := fun _ _ _ h =>
  absurd h memRead_not_raised

theorem memWrite_raisesLate (a : Nat) (l : List Byte) : (memWrite a l).RaisesLate := by
  induction l generalizing a with
  | nil => exact .ret ()
  | cons b rest ih => exact .step fun _ _ _ _ => ih (a + 1)

theorem multBufIf_raisesLate (c : Bool) : (multBufIf s c).RaisesLate := by
  cases c
  · exact .ret ()
  · exact .do_ _

theorem guardFail_raisesLate {c : Cause} (hc : causeClass c = .hardwareFailure) :
    (guardFail s c : Program α).RaisesLate := .step fun _ _ _ _ => .raise (.inl hc)

theorem guardClose_raisesLate (r : List Byte) : (guardClose s r).RaisesLate := by
  refine .step fun e e' rep h => ?_
  split
  · next hc => exact guardFail_raisesLate (failsByHardware_suspend e e' rep _ h hc)
  · exact .step fun _ _ _ _ => .step fun _ _ _ _ => .ret r

theorem guardBody_raisesLate (body : List PortCall) (r : List Byte) :
    (guardBody s (guardClose s) body r).RaisesLate := by
  induction body generalizing r with
  | nil => exact guardClose_raisesLate r
  | cons call rest ih =>
    refine .step fun e e' rep h => ?_
    split
    · next hc => exact guardFail_raisesLate (failsByHardware_portCall call e e' rep _ h hc)
    · exact ih _

/-- A section raises what the operation that fails replies (R86). -/
theorem guardSection_raisesLate (body : List PortCall) : (guardSection s body).RaisesLate := by
  refine .step fun _ _ _ _ => .step fun e e' rep h => ?_
  split
  · next hc => exact guardFail_raisesLate (failsByHardware_resumeOwn e e' rep _ h hc)
  · exact guardBody_raisesLate body []

theorem setkeyPart_raisesLate (p : Params) (o : SetkeyOperands) :
    (setkeyPart p s o).RaisesLate := by
  unfold setkeyPart
  split
  · exact (memRead_raisesLate _ _).bind fun _ => (setCtx_raisesLate _).bind fun _ =>
      (guardSection_raisesLate _).bind fun _ => setCtx_raisesLate _
  · exact (memRead_raisesLate _ _).bind fun _ => (setCtx_raisesLate _).bind fun _ =>
      (guardSection_raisesLate _).bind fun _ => .bind (.do_ _) fun _ => setCtx_raisesLate _

theorem startsPart_raisesLate (p : Params) (dir : Direction) (iv : W64) :
    (startsPart p s dir iv).RaisesLate := by
  unfold startsPart
  split
  · exact (memRead_raisesLate _ _).bind fun _ => (setCtx_raisesLate _).bind fun _ =>
      getCtx_raisesLate.bind fun _ => (guardSection_raisesLate _).bind fun _ => .ret ()
  · exact (memRead_raisesLate _ _).bind fun _ => (setCtx_raisesLate _).bind fun _ =>
      getCtx_raisesLate.bind fun _ => (guardSection_raisesLate _).bind fun _ =>
      setCtx_raisesLate _

theorem updateAdPart_raisesLate (p : Params) (aad n : W64) :
    (updateAdPart p s aad n).RaisesLate := by
  unfold updateAdPart
  split
  · exact setCtx_raisesLate _
  · exact (setCtx_raisesLate _).bind fun _ => getCtx_raisesLate.bind fun _ =>
      .forEach (fun _ => (memRead_raisesLate _ _).bind fun _ => (setCtx_raisesLate _).bind fun _ =>
        multBufIf_raisesLate _) _

theorem hwPass_raisesLate (call : PortCall) : (hwPass s call).RaisesLate := by
  refine getCtx_raisesLate.bind fun x => ?_
  split
  · exact (memRead_raisesLate _ _).bind fun _ => (guardSection_raisesLate _).bind fun _ =>
      (setCtx_raisesLate _).bind fun _ => .ret _
  · exact guardSection_raisesLate _

/-- The aligned prefix and the remainder are passes of one shape (R78). -/
theorem updatePartA_raisesLate (input n output : W64) :
    (updatePartA s input n output).RaisesLate := by
  refine (setCtx_raisesLate _).bind fun _ => .bind ?aligned fun _ => ?remainder
  all_goals
    split
    · exact .ret ()
    · exact (memRead_raisesLate _ _).bind fun _ => (hwPass_raisesLate _).bind fun _ =>
        (memWrite_raisesLate _ _).bind fun _ => .bind (.do_ _) fun _ => setCtx_raisesLate _

theorem payloadPieceB_raisesLate (policy : PartialPolicy) (input output : Nat) (q : Piece) :
    (payloadPieceB policy s input output q).RaisesLate := by
  refine .bind ?_ fun _ => getCtx_raisesLate.bind fun _ => (guardSection_raisesLate _).bind fun _ =>
    (memRead_raisesLate _ _).bind fun _ => (setCtx_raisesLate _).bind fun _ =>
    (memWrite_raisesLate _ _).bind fun _ => (setCtx_raisesLate _).bind fun _ =>
    multBufIf_raisesLate _
  split
  · exact .do_ _
  · exact .ret ()

theorem updatePartB_raisesLate (policy : PartialPolicy) (input n output : W64) :
    (updatePartB policy s input n output).RaisesLate := by
  refine getCtx_raisesLate.bind fun x => .bind ?_ fun _ =>
    .forEach (payloadPieceB_raisesLate policy _ _) _
  split
  · exact .ret ()
  · exact .bind (.do_ _) fun _ => setCtx_raisesLate _

theorem updatePart_raisesLate (p : Params) (input n output : W64) :
    (updatePart p s input n output).RaisesLate := by
  unfold updatePart
  split
  · exact updatePartA_raisesLate input n output
  · exact updatePartB_raisesLate p.policy input n output

theorem finishTag_raisesLate (p : Params) : (finishTag p s).RaisesLate := by
  unfold finishTag
  split
  · exact getCtx_raisesLate.bind fun _ => hwPass_raisesLate _
  · refine getCtx_raisesLate.bind fun x => .bind ?_ fun _ => (setCtx_raisesLate _).bind fun _ =>
      .bind (.do_ _) fun _ => getCtx_raisesLate.bind fun _ => .ret _
    split
    · exact multBufIf_raisesLate _
    · exact .do_ _

theorem finishPart_raisesLate (p : Params) (tagOut tagLen : W64) :
    (finishPart p s tagOut tagLen).RaisesLate :=
  (finishTag_raisesLate p).bind fun _ => (memWrite_raisesLate _ _).bind fun _ =>
    setCtx_raisesLate _

/-- The one raise that no port operation has replied: a wrong tag (R92). -/
theorem verifyPart_raisesLate (o : CompositeOperands) (t : List Byte) :
    (verifyPart s o t).RaisesLate := by
  refine (setCtx_raisesLate _).bind fun _ => (memRead_raisesLate _ _).bind fun _ =>
    .step fun _ _ r _ => ?_
  split
  · exact .ret _
  · exact (memWrite_raisesLate _ _).bind fun _ => .raise (.inr rfl)

/-! ### The commands -/

/-- The micro-steps of a command raise no cause of a check (R97 to R99). -/
theorem command_raisesLate {i : Instr} {cmd : Command} (hi : commandOf i = some cmd) (p : Params)
    (a : Args) : (cmd.body p s a).RaisesLate := by
  cases i <;> simp only [commandOf, Option.some.injEq, reduceCtorEq] at hi <;> subst hi
  case init => exact .bind (fun _ _ _ h => absurd h initBody_not_raised) fun _ => .ret _
  case free => exact .bind (fun _ _ _ h => absurd h freeBody_not_raised) fun _ => .ret _
  case setkey => exact (setkeyPart_raisesLate p _).bind fun _ => .ret _
  case starts dir => exact (startsPart_raisesLate p dir _).bind fun _ => .ret _
  case updateAd => exact (updateAdPart_raisesLate p _ _).bind fun _ => .ret _
  case update => exact (updatePart_raisesLate p _ _ _).bind fun _ => .ret _
  case finish => exact (finishPart_raisesLate p _ _).bind fun _ => .ret _
  case cryptAndTag dir =>
    exact (startsPart_raisesLate p dir _).bind fun _ =>
      (updateAdPart_raisesLate p _ _).bind fun _ =>
      (updatePart_raisesLate p _ _ _).bind fun _ => (finishPart_raisesLate p _ _).bind fun _ =>
      .ret _
  case authDecrypt =>
    rw [authDecryptCommand_body]
    exact (startsPart_raisesLate p .dec _).bind fun _ =>
      (updateAdPart_raisesLate p _ _).bind fun _ =>
      .bind (.onRaise ((updatePart_raisesLate p _ _ _).bind fun _ => finishTag_raisesLate p)
        (memWrite_raisesLate _ _)) fun _ => verifyPart_raisesLate _ _

end

/-! ### The status of a rejection -/

/-- The low four bits of a status word are its class (R93). -/
theorem statusWord_and_class (c : Cause) :
    statusWord c &&& 0xF = statusClassCode (causeClass c) := by
  cases c <;> rfl

/-- A command is rejected with the status of its first failing check (R97, R101). -/
theorem exec_rejected_of_check {i : Instr} {cmd : Command} {st : State} {c : Cause}
    (hi : commandOf i = some cmd) (hidle : st.Idle)
    (hc : cmd.check st.eng.params st.own st.args = some c) :
    exec i st = .next (st.rejected i (statusWord c)) := by
  obtain ⟨-, -, hclass⟩ := statusWord_of_check hi hc
  rw [exec_command hi]
  exact runCommand_rejected hidle hc hclass

/-- A command that has ended with one of the two classes of a rejection is one with a failing check,
whose status it reports. -/
theorem exists_check_of_exec_rejected {i : Instr} {cmd : Command} {st t : State}
    (hi : commandOf i = some cmd) (hidle : st.Idle) (h : exec i st = .next t)
    (hdone : t.inFlight st.cur = none)
    (hstatus : (t.mailbox st.cur).status &&& 0xF = 1 ∨ (t.mailbox st.cur).status &&& 0xF = 2) :
    ∃ c, cmd.check st.eng.params st.own st.args = some c ∧
      (t.mailbox st.cur).status = statusWord c := by
  have hmbox : st.cur < st.mbox.length := hidle.lt_mbox
  have hrun : st.cur < st.run.length := by rw [hidle.shaped.run]; exact hidle.exists_
  rw [exec_command hi] at h
  obtain ⟨-, -, ⟨c, hc, rfl⟩ | ⟨-, ⟨out, e, -, rfl⟩ | ⟨c, e, he, rfl⟩ | ⟨l, e, -, rfl⟩⟩⟩ :=
    runCommand_next h
  · exact ⟨c, hc, State.raise_status i st.own c hmbox⟩
  · rw [State.completeOk_status (st := { st with eng := e }) out hmbox] at hstatus
    exact absurd hstatus (by decide)
  · rw [State.raise_status (st := { st with eng := e }) i st.own c hmbox,
      statusWord_and_class] at hstatus
    rcases command_raisesLate hi _ _ _ _ _ he with hclass | hclass <;> rw [hclass] at hstatus <;>
      exact absurd hstatus (by decide)
  · rw [State.inFlight_setRun_self { st with eng := e } _ _ hrun] at hdone
    cases hdone

/-- Settles O29: a failed check is a rejection (`exec_rejected_of_check`); and since the micro-steps
raise no cause of these classes (`command_raisesLate`), a command that ends with one has failed a
check. -/
theorem rejectionChangesStatusOnly : Obligations.RejectionChangesStatusOnly := by
  refine ⟨fun i cmd st c hi hidle hc => ⟨exec_rejected_of_check hi hidle hc, ?_⟩,
    fun i cmd st t hi hidle h hdone hstatus => ?_⟩
  · rw [statusWord_and_class]
    rcases check_class hi hc with hclass | hclass <;> rw [hclass]
    · exact .inl rfl
    · exact .inr rfl
  · obtain ⟨c, hc, hword⟩ := exists_check_of_exec_rejected hi hidle h hdone hstatus
    rw [hword]
    exact Host.Outcome.next.inj (h.symm.trans (exec_rejected_of_check hi hidle hc))

end Sys2Proof.Machine
end

section
/-! A reset event (70_reset_and_hazards.md R109): what the registers and the commands in execution of
each session are after it. -/

namespace Sys2Proof.Machine

@[simp] theorem resetMachine_mbox_length (st : State) :
    (resetMachine st).mbox.length = st.eng.params.nSessions := by simp [resetMachine]

theorem resetMachine_mailbox_of_lt {st : State} {s : Nat} (hs : s < st.eng.params.nSessions) :
    (resetMachine st).mailbox s = resetMailbox st.eng.fresh s := by
  simp [State.mailbox, resetMachine, hs]

/-- A session that does not exist has the mailbox of power-on. -/
theorem resetMachine_mailbox_of_le {st : State} {s : Nat} (hs : st.eng.params.nSessions ≤ s) :
    (resetMachine st).mailbox s = Mailbox.reset :=
  List.getD_eq_default _ _ ((resetMachine_mbox_length st).trans_le hs)

/-- The free values of a reset event are `ARG` and `OUT_LEN` only (log 20). -/
@[simp] theorem resetMachine_mailbox_status (st : State) (s : Nat) :
    ((resetMachine st).mailbox s).status = 0 := by
  rcases lt_or_ge s st.eng.params.nSessions with hs | hs
  · rw [resetMachine_mailbox_of_lt hs]
    rfl
  · rw [resetMachine_mailbox_of_le hs]
    rfl

/-- A command in execution is abandoned (R109). -/
@[simp] theorem resetMachine_inFlight (st : State) (s : Nat) :
    (resetMachine st).inFlight s = none := State.resetWith_inFlight st.eng.params s

/-- Settles O6: the next state is `resetMachine` of the rest of the script, whose engine is the
engine of reset but for memory and what is not the hardware's. -/
theorem resetEvent : Obligations.ResetEvent := fun _ _ hp hb =>
  ⟨_, step_reset hp hb, rfl, resetMachine_mailbox_status _, resetMachine_inFlight _,
    resetMachine_mbox_length _, rfl⟩

end Sys2Proof.Machine
end
